-- ==== Sys2Proof/Word.lean ====
section
/-! DEFINITION. The words of GMSKCORE: bytes, 32-bit words, samples and FIFO entries
(00_scope.md R8, R12; 30_encoding.md R143, R144). -/

namespace Sys2Proof

/-- A byte of a payload window or of a frame (00_scope.md R11). -/
abbrev Byte := BitVec 8

/-- A register or a bus data word (00_scope.md R8). -/
abbrev Word := BitVec 32

/-- A complex sample: two signed 16-bit components in Q1.15 (00_scope.md R12). -/
structure Sample where
  i : BitVec 16
  q : BitVec 16
deriving DecidableEq, Repr, Inhabited

/-- `ZERO`, silence (00_scope.md R12). -/
abbrev Sample.zero : Sample := ⟨0#16, 0#16⟩

/-- A tagged sample: a FIFO entry (00_scope.md R12, 30_encoding.md R144). -/
structure Tagged where
  sample : Sample
  last : Bool
deriving DecidableEq, Repr, Inhabited

end Sys2Proof
end

