-- ==== Sys2Proof/Syntax.lean ====
section
/-! DEFINITION. The operations that drive the block (00_scope.md R3): one constructor for each row of
spec/opcode_table.json, and the form in which an operation arrives at the block's boundary. -/

namespace Sys2Proof

/-- The SIZE field of a bus transaction (30_encoding.md R140). -/
inductive AccessSize where
  | byte | half | word | reserved
deriving DecidableEq, Repr

/-- The operations, one constructor for each row of spec/opcode_table.json. A row that narrows another carries only
the fields its pattern leaves open; a read carries no WDATA, which R140 says is ignored for a read. -/
inductive Instr where
  /-- MEM_READ (R180): a read that no narrower row takes -/
  | memRead (size : AccessSize) (addr : BitVec 14)
  /-- MEM_WRITE (R181): a write that no narrower row takes -/
  | memWrite (size : AccessSize) (addr : BitVec 14) (wdata : Word)
  /-- MEM_READ CSR register (R182): a 4-byte read at an offset of the CSR page -/
  | memReadCsr (off : BitVec 12)
  /-- MEM_WRITE IRQ_STATUS (R184) -/
  | memWriteIrqStatus (wdata : Word)
  /-- MEM_WRITE IRQ_ENABLE (R185) -/
  | memWriteIrqEnable (wdata : Word)
  /-- MEM_WRITE CFG register (R186): a 4-byte write at 0x040 + off -/
  | memWriteCfg (off : BitVec 6) (wdata : Word)
  /-- MEM_WRITE RO register or RXBUF (R187) -/
  | memWriteRo (size : AccessSize) (addr : BitVec 14) (wdata : Word)
  /-- MEM_WRITE TXBUF (R188): at 0x1000 + off -/
  | memWriteTxbuf (size : AccessSize) (off : BitVec 12) (wdata : Word)
  /-- MEM_READ TXBUF (R189): at 0x1000 + off -/
  | memReadTxbuf (size : AccessSize) (off : BitVec 12)
  /-- MEM_READ RXBUF (R190): at 0x2000 + off -/
  | memReadRxbuf (size : AccessSize) (off : BitVec 12)
  /-- CMD NOP (R220) -/
  | cmdNop (arg : BitVec 24)
  /-- CMD START_TX (R221) -/
  | cmdStartTx (arg : BitVec 24)
  /-- CMD START_RX (R222) -/
  | cmdStartRx (arg : BitVec 24)
  /-- CMD STOP (R223) -/
  | cmdStop (arg : BitVec 24)
  /-- CMD TX_COMMIT (R224): LEN and the reserved bits [31:24] -/
  | cmdTxCommit (len : BitVec 16) (rsvd : BitVec 8)
  /-- CMD TX_EOS (R225) -/
  | cmdTxEos (arg : BitVec 24)
  /-- CMD RXQ_POP (R226) -/
  | cmdRxqPop (arg : BitVec 24)
  /-- CMD CLEAR_STATS (R227) -/
  | cmdClearStats (arg : BitVec 24)
  /-- CMD CLEAR_ERR (R228) -/
  | cmdClearErr (arg : BitVec 24)
  /-- CMD SOFT_RESET (R229) -/
  | cmdSoftReset (arg : BitVec 24)
  /-- CMD reserved opcodes 0x0A to 0xFF (R230) -/
  | cmdReserved (opc : BitVec 8) (arg : BitVec 24)
  /-- RADIO_POP N (R264) -/
  | radioPop (n : Nat)
  /-- RADIO_PUSH ws (R265) -/
  | radioPush (ws : List Word)
  /-- RADIO_FAULT (R479) -/
  | radioFault
  /-- PIN_STOP_ALL LEVEL (R478) -/
  | pinStopAll (level : Bool)
  /-- TX_STEP (R381) -/
  | txStep
  /-- RX_STEP (R440) -/
  | rxStep
deriving DecidableEq, Repr

/-- What travels beside the OP number on the radio and pin port (30_encoding.md R145). The spec gives these operands
no bits; DESIGN CHOICE (log 3): a count travels as N - 1 and a list as its first word and the rest, so that the N = 0
and the empty list that R145 refuses have no form. -/
inductive PortOperand where
  | none
  /-- N - 1 of a pop -/
  | count (more : Nat)
  /-- the sample words of a push -/
  | samples (first : Word) (rest : List Word)
  /-- the level of the stop-all pin -/
  | level (high : Bool)
deriving DecidableEq, Repr

/-- One operation as it arrives at the block: on the bus, on the port, or as an engine step that the schedule takes
(30_encoding.md R140, R145, R151). A bus descriptor is held in the seven bytes its 49 bits need. -/
inductive Wire where
  | bus (txn : BitVec 56)
  | port (op : BitVec 2) (operand : PortOperand)
  | stepTx
  | stepRx
deriving DecidableEq, Repr

/-- Why the decoder rejects what arrived. -/
inductive DecodeError where
  /-- a bus descriptor with a bit set above bit 48: R140's descriptor has 49 bits -/
  | descriptorTooWide
  /-- a port operation with an operand that is not the one R145 gives it -/
  | portOperandShape
deriving DecidableEq, Repr

end Sys2Proof
end

