-- ==== Sys2Proof/Machine/RegMap.lean ====
section
/-! DEFINITION. The register map of 10_state.md R22: names, offsets and access kinds, and the regions of
20_memory.md R100. -/

namespace Sys2Proof

/-- The registers of 10_state.md R22. -/
inductive Reg where
  | id | version | paramFifoCap | paramMisc | cmd | status | err | irqStatus | irqEnable
  | cfgSampleRate | cfgBitRate | cfgFreqOffset | cfgBt | cfgCoding | cfgId | cfgTimeout | cfgMaxPayload
  | cfgDetThresh | cfgDump
  | txFrameCnt | txPendLen | fifoLevel
  | underrunEvents | underrunSamples | overrunEvents | overrunSamples
  | rxFrames | rxHdrBad | rxPayBad | rxIdMismatch | rxDelivered | rxLenErr
  | idleCntLo | idleCntHi | syncStatus
  | lastHdrId | lastHdrCnt | lastLen | lastFlags
  | rxqCount | rxqHdrId | rxqHdrCnt | rxqLen | rxqFlags
deriving DecidableEq, Repr

/-- The access kinds of 10_state.md R22. -/
inductive RegAccess where
  | ro | wo | rw | w1c | rwIdle
deriving DecidableEq, Repr

namespace Machine

/-- Identification, control and status registers (10_state.md R22). -/
def regTableControl : List (Nat × Reg) :=
  [(0x000, Reg.id), (0x004, Reg.version), (0x008, Reg.paramFifoCap), (0x00C, Reg.paramMisc), (0x010, Reg.cmd),
   (0x014, Reg.status), (0x018, Reg.err), (0x01C, Reg.irqStatus), (0x020, Reg.irqEnable)]

/-- The configuration registers (10_state.md R22). -/
def regTableCfg : List (Nat × Reg) :=
  [(0x040, Reg.cfgSampleRate), (0x044, Reg.cfgBitRate), (0x048, Reg.cfgFreqOffset), (0x04C, Reg.cfgBt),
   (0x050, Reg.cfgCoding), (0x054, Reg.cfgId), (0x058, Reg.cfgTimeout), (0x05C, Reg.cfgMaxPayload),
   (0x060, Reg.cfgDetThresh), (0x064, Reg.cfgDump)]

/-- Transmit status and statistics (10_state.md R22). -/
def regTableStats : List (Nat × Reg) :=
  [(0x080, Reg.txFrameCnt), (0x084, Reg.txPendLen), (0x088, Reg.fifoLevel),
   (0x090, Reg.underrunEvents), (0x094, Reg.underrunSamples), (0x098, Reg.overrunEvents),
   (0x09C, Reg.overrunSamples), (0x0A0, Reg.rxFrames), (0x0A4, Reg.rxHdrBad), (0x0A8, Reg.rxPayBad),
   (0x0AC, Reg.rxIdMismatch), (0x0B0, Reg.rxDelivered), (0x0B4, Reg.rxLenErr), (0x0B8, Reg.idleCntLo),
   (0x0BC, Reg.idleCntHi), (0x0C0, Reg.syncStatus)]

/-- The last report and the RX output queue (10_state.md R22). -/
def regTableRx : List (Nat × Reg) :=
  [(0x0D0, Reg.lastHdrId), (0x0D4, Reg.lastHdrCnt), (0x0D8, Reg.lastLen), (0x0DC, Reg.lastFlags),
   (0x0E0, Reg.rxqCount), (0x0E4, Reg.rxqHdrId), (0x0E8, Reg.rxqHdrCnt), (0x0EC, Reg.rxqLen),
   (0x0F0, Reg.rxqFlags)]

/-- Every register with its offset, in the order of 10_state.md R22. -/
def regTable : List (Nat × Reg) := regTableControl ++ regTableCfg ++ regTableStats ++ regTableRx

/-- The register at a byte offset of the CSR page, if the map lists that offset. -/
def regAt (off : Nat) : Option Reg := (regTable.find? (fun e => e.1 == off)).map (·.2)

/-- A register's access kind (10_state.md R22). -/
def regAccess : Reg → RegAccess
  | .cmd => .wo
  | .irqStatus => .w1c
  | .irqEnable => .rw
  | .cfgSampleRate | .cfgBitRate | .cfgFreqOffset | .cfgBt | .cfgCoding | .cfgId | .cfgTimeout
  | .cfgMaxPayload | .cfgDetThresh | .cfgDump => .rwIdle
  | _ => .ro

/-- The offset is that of a read-only register (20_memory.md R107). -/
def isRoOffset (off : Nat) : Bool := ((regAt off).map regAccess) == some .ro

/-- The end of the CSR page (20_memory.md R100). -/
def csrEnd : Nat := 0x1000

/-- First bus byte of TXBUF (20_memory.md R100). -/
def txbufBase : Nat := 0x1000

/-- First bus byte of RXBUF (20_memory.md R100). -/
def rxbufBase : Nat := 0x2000

end Machine
end Sys2Proof
end

