-- ==== Sys2Proof/WellFormed.lean ====
section
/-! DEFINITION. Which terms of `Instr` stand for an operation of their own row: a term is well formed if the encoding
has exactly that operation for some descriptor or port operation (30_encoding.md R140 to R152, opcode_table.json). -/

namespace Sys2Proof

/-- The page of a bus address, ADDR[13:12] (20_memory.md R100). -/
def page (addr : BitVec 14) : BitVec 2 := addr.extractLsb' 12 2

/-- A read that no narrower row takes: not a window page, and not a 4-byte CSR read. -/
def readIsGeneric (size : AccessSize) (addr : BitVec 14) : Bool :=
  (page addr == 0#2 && size != .word) || page addr == 3#2

/-- A 4-byte CSR write that some narrower row takes: CMD, IRQ_STATUS, IRQ_ENABLE, the CFG block 0x040 to 0x07F, or a
read-only register. -/
def csrWriteHasRow (addr : BitVec 14) : Bool :=
  addr == 0x010#14 || addr == 0x01C#14 || addr == 0x020#14 || addr.extractLsb' 6 8 == 1#8 ||
  Machine.isRoOffset addr.toNat

/-- A write that no narrower row takes. -/
def writeIsGeneric (size : AccessSize) (addr : BitVec 14) : Bool :=
  (page addr == 0#2 && (size != .word || !csrWriteHasRow addr)) || page addr == 3#2

/-- A write the row "RO register or RXBUF" takes: the RXBUF page, or a 4-byte write at a read-only register. -/
def writeIsRo (size : AccessSize) (addr : BitVec 14) : Bool :=
  page addr == 2#2 || (size == .word && Machine.isRoOffset addr.toNat)

/-- The term stands for an operation of its own row. -/
def Instr.wellFormed : Instr → Bool
  | .memRead size addr => readIsGeneric size addr
  | .memWrite size addr _ => writeIsGeneric size addr
  | .memWriteRo size addr _ => writeIsRo size addr
  | .cmdReserved opc _ => decide (0x0A ≤ opc.toNat)
  | .radioPop n => decide (1 ≤ n)
  | .radioPush ws => !ws.isEmpty
  | .memReadCsr _ | .memWriteIrqStatus _ | .memWriteIrqEnable _ | .memWriteCfg _ _ | .memWriteTxbuf _ _ _
  | .memReadTxbuf _ _ | .memReadRxbuf _ _ | .cmdNop _ | .cmdStartTx _ | .cmdStartRx _ | .cmdStop _
  | .cmdTxCommit _ _ | .cmdTxEos _ | .cmdRxqPop _ | .cmdClearStats _ | .cmdClearErr _ | .cmdSoftReset _
  | .radioFault | .pinStopAll _ | .txStep | .rxStep => true

end Sys2Proof
end

