-- ==== Sys2Proof/Decode.lean ====
section
/-! DEFINITION. The decoder, total on everything that can arrive, and after it the encoder (30_encoding.md R140 to
R152). A descriptor is the instruction of the narrowest row of opcode_table.json whose pattern it meets (DEDUCED,
log 4): the rows overlap, and R152 gives one operation to each descriptor. SIZE = 3 is kept in the instruction and
raises BUS_WIDTH before every other check (R152). -/

namespace Sys2Proof

/-- SIZE (R140). -/
def AccessSize.ofBits (b : BitVec 2) : AccessSize :=
  if b = 0#2 then .byte else if b = 1#2 then .half else if b = 2#2 then .word else .reserved

/-- SIZE (R140). -/
def AccessSize.toBits : AccessSize → BitVec 2
  | .byte => 0#2
  | .half => 1#2
  | .word => 2#2
  | .reserved => 3#2

/-- The command word {ARG, OPC} (R141, R142). -/
def decodeCmd (w : Word) : Instr :=
  let opc := w.extractLsb' 0 8
  let arg := w.extractLsb' 8 24
  if opc = 0x00#8 then .cmdNop arg
  else if opc = 0x01#8 then .cmdStartTx arg
  else if opc = 0x02#8 then .cmdStartRx arg
  else if opc = 0x03#8 then .cmdStop arg
  else if opc = 0x04#8 then .cmdTxCommit (w.extractLsb' 8 16) (w.extractLsb' 24 8)
  else if opc = 0x05#8 then .cmdTxEos arg
  else if opc = 0x06#8 then .cmdRxqPop arg
  else if opc = 0x07#8 then .cmdClearStats arg
  else if opc = 0x08#8 then .cmdClearErr arg
  else if opc = 0x09#8 then .cmdSoftReset arg
  else .cmdReserved opc arg

/-- A descriptor with WRITE = 0 (R152): the row of a read. -/
def decodeRead (size : AccessSize) (addr : BitVec 14) : Instr :=
  if page addr = 1#2 then .memReadTxbuf size (addr.extractLsb' 0 12)
  else if page addr = 2#2 then .memReadRxbuf size (addr.extractLsb' 0 12)
  else if page addr = 0#2 ∧ size = .word then .memReadCsr (addr.extractLsb' 0 12)
  else .memRead size addr

/-- A descriptor with WRITE = 1 (R152): the row of a write, the command path among them. -/
def decodeWrite (size : AccessSize) (addr : BitVec 14) (wdata : Word) : Instr :=
  if page addr = 1#2 then .memWriteTxbuf size (addr.extractLsb' 0 12) wdata
  else if page addr = 2#2 then .memWriteRo size addr wdata
  else if page addr = 0#2 ∧ size = .word then
    if addr = 0x010#14 then decodeCmd wdata
    else if addr = 0x01C#14 then .memWriteIrqStatus wdata
    else if addr = 0x020#14 then .memWriteIrqEnable wdata
    else if addr.extractLsb' 6 8 = 1#8 then .memWriteCfg (addr.extractLsb' 0 6) wdata
    else if Machine.isRoOffset addr.toNat then .memWriteRo size addr wdata
    else .memWrite size addr wdata
  else .memWrite size addr wdata

/-- The 49-bit descriptor TXN = {WRITE[48], SIZE[47:46], ADDR[45:32], WDATA[31:0]} (R140), total (R152). -/
def decodeTxn (txn : BitVec 49) : Instr :=
  let size := AccessSize.ofBits (txn.extractLsb' 46 2)
  let addr := txn.extractLsb' 32 14
  if txn.getLsbD 48 then decodeWrite size addr (txn.extractLsb' 0 32) else decodeRead size addr

/-- The port operations (R145). -/
def decodePort (op : BitVec 2) (operand : PortOperand) : Except DecodeError Instr :=
  match operand with
  | .count more => if op = 0#2 then .ok (.radioPop (more + 1)) else .error .portOperandShape
  | .samples w ws => if op = 1#2 then .ok (.radioPush (w :: ws)) else .error .portOperandShape
  | .none => if op = 2#2 then .ok .radioFault else .error .portOperandShape
  | .level high => if op = 3#2 then .ok (.pinStopAll high) else .error .portOperandShape

/-- The decoder: what arrived, or the name of why it is no operation. -/
def decode : Wire → Except DecodeError Instr
  | .bus d => if d.extractLsb' 49 7 = 0#7 then .ok (decodeTxn (d.extractLsb' 0 49)) else .error .descriptorTooWide
  | .port op operand => decodePort op operand
  | .stepTx => .ok .txStep
  | .stepRx => .ok .rxStep

/-! The encoder, from the same formats. -/

/-- TXN of its four fields (R140). -/
def packTxn (write : Bool) (size : AccessSize) (addr : BitVec 14) (wdata : Word) : BitVec 49 :=
  BitVec.ofBool write ++ size.toBits ++ addr ++ wdata

/-- A descriptor in the seven bytes it arrives in. -/
def busWire (txn : BitVec 49) : Wire := .bus (0#7 ++ txn)

/-- The command path: a 4-byte write of {ARG, OPC} to 0x010 (R141, R152). -/
def cmdWire (arg : BitVec 24) (opc : BitVec 8) : Wire := busWire (packTxn true .word 0x010#14 (arg ++ opc))

/-- The wire form of an operation. For a well-formed one, `decode` reads it back. -/
def encode : Instr → Wire
  | .memRead size addr => busWire (packTxn false size addr 0#32)
  | .memWrite size addr wdata => busWire (packTxn true size addr wdata)
  | .memReadCsr off => busWire (packTxn false .word (0#2 ++ off) 0#32)
  | .memWriteIrqStatus wdata => busWire (packTxn true .word 0x01C#14 wdata)
  | .memWriteIrqEnable wdata => busWire (packTxn true .word 0x020#14 wdata)
  | .memWriteCfg off wdata => busWire (packTxn true .word (1#8 ++ off) wdata)
  | .memWriteRo size addr wdata => busWire (packTxn true size addr wdata)
  | .memWriteTxbuf size off wdata => busWire (packTxn true size (1#2 ++ off) wdata)
  | .memReadTxbuf size off => busWire (packTxn false size (1#2 ++ off) 0#32)
  | .memReadRxbuf size off => busWire (packTxn false size (2#2 ++ off) 0#32)
  | .cmdNop arg => cmdWire arg 0x00#8
  | .cmdStartTx arg => cmdWire arg 0x01#8
  | .cmdStartRx arg => cmdWire arg 0x02#8
  | .cmdStop arg => cmdWire arg 0x03#8
  | .cmdTxCommit len rsvd => cmdWire (rsvd ++ len) 0x04#8
  | .cmdTxEos arg => cmdWire arg 0x05#8
  | .cmdRxqPop arg => cmdWire arg 0x06#8
  | .cmdClearStats arg => cmdWire arg 0x07#8
  | .cmdClearErr arg => cmdWire arg 0x08#8
  | .cmdSoftReset arg => cmdWire arg 0x09#8
  | .cmdReserved opc arg => cmdWire arg opc
  | .radioPop n => .port 0#2 (.count (n - 1))
  | .radioPush [] => .port 1#2 .none
  | .radioPush (w :: ws) => .port 1#2 (.samples w ws)
  | .radioFault => .port 2#2 .none
  | .pinStopAll level => .port 3#2 (.level level)
  | .txStep => .stepTx
  | .rxStep => .stepRx

/-- The wire form of a word numbered as opcode_table.json numbers its rows. A row of at most 8 bits is a PORT row: OP in
bits [1:0], and above it the operand (DESIGN CHOICE, log 3): N - 1 for a pop, one sample word for a push, LEVEL in bit 2.
A wider row is a BUS or CMD descriptor in its seven bytes. -/
def tableWire (nbits w : Nat) : Wire :=
  if nbits ≤ 8 then
    let op := BitVec.ofNat 2 w
    if op = 0#2 then .port op (.count (w / 4))
    else if op = 1#2 then .port op (.samples (BitVec.ofNat 32 (w / 4)) [])
    else if op = 2#2 then .port op (if w / 4 = 0 then .none else .count (w / 4))
    else .port op (if w / 4 ≤ 1 then .level (w / 4 == 1) else .count (w / 4))
  else .bus (BitVec.ofNat 56 w)

/-- The instruction the decoder reads from a table word; none where it rejects it. -/
def decodeTableWord (nbits w : Nat) : Option Instr :=
  match decode (tableWire nbits w) with
  | .ok i => some i
  | .error _ => none

end Sys2Proof
end

