-- ==== Sys2Proof/Config.lean ====
section
/-! DEFINITION. What an implementation fixes: the parameters of 00_scope.md R7, the DSP kernels of
43_pipeline.md R290, the values the spec leaves open, and the properties R291 assumes of the kernels.
Every `opaque` here is a free value: it has no body, so nothing can be proved of which value it is. -/

namespace Sys2Proof

/-- The implementation parameters (00_scope.md R7). PREAMBLE_LEN is fixed at 63 by D17 and is not a field. -/
structure Params where
  /-- `SPS`, samples per symbol in the modem domain. -/
  sps : Nat
  /-- `FIFO_CAP`, entries of the sample FIFO. -/
  fifoCap : Nat
  /-- `MAX_PAYLOAD_HW`, bytes of TXBUF and of a record's payload slot. -/
  maxPayloadHw : Nat
  /-- `RXQ_DEPTH`, records of the RX output queue. -/
  rxqDepth : Nat
  /-- `BLOCK_SYMS`, symbols of a generator block. -/
  blockSyms : Nat
  /-- `PRE_RX_SYMS`, preamble symbols RX_PREAMBLE counts. -/
  preRxSyms : Nat
  /-- `TAIL_LEN`, zero symbols after the payload. -/
  tailLen : Nat
  /-- `FLUSH_LEN`, zero samples of the final flush. -/
  flushLen : Nat
  /-- `NORM_LIMIT`, the peak limit of TX normalisation. -/
  normLimit : Nat
  /-- `DET_THRESH_RESET`, the reset value of CFG_DET_THRESH. -/
  detThreshReset : BitVec 16
  /-- `HW_VERSION`, the VERSION register. -/
  hwVersion : Word
  /-- `HAS_DUMP`, whether the dump port exists. -/
  hasDump : Bool
deriving DecidableEq, Repr

/-- The legal ranges of 00_scope.md R7, as a Bool that runs. -/
def Params.legal (p : Params) : Bool :=
  decide (2 ≤ p.sps) && decide (1 ≤ p.fifoCap) && decide (1 ≤ p.maxPayloadHw) &&
  decide (p.maxPayloadHw ≤ 4096) && decide (1 ≤ p.rxqDepth) && decide (1 ≤ p.blockSyms) &&
  decide (1 ≤ p.preRxSyms) && decide (p.preRxSyms ≤ 255) && decide (p.tailLen ≤ 255) &&
  decide (1 ≤ p.normLimit) && decide (p.normLimit ≤ 32767) && decide (p.detThreshReset ≠ 0#16)

/-- What the detector reports at an acquisition (43_pipeline.md R290, `Acq`). -/
structure Acq where
  /-- coarse carrier frequency offset -/
  cfo : Int
  /-- fractional timing offset -/
  tau : Int
  /-- the buffered modem samples the tracker must still process -/
  replay : List Sample
deriving DecidableEq, Repr, Inhabited

/-- Kernel states (43_pipeline.md R290, the types `ModS`, `RsS`, `FltS`, `DetS`, `TrkS`), each numbered by Nat.
DEDUCED (log 8): a kernel is hardware with finitely many bits, so its states can be numbered; safe. -/
abbrev ModS := Nat
abbrev RsS := Nat
abbrev FltS := Nat
abbrev DetS := Nat
abbrev TrkS := Nat

namespace Config

/-- VERSION's value: OPEN (10_state.md R24, U6; log 7). -/
opaque hwVersion : Word

/-- The bound of P_OFFSET: OPEN (43_pipeline.md R291, U5; log 7). -/
opaque foffBound : Nat

/-- The byte a reset draws for TXBUF (10_state.md R58, U1; log 9): of the count of resets and the bus byte address. -/
opaque txbufDraw : Nat → Nat → Byte

/-- What a register field of `w` bits shows for a count that does not fit in it, where the spec is silent (log 14). -/
opaque fieldOverflow : (w : Nat) → Nat → BitVec w

/-! The DSP record of 43_pipeline.md R290, one constant a field (log 8). -/

/-- takes BT_MILLI -/
opaque modInit : Nat → ModS
/-- one symbol in, its modem-domain samples out -/
opaque modStep : ModS → Bool → ModS × List Sample
/-- `rsInit num den` -/
opaque rsInit : Nat → Nat → RsS
/-- one input sample, zero or more output samples -/
opaque rsStep : RsS → Sample → RsS × List Sample
/-- the oscillator phasor at a phase -/
opaque cis : Word → Sample
opaque txfInit : FltS
opaque rxfInit : FltS
/-- one sample in, one sample out -/
opaque fltStep : FltS → Sample → FltS × Sample
opaque detInit : DetS
/-- `detStep d thresh x` -/
opaque detStep : DetS → Nat → Sample → DetS × Option Acq
opaque trkInit : TrkS
opaque trkAcquire : TrkS → Acq → TrkS
/-- one modem sample in, a soft symbol out when a symbol period completes -/
opaque trkStep : TrkS → Sample → TrkS × Option Int
/-- the resampler's group delay `rsDelay(num, den)` in input samples (P_RS_DELAY) -/
opaque rsDelay : Nat → Nat → Nat

/-! Running a kernel over a list of samples. -/

/-- the resampler fed a list: its state after, and all its outputs in order -/
def rsRun : RsS → List Sample → RsS × List Sample
  | r, [] => (r, [])
  | r, x :: xs => ((rsRun (rsStep r x).1 xs).1, (rsStep r x).2 ++ (rsRun (rsStep r x).1 xs).2)

/-- the filter fed a list: its outputs in order -/
def fltRun : FltS → List Sample → List Sample
  | _, [] => []
  | f, x :: xs => (fltStep f x).2 :: fltRun (fltStep f x).1 xs

/-- the correlator fed a list at one threshold: what it reported at each sample -/
def detRun (thresh : Nat) : DetS → List Sample → List (Option Acq)
  | _, [] => []
  | d, x :: xs => (detStep d thresh x).2 :: detRun thresh (detStep d thresh x).1 xs

/-- the tracker fed a list: what it returned at each sample -/
def trkRun : TrkS → List Sample → List (Option Int)
  | _, [] => []
  | t, x :: xs => (trkStep t x).2 :: trkRun (trkStep t x).1 xs

/-! The kernel properties of 43_pipeline.md R291 that speak of one kernel. A claim that needs one takes it as a
premise (00_scope.md R9). P_ROUNDTRIP and P_OFFSET, which speak of the whole paths, stand in Machine/Dsp.lean. -/

/-- P_MOD_LEN -/
def PModLen (p : Params) : Prop := ∀ m b, (modStep m b).2.length = p.sps

/-- P_RS_COUNT, for a ratio num/den in lowest terms -/
def PRsCount : Prop :=
  ∀ num den : Nat, 0 < den → Nat.Coprime num den →
    ∀ xs : List Sample, (rsRun (rsInit num den) xs).2.length = xs.length * num / den

/-- P_RS_DELAY: the delay is within FLUSH_LEN, and after `rsDelay` further inputs nothing fed before them shows in
what comes out (DEDUCED reading of "an input's effect has reached the output", log 23). -/
def PRsDelay (p : Params) : Prop :=
  ∀ num den : Nat, 0 < den → Nat.Coprime num den →
    rsDelay num den ≤ p.flushLen ∧
    ∀ xs xs' zs ys : List Sample, xs.length = xs'.length → zs.length = rsDelay num den →
      (rsRun (rsRun (rsInit num den) (xs ++ zs)).1 ys).2 = (rsRun (rsRun (rsInit num den) (xs' ++ zs)).1 ys).2

/-- P_FLT_ZERO -/
def PFltZero : Prop :=
  (∀ n, fltRun txfInit (List.replicate n Sample.zero) = List.replicate n Sample.zero) ∧
  (∀ n, fltRun rxfInit (List.replicate n Sample.zero) = List.replicate n Sample.zero) ∧
  (∀ num den n, ∀ y ∈ (rsRun (rsInit num den) (List.replicate n Sample.zero)).2, y = Sample.zero)

/-- P_DET_SILENT -/
def PDetSilent : Prop :=
  ∀ thresh n, ∀ o ∈ detRun thresh detInit (List.replicate n Sample.zero), o = none

/-- P_TRK_PACE -/
def PTrkPace (p : Params) : Prop :=
  ∀ (t : TrkS) (xs : List Sample),
    (xs.length = 2 * p.sps → 1 ≤ (trkRun t xs).countP Option.isSome) ∧
    (xs.length = p.sps → (trkRun t xs).countP Option.isSome ≤ 2)

end Config

/-- The default parameters of 00_scope.md R7 (log 6). HW_VERSION has none: it is the free value (log 7). -/
def Params.default : Params :=
  { sps := 2, fifoCap := 65536, maxPayloadHw := 1000, rxqDepth := 2, blockSyms := 256, preRxSyms := 63,
    tailLen := 8, flushLen := 64, normLimit := 29491, detThreshReset := 32768#16,
    hwVersion := Config.hwVersion, hasDump := true }

end Sys2Proof
end

