-- ==== Sys2Proof/Machine/Types.lean ====
section
/-! DEFINITION. The types of the block's state elements (10_state.md R30, R61 to R77). -/

namespace Sys2Proof.Machine

/-- `st.core` (10_state.md R61). -/
inductive CoreState where
  | idle | txRun | rxRun
deriving DecidableEq, Repr

/-- A transfer's direction (10_state.md R66). -/
inductive Dir where
  | tx | rx
deriving DecidableEq, Repr

/-- The pending stop request `st.stop` when it is not NONE (10_state.md R63). -/
inductive StopReq where
  | hostStop | stopAll | timeout | radioFault
deriving DecidableEq, Repr

/-- `st.stop_reason`: why the last transfer ended (10_state.md R30). The codes 6 and 7 have no name, so no state
holds them. -/
inductive EndReason where
  | none | hostStop | stopAll | complete | timeout | radioFault
deriving DecidableEq, Repr

/-- `st.tx_phase` (10_state.md R67). -/
inductive TxPhase where
  | produce | drain
deriving DecidableEq, Repr

/-- `st.gen` (10_state.md R67). -/
inductive Gen where
  | wait
  | frame (syms : List Bool)
  | final
deriving DecidableEq, Repr

/-- `st.sync` (10_state.md R70). -/
inductive SyncState where
  | detectFrame | rxPreamble | rxHeader | rxPayload
deriving DecidableEq, Repr

/-- The CRC schemes (10_state.md R38). -/
inductive CrcScheme where
  | none | crc32
deriving DecidableEq, Repr

/-- The FEC schemes (10_state.md R38, 44_frame_codec.md R339). -/
inductive FecScheme where
  | none | hamming74
deriving DecidableEq, Repr

/-- The error codes (60_exceptions.md R470). Codes the table does not list have no name, so none is recorded. -/
inductive ErrCode where
  | illegalCmd | cmdArg | state | cfgLocked | txbufBusy | txPending | rxqEmpty
  | busAddr | busAlign | busWidth | busRo
  | cfgSampleRate | cfgBitRate | cfgFreqOffset | cfgBt | cfgCrc | cfgFecInner | cfgFecOuter
  | cfgMaxPayload | cfgDetThresh | cfgRatio | cfgPendingLen
  | radioFault
deriving DecidableEq, Repr

/-- The events of `hist` (10_state.md R77). -/
inductive Event where
  /-- what a RADIO_POP returned -/
  | radioOut (entries : List Tagged)
  /-- a sample on the dump port -/
  | dump (dir : Dir) (sample : Sample)
  /-- an error recorded -/
  | err (code : ErrCode)
  /-- the radio popped the entry tagged LAST -/
  | burstEnd
deriving DecidableEq, Repr

/-- The CFG registers as software last wrote them (10_state.md R34 to R43). -/
structure Cfg where
  sampleRate : Word
  bitRate : Word
  freqOffset : Word
  bt : Word
  coding : Word
  id : Word
  timeout : Word
  maxPayload : Word
  detThresh : Word
  dump : Word
deriving DecidableEq, Repr

/-- `st.lcfg`, the configuration latched at START (10_state.md R62). The CRC and FEC codes are held as schemes:
START rejects every code that is not one (41_commands.md R231). -/
structure LCfg where
  fs : Word
  rb : Word
  foff : Int
  bt : BitVec 16
  crc : CrcScheme
  fecIn : FecScheme
  fecOut : FecScheme
  id : Word
  timeout : Word
  maxp : BitVec 16
  thresh : BitVec 16
  dump : Bool
deriving DecidableEq, Repr

/-- The TX engine state (10_state.md R67). -/
structure TxEngine where
  phase : TxPhase
  gen : Gen
  outbuf : List Tagged
  outFrameEnd : Bool
  outFinal : Bool
  frameCnt : Word
  modem : ModS
deriving DecidableEq, Repr

/-- The pipeline state (10_state.md R68). -/
structure Pipe where
  rs : RsS
  phase : Word
  inc : Word
  filt : FltS
deriving DecidableEq, Repr

/-- The synchronizer state (10_state.md R70). -/
structure Synchronizer where
  sync : SyncState
  cnt : Nat
  bits : List Bool
  hdr : List Byte
  hv : Bool
  plen : BitVec 16
  need : Nat
  det : DetS
  trk : TrkS
deriving DecidableEq, Repr

/-- A record of the RX output queue (10_state.md R71, 46_synchronizer.md R445). -/
structure Record where
  hdr : List Byte
  hv : Bool
  len : BitVec 16
  payload : List Byte
deriving DecidableEq, Repr

/-- The most recent report `st.last` (10_state.md R72). -/
structure Report where
  hdr : List Byte
  len : BitVec 16
  hv : Bool
  pv : Bool
  idm : Bool
  delivered : Bool
  lenErr : Bool
deriving DecidableEq, Repr

/-- The statistics counters (10_state.md R73). -/
structure Stats where
  underrunEv : Word
  underrunSmp : Word
  overrunEv : Word
  overrunSmp : Word
  rxFrames : Word
  rxHdrBad : Word
  rxPayBad : Word
  rxIdMismatch : Word
  rxDelivered : Word
  rxLenErr : Word
deriving DecidableEq, Repr

/-- What the output ports last carried (30_encoding.md R140, R145, R146): the model's own fields, log 13. -/
structure Outputs where
  /-- RDATA of the last bus transaction -/
  rdata : Word
  /-- SLVERR of the last bus transaction -/
  slverr : Bool
  /-- the tagged sample words the last RADIO_POP returned, {LAST[32], SAMPLE[31:0]} -/
  popped : List (BitVec 33)
  /-- the count the last RADIO_PUSH returned -/
  accepted : Nat
  /-- the words the dump port carried for the last samples dumped, {DIR[32], SAMPLE[31:0]} in order -/
  dumped : List (BitVec 33)
deriving DecidableEq, Repr

/-- TXBUF's stored bytes: (bus byte address, byte) pairs in rising order of address. An address that is not listed
holds nothing written since the last reset. -/
abbrev Memory := List Host.Cell

end Sys2Proof.Machine
end

