-- ==== Sys2Proof/Machine/ResetValues.lean ====
section
/-! DEFINITION. The value of each group of state elements after reset (70_reset_and_hazards.md R520). -/

namespace Sys2Proof.Machine

/-- The statistics after reset (10_state.md R73). -/
def Stats.zero : Stats := ⟨0#32, 0#32, 0#32, 0#32, 0#32, 0#32, 0#32, 0#32, 0#32, 0#32⟩

/-- The CFG registers after reset (10_state.md R22). -/
def Cfg.reset (p : Params) : Cfg :=
  { sampleRate := 0#32, bitRate := 0#32, freqOffset := 0#32, bt := 0x1F4#32, coding := 0x1#32, id := 0#32,
    timeout := 0#32, maxPayload := BitVec.ofNat 32 p.maxPayloadHw, detThresh := p.detThreshReset.setWidth 32,
    dump := 0#32 }

/-- The latched configuration after reset: unspecified by R62; DESIGN CHOICE zero, unsafe (log 11). -/
def LCfg.reset : LCfg :=
  { fs := 0#32, rb := 0#32, foff := 0, bt := 0#16, crc := .none, fecIn := .none, fecOut := .none, id := 0#32,
    timeout := 0#32, maxp := 0#16, thresh := 0#16, dump := false }

/-- The TX engine after reset (R67); the modulator state is unspecified: DESIGN CHOICE 0, unsafe (log 11). -/
def TxEngine.reset : TxEngine :=
  { phase := .produce, gen := .wait, outbuf := [], outFrameEnd := false, outFinal := false, frameCnt := 0#32,
    modem := 0 }

/-- The pipeline after reset: unspecified by R68; DESIGN CHOICE 0, unsafe (log 11). -/
def Pipe.reset : Pipe := ⟨0, 0#32, 0#32, 0⟩

/-- The synchronizer after reset (R70, R520); the two kernel states are unspecified: DESIGN CHOICE 0, unsafe (log 11). -/
def Synchronizer.reset : Synchronizer :=
  { sync := .detectFrame, cnt := 0, bits := [], hdr := List.replicate 10 0#8, hv := false, plen := 0#16, need := 0,
    det := 0, trk := 0 }

/-- The output ports before any transaction: DESIGN CHOICE (log 13). -/
def Outputs.reset : Outputs := ⟨0#32, false, [], 0, []⟩

end Sys2Proof.Machine
end

