-- ==== Sys2Proof/Machine/State.lean ====
section
/-! DEFINITION. The state of the block as plain data (10_state.md R61 to R77), its stops, and the state after
reset (70_reset_and_hazards.md R520). INVENTORY.md lists each field with its rule and its reset value. -/

namespace Sys2Proof.Machine

/-- The state of the block and, in `params`, `pending`, `out` and `draws`, the model's own fields (INVENTORY.md). -/
structure State where
  params : Params
  pending : List Wire
  out : Outputs
  err : Word
  irqStatus : Word
  irqEnable : Word
  cfg : Cfg
  core : CoreState
  lcfg : LCfg
  stop : Option StopReq
  stopReason : EndReason
  txbuf : Memory
  draws : Nat
  pendLen : Nat
  eos : Bool
  burstEnd : Bool
  fifo : List Tagged
  fifoDir : Dir
  tx : TxEngine
  pipe : Pipe
  rx : Synchronizer
  rxq : List Record
  last : Option Report
  stats : Stats
  idle : BitVec 64
  hist : List Event
  stopAll : Bool
deriving DecidableEq, Repr

/-- The model's faults. The block itself has none: its errors are recorded and it goes on (60_exceptions.md R473). -/
inductive Fault where
  /-- Raised by TX_STEP alone, in TX_RUN with phase PRODUCE and generator state FINAL: 45_generator.md R383 says that
  there is no PRODUCE in FINAL and gives no effect. No run from reset reaches it. Safe (log 16). -/
  | produceInFinal
deriving DecidableEq, Repr

/-- The model's refusals. -/
inductive Refusal where
  /-- Raised by exec's arm of an operation that has no meaning yet. Safe. -/
  | notModelled (mnemonic : String)
  /-- Raised by step when what arrived is no descriptor and no port operation of 30_encoding.md. Safe (log 3). -/
  | undecodable (why : DecodeError)
  /-- Raised by RADIO_POP with N = 0 and by RADIO_PUSH with an empty list, which 30_encoding.md R145 says spell no
  operation and are refused. The decoder yields neither. Safe (log 17). -/
  | noSuchOperation
deriving DecidableEq, Repr

/-- The machine right after the power-on reset (70_reset_and_hazards.md R520), for any parameters and any level of
the stop-all input, which reset does not touch (U29). Nothing is pending (log 1); no draw of TXBUF came before
(DESIGN CHOICE, log 10). -/
def State.powerOn (p : Params) (stopAll : Bool) : State :=
  { params := p, pending := [], out := Outputs.reset, err := 0#32, irqStatus := 0#32, irqEnable := 0#32,
    cfg := Cfg.reset p, core := .idle, lcfg := LCfg.reset, stop := none, stopReason := .none, txbuf := [], draws := 0,
    pendLen := 0, eos := false, burstEnd := false, fifo := [], fifoDir := .tx, tx := TxEngine.reset,
    pipe := Pipe.reset, rx := Synchronizer.reset, rxq := [], last := none, stats := Stats.zero, idle := 0#64,
    hist := [], stopAll := stopAll }

/-- The machine right after reset with the default parameters and the stop-all input low (log 6, log 12). -/
def State.reset : State := State.powerOn Params.default false

end Sys2Proof.Machine
end

