-- ==== Sys2Proof/Machine/Codec.lean ====
section
/-! DEFINITION. The frame codec (44_frame_codec.md R330 to R343): preamble, blocks, CRC-32, Hamming(7,4), the cascade
and the frame's symbol list. -/

namespace Sys2Proof.Machine

/-- `bits(b)`: a byte's bits, most significant first (00_scope.md R13). -/
def byteBits (b : Byte) : List Bool :=
  [b.getLsbD 7, b.getLsbD 6, b.getLsbD 5, b.getLsbD 4, b.getLsbD 3, b.getLsbD 2, b.getLsbD 1, b.getLsbD 0]

/-- `bits(bs)` (R13). -/
def bitsOf (bs : List Byte) : List Bool := bs.flatMap byteBits

/-- The byte that eight bits spell, the first the most significant. -/
def byteOfBits (b7 b6 b5 b4 b3 b2 b1 b0 : Bool) : Byte :=
  BitVec.ofNat 8 (128 * b7.toNat + 64 * b6.toNat + 32 * b5.toNat + 16 * b4.toNat + 8 * b3.toNat + 4 * b2.toNat +
    2 * b1.toNat + b0.toNat)

/-- `pack(bs)` over a bit list whose length is a multiple of 8 (R13); fewer than eight bits at the end spell no byte. -/
def pack : List Bool → List Byte
  | b7 :: b6 :: b5 :: b4 :: b3 :: b2 :: b1 :: b0 :: rest => byteOfBits b7 b6 b5 b4 b3 b2 b1 b0 :: pack rest
  | _ => []

/-- `be16(v)` (00_scope.md R11). -/
def be16 (v : BitVec 16) : List Byte := [v.extractLsb' 8 8, v.extractLsb' 0 8]

/-- `be32(v)` (00_scope.md R11). -/
def be32 (v : Word) : List Byte :=
  [v.extractLsb' 24 8, v.extractLsb' 16 8, v.extractLsb' 8 8, v.extractLsb' 0 8]

/-- `BE(bs)`: the number the bytes spell, most significant first (00_scope.md R11). -/
def beNat (bs : List Byte) : Nat := bs.foldl (fun acc b => acc * 256 + b.toNat) 0

/-- The bits of the 6-bit LFSR from state s (R330). -/
def lfsrBits : Nat → BitVec 6 → List Bool
  | 0, _ => []
  | n + 1, s =>
    s.getLsbD 0 :: lfsrBits n ((s >>> 1) ||| ((BitVec.ofBool (s.getLsbD 0 ^^ s.getLsbD 1)).setWidth 6 <<< 5))

/-- `PREAMBLE_LEN`, fixed (00_scope.md R7). -/
def preambleLen : Nat := 63

/-- `PRE` (R331). -/
def preamble : List Bool := lfsrBits preambleLen 1#6

/-- `hdr_block(id, c, L)` (R333). -/
def hdrBlock (id c : Word) (len : BitVec 16) : List Byte := be32 id ++ be32 c ++ be16 len

/-- One bit of the reflected CRC register: the polynomial 0x04C11DB7 reads 0xEDB88320 reflected (R334). -/
def crcBit (c : Word) : Word := if c.getLsbD 0 then (c >>> 1) ^^^ 0xEDB88320#32 else c >>> 1

/-- One byte into the CRC register (R334). -/
def crcByte (c : Word) (b : Byte) : Word :=
  crcBit (crcBit (crcBit (crcBit (crcBit (crcBit (crcBit (crcBit (c ^^^ b.setWidth 32))))))))

/-- `crc32(bs)` (R334). -/
def crc32 (bs : List Byte) : Word := bs.foldl crcByte 0xFFFFFFFF#32 ^^^ 0xFFFFFFFF#32

/-- `crclen` (R335). -/
def crcLen : CrcScheme → Nat
  | .none => 0
  | .crc32 => 4

/-- `crc_add` (R335). -/
def crcAdd : CrcScheme → List Byte → List Byte
  | .none, bs => bs
  | .crc32, bs => bs ++ be32 (crc32 bs)

/-- `crc_check` (R335). -/
def crcCheck : CrcScheme → List Byte → List Byte × Bool
  | .none, cs => (cs, true)
  | .crc32, cs =>
    (cs.take (cs.length - 4), be32 (crc32 (cs.take (cs.length - 4))) == cs.drop (cs.length - 4))

/-- `cw(d)`: the Hamming(7,4) codeword of the nibble d1 d2 d3 d4 (R336). -/
def codeword (d1 d2 d3 d4 : Bool) : List Bool :=
  [d1 ^^ d2 ^^ d4, d1 ^^ d3 ^^ d4, d1, d2 ^^ d3 ^^ d4, d2, d3, d4]

/-- The two codewords of a byte, high nibble first (R337). -/
def byteCodewords (x : Byte) : List Bool :=
  codeword (x.getLsbD 7) (x.getLsbD 6) (x.getLsbD 5) (x.getLsbD 4) ++
  codeword (x.getLsbD 3) (x.getLsbD 2) (x.getLsbD 1) (x.getLsbD 0)

/-- `h74_enc` (R337). -/
def h74Enc (bs : List Byte) : List Byte :=
  let b := bs.flatMap byteCodewords
  pack (b ++ List.replicate ((8 - b.length % 8) % 8) false)

/-- `h74_len(n) = ceil(14 n / 8)` (R337). -/
def h74Len (n : Nat) : Nat := (14 * n + 7) / 8

/-- A received codeword decoded: the syndrome's position is flipped, and c3 c5 c6 c7 are the nibble (R338). -/
def decodeCodeword (c1 c2 c3 c4 c5 c6 c7 : Bool) : Bool × Bool × Bool × Bool :=
  let s1 := c1 ^^ c3 ^^ c5 ^^ c7
  let s2 := c2 ^^ c3 ^^ c6 ^^ c7
  let s3 := c4 ^^ c5 ^^ c6 ^^ c7
  let pos := 4 * s3.toNat + 2 * s2.toNat + s1.toNat
  (c3 ^^ pos == 3, c5 ^^ pos == 5, c6 ^^ pos == 6, c7 ^^ pos == 7)

/-- The nibble of the codeword that starts a bit list; bits past the end read 0. -/
def nibbleAt (b : List Bool) : Bool × Bool × Bool × Bool :=
  decodeCodeword (b.getD 0 false) (b.getD 1 false) (b.getD 2 false) (b.getD 3 false) (b.getD 4 false)
    (b.getD 5 false) (b.getD 6 false)

/-- The n bytes of 2n codewords of a bit list (R338). -/
def decodeBytes : Nat → List Bool → List Byte
  | 0, _ => []
  | n + 1, b =>
    let hi := nibbleAt b
    let lo := nibbleAt (b.drop 7)
    byteOfBits hi.1 hi.2.1 hi.2.2.1 hi.2.2.2 lo.1 lo.2.1 lo.2.2.1 lo.2.2.2 :: decodeBytes n (b.drop 14)

/-- `h74_dec(cs, n)` (R338). -/
def h74Dec (cs : List Byte) (n : Nat) : List Byte := decodeBytes n (bitsOf cs)

/-- `fec_enc` (R339). -/
def fecEnc : FecScheme → List Byte → List Byte
  | .none, bs => bs
  | .hamming74, bs => h74Enc bs

/-- `fec_len` (R339). -/
def fecLen : FecScheme → Nat → Nat
  | .none, n => n
  | .hamming74, n => h74Len n

/-- `fec_dec` (R339). -/
def fecDec : FecScheme → List Byte → Nat → List Byte
  | .none, cs, _ => cs
  | .hamming74, cs, n => h74Dec cs n

/-- `E(bs)`: the CRC, then the inner layer, then the outer (R340). -/
def encodeBlock (l : LCfg) (bs : List Byte) : List Byte := fecEnc l.fecOut (fecEnc l.fecIn (crcAdd l.crc bs))

/-- `E_len(n)` (R340). -/
def encodedLen (l : LCfg) (n : Nat) : Nat := fecLen l.fecOut (fecLen l.fecIn (n + crcLen l.crc))

/-- `D(cs, n)`: the decoded bytes and their validity (R340). -/
def decodeBlock (l : LCfg) (cs : List Byte) (n : Nat) : List Byte × Bool :=
  crcCheck l.crc (fecDec l.fecIn (fecDec l.fecOut cs (fecLen l.fecIn (n + crcLen l.crc))) (n + crcLen l.crc))

/-- `frame_syms(id, c, pl)` (R341). -/
def frameSyms (p : Params) (l : LCfg) (c : Word) (pl : List Byte) : List Bool :=
  preamble ++ bitsOf (encodeBlock l (hdrBlock l.id c (BitVec.ofNat 16 pl.length))) ++ bitsOf (encodeBlock l pl) ++
    List.replicate p.tailLen false

end Sys2Proof.Machine
end

