-- ==== Sys2Proof/Machine/Flags.lean ====
section
/-! DEFINITION. The flags software reads: interrupt bits, ERR, STATUS, SYNC_STATUS, LAST_FLAGS and RXQ_FLAGS, and every
other register's read value (10_state.md R21 to R57; 40_bus.md R182). -/

namespace Sys2Proof.Machine

/-- An unsigned count shown in a field of w bits. Where it does not fit the spec is silent: a free value (log 14). -/
def field (w n : Nat) : BitVec w := if n < 2 ^ w then BitVec.ofNat w n else Config.fieldOverflow w n

/-- A word whose bit k is b and whose other bits are 0. -/
def flagAt (b : Bool) (k : Nat) : Word := (BitVec.ofBool b).setWidth 32 <<< k

/-! Interrupts (10_state.md R32, R33; 60_exceptions.md R480, R481). -/

/-- The bits of IRQ_STATUS (10_state.md R32). -/
inductive IrqBit where
  | txFrame | txDone | txReady | rxFrame | rxDeliver | hdrBad | payBad | idMismatch
  | underrun | overrun | stopped | timeout | error | burstEnd
deriving DecidableEq, Repr

/-- The bit numbers of 10_state.md R32. -/
def irqIndex : IrqBit → Nat
  | .txFrame => 0
  | .txDone => 1
  | .txReady => 2
  | .rxFrame => 3
  | .rxDeliver => 4
  | .hdrBad => 5
  | .payBad => 6
  | .idMismatch => 7
  | .underrun => 8
  | .overrun => 9
  | .stopped => 10
  | .timeout => 11
  | .error => 12
  | .burstEnd => 13

/-- IRQ_STATUS with one bit set. -/
def setIrq (b : IrqBit) (w : Word) : Word := w ||| flagAt true (irqIndex b)

/-- `irq(b)` (60_exceptions.md R480). -/
def irq (b : IrqBit) (s : State) : State := { s with irqStatus := setIrq b s.irqStatus }

/-- `zext_32(v[13:0])`: the defined bits of IRQ_STATUS and IRQ_ENABLE (40_bus.md R184, R185). -/
def irqMask (v : Word) : Word := (v.extractLsb' 0 14).setWidth 32

/-- `irq_out` (60_exceptions.md R481). -/
def irqOut (s : State) : Bool := s.irqStatus &&& s.irqEnable != 0#32

/-! ERR (10_state.md R31; 60_exceptions.md R470, R471). -/

/-- ERR.CODE (60_exceptions.md R470). -/
def errCode : ErrCode → BitVec 8
  | .illegalCmd => 0x01#8
  | .cmdArg => 0x02#8
  | .state => 0x03#8
  | .cfgLocked => 0x04#8
  | .txbufBusy => 0x05#8
  | .txPending => 0x06#8
  | .rxqEmpty => 0x07#8
  | .busAddr => 0x08#8
  | .busAlign => 0x09#8
  | .busWidth => 0x0A#8
  | .busRo => 0x0B#8
  | .cfgSampleRate => 0x10#8
  | .cfgBitRate => 0x11#8
  | .cfgFreqOffset => 0x12#8
  | .cfgBt => 0x13#8
  | .cfgCrc => 0x14#8
  | .cfgFecInner => 0x15#8
  | .cfgFecOuter => 0x16#8
  | .cfgMaxPayload => 0x17#8
  | .cfgDetThresh => 0x18#8
  | .cfgRatio => 0x19#8
  | .cfgPendingLen => 0x1A#8
  | .radioFault => 0x20#8

/-- ERR.VALID. -/
def errValid (e : Word) : Bool := e.getLsbD 31

/-- ERR after an error is recorded: the first code is kept, a later one sets OVF (60_exceptions.md R471). -/
def recordErr (code : ErrCode) (e : Word) : Word :=
  if errValid e then e ||| flagAt true 8 else flagAt true 31 ||| (errCode code).setWidth 32

/-! STATUS (10_state.md R28 to R30). -/

/-- STATUS.STATE (10_state.md R29). -/
def coreCode : CoreState → BitVec 3
  | .idle => 0#3
  | .txRun => 1#3
  | .rxRun => 2#3

/-- STATUS.STOP_REASON (10_state.md R30). -/
def endCode : EndReason → BitVec 3
  | .none => 0#3
  | .hostStop => 1#3
  | .stopAll => 2#3
  | .complete => 3#3
  | .timeout => 4#3
  | .radioFault => 5#3

/-- `code(st.stop)`: the end reason of a stop request (60_exceptions.md R477). -/
def endOfStop : StopReq → EndReason
  | .hostStop => .hostStop
  | .stopAll => .stopAll
  | .timeout => .timeout
  | .radioFault => .radioFault

/-- STATUS (10_state.md R28). -/
def statusWord (s : State) : Word :=
  (coreCode s.core).setWidth 32 ||| flagAt (s.pendLen != 0) 3 ||| flagAt s.eos 4 ||| flagAt s.stop.isSome 5 |||
  flagAt s.burstEnd 6 ||| flagAt (s.fifo.length == 0) 7 ||| flagAt (s.fifo.length == s.params.fifoCap) 8 |||
  flagAt (decide (0 < s.rxq.length)) 9 ||| flagAt (errValid s.err) 10 |||
  flagAt (s.core == .txRun && s.tx.phase == .drain) 11 ||| ((endCode s.stopReason).setWidth 32 <<< 12) |||
  flagAt s.stopAll 15

/-! SYNC_STATUS, LAST_FLAGS, RXQ_FLAGS (10_state.md R51, R53, R56). -/

/-- SYNC_STATUS.SYNC_STATE (10_state.md R51). -/
def syncCode : SyncState → BitVec 2
  | .detectFrame => 0#2
  | .rxPreamble => 1#2
  | .rxHeader => 2#2
  | .rxPayload => 3#2

/-- SYNC_STATUS (10_state.md R51): SYM_CNT saturates at 65535. -/
def syncStatusWord (r : Synchronizer) : Word :=
  (syncCode r.sync).setWidth 32 ||| (BitVec.ofNat 32 (min r.cnt 65535) <<< 16)

/-- LAST_FLAGS (10_state.md R53). -/
def lastFlagsWord : Option Report → Word
  | none => 0#32
  | some r => flagAt r.hv 0 ||| flagAt r.pv 1 ||| flagAt r.idm 2 ||| flagAt r.delivered 3 ||| flagAt r.lenErr 4 |||
      flagAt true 31

/-- RXQ_FLAGS (10_state.md R56). -/
def rxqFlagsWord : Option Record → Word
  | none => 0#32
  | some r => flagAt r.hv 0 ||| flagAt true 31

/-- PARAM_MISC (10_state.md R26); RXQ_DEPTH saturates at 255. -/
def paramMiscWord (p : Params) : Word :=
  (field 8 p.sps).setWidth 32 ||| (BitVec.ofNat 32 (min p.rxqDepth 255) <<< 8) |||
  ((field 13 p.maxPayloadHw).setWidth 32 <<< 16) ||| flagAt p.hasDump 29

/-- `BE(hdr[0..3])`, the decoded id (10_state.md R52, R55). -/
def hdrId (hdr : List Byte) : Word := BitVec.ofNat 32 (beNat (hdr.take 4))

/-- `BE(hdr[4..7])`, the decoded counter (10_state.md R52, R55). -/
def hdrCnt (hdr : List Byte) : Word := BitVec.ofNat 32 (beNat ((hdr.drop 4).take 4))

/-- `read_reg(a)` (40_bus.md R182). -/
def readReg (s : State) : Reg → Word
  | .id => 0x474D534B#32
  | .version => s.params.hwVersion
  | .paramFifoCap => field 32 s.params.fifoCap
  | .paramMisc => paramMiscWord s.params
  | .cmd => 0#32
  | .status => statusWord s
  | .err => s.err
  | .irqStatus => s.irqStatus
  | .irqEnable => s.irqEnable
  | .cfgSampleRate => s.cfg.sampleRate
  | .cfgBitRate => s.cfg.bitRate
  | .cfgFreqOffset => s.cfg.freqOffset
  | .cfgBt => s.cfg.bt
  | .cfgCoding => s.cfg.coding
  | .cfgId => s.cfg.id
  | .cfgTimeout => s.cfg.timeout
  | .cfgMaxPayload => s.cfg.maxPayload
  | .cfgDetThresh => s.cfg.detThresh
  | .cfgDump => s.cfg.dump
  | .txFrameCnt => s.tx.frameCnt
  | .txPendLen => (field 13 s.pendLen).setWidth 32
  | .fifoLevel => field 32 s.fifo.length
  | .underrunEvents => s.stats.underrunEv
  | .underrunSamples => s.stats.underrunSmp
  | .overrunEvents => s.stats.overrunEv
  | .overrunSamples => s.stats.overrunSmp
  | .rxFrames => s.stats.rxFrames
  | .rxHdrBad => s.stats.rxHdrBad
  | .rxPayBad => s.stats.rxPayBad
  | .rxIdMismatch => s.stats.rxIdMismatch
  | .rxDelivered => s.stats.rxDelivered
  | .rxLenErr => s.stats.rxLenErr
  | .idleCntLo => s.idle.extractLsb' 0 32
  | .idleCntHi => s.idle.extractLsb' 32 32
  | .syncStatus => syncStatusWord s.rx
  | .lastHdrId => (s.last.map (fun r => hdrId r.hdr)).getD 0#32
  | .lastHdrCnt => (s.last.map (fun r => hdrCnt r.hdr)).getD 0#32
  | .lastLen => (s.last.map (fun r => r.len.setWidth 32)).getD 0#32
  | .lastFlags => lastFlagsWord s.last
  | .rxqCount => (field 16 s.rxq.length).setWidth 32
  | .rxqHdrId => (s.rxq.head?.map (fun r => hdrId r.hdr)).getD 0#32
  | .rxqHdrCnt => (s.rxq.head?.map (fun r => hdrCnt r.hdr)).getD 0#32
  | .rxqLen => (s.rxq.head?.map (fun r => r.len.setWidth 32)).getD 0#32
  | .rxqFlags => rxqFlagsWord s.rxq.head?

end Sys2Proof.Machine
end

