-- ==== Sys2Proof/Machine/Pipeline.lean ====
section
/-! DEFINITION. The sample pipeline's fixed arithmetic and stage order (43_pipeline.md R292 to R300). The kernels are
the free values of Config. -/

namespace Sys2Proof.Machine

/-- The part of `isqrt` below bit k: the largest r with acc ≤ r < acc + 2^k and r·r ≤ n, when acc·acc ≤ n. -/
def isqrtBits (n : Nat) : Nat → Nat → Nat
  | 0, acc => acc
  | k + 1, acc => if (acc + 2 ^ k) * (acc + 2 ^ k) ≤ n then isqrtBits n k (acc + 2 ^ k) else isqrtBits n k acc

/-- `isqrt(n)` (00_scope.md R10) for n below 2^34; a sample's I·I + Q·Q is at most 2^31. -/
def isqrt (n : Nat) : Nat := isqrtBits n 17 0

/-- `nco_inc(f, fs)` (R293): rounded, halves up, mod 2^32. -/
def ncoInc (f : Int) (fs : Nat) : Word := BitVec.ofInt 32 ((2 ^ 33 * f + fs) / (2 * fs))

/-- `rnd15` (R294). -/
def rnd15 (x : Int) : Int := (x + 2 ^ 14) / 2 ^ 15

/-- `sat16` (R294). -/
def sat16 (x : Int) : Int := max (-32768) (min 32767 x)

/-- `cmul(a, b)` (R294). -/
def cmul (a b : Sample) : Sample :=
  { i := BitVec.ofInt 16 (sat16 (rnd15 (a.i.toInt * b.i.toInt - a.q.toInt * b.q.toInt))),
    q := BitVec.ofInt 16 (sat16 (rnd15 (a.i.toInt * b.q.toInt + a.q.toInt * b.i.toInt))) }

/-- `mix(x)` (R295), with the bypass of R296. -/
def mix (p : Pipe) (x : Sample) : Pipe × Sample :=
  if p.inc = 0#32 then (p, x) else ({ p with phase := p.phase + p.inc }, cmul x (Config.cis p.phase))

/-- One sample through the channel filter (R301). -/
def filterStep (p : Pipe) (x : Sample) : Pipe × Sample :=
  ({ p with filt := (Config.fltStep p.filt x).1 }, (Config.fltStep p.filt x).2)

/-- The mixer, then the filter (R298, R300). -/
def mixFilter (p : Pipe) (x : Sample) : Pipe × Sample := filterStep (mix p x).1 (mix p x).2

/-- The mixer and the filter over the resampler's outputs for one input (R298). -/
def mixFilterAll : Pipe → List Sample → Pipe × List Sample
  | p, [] => (p, [])
  | p, x :: xs =>
    ((mixFilterAll (mixFilter p x).1 xs).1, (mixFilter p x).2 :: (mixFilterAll (mixFilter p x).1 xs).2)

/-- One modem sample through resampler, mixer and filter (R298). -/
def txInput (p : Pipe) (x : Sample) : Pipe × List Sample :=
  mixFilterAll { p with rs := (Config.rsStep p.rs x).1 } (Config.rsStep p.rs x).2

/-- The transmit chain of a block before normalisation (R298). -/
def txChain : Pipe → List Sample → Pipe × List Sample
  | p, [] => (p, [])
  | p, x :: xs => ((txChain (txInput p x).1 xs).1, (txInput p x).2 ++ (txChain (txInput p x).1 xs).2)

/-- `isqrt(I·I + Q·Q)` of a sample (R299). -/
def magnitude (s : Sample) : Nat := isqrt (s.i.toInt * s.i.toInt + s.q.toInt * s.q.toInt).toNat

/-- The block's peak magnitude (R299). -/
def peak (ys : List Sample) : Nat := ys.foldl (fun m s => max m (magnitude s)) 0

/-- A component scaled by lim/p, truncated toward zero (R299). -/
def scaleComponent (lim p : Nat) (c : BitVec 16) : BitVec 16 := BitVec.ofInt 16 ((c.toInt * lim).tdiv p)

/-- `normalise(ys)` (R299). -/
def normalise (lim : Nat) (ys : List Sample) : List Sample :=
  if peak ys ≤ lim then ys
  else ys.map (fun s => ⟨scaleComponent lim (peak ys) s.i, scaleComponent lim (peak ys) s.q⟩)

/-- `tx_block(xs)` (R298), less its dump events. -/
def txBlock (lim : Nat) (p : Pipe) (xs : List Sample) : Pipe × List Sample :=
  ((txChain p xs).1, normalise lim (txChain p xs).2)

/-- `rx_sample(x)` (R300): the pipeline after, the filtered sample the dump tap sees, and the modem samples out. -/
def rxSample (p : Pipe) (x : Sample) : Pipe × Sample × List Sample :=
  let m := mixFilter p x
  ({ m.1 with rs := (Config.rsStep m.1.rs m.2).1 }, m.2, (Config.rsStep m.1.rs m.2).2)

/-- The two terms of the resampler ratio in lowest terms: fs/g and rb·SPS/g (R292). -/
def ratio (p : Params) (l : LCfg) : Nat × Nat :=
  let m := l.rb.toNat * p.sps
  let g := Nat.gcd l.fs.toNat m
  (l.fs.toNat / g, m / g)

/-- `pipeline_init(TX)` (R297), less the modulator. -/
def pipeInitTx (p : Params) (l : LCfg) : Pipe :=
  { rs := Config.rsInit (ratio p l).1 (ratio p l).2, phase := 0#32, inc := ncoInc l.foff l.fs.toNat,
    filt := Config.txfInit }

/-- `pipeline_init(RX)` (R297). -/
def pipeInitRx (p : Params) (l : LCfg) : Pipe :=
  { rs := Config.rsInit (ratio p l).2 (ratio p l).1, phase := 0#32, inc := -ncoInc l.foff l.fs.toNat,
    filt := Config.rxfInit }

/-- Symbols through the modulator: its state after, and the modem samples in order (45_generator.md R390). -/
def modulate : ModS → List Bool → ModS × List Sample
  | m, [] => (m, [])
  | m, b :: bs =>
    ((modulate (Config.modStep m b).1 bs).1, (Config.modStep m b).2 ++ (modulate (Config.modStep m b).1 bs).2)

end Sys2Proof.Machine
end

