-- ==== Sys2Proof/Machine/Ops.lean ====
section
/-! DEFINITION. The named operations over the state: TXBUF's memory, the sample FIFO, the history, recording an error
(what the block has in place of taking an exception, 60_exceptions.md R471, R473), stop requests and the engine stop,
reset, and what step does next. -/

namespace Sys2Proof.Machine

/-! TXBUF (10_state.md R58, 20_memory.md R109). -/

/-- The byte listed at an address; none where nothing was written since the last reset. -/
def memRead : Memory → Nat → Option Byte
  | [], _ => none
  | c :: m, a => if c.1 = a then some c.2 else memRead m a

/-- A byte stored at an address, the list kept in rising order. -/
def memWrite : Memory → Nat → Byte → Memory
  | [], a, b => [(a, b)]
  | c :: m, a, b => if a < c.1 then (a, b) :: c :: m else if a = c.1 then (a, b) :: m else c :: memWrite m a b

/-- The canonical form: addresses strictly rising. An unlisted address reads as none, so no entry can equal what an
unlisted address reads as. -/
def memWf : Memory → Bool
  | [] => true
  | [_] => true
  | c :: d :: m => decide (c.1 < d.1) && memWf (d :: m)

/-- TXBUF's byte at a bus byte address: the stored byte, or the byte the last reset drew (U1, log 9). -/
def txByte (s : State) (a : Nat) : Byte := (memRead s.txbuf a).getD (Config.txbufDraw s.draws a)

/-- Bytes stored at consecutive addresses. -/
def memWriteBytes : Memory → Nat → List Byte → Memory
  | m, _, [] => m
  | m, a, b :: bs => memWriteBytes (memWrite m a b) (a + 1) bs

/-- The committed chunk `st.txbuf[0 .. L-1]` (45_generator.md R384). -/
def txChunk (s : State) (len : Nat) : List Byte := (List.range len).map (fun i => txByte s (txbufBase + i))

/-- `rxbyte(o)`: the RXBUF view of the head record (10_state.md R59, 40_bus.md R190). -/
def rxByte (s : State) (o : Nat) : Byte :=
  match s.rxq with
  | [] => 0#8
  | r :: _ => if o < r.len.toNat then r.payload.getD o 0#8 else 0#8

/-! The history and errors. -/

/-- `emit E` (00_scope.md R11). -/
def emit (e : Event) (s : State) : State := { s with hist := s.hist ++ [e] }

/-- `raise Error(code)` (60_exceptions.md R471): the block's one way of taking an error. It is left by CLEAR_ERR
(41_commands.md R228), `clearErr`. -/
def raiseError (code : ErrCode) (s : State) : State :=
  emit (.err code) (irq .error { s with err := recordErr code s.err })

/-- CLEAR_ERR (41_commands.md R228). -/
def clearErr (s : State) : State := { s with err := 0#32 }

/-! Responses (20_memory.md R102). -/

/-- The bus response of a transaction. -/
def respond (rdata : Word) (slverr : Bool) (s : State) : State :=
  { s with out := { s.out with rdata := rdata, slverr := slverr } }

/-- A failed access (20_memory.md R112). -/
def failAccess (code : ErrCode) (s : State) : State := respond 0#32 true (raiseError code s)

/-! Stop requests (60_exceptions.md R476, R477). -/

/-- `request_stop(reason)` (R476). -/
def requestStop (reason : StopReq) (s : State) : State :=
  if s.core = .idle then s
  else if s.stop = none ∨ reason = .radioFault then { s with stop := some reason } else s

/-- `stop_seen()` (R477). -/
def stopSeen (s : State) : Bool := s.stop.isSome || s.stopAll

/-- `engine_stop()` (R477). -/
def engineStop (s : State) : State :=
  irq .stopped
    { s with
      stopReason := endOfStop (s.stop.getD .stopAll), stop := none, core := .idle,
      tx := { s.tx with phase := .produce, outbuf := [], outFrameEnd := false, outFinal := false } }

/-! The sample FIFO (42_fifo.md R260 to R262). -/

/-- `space()` (R260). -/
def fifoSpace (s : State) : Nat := s.params.fifoCap - s.fifo.length

/-- How many entries a push keeps (R261). -/
def pushCount (xs : List Tagged) (s : State) : Nat := min xs.length (fifoSpace s)

/-- `push(xs)` (R261); it returns `pushCount xs s`. -/
def fifoPush (xs : List Tagged) (s : State) : State := { s with fifo := s.fifo ++ xs.take (pushCount xs s) }

/-- What `pop(n)` returns (R262). -/
def popped (n : Nat) (s : State) : List Tagged := s.fifo.take n

/-- `pop(n)` (R262). -/
def fifoPop (n : Nat) (s : State) : State := { s with fifo := s.fifo.drop n }

/-! The diagnostics dump. -/

/-- The word of a sample (30_encoding.md R143). -/
def sampleWord (s : Sample) : Word := s.q ++ s.i

/-- The 33 bits on the dump port (30_encoding.md R146). -/
def dumpWord (dir : Dir) (s : Sample) : BitVec 33 := BitVec.ofBool (dir == .rx) ++ sampleWord s

/-- The dump port is on (43_pipeline.md R304). -/
def dumpOn (s : State) : Bool := s.params.hasDump && s.lcfg.dump

/-- `dump(dir, s)` of each sample that a step computed, in order: its word on the dump port (30_encoding.md R146) and its
event in `hist` (43_pipeline.md R304). -/
def dumpAll (dir : Dir) (ys : List Sample) (s : State) : State :=
  if dumpOn s then
    { s with
      out := { s.out with dumped := ys.map (dumpWord dir) }, hist := s.hist ++ ys.map (Event.dump dir) }
  else s

/-! Statistics and reset. -/

/-- `clear_stats()` (41_commands.md R227). -/
def clearStats (s : State) : State := { s with stats := Stats.zero }

/-- SOFT_RESET (41_commands.md R229): the reset of 70_reset_and_hazards.md R520, but for `hist` and the input pin.
The model's own fields: the parameters, what is pending and the port outputs stay, and TXBUF is drawn anew (log 20). -/
def softReset (s : State) : State :=
  { State.powerOn s.params s.stopAll with
    pending := s.pending, out := s.out, hist := s.hist, draws := s.draws + 1 }

/-! The engines' enabling conditions (45_generator.md R380, 46_synchronizer.md R440). -/

/-- TX_STEP is enabled (45_generator.md R380). -/
def txEnabled (s : State) : Bool :=
  s.core == .txRun && !(s.tx.phase == .drain && fifoSpace s == 0 && s.stop.isNone && !s.stopAll)

/-- RX_STEP is enabled (46_synchronizer.md R440). -/
def rxEnabled (s : State) : Bool :=
  s.core == .rxRun && (stopSeen s || (!s.fifo.isEmpty && decide (s.rxq.length < s.params.rxqDepth)))

/-! What step does next (00_scope.md R4, 20_memory.md R120; log 1). -/

/-- The operation the schedule puts next and the state that waits for it. -/
def fetch (s : State) : Option (Wire × State) :=
  match s.pending with
  | [] => none
  | w :: rest => some (w, { s with pending := rest })

/-- With nothing pending, the engine whose step is enabled moves: the model's choice (log 1), within the weak
fairness of 70_reset_and_hazards.md R540, which Machine/Schedule.lean states. -/
def engineTurn (s : State) : Option Instr :=
  if txEnabled s then some .txStep else if rxEnabled s then some .rxStep else none

end Sys2Proof.Machine
end

