-- ==== Sys2Proof/Machine/Operands.lean ====
section
/-! DEFINITION. The operand forms: access sizes and byte lanes, the checks and targets of a bus access (20_memory.md
R100 to R111), sample words (30_encoding.md R143, R144). -/

namespace Sys2Proof.Machine

/-- n of a SIZE; SIZE = 3 is no width (30_encoding.md R152). -/
def sizeBytes : AccessSize → Option Nat
  | .byte => some 1
  | .half => some 2
  | .word => some 4
  | .reserved => none

/-- Lane i of a data word: `v[8i+7 : 8i]` (20_memory.md R104). -/
def lane (v : Word) (i : Nat) : Byte := v.extractLsb' (8 * i) 8

/-- The first n lanes of a data word, lowest first. -/
def lanes (n : Nat) (v : Word) : List Byte := (List.range n).map (lane v)

/-- n bytes placed in lanes 0 to n-1, the other lanes 0 (20_memory.md R102, R104). -/
def fromLanes (n : Nat) (f : Nat → Byte) : Word :=
  (List.range n).foldl (fun acc i => acc ||| ((f i).setWidth 32 <<< (8 * i))) 0#32

/-- Where an access goes once its address is good. -/
inductive Target where
  | reg (r : Reg)
  | txbuf (addr : Nat)
  | rxbuf (off : Nat)
deriving DecidableEq, Repr

/-- The byte belongs to a listed register (20_memory.md R106). -/
def csrByteListed (b : Nat) : Bool := decide (b < csrEnd) && (regAt (b / 4 * 4)).isSome

/-- An access of n bytes at a lies within a window of `size` bytes at `base`. -/
def inWindow (base size a n : Nat) : Bool := decide (base ≤ a) && decide (a + n ≤ base + size)

/-- No byte of the access is outside the listed registers, TXBUF and RXBUF, and it runs past the end of no window
(20_memory.md R106; log 18). -/
def addrListed (p : Params) (a n : Nat) : Bool :=
  (List.range n).all (fun i => csrByteListed (a + i)) || inWindow txbufBase p.maxPayloadHw a n ||
  inWindow rxbufBase p.maxPayloadHw a n

/-- The target of an access whose address, alignment and width are good; none where there is no such target. -/
def targetAt (a : Nat) : Option Target :=
  if a < csrEnd then (regAt a).map Target.reg
  else if a < rxbufBase then some (.txbuf a)
  else some (.rxbuf (a - rxbufBase))

/-- The checks an access must pass whatever its kind, in their order: SIZE = 3 (30_encoding.md R152), then ADDR, ALIGN
and WIDTH (20_memory.md R111, which log 5 follows where R103 says otherwise). The result is n and the target. -/
def checkAddr (p : Params) (size : AccessSize) (a : Nat) : Except ErrCode (Nat × Target) :=
  match sizeBytes size with
  | none => .error .busWidth
  | some n =>
    if !addrListed p a n then .error .busAddr
    else if a % n ≠ 0 then .error .busAlign
    else if a < csrEnd ∧ n ≠ 4 then .error .busWidth
    else match targetAt a with
      | none => .error .busAddr
      | some t => .ok (n, t)

/-- The checks that depend on the kind of access: a write to something read-only, a CFG write outside IDLE, a TXBUF
write while a chunk is pending (20_memory.md R107, R108). None means the write may be performed. -/
def checkWrite (s : State) : Target → Option ErrCode
  | .rxbuf _ => some .busRo
  | .txbuf _ => if s.pendLen ≠ 0 then some .txbufBusy else none
  | .reg r =>
    match regAccess r with
    | .ro => some .busRo
    | .rwIdle => if s.core ≠ .idle then some .cfgLocked else none
    | .wo | .rw | .w1c => none

/-- The value a read of a target returns (40_bus.md R180). -/
def readTarget (s : State) (n : Nat) : Target → Word
  | .reg r => readReg s r
  | .txbuf a => fromLanes n (fun i => txByte s (a + i))
  | .rxbuf o => fromLanes n (fun i => rxByte s (o + i))

/-- A sample word (30_encoding.md R143). -/
def sampleOfWord (w : Word) : Sample := ⟨w.extractLsb' 0 16, w.extractLsb' 16 16⟩

/-- The 33 bits of a FIFO entry (30_encoding.md R144). -/
def taggedWord (t : Tagged) : BitVec 33 := BitVec.ofBool t.last ++ sampleWord t.sample

/-- A padding entry (42_fifo.md R264). -/
def padEntry : Tagged := ⟨Sample.zero, false⟩

end Sys2Proof.Machine
end

