-- ==== Sys2Proof/Machine/Commands.lean ====
section
/-! DEFINITION. The CMD family (41_commands.md R220 to R232): what each command does to the state, the command dispatch,
and the meaning of each command instruction, which is a 4-byte write to CMD that carries it. -/

namespace Sys2Proof.Machine

/-! The configuration check (R231) and latch (10_state.md R62). -/

/-- BT_MILLI, MAXP and DET_THRESH of the CFG registers. -/
def cfgBtMilli (c : Cfg) : BitVec 16 := c.bt.extractLsb' 0 16
def cfgMaxp (c : Cfg) : BitVec 16 := c.maxPayload.extractLsb' 0 16
def cfgThresh (c : Cfg) : BitVec 16 := c.detThresh.extractLsb' 0 16

/-- The code fields of CFG_CODING (10_state.md R38). -/
def cfgCrc (c : Cfg) : BitVec 4 := c.coding.extractLsb' 0 4
def cfgFecInner (c : Cfg) : BitVec 4 := c.coding.extractLsb' 4 4
def cfgFecOuter (c : Cfg) : BitVec 4 := c.coding.extractLsb' 8 4

/-- A code of 0 or 1, the only ones listed (10_state.md R38). -/
def codeListed (code : BitVec 4) : Bool := code == 0#4 || code == 1#4

/-- `check_cfg(dir)` (R231): the first failing code, or none for OK. -/
def checkCfg (dir : Dir) (s : State) : Option ErrCode :=
  let c := s.cfg
  let fs := c.sampleRate.toNat
  let rb := c.bitRate.toNat
  if fs = 0 then some .cfgSampleRate
  else if rb = 0 then some .cfgBitRate
  else if fs < rb * s.params.sps then some .cfgRatio
  else if fs ≤ 2 * c.freqOffset.toInt.natAbs then some .cfgFreqOffset
  else if (cfgBtMilli c).toNat = 0 ∨ 1000 < (cfgBtMilli c).toNat then some .cfgBt
  else if !codeListed (cfgCrc c) then some .cfgCrc
  else if !codeListed (cfgFecInner c) then some .cfgFecInner
  else if !codeListed (cfgFecOuter c) then some .cfgFecOuter
  else if (cfgMaxp c).toNat = 0 ∨ s.params.maxPayloadHw < (cfgMaxp c).toNat then some .cfgMaxPayload
  else if dir = .rx ∧ (cfgThresh c).toNat = 0 then some .cfgDetThresh
  else if dir = .tx ∧ (cfgMaxp c).toNat < s.pendLen then some .cfgPendingLen
  else none

/-- The scheme of a listed CRC code; `checkCfg` has refused every other code (log 15). -/
def crcScheme (code : BitVec 4) : CrcScheme := if code = 1#4 then .crc32 else .none

/-- The scheme of a listed FEC code; `checkCfg` has refused every other code (log 15). -/
def fecScheme (code : BitVec 4) : FecScheme := if code = 1#4 then .hamming74 else .none

/-- `latch(CFG registers)` (10_state.md R62). -/
def latch (c : Cfg) : LCfg :=
  { fs := c.sampleRate, rb := c.bitRate, foff := c.freqOffset.toInt, bt := cfgBtMilli c,
    crc := crcScheme (cfgCrc c), fecIn := fecScheme (cfgFecInner c), fecOut := fecScheme (cfgFecOuter c),
    id := c.id, timeout := c.timeout, maxp := cfgMaxp c, thresh := cfgThresh c, dump := c.dump.getLsbD 0 }

/-! The commands (R220 to R229). -/

/-- The TX engine as START_TX leaves it (R221, 43_pipeline.md R297). -/
def txInit (l : LCfg) : TxEngine :=
  { phase := .produce, gen := .wait, outbuf := [], outFrameEnd := false, outFinal := false, frameCnt := 0#32,
    modem := Config.modInit l.bt.toNat }

/-- `sync_init()` (46_synchronizer.md R420). -/
def syncInit : Synchronizer :=
  { sync := .detectFrame, cnt := 0, bits := [], hdr := List.replicate 10 0#8, hv := false, plen := 0#16, need := 0,
    det := Config.detInit, trk := Config.trkInit }

/-- What an accepted START_TX does (R221). -/
def beginTx (s : State) : State :=
  clearStats
    { s with
      lcfg := latch s.cfg, fifo := [], fifoDir := .tx, stop := none, stopReason := .none, eos := false,
      burstEnd := false, tx := txInit (latch s.cfg), pipe := pipeInitTx s.params (latch s.cfg), core := .txRun }

/-- What an accepted START_RX does (R222). -/
def beginRx (s : State) : State :=
  clearStats
    { s with
      lcfg := latch s.cfg, fifo := [], fifoDir := .rx, stop := none, stopReason := .none, burstEnd := false,
      pipe := pipeInitRx s.params (latch s.cfg), rx := syncInit, rxq := [], last := none, idle := 0#64,
      core := .rxRun }

/-- START_TX (R221). -/
def startTx (s : State) : State :=
  if s.core ≠ .idle then raiseError .state s
  else match checkCfg .tx s with
    | some code => raiseError code s
    | none => beginTx s

/-- START_RX (R222). -/
def startRx (s : State) : State :=
  if s.core ≠ .idle then raiseError .state s
  else match checkCfg .rx s with
    | some code => raiseError code s
    | none => beginRx s

/-- STOP (R223), which is a request of HOST_STOP (60_exceptions.md R476). -/
def stopTransfer (s : State) : State := requestStop .hostStop s

/-- The largest LEN that TX_COMMIT takes (R224). -/
def commitMax (s : State) : Nat :=
  if s.core = .txRun then s.lcfg.maxp.toNat else min (cfgMaxp s.cfg).toNat s.params.maxPayloadHw

/-- TX_COMMIT LEN (R224). -/
def txCommit (len : BitVec 16) (s : State) : State :=
  if s.core = .rxRun ∨ (s.core = .txRun ∧ s.eos) then raiseError .state s
  else if len.toNat = 0 ∨ commitMax s < len.toNat then raiseError .cmdArg s
  else if s.pendLen ≠ 0 then raiseError .txPending s
  else { s with pendLen := len.toNat }

/-- TX_EOS (R225). -/
def txEos (s : State) : State := if s.core ≠ .txRun then raiseError .state s else { s with eos := true }

/-- RXQ_POP (R226). -/
def rxqPop (s : State) : State := if s.rxq = [] then raiseError .rxqEmpty s else { s with rxq := s.rxq.drop 1 }

/-! The command dispatch (R232). -/

/-- A command whose whole ARG must be 0 (30_encoding.md R147). -/
def withArg0 (arg : BitVec 24) (run : State → State) (s : State) : State :=
  if arg ≠ 0#24 then raiseError .cmdArg s else run s

/-- TX_COMMIT's own argument form: bits [31:24] must be 0 (30_encoding.md R147). -/
def withRsvd0 (rsvd : BitVec 8) (run : State → State) (s : State) : State :=
  if rsvd ≠ 0#8 then raiseError .cmdArg s else run s

/-- What each opcode runs (30_encoding.md R142); opcodes above 0x09 raise ILLEGAL_CMD (R230). -/
def runCommand (opc : BitVec 8) (arg : BitVec 24) (s : State) : State :=
  if opc = 0x00#8 then withArg0 arg id s
  else if opc = 0x01#8 then withArg0 arg startTx s
  else if opc = 0x02#8 then withArg0 arg startRx s
  else if opc = 0x03#8 then withArg0 arg stopTransfer s
  else if opc = 0x04#8 then withRsvd0 (arg.extractLsb' 16 8) (txCommit (arg.extractLsb' 0 16)) s
  else if opc = 0x05#8 then withArg0 arg txEos s
  else if opc = 0x06#8 then withArg0 arg rxqPop s
  else if opc = 0x07#8 then withArg0 arg clearStats s
  else if opc = 0x08#8 then withArg0 arg clearErr s
  else if opc = 0x09#8 then withArg0 arg softReset s
  else raiseError .illegalCmd s

/-- `exec_cmd(w)` (R232). -/
def execCmdWord (w : Word) (s : State) : State := runCommand (w.extractLsb' 0 8) (w.extractLsb' 8 24) s

/-- A CMD write passes every check of the access, and answers SLVERR = 0 whatever the command does (40_bus.md R183). -/
def cmdWrite (run : State → State) (s : State) : State := respond 0#32 false (run s)

/-! The meanings of the command instructions. -/

/-- CMD NOP (R220). -/
def execCmdNop (arg : BitVec 24) (s : State) : Host.Outcome State Fault Refusal :=
  .next (cmdWrite (withArg0 arg id) s)

/-- CMD START_TX (R221). -/
def execCmdStartTx (arg : BitVec 24) (s : State) : Host.Outcome State Fault Refusal :=
  .next (cmdWrite (withArg0 arg startTx) s)

/-- CMD START_RX (R222). -/
def execCmdStartRx (arg : BitVec 24) (s : State) : Host.Outcome State Fault Refusal :=
  .next (cmdWrite (withArg0 arg startRx) s)

/-- CMD STOP (R223). -/
def execCmdStop (arg : BitVec 24) (s : State) : Host.Outcome State Fault Refusal :=
  .next (cmdWrite (withArg0 arg stopTransfer) s)

/-- CMD TX_COMMIT (R224). -/
def execCmdTxCommit (len : BitVec 16) (rsvd : BitVec 8) (s : State) : Host.Outcome State Fault Refusal :=
  .next (cmdWrite (withRsvd0 rsvd (txCommit len)) s)

/-- CMD TX_EOS (R225). -/
def execCmdTxEos (arg : BitVec 24) (s : State) : Host.Outcome State Fault Refusal :=
  .next (cmdWrite (withArg0 arg txEos) s)

/-- CMD RXQ_POP (R226). -/
def execCmdRxqPop (arg : BitVec 24) (s : State) : Host.Outcome State Fault Refusal :=
  .next (cmdWrite (withArg0 arg rxqPop) s)

/-- CMD CLEAR_STATS (R227). -/
def execCmdClearStats (arg : BitVec 24) (s : State) : Host.Outcome State Fault Refusal :=
  .next (cmdWrite (withArg0 arg clearStats) s)

/-- CMD CLEAR_ERR (R228). -/
def execCmdClearErr (arg : BitVec 24) (s : State) : Host.Outcome State Fault Refusal :=
  .next (cmdWrite (withArg0 arg clearErr) s)

/-- CMD SOFT_RESET (R229). -/
def execCmdSoftReset (arg : BitVec 24) (s : State) : Host.Outcome State Fault Refusal :=
  .next (cmdWrite (withArg0 arg softReset) s)

/-- CMD with a reserved opcode (R230): the dispatch of R232 on {ARG, OPC}. -/
def execCmdReserved (opc : BitVec 8) (arg : BitVec 24) (s : State) : Host.Outcome State Fault Refusal :=
  .next (cmdWrite (runCommand opc arg) s)

end Sys2Proof.Machine
end

