-- ==== Sys2Proof/Machine/Bus.lean ====
section
/-! DEFINITION. The BUS family: MemRead and MemWrite, and the rows that narrow them (40_bus.md R180 to R190). -/

namespace Sys2Proof.Machine

/-- `MemRead(a, n)` (R180). -/
def busRead (size : AccessSize) (addr : BitVec 14) (s : State) : State :=
  match checkAddr s.params size addr.toNat with
  | .error code => failAccess code s
  | .ok (n, t) => respond (readTarget s n t) false s

/-- IRQ_STATUS write: 1 clears (R184). -/
def writeIrqStatus (v : Word) (s : State) : State := { s with irqStatus := s.irqStatus &&& ~~~irqMask v }

/-- IRQ_ENABLE write (R185). -/
def writeIrqEnable (v : Word) (s : State) : State := { s with irqEnable := irqMask v }

/-- `write_cfg(a, v)` (R186): the defined fields are stored, reserved bits are ignored. Registers that are no CFG
register are left alone. -/
def writeCfg (hasDump : Bool) (r : Reg) (v : Word) (c : Cfg) : Cfg :=
  match r with
  | .cfgSampleRate => { c with sampleRate := v }
  | .cfgBitRate => { c with bitRate := v }
  | .cfgFreqOffset => { c with freqOffset := v }
  | .cfgBt => { c with bt := (v.extractLsb' 0 16).setWidth 32 }
  | .cfgCoding => { c with coding := (v.extractLsb' 0 12).setWidth 32 }
  | .cfgId => { c with id := v }
  | .cfgTimeout => { c with timeout := v }
  | .cfgMaxPayload => { c with maxPayload := (v.extractLsb' 0 16).setWidth 32 }
  | .cfgDetThresh => { c with detThresh := (v.extractLsb' 0 16).setWidth 32 }
  | .cfgDump => { c with dump := flagAt (v.getLsbD 0 && hasDump) 0 }
  | _ => c

/-- TXBUF write (R188), once no chunk is pending. -/
def writeTxbuf (a n : Nat) (v : Word) (s : State) : State :=
  { s with txbuf := memWriteBytes s.txbuf a (lanes n v) }

/-- What a write that has passed every check does to its target (R181). -/
def writeTarget (n : Nat) (v : Word) (t : Target) (s : State) : State :=
  match t with
  | .reg .cmd => execCmdWord v s
  | .reg .irqStatus => writeIrqStatus v s
  | .reg .irqEnable => writeIrqEnable v s
  | .reg r => { s with cfg := writeCfg s.params.hasDump r v s.cfg }
  | .txbuf a => writeTxbuf a n v s
  | .rxbuf _ => s

/-- `MemWrite(a, n, v)` (R181): the checks of the access, those of its kind, then the write. -/
def busWrite (size : AccessSize) (addr : BitVec 14) (v : Word) (s : State) : State :=
  match checkAddr s.params size addr.toNat with
  | .error code => failAccess code s
  | .ok (n, t) =>
    match checkWrite s t with
    | some code => failAccess code s
    | none => respond 0#32 false (writeTarget n v t s)

/-! The meanings. Each row runs the same transaction on the address its pattern fixes. -/

/-- MEM_READ (R180). -/
def execMemRead (size : AccessSize) (addr : BitVec 14) (s : State) : Host.Outcome State Fault Refusal :=
  .next (busRead size addr s)

/-- MEM_WRITE (R181). -/
def execMemWrite (size : AccessSize) (addr : BitVec 14) (v : Word) (s : State) : Host.Outcome State Fault Refusal :=
  .next (busWrite size addr v s)

/-- MEM_READ CSR register (R182). -/
def execMemReadCsr (off : BitVec 12) (s : State) : Host.Outcome State Fault Refusal :=
  .next (busRead .word (0#2 ++ off) s)

/-- MEM_WRITE IRQ_STATUS (R184). -/
def execMemWriteIrqStatus (v : Word) (s : State) : Host.Outcome State Fault Refusal :=
  .next (busWrite .word 0x01C#14 v s)

/-- MEM_WRITE IRQ_ENABLE (R185). -/
def execMemWriteIrqEnable (v : Word) (s : State) : Host.Outcome State Fault Refusal :=
  .next (busWrite .word 0x020#14 v s)

/-- MEM_WRITE CFG register (R186). -/
def execMemWriteCfg (off : BitVec 6) (v : Word) (s : State) : Host.Outcome State Fault Refusal :=
  .next (busWrite .word (1#8 ++ off) v s)

/-- MEM_WRITE RO register or RXBUF (R187). -/
def execMemWriteRo (size : AccessSize) (addr : BitVec 14) (v : Word) (s : State) :
    Host.Outcome State Fault Refusal :=
  .next (busWrite size addr v s)

/-- MEM_WRITE TXBUF (R188). -/
def execMemWriteTxbuf (size : AccessSize) (off : BitVec 12) (v : Word) (s : State) :
    Host.Outcome State Fault Refusal :=
  .next (busWrite size (1#2 ++ off) v s)

/-- MEM_READ TXBUF (R189). -/
def execMemReadTxbuf (size : AccessSize) (off : BitVec 12) (s : State) : Host.Outcome State Fault Refusal :=
  .next (busRead size (1#2 ++ off) s)

/-- MEM_READ RXBUF (R190). -/
def execMemReadRxbuf (size : AccessSize) (off : BitVec 12) (s : State) : Host.Outcome State Fault Refusal :=
  .next (busRead size (2#2 ++ off) s)

end Sys2Proof.Machine
end

