-- ==== Sys2Proof/Machine/Port.lean ====
section
/-! DEFINITION. The PORT family: the radio port (42_fifo.md R264, R265), the radio-fault input and the stop-all input
(60_exceptions.md R478, R479), and the idle-receive timeout that a push runs (R483). -/

namespace Sys2Proof.Machine

/-- `idle_account(L)` (60_exceptions.md R483). The test that no stop is pending is made before the request. -/
def idleAccount (n : Nat) (s : State) : State :=
  let idle := min (s.idle.toNat + n) (2 ^ 64 - 1)
  let s1 := { s with idle := BitVec.ofNat 64 idle }
  if s.lcfg.timeout ≠ 0#32 ∧ s.lcfg.timeout.toNat * s.lcfg.fs.toNat ≤ idle ∧ s.stop = none then
    irq .timeout (requestStop .timeout s1)
  else s1

/-- An underrun of `pad` samples counted (42_fifo.md R264). -/
def countUnderrun (pad : Nat) (s : State) : State :=
  irq .underrun
    { s with stats := { s.stats with
        underrunEv := s.stats.underrunEv + 1#32,
        underrunSmp := s.stats.underrunSmp + BitVec.ofNat 32 pad } }

/-- An overrun of `lost` samples counted (42_fifo.md R265). -/
def countOverrun (lost : Nat) (s : State) : State :=
  irq .overrun
    { s with stats := { s.stats with
        overrunEv := s.stats.overrunEv + 1#32,
        overrunSmp := s.stats.overrunSmp + BitVec.ofNat 32 lost } }

/-- The FIFO belongs to the receive path (42_fifo.md R264). -/
def fifoIsReceive (s : State) : Bool := s.core == .rxRun || s.fifoDir == .rx

/-- What RADIO_POP N returns (42_fifo.md R264). -/
def popResult (n : Nat) (s : State) : List Tagged :=
  if fifoIsReceive s then List.replicate n padEntry
  else popped n s ++ List.replicate (n - (popped n s).length) padEntry

/-- The burst's last entry left the FIFO (42_fifo.md R264). -/
def markBurstEnd (out : List Tagged) (s : State) : State :=
  if out.any (·.last) then emit .burstEnd (irq .burstEnd { s with burstEnd := true }) else s

/-- The pop of the transmit direction: entries leave, an underrun is counted in TX_RUN, the burst's end is marked
(42_fifo.md R264). -/
def popTransmit (n : Nat) (s : State) : State :=
  let out := popped n s
  let pad := n - out.length
  let s1 := fifoPop n s
  let s2 := if 0 < pad ∧ s.core = .txRun then countUnderrun pad s1 else s1
  markBurstEnd out s2

/-- RADIO_POP N (42_fifo.md R264). -/
def popBlock (n : Nat) (s : State) : State :=
  let res := popResult n s
  let s1 := if fifoIsReceive s then s else popTransmit n s
  emit (.radioOut res) { s1 with out := { s1.out with popped := res.map taggedWord } }

/-- The entries of a push: no entry of the receive direction carries LAST (30_encoding.md R144). -/
def pushEntries (ws : List Word) : List Tagged := ws.map (fun w => ⟨sampleOfWord w, false⟩)

/-- How many samples RADIO_PUSH ws accepts (42_fifo.md R265). -/
def acceptedCount (ws : List Word) (s : State) : Nat :=
  if s.core ≠ .rxRun then 0 else pushCount (pushEntries ws) s

/-- RADIO_PUSH ws in RX_RUN (42_fifo.md R265). -/
def pushReceive (ws : List Word) (s : State) : State :=
  let k := pushCount (pushEntries ws) s
  let s1 := fifoPush (pushEntries ws) s
  let s2 := if k < ws.length then countOverrun (ws.length - k) s1 else s1
  idleAccount ws.length s2

/-- RADIO_PUSH ws (42_fifo.md R265). -/
def pushBlock (ws : List Word) (s : State) : State :=
  let s1 := if s.core ≠ .rxRun then s else pushReceive ws s
  { s1 with out := { s1.out with accepted := acceptedCount ws s } }

/-- RADIO_FAULT (60_exceptions.md R479). -/
def radioFault (s : State) : State :=
  if s.core = .idle then s else requestStop .radioFault (raiseError .radioFault s)

/-! The meanings. -/

/-- RADIO_POP (42_fifo.md R264); N = 0 spells no operation (30_encoding.md R145). -/
def execRadioPop (n : Nat) (s : State) : Host.Outcome State Fault Refusal :=
  if n = 0 then .refused .noSuchOperation else .next (popBlock n s)

/-- RADIO_PUSH (42_fifo.md R265); an empty list spells no operation (30_encoding.md R145). -/
def execRadioPush (ws : List Word) (s : State) : Host.Outcome State Fault Refusal :=
  if ws = [] then .refused .noSuchOperation else .next (pushBlock ws s)

/-- RADIO_FAULT (60_exceptions.md R479). -/
def execRadioFault (s : State) : Host.Outcome State Fault Refusal := .next (radioFault s)

/-- PIN_STOP_ALL (60_exceptions.md R478). -/
def execPinStopAll (level : Bool) (s : State) : Host.Outcome State Fault Refusal :=
  .next { s with stopAll := level }

end Sys2Proof.Machine
end

