-- ==== Sys2Proof/Machine/RxEngine.lean ====
section
/-! DEFINITION. The RX engine step: the receive pipeline, the synchronizer and the frame decoder
(46_synchronizer.md R421 to R445). -/

namespace Sys2Proof.Machine

/-- `enter(S)` (R441). -/
def enter (st : SyncState) (s : State) : State := { s with rx := { s.rx with sync := st, cnt := 0, bits := [] } }

/-- `deliver(hdr8, pl)` (R444). -/
def deliver (hdr8 pl : List Byte) (s : State) : State :=
  irq .rxDeliver
    { s with
      rxq := s.rxq ++ [⟨hdr8, s.rx.hv, s.rx.plen, pl⟩],
      stats := { s.stats with rxDelivered := s.stats.rxDelivered + 1#32 }, idle := 0#64 }

/-- The decoded id is the latched one (R443). -/
def idMatches (s : State) : Bool := s.rx.hdr.take 4 == be32 s.lcfg.id

/-- The report a frame ends with (R443). -/
def reportOf (pv lenErr : Bool) (s : State) : Report :=
  { hdr := s.rx.hdr.take 8, len := s.rx.plen, hv := s.rx.hv, pv := pv, idm := idMatches s,
    delivered := pv && idMatches s && !lenErr, lenErr := lenErr }

/-- A counter that counts a report of one kind. -/
def tally (counted : Bool) (f : Stats → Stats) (s : State) : State := if counted then { s with stats := f s.stats } else s

/-- A counter with the interrupt bit that goes with it. -/
def countIf (counted : Bool) (b : IrqBit) (f : Stats → Stats) (s : State) : State :=
  if counted then irq b { s with stats := f s.stats } else s

/-- The counters and interrupt bits of a report, in R443's order: the innermost comes first. -/
def countReport (r : Report) (s : State) : State :=
  tally r.lenErr (fun st => { st with rxLenErr := st.rxLenErr + 1#32 })
    (countIf (!r.idm) .idMismatch (fun st => { st with rxIdMismatch := st.rxIdMismatch + 1#32 })
      (countIf (!r.pv && !r.lenErr) .payBad (fun st => { st with rxPayBad := st.rxPayBad + 1#32 })
        (countIf (!r.hv) .hdrBad (fun st => { st with rxHdrBad := st.rxHdrBad + 1#32 })
          (countIf true .rxFrame (fun st => { st with rxFrames := st.rxFrames + 1#32 }) s))))

/-- `report(pl, pv, len_err)` (R443). -/
def report (pl : List Byte) (pv lenErr : Bool) (s : State) : State :=
  let r := reportOf pv lenErr s
  let s1 := { countReport r s with last := some r }
  if r.delivered then deliver r.hdr pl s1 else s1

/-- `HB`, the bits of an encoded header block (R442). -/
def headerBits (l : LCfg) : Nat := 8 * encodedLen l 10

/-- The payload length a decoded header block declares: `BE(h10[8..9])` (R442). -/
def declaredLen (h10 : List Byte) : BitVec 16 := BitVec.ofNat 16 (beNat ((h10.drop 8).take 2))

/-- A full header block received (R442, 44_frame_codec.md R342). -/
def headerDone (s : State) : State :=
  let d := decodeBlock s.lcfg (pack s.rx.bits) 10
  let plen := declaredLen d.1
  let s1 := { s with rx := { s.rx with hdr := d.1, hv := d.2, plen := plen } }
  if plen = 0#16 ∨ s.lcfg.maxp < plen then enter .detectFrame (report [] false true s1)
  else enter .rxPayload { s1 with rx := { s1.rx with need := 8 * encodedLen s.lcfg plen.toNat } }

/-- A full payload block received (R442, 44_frame_codec.md R343). -/
def payloadDone (s : State) : State :=
  let d := decodeBlock s.lcfg (pack s.rx.bits) s.rx.plen.toNat
  enter .detectFrame (report d.1 d.2 false s)

/-- A symbol counted, and where bits are collected its hard decision appended (R442, 44_frame_codec.md R332). -/
def countSymbol (soft : Int) (s : State) : State :=
  { s with rx := { s.rx with
      cnt := s.rx.cnt + 1,
      bits := if s.rx.sync = .rxHeader ∨ s.rx.sync = .rxPayload then s.rx.bits ++ [decide (0 < soft)]
        else s.rx.bits } }

/-- `symbol(s)` (R442). -/
def symbol (soft : Int) (s : State) : State :=
  let s1 := countSymbol soft s
  match s.rx.sync with
  | .detectFrame => s1
  | .rxPreamble => if s1.rx.cnt = s.params.preRxSyms then enter .rxHeader s1 else s1
  | .rxHeader => if s1.rx.bits.length = headerBits s.lcfg then headerDone s1 else s1
  | .rxPayload => if s1.rx.bits.length = s1.rx.need then payloadDone s1 else s1

/-- `track(z)` (R421). -/
def track (z : Sample) (s : State) : State :=
  let o := Config.trkStep s.rx.trk z
  let s1 := { s with rx := { s.rx with trk := o.1 } }
  match o.2 with
  | none => s1
  | some soft => symbol soft s1

/-- The replay of an acquisition, which stops when the frame ends inside it (R421, U23). -/
def replay : List Sample → State → State
  | [], s => s
  | z :: zs, s => if s.rx.sync = .detectFrame then s else replay zs (track z s)

/-- `sync_step(y)` (R421). -/
def syncStep (y : Sample) (s : State) : State :=
  if s.rx.sync = .detectFrame then
    let d := Config.detStep s.rx.det s.lcfg.thresh.toNat y
    match d.2 with
    | none => { s with rx := { s.rx with det := d.1 } }
    | some acq =>
      replay acq.replay
        (enter .rxPreamble { s with rx := { s.rx with trk := Config.trkAcquire s.rx.trk acq, det := Config.detInit } })
  else track y s

/-- The synchronizer over the modem samples of one radio sample (R440). -/
def syncSteps : List Sample → State → State
  | [], s => s
  | y :: ys, s => syncSteps ys (syncStep y s)

/-- One FIFO entry consumed (R440). -/
def receiveSample (e : Tagged) (s : State) : State :=
  let r := rxSample s.pipe e.sample
  syncSteps r.2.2 (dumpAll .rx [r.2.1] { fifoPop 1 s with pipe := r.1 })

/-- RX_STEP (R440). Where the step is not enabled the engine holds: nothing changes (00_scope.md R11; log 2). -/
def execRxStep (s : State) : Host.Outcome State Fault Refusal :=
  if !rxEnabled s then .next s
  else if stopSeen s then .next (engineStop s)
  else match s.fifo with
    | [] => .next s
    | e :: _ => .next (receiveSample e s)

end Sys2Proof.Machine
end

