-- ==== Sys2Proof/Machine/TxEngine.lean ====
section
/-! DEFINITION. The TX engine step (45_generator.md R380 to R390). -/

namespace Sys2Proof.Machine

/-- `tag_last(xs)` (R387). -/
def tagLast : List Tagged → List Tagged
  | [] => [⟨Sample.zero, true⟩]
  | [x] => [{ x with last := true }]
  | x :: y :: xs => x :: tagLast (y :: xs)

/-- The entries of an output block (R382): untagged, but for the last of the final flush. -/
def blockEntries (ys : List Sample) (final : Bool) : List Tagged :=
  if final then tagLast (ys.map (fun y => ⟨y, false⟩)) else ys.map (fun y => ⟨y, false⟩)

/-- A list of modem samples through `tx_block`, dumped, and handed over by `out` (43_pipeline.md R298, R304;
45_generator.md R382). -/
def produceBlock (xs : List Sample) (frameEnd final : Bool) (s : State) : State :=
  let b := txBlock s.params.normLimit s.pipe xs
  let s1 := dumpAll .tx b.2 { s with pipe := b.1 }
  { s1 with tx := { s1.tx with
      outbuf := blockEntries b.2 final, outFrameEnd := frameEnd, outFinal := final, phase := .drain } }

/-- The generator state when `rest` of a frame remains (R390). -/
def genAfter (rest : List Bool) : Gen := if rest = [] then .wait else .frame rest

/-- `frame_block(syms)` (R390). -/
def frameBlock (syms : List Bool) (s : State) : State :=
  let blk := syms.take s.params.blockSyms
  let rest := syms.drop s.params.blockSyms
  let m := modulate s.tx.modem blk
  produceBlock m.2 rest.isEmpty false { s with tx := { s.tx with modem := m.1, gen := genAfter rest } }

/-- The symbols of the pending chunk's frame (R384). -/
def pendingSyms (s : State) : List Bool := frameSyms s.params s.lcfg s.tx.frameCnt (txChunk s s.pendLen)

/-- `start_frame()` (R384). -/
def startFrame (s : State) : State :=
  irq .txReady
    { s with
      tx := { s.tx with gen := .frame (pendingSyms s), modem := Config.modInit s.lcfg.bt.toNat }, pendLen := 0 }

/-- `silence_block()` (R389). -/
def silenceBlock (s : State) : State :=
  produceBlock (List.replicate (s.params.blockSyms * s.params.sps) Sample.zero) false false s

/-- `final_flush()` (R385). -/
def finalFlush (s : State) : State :=
  produceBlock (List.replicate s.params.flushLen Sample.zero) false true { s with tx := { s.tx with gen := .final } }

/-- `complete()` (R388). -/
def complete (s : State) : State :=
  let s1 := if s.tx.outFrameEnd then
      irq .txFrame { s with tx := { s.tx with frameCnt := s.tx.frameCnt + 1#32 } }
    else s
  let s2 := { s1 with tx := { s1.tx with outFrameEnd := false, phase := .produce } }
  if s2.tx.outFinal then
    irq .txDone { s2 with tx := { s2.tx with outFinal := false }, core := .idle, stopReason := .complete }
  else s2

/-- `drain()` (R386). -/
def drain (s : State) : State :=
  let k := pushCount s.tx.outbuf s
  let s1 := fifoPush s.tx.outbuf s
  let s2 := { s1 with tx := { s1.tx with outbuf := s.tx.outbuf.drop k } }
  if s2.tx.outbuf = [] then complete s2 else s2

/-- `produce()` (R383). In FINAL there is no PRODUCE: the model faults there (log 16). -/
def produce (s : State) : Host.Outcome State Fault Refusal :=
  match s.tx.gen with
  | .frame syms => .next (frameBlock syms s)
  | .wait =>
    if s.pendLen ≠ 0 then .next (frameBlock (pendingSyms s) (startFrame s))
    else if !s.eos then .next (silenceBlock s)
    else .next (finalFlush s)
  | .final => .fault .produceInFinal

/-- TX_STEP (R381). Where the step is not enabled the engine holds: nothing changes (R380, 00_scope.md R11; log 2). -/
def execTxStep (s : State) : Host.Outcome State Fault Refusal :=
  if !txEnabled s then .next s
  else if stopSeen s then .next (engineStop s)
  else if s.tx.phase = .drain then .next (drain s)
  else produce s

end Sys2Proof.Machine
end

