-- ==== Sys2Proof/Machine/Dispatch.lean ====
section
/-! DEFINITION. exec: one arm for each operation, one direct call of its meaning. -/

namespace Sys2Proof.Machine

def exec (i : Instr) (s : State) : Host.Outcome State Fault Refusal :=
  match i with
  | .memRead size addr => Sys2Proof.Machine.execMemRead size addr s
  | .memWrite size addr wdata => Sys2Proof.Machine.execMemWrite size addr wdata s
  | .memReadCsr off => Sys2Proof.Machine.execMemReadCsr off s
  | .memWriteIrqStatus wdata => Sys2Proof.Machine.execMemWriteIrqStatus wdata s
  | .memWriteIrqEnable wdata => Sys2Proof.Machine.execMemWriteIrqEnable wdata s
  | .memWriteCfg off wdata => Sys2Proof.Machine.execMemWriteCfg off wdata s
  | .memWriteRo size addr wdata => Sys2Proof.Machine.execMemWriteRo size addr wdata s
  | .memWriteTxbuf size off wdata => Sys2Proof.Machine.execMemWriteTxbuf size off wdata s
  | .memReadTxbuf size off => Sys2Proof.Machine.execMemReadTxbuf size off s
  | .memReadRxbuf size off => Sys2Proof.Machine.execMemReadRxbuf size off s
  | .cmdNop arg => Sys2Proof.Machine.execCmdNop arg s
  | .cmdStartTx arg => Sys2Proof.Machine.execCmdStartTx arg s
  | .cmdStartRx arg => Sys2Proof.Machine.execCmdStartRx arg s
  | .cmdStop arg => Sys2Proof.Machine.execCmdStop arg s
  | .cmdTxCommit len rsvd => Sys2Proof.Machine.execCmdTxCommit len rsvd s
  | .cmdTxEos arg => Sys2Proof.Machine.execCmdTxEos arg s
  | .cmdRxqPop arg => Sys2Proof.Machine.execCmdRxqPop arg s
  | .cmdClearStats arg => Sys2Proof.Machine.execCmdClearStats arg s
  | .cmdClearErr arg => Sys2Proof.Machine.execCmdClearErr arg s
  | .cmdSoftReset arg => Sys2Proof.Machine.execCmdSoftReset arg s
  | .cmdReserved opc arg => Sys2Proof.Machine.execCmdReserved opc arg s
  | .radioPop n => Sys2Proof.Machine.execRadioPop n s
  | .radioPush ws => Sys2Proof.Machine.execRadioPush ws s
  | .radioFault => Sys2Proof.Machine.execRadioFault s
  | .pinStopAll level => Sys2Proof.Machine.execPinStopAll level s
  | .txStep => Sys2Proof.Machine.execTxStep s
  | .rxStep => Sys2Proof.Machine.execRxStep s

end Sys2Proof.Machine
end

