-- ==== Sys2Proof/Machine/Step.lean ====
section
/-! DEFINITION. One step of the machine: the operation the schedule puts next, decoded and run; with nothing pending,
the enabled engine's step, or nothing (00_scope.md R4, 20_memory.md R120, 70_reset_and_hazards.md R540; log 1). -/

namespace Sys2Proof.Machine

/-- One atomic step. -/
def step (s : State) : Host.Outcome State Fault Refusal :=
  match fetch s with
  | some (w, s') =>
    match decode w with
    | .ok i => exec i s'
    | .error why => .refused (.undecodable why)
  | none =>
    match engineTurn s with
    | some i => exec i s
    | none => .next s

/-- s with the operation of a table word where step fetches its next: in the first place of `pending`. -/
def State.withFetchWord (s : State) (nbits w : Nat) : State :=
  { s with pending := tableWire nbits w :: s.pending.drop 1 }

end Sys2Proof.Machine
end

