-- ==== Sys2Proof/Machine/Dsp.lean ====
section
/-! DEFINITION. The kernel properties of 43_pipeline.md R291 that speak of the whole transmit and receive paths, and
DSP validity. They are premises a claim may take (00_scope.md R9); the model itself assumes none of them. -/

namespace Sys2Proof.Machine

/-- A legal latched configuration: what an accepted START of either direction latches (41_commands.md R231, checks 1 to 9;
the schemes of `LCfg` are checks 6 to 8). -/
def lcfgLegal (p : Params) (l : LCfg) : Prop :=
  0 < l.fs.toNat ∧ 0 < l.rb.toNat ∧ l.rb.toNat * p.sps ≤ l.fs.toNat ∧ 2 * l.foff.natAbs < l.fs.toNat ∧
  1 ≤ l.bt.toNat ∧ l.bt.toNat ≤ 1000 ∧ 1 ≤ l.maxp.toNat ∧ l.maxp.toNat ≤ p.maxPayloadHw

/-- A frame's symbols cut into blocks of n; the fuel is the length (45_generator.md R390). -/
def symBlocks (n : Nat) : Nat → List Bool → List (List Bool)
  | 0, _ => []
  | fuel + 1, syms => if syms.isEmpty then [] else syms.take n :: symBlocks n fuel (syms.drop n)

/-- The blocks of a frame modulated one after the other (45_generator.md R390). -/
def modulateBlocks : ModS → List (List Bool) → List (List Sample)
  | _, [] => []
  | m, b :: bs => (modulate m b).2 :: modulateBlocks (modulate m b).1 bs

/-- Blocks of modem samples through `tx_block` one after the other (43_pipeline.md R298). -/
def txBlocks (lim : Nat) : Pipe → List (List Sample) → Pipe × List Sample
  | p, [] => (p, [])
  | p, xs :: rest =>
    ((txBlocks lim (txBlock lim p xs).1 rest).1, (txBlock lim p xs).2 ++ (txBlocks lim (txBlock lim p xs).1 rest).2)

/-- The TX output of a symbol list, preceded by k silence blocks and followed by the final flush, which is the one ZERO of
45_generator.md R387 where its block is empty (43_pipeline.md R291). -/
def txOutput (p : Params) (l : LCfg) (k : Nat) (syms : List Bool) : List Sample :=
  let body := txBlocks p.normLimit (pipeInitTx p l)
    (List.replicate k (List.replicate (p.blockSyms * p.sps) Sample.zero) ++
      modulateBlocks (Config.modInit l.bt.toNat) (symBlocks p.blockSyms syms.length syms))
  let flush := txBlock p.normLimit body.1 (List.replicate p.flushLen Sample.zero)
  body.2 ++ (blockEntries flush.2 true).map (·.sample)

/-- Radio samples through `rx_sample` one after the other: the modem samples (43_pipeline.md R300). -/
def rxStream : Pipe → List Sample → List Sample
  | _, [] => []
  | p, x :: xs => (rxSample p x).2.2 ++ rxStream (rxSample p x).1 xs

/-- How many radio samples carry the stream up to the end of the frame's preamble, by P_RS_COUNT. -/
def preambleRadioSamples (p : Params) (l : LCfg) (k : Nat) : Nat :=
  (k * p.blockSyms + preambleLen) * p.sps * (ratio p l).1 / (ratio p l).2

/-- P_ROUNDTRIP over the offsets that satisfy `offsetOk` (43_pipeline.md R291). The configuration is one that both STARTs
accept: beside `lcfgLegal`, a threshold that is not 0 (41_commands.md R231, check 10). DEDUCED reading of "before the end
of the preamble has passed through the pipeline": before the modem samples of the radio samples up to it (log 23).
DESIGN CHOICE (log 25) for "`detStep` returns `some a` exactly once": the correlator is stepped on from its hit as it
stands, not primed again, and reports no second hit before the preamble's end, though by 46_synchronizer.md R421 the block
stops stepping it at the first hit.
DESIGN CHOICE, safe (log 24): with PRE_RX_SYMS above PREAMBLE_LEN the first outputs have a negative symbol index, for
which the spec names no symbol; nothing is asked of them. -/
def roundtripOver (p : Params) (offsetOk : Int → Prop) : Prop :=
  ∀ (l : LCfg) (k : Nat) (c : Word) (pl : List Byte),
    lcfgLegal p l → l.thresh ≠ 0#16 → offsetOk l.foff → l.thresh ≤ p.detThreshReset →
    1 ≤ pl.length → pl.length ≤ l.maxp.toNat →
    let syms := frameSyms p l c pl
    let radio := txOutput p l k syms
    let modem := rxStream (pipeInitRx p l) radio
    let searched := (rxStream (pipeInitRx p l) (radio.take (preambleRadioSamples p l k))).length
    let dets := Config.detRun l.thresh.toNat Config.detInit modem
    ∃ (n : Nat) (a : Acq),
      n < searched ∧ dets[n]? = some (some a) ∧ (∀ m b, m < searched → dets[m]? = some (some b) → m = n) ∧
      let softs := (Config.trkRun (Config.trkAcquire Config.trkInit a) (a.replay ++ modem.drop (n + 1))).filterMap id
      ∀ j : Nat,
        let index : Int := (preambleLen : Int) - (p.preRxSyms : Int) + (j : Int)
        0 ≤ index → index < syms.length →
        ∃ soft, softs[j]? = some soft ∧ syms[index.toNat]? = some (decide (0 < soft))

/-- P_ROUNDTRIP (43_pipeline.md R291). -/
def PRoundtrip (p : Params) : Prop := roundtripOver p (fun f => f = 0)

/-- P_OFFSET (43_pipeline.md R291): both directions are given the same offset, within the open bound. -/
def POffset (p : Params) : Prop := roundtripOver p (fun f => f.natAbs ≤ Config.foffBound)

/-- A valid DSP (43_pipeline.md R291). -/
structure DspValid (p : Params) : Prop where
  modLen : Config.PModLen p
  rsCount : Config.PRsCount
  rsDelay : Config.PRsDelay p
  fltZero : Config.PFltZero
  detSilent : Config.PDetSilent
  trkPace : Config.PTrkPace p
  roundtrip : PRoundtrip p
  offset : POffset p

end Sys2Proof.Machine
end

