-- ==== Sys2Proof/Machine/Schedule.lean ====
section
/-! DEFINITION. The agents, schedules without end and the runs they give, and weak fairness of the two engines
(00_scope.md R4, 70_reset_and_hazards.md R540). A schedule is no part of State: State holds the finite part of it that
waits in `pending` (log 1). -/

namespace Sys2Proof.Machine

/-- The agents (00_scope.md R4). -/
inductive Agent where
  | host | radio | pins | txe | rxe
deriving DecidableEq, Repr

/-- The agent whose step an operation is (00_scope.md R3, R4). -/
def agentOf : Instr → Agent
  | .memRead _ _ | .memWrite _ _ _ | .memReadCsr _ | .memWriteIrqStatus _ | .memWriteIrqEnable _ | .memWriteCfg _ _
  | .memWriteRo _ _ _ | .memWriteTxbuf _ _ _ | .memReadTxbuf _ _ | .memReadRxbuf _ _ | .cmdNop _ | .cmdStartTx _
  | .cmdStartRx _ | .cmdStop _ | .cmdTxCommit _ _ | .cmdTxEos _ | .cmdRxqPop _ | .cmdClearStats _ | .cmdClearErr _
  | .cmdSoftReset _ | .cmdReserved _ _ => .host
  | .radioPop _ | .radioPush _ => .radio
  | .radioFault | .pinStopAll _ => .pins
  | .txStep => .txe
  | .rxStep => .rxe

/-- A schedule without end: the operation that is taken at each time, in any order (R540). -/
abbrev Schedule := Nat → Wire

/-- s with one operation placed for step to take. -/
def State.offer (s : State) (w : Wire) : State := { s with pending := [w] }

/-- The states a schedule leads through: each is what the machine's step makes of the one before with the schedule's
operation placed. -/
def IsRun (sched : Schedule) (run : Nat → State) : Prop := ∀ n, step ((run n).offer (sched n)) = .next (run (n + 1))

/-- The agent takes the step at time n. -/
def Takes (a : Agent) (sched : Schedule) (n : Nat) : Prop := ∃ i, decode (sched n) = .ok i ∧ agentOf i = a

/-- Weak fairness of an agent: where its step stays enabled it is eventually taken (R540). -/
def WeaklyFairTo (a : Agent) (enabled : State → Bool) (sched : Schedule) (run : Nat → State) : Prop :=
  ∀ n, (∀ m, n ≤ m → enabled (run m) = true) → ∃ m, n ≤ m ∧ Takes a sched m

/-- A fair run: TXE and RXE are weakly fair; HOST, RADIO and PINS are the environment, with no fairness assumed
(R540). -/
structure FairRun (sched : Schedule) (run : Nat → State) : Prop where
  steps : IsRun sched run
  tx : WeaklyFairTo .txe txEnabled sched run
  rx : WeaklyFairTo .rxe rxEnabled sched run

/-- The running engine takes a step of its own at time n. -/
def OwnStep (sched : Schedule) (run : Nat → State) (n : Nat) : Prop :=
  ((run n).core = .txRun ∧ Takes .txe sched n) ∨ ((run n).core = .rxRun ∧ Takes .rxe sched n)

/-- The FIFO entries that RXE consumes in the step that takes w (46_synchronizer.md R440). -/
def consumedBy (w : Wire) (s : State) : List Tagged :=
  match decode w with
  | .ok i => if agentOf i = .rxe ∧ rxEnabled s = true ∧ stopSeen s = false then s.fifo.take 1 else []
  | .error _ => []

/-- The entries RXE consumes from time n on, over `len` steps, in order. -/
def consumed (sched : Schedule) (run : Nat → State) (n len : Nat) : List Tagged :=
  (List.range len).flatMap (fun k => consumedBy (sched (n + k)) (run (n + k)))

/-- How many chunks were committed in the first n steps: the pending length becomes non-zero by a TX_COMMIT alone
(41_commands.md R224). -/
def commits (run : Nat → State) (n : Nat) : Nat :=
  (List.range n).countP (fun k => (run k).pendLen == 0 && (run (k + 1)).pendLen != 0)

/-- The frames of a transmit transfer that are committed and not yet counted by `st.frame_cnt`: the pending chunk, the
frame in the generator, the frame whose last block is draining (45_generator.md R383, R388). -/
def framesOwed (s : State) : Nat :=
  (if s.pendLen ≠ 0 then 1 else 0) +
  (match s.tx.gen with
    | .frame _ => 1
    | .wait | .final => 0) +
  (if s.tx.phase = .drain ∧ s.tx.outFrameEnd = true then 1 else 0)

end Sys2Proof.Machine
end

