-- ==== Sys2Proof/Safety.lean ====
section
/-! DEFINITION. What counts as a good state and a safe run, in the terms the statements use. Each invariant cites the
rules it comes from; none rests on a value that the log names. -/

namespace Sys2Proof.Machine

/-- TXBUF's memory is canonical and holds addresses of the TXBUF window only (10_state.md R58, 20_memory.md R100). -/
def MemoryOk (s : State) : Prop :=
  memWf s.txbuf = true ∧ ∀ c ∈ s.txbuf, txbufBase ≤ c.1 ∧ c.1 < txbufBase + s.params.maxPayloadHw

/-- `0 ≤ size() ≤ FIFO_CAP` (42_fifo.md R260). -/
def FifoOk (s : State) : Prop := s.fifo.length ≤ s.params.fifoCap

/-- During a transfer the FIFO belongs to its direction (10_state.md R66; 41_commands.md R221, R222). -/
def DirOk (s : State) : Prop := (s.core = .txRun → s.fifoDir = .tx) ∧ (s.core = .rxRun → s.fifoDir = .rx)

/-- An ERR word the block can hold: clear, or VALID with a code of R470, OVF set or not (10_state.md R31). -/
def errWord (code : ErrCode) (ovf : Bool) : Word := flagAt true 31 ||| (errCode code).setWidth 32 ||| flagAt ovf 8

/-- The reserved bits of every register with storage read 0, and ERR holds no code outside R470
(10_state.md R31 to R43, 60_exceptions.md R470). -/
structure RegsOk (s : State) : Prop where
  err : s.err = 0#32 ∨ ∃ code ovf, s.err = errWord code ovf
  irqStatus : irqMask s.irqStatus = s.irqStatus
  irqEnable : irqMask s.irqEnable = s.irqEnable
  bt : (s.cfg.bt.extractLsb' 0 16).setWidth 32 = s.cfg.bt
  coding : (s.cfg.coding.extractLsb' 0 12).setWidth 32 = s.cfg.coding
  maxPayload : (s.cfg.maxPayload.extractLsb' 0 16).setWidth 32 = s.cfg.maxPayload
  detThresh : (s.cfg.detThresh.extractLsb' 0 16).setWidth 32 = s.cfg.detThresh
  dump : flagAt (s.cfg.dump.getLsbD 0 && s.params.hasDump) 0 = s.cfg.dump

/-- Outside IDLE the latched configuration is one START accepts, and a pending chunk of a transmit transfer fits it
(41_commands.md R224, R231; 45_generator.md R384). -/
def TransferOk (s : State) : Prop :=
  (s.core ≠ .idle → lcfgLegal s.params s.lcfg) ∧ (s.core = .txRun → s.pendLen ≤ s.lcfg.maxp.toNat) ∧
  s.pendLen ≤ s.params.maxPayloadHw

/-- No stop request is pending while IDLE (60_exceptions.md R476, R477). -/
def StopOk (s : State) : Prop := s.core = .idle → s.stop = none

/-- The generator's states in TX_RUN (45_generator.md R383, R388): nothing waits in the output block while it produces,
and FINAL stands exactly while the final flush drains. -/
def GenOk (s : State) : Prop :=
  s.core = .txRun →
    (s.tx.phase = .produce → s.tx.gen ≠ .final ∧ s.tx.outFinal = false ∧ s.tx.outbuf = []) ∧
    (s.tx.phase = .drain → (s.tx.gen = .final ↔ s.tx.outFinal = true))

/-- No entry of a list but its newest carries LAST. -/
def OnlyNewestLast (xs : List Tagged) : Prop := ∀ e ∈ xs.dropLast, e.last = false

/-- No entry of a list carries LAST. -/
def NoneLast (xs : List Tagged) : Prop := ∀ e ∈ xs, e.last = false

/-- Where LAST can stand: on the newest entry of the FIFO and in IDLE only, and in an output block on the newest entry
of the final flush (30_encoding.md R144, 42_fifo.md R264, 45_generator.md R387). -/
structure LastOk (s : State) : Prop where
  fifo : OnlyNewestLast s.fifo
  running : s.core ≠ .idle → NoneLast s.fifo
  outbuf : OnlyNewestLast s.tx.outbuf
  notFinal : s.tx.outFinal = false → NoneLast s.tx.outbuf

/-- The synchronizer's counts in RX_RUN (46_synchronizer.md R442, R450): what is counted is what was collected, and no
count reaches the length that ends its state. -/
def SyncOk (s : State) : Prop :=
  s.rx.hdr.length = 10 ∧
  (s.core = .rxRun →
    match s.rx.sync with
    | .detectFrame => s.rx.cnt = 0 ∧ s.rx.bits = []
    | .rxPreamble => s.rx.cnt < s.params.preRxSyms ∧ s.rx.bits = []
    | .rxHeader => s.rx.bits.length = s.rx.cnt ∧ s.rx.cnt < headerBits s.lcfg
    | .rxPayload => s.rx.bits.length = s.rx.cnt ∧ s.rx.cnt < s.rx.need ∧
        s.rx.need = 8 * encodedLen s.lcfg s.rx.plen.toNat ∧ 1 ≤ s.rx.plen.toNat ∧
        s.rx.plen.toNat ≤ s.lcfg.maxp.toNat)

/-- A record as 46_synchronizer.md R445 and 10_state.md R71 describe it. -/
def RecordOk (p : Params) (r : Record) : Prop :=
  r.hdr.length = 8 ∧ r.payload.length = r.len.toNat ∧ 1 ≤ r.len.toNat ∧ r.len.toNat ≤ p.maxPayloadHw

/-- Every queued record is well shaped (46_synchronizer.md R445). -/
def QueueOk (s : State) : Prop := ∀ r ∈ s.rxq, RecordOk s.params r

/-- In RX_RUN every queued record carries the latched id (46_synchronizer.md R448). -/
def QueueIdsOk (s : State) : Prop := s.core = .rxRun → ∀ r ∈ s.rxq, r.hdr.take 4 = be32 s.lcfg.id

/-- At most RXQ_DEPTH records are queued (10_state.md R71). -/
def QueueBounded (s : State) : Prop := s.rxq.length ≤ s.params.rxqDepth

/-- Everything of a state that only the synchronizer's and the receive path's records need together. -/
structure ReceiveOk (s : State) : Prop where
  legal : s.params.legal = true
  transfer : TransferOk s
  sync : SyncOk s
  queue : QueueOk s

/-- A safe outcome: the machine did not fault. -/
def NoFault (o : Host.Outcome State Fault Refusal) : Prop := ∀ f, o ≠ .fault f

/-- The operations one after the other, each as one atomic step (20_memory.md R120); none where one of them stops. -/
def runOps : List Instr → State → Option State
  | [], s => some s
  | i :: is, s =>
    match exec i s with
    | .next t => runOps is t
    | .fault _ => none
    | .refused _ => none

/-- Two states that differ at most in what reset leaves unspecified and START sets before it is read: the latched
configuration, the modulator, the pipeline and the two synchronizer kernels (70_reset_and_hazards.md R520). -/
def AgreeButUnspecified (s t : State) : Prop :=
  t = { s with
    lcfg := t.lcfg, tx := { s.tx with modem := t.tx.modem }, pipe := t.pipe,
    rx := { s.rx with det := t.rx.det, trk := t.rx.trk } }

/-- TXBUF reads the same at every bus byte address. -/
def SameTxbuf (s t : State) : Prop := ∀ a, txByte t a = txByte s a

/-- The value every element that 70_reset_and_hazards.md R520 lists has after a reset. -/
structure AtReset (t : State) : Prop where
  core : t.core = .idle
  stop : t.stop = none ∧ t.stopReason = .none
  pendLen : t.pendLen = 0
  txbuf : ∀ a, txByte t a = Config.txbufDraw t.draws a
  flags : t.eos = false ∧ t.burstEnd = false
  fifo : t.fifo = [] ∧ t.fifoDir = .tx
  tx : t.tx.phase = .produce ∧ t.tx.gen = .wait ∧ t.tx.outbuf = [] ∧ t.tx.outFrameEnd = false ∧
    t.tx.outFinal = false ∧ t.tx.frameCnt = 0#32
  rx : t.rx.sync = .detectFrame ∧ t.rx.cnt = 0 ∧ t.rx.bits = [] ∧ t.rx.hdr = List.replicate 10 0#8 ∧
    t.rx.hv = false ∧ t.rx.plen = 0#16 ∧ t.rx.need = 0
  queue : t.rxq = [] ∧ t.last = none
  stats : t.stats = ⟨0#32, 0#32, 0#32, 0#32, 0#32, 0#32, 0#32, 0#32, 0#32, 0#32⟩
  idle : t.idle = 0#64
  control : t.err = 0#32 ∧ t.irqStatus = 0#32 ∧ t.irqEnable = 0#32
  cfg : t.cfg = ⟨0#32, 0#32, 0#32, 0x1F4#32, 0x1#32, 0#32, 0#32, BitVec.ofNat 32 t.params.maxPayloadHw,
    t.params.detThreshReset.setWidth 32, 0#32⟩

/-! What an operation is on the bus (30_encoding.md R140, R152; 40_bus.md R183). -/

/-- The bus write an operation is; a command is the 4-byte write of its word to CMD. -/
def busWriteOf : Instr → Option (AccessSize × BitVec 14 × Word)
  | .memWrite size addr v => some (size, addr, v)
  | .memWriteIrqStatus v => some (.word, 0x01C#14, v)
  | .memWriteIrqEnable v => some (.word, 0x020#14, v)
  | .memWriteCfg off v => some (.word, 1#8 ++ off, v)
  | .memWriteRo size addr v => some (size, addr, v)
  | .memWriteTxbuf size off v => some (size, 1#2 ++ off, v)
  | .cmdNop arg => some (.word, 0x010#14, arg ++ 0x00#8)
  | .cmdStartTx arg => some (.word, 0x010#14, arg ++ 0x01#8)
  | .cmdStartRx arg => some (.word, 0x010#14, arg ++ 0x02#8)
  | .cmdStop arg => some (.word, 0x010#14, arg ++ 0x03#8)
  | .cmdTxCommit len rsvd => some (.word, 0x010#14, (rsvd ++ len) ++ 0x04#8)
  | .cmdTxEos arg => some (.word, 0x010#14, arg ++ 0x05#8)
  | .cmdRxqPop arg => some (.word, 0x010#14, arg ++ 0x06#8)
  | .cmdClearStats arg => some (.word, 0x010#14, arg ++ 0x07#8)
  | .cmdClearErr arg => some (.word, 0x010#14, arg ++ 0x08#8)
  | .cmdSoftReset arg => some (.word, 0x010#14, arg ++ 0x09#8)
  | .cmdReserved opc arg => some (.word, 0x010#14, arg ++ opc)
  | .memRead _ _ | .memReadCsr _ | .memReadTxbuf _ _ | .memReadRxbuf _ _ | .radioPop _ | .radioPush _ | .radioFault
  | .pinStopAll _ | .txStep | .rxStep => none

/-- The bus read an operation is. -/
def busReadOf : Instr → Option (AccessSize × BitVec 14)
  | .memRead size addr => some (size, addr)
  | .memReadCsr off => some (.word, 0#2 ++ off)
  | .memReadTxbuf size off => some (size, 1#2 ++ off)
  | .memReadRxbuf size off => some (size, 2#2 ++ off)
  | .memWrite _ _ _ | .memWriteIrqStatus _ | .memWriteIrqEnable _ | .memWriteCfg _ _ | .memWriteRo _ _ _
  | .memWriteTxbuf _ _ _ | .cmdNop _ | .cmdStartTx _ | .cmdStartRx _ | .cmdStop _ | .cmdTxCommit _ _ | .cmdTxEos _
  | .cmdRxqPop _ | .cmdClearStats _ | .cmdClearErr _ | .cmdSoftReset _ | .cmdReserved _ _ | .radioPop _
  | .radioPush _ | .radioFault | .pinStopAll _ | .txStep | .rxStep => none

/-! The liveness claims of 70_reset_and_hazards.md R540. Each names what it assumes of the environment. -/

/-- The host writes SOFT_RESET at no time. -/
def NeverReset (sched : Schedule) : Prop :=
  ∀ n i, decode (sched n) = .ok i → busWriteOf i ≠ some (.word, 0x010#14, 0x09#32)

/-- Stop latency: once a stop is requested, or while the stop-all input is high, the running engine is IDLE within one of
its own steps: a time comes when the block is IDLE, and no step of the engine's own lies between the request and the step
that brings it there. A START that follows comes after that time, since START is refused outside IDLE. -/
def StopLatency : Prop :=
  ∀ (sched : Schedule) (run : Nat → State) (n : Nat), FairRun sched run → (run n).core ≠ .idle →
    ((run n).stop ≠ none ∨ ∀ m, n ≤ m → (run m).stopAll = true) →
    ∃ m, n ≤ m ∧ (run (m + 1)).core = .idle ∧ (∀ l, n ≤ l → l ≤ m → (run l).core = (run n).core) ∧
      ∀ l, n ≤ l → l < m → ¬ OwnStep sched run l

/-- TX progress: from a state of a transmit transfer that the generator's rules allow, if RADIO pops infinitely often, the
host issues TX_EOS, and neither a stop nor a SOFT_RESET intervenes, the transfer reaches COMPLETE, and the frame counter
has gone up by one for each frame that was owed at the start and each chunk committed since. -/
def TxProgress : Prop :=
  ∀ (sched : Schedule) (run : Nat → State), FairRun sched run → (run 0).params.legal = true → (run 0).core = .txRun →
    FifoOk (run 0) → DirOk (run 0) → GenOk (run 0) →
    ((run 0).tx.gen = .final → (run 0).eos = true ∧ (run 0).pendLen = 0) →
    NeverReset sched → (∀ n, (run n).core = .txRun → stopSeen (run n) = false) →
    (∀ n, ∃ m, n ≤ m ∧ ∃ k, decode (sched m) = .ok (.radioPop k)) → (∃ n, (run n).eos = true) →
    ∃ m, (∀ l, l < m → (run l).core = .txRun) ∧ (run m).core = .idle ∧ (run m).stopReason = .complete ∧
      (run m).tx.frameCnt = (run 0).tx.frameCnt + BitVec.ofNat 32 (framesOwed (run 0) + commits run m)

/-- RX progress: while a receive transfer goes on and the host pops the output queue whenever it is not empty, every entry
in the FIFO, that is every sample pushed without overrun, is eventually consumed by RXE, in order. -/
def RxProgress : Prop :=
  ∀ (sched : Schedule) (run : Nat → State) (n : Nat), FairRun sched run → (run n).params.legal = true →
    (∀ m, n ≤ m → (run m).core = .rxRun ∧ stopSeen (run m) = false) →
    (∀ m, n ≤ m → (run m).rxq ≠ [] → ∃ l, m ≤ l ∧ decode (sched l) = .ok (.cmdRxqPop 0#24)) →
    ∃ len, (run n).fifo <+: consumed sched run n len

/-- Every byte of an n-byte access at a lies in one of the three places an access may reach: the listed registers,
TXBUF, RXBUF (20_memory.md R100, R106). -/
def Reaches (p : Params) (a n : Nat) : Prop :=
  (∀ b, a ≤ b → b < a + n → ∃ e ∈ regTable, e.1 ≤ b ∧ b < e.1 + 4) ∨
  (0x1000 ≤ a ∧ a + n ≤ 0x1000 + p.maxPayloadHw) ∨ (0x2000 ≤ a ∧ a + n ≤ 0x2000 + p.maxPayloadHw)

/-- The registers whose read value is one element of the state, or 0 or a constant, with their offsets
(40_bus.md R182; 10_state.md R22 to R50). -/
def plainRegisters : List (BitVec 12 × (State → Word)) :=
  [(0x000#12, fun _ => 0x474D534B#32), (0x004#12, fun s => s.params.hwVersion), (0x010#12, fun _ => 0#32),
   (0x018#12, fun s => s.err), (0x01C#12, fun s => s.irqStatus), (0x020#12, fun s => s.irqEnable),
   (0x040#12, fun s => s.cfg.sampleRate), (0x044#12, fun s => s.cfg.bitRate), (0x048#12, fun s => s.cfg.freqOffset),
   (0x04C#12, fun s => s.cfg.bt), (0x050#12, fun s => s.cfg.coding), (0x054#12, fun s => s.cfg.id),
   (0x058#12, fun s => s.cfg.timeout), (0x05C#12, fun s => s.cfg.maxPayload), (0x060#12, fun s => s.cfg.detThresh),
   (0x064#12, fun s => s.cfg.dump), (0x080#12, fun s => s.tx.frameCnt),
   (0x090#12, fun s => s.stats.underrunEv), (0x094#12, fun s => s.stats.underrunSmp),
   (0x098#12, fun s => s.stats.overrunEv), (0x09C#12, fun s => s.stats.overrunSmp),
   (0x0A0#12, fun s => s.stats.rxFrames), (0x0A4#12, fun s => s.stats.rxHdrBad),
   (0x0A8#12, fun s => s.stats.rxPayBad), (0x0AC#12, fun s => s.stats.rxIdMismatch),
   (0x0B0#12, fun s => s.stats.rxDelivered), (0x0B4#12, fun s => s.stats.rxLenErr),
   (0x0B8#12, fun s => s.idle.extractLsb' 0 32), (0x0BC#12, fun s => s.idle.extractLsb' 32 32)]

/-- The registers that show a count or a field of a report or a record, with their offsets (10_state.md R25, R46, R47,
R52, R54, R55). A count is what the register shows where it fits the register's field. -/
def countRegisters : List (BitVec 12 × (State → Nat) × Nat) :=
  [(0x008#12, fun s => s.params.fifoCap, 32), (0x084#12, fun s => s.pendLen, 13), (0x088#12, fun s => s.fifo.length, 32),
   (0x0D0#12, fun s => s.last.elim 0 (fun r => beNat (r.hdr.take 4)), 32),
   (0x0D4#12, fun s => s.last.elim 0 (fun r => beNat ((r.hdr.drop 4).take 4)), 32),
   (0x0D8#12, fun s => s.last.elim 0 (fun r => r.len.toNat), 16), (0x0E0#12, fun s => s.rxq.length, 16),
   (0x0E4#12, fun s => s.rxq.head?.elim 0 (fun r => beNat (r.hdr.take 4)), 32),
   (0x0E8#12, fun s => s.rxq.head?.elim 0 (fun r => beNat ((r.hdr.drop 4).take 4)), 32),
   (0x0EC#12, fun s => s.rxq.head?.elim 0 (fun r => r.len.toNat), 16)]

/-- The order and the codes of the configuration check: the conditions that refuse a START, each with its error
(41_commands.md R231). -/
def configFailures (dir : Dir) (s : State) : List (Prop × ErrCode) :=
  [(s.cfg.sampleRate.toNat = 0, .cfgSampleRate), (s.cfg.bitRate.toNat = 0, .cfgBitRate),
   (s.cfg.sampleRate.toNat < s.cfg.bitRate.toNat * s.params.sps, .cfgRatio),
   ((s.cfg.sampleRate.toNat : Int) ≤ 2 * |s.cfg.freqOffset.toInt|, .cfgFreqOffset),
   ((s.cfg.bt.extractLsb' 0 16).toNat = 0 ∨ 1000 < (s.cfg.bt.extractLsb' 0 16).toNat, .cfgBt),
   (1 < (s.cfg.coding.extractLsb' 0 4).toNat, .cfgCrc), (1 < (s.cfg.coding.extractLsb' 4 4).toNat, .cfgFecInner),
   (1 < (s.cfg.coding.extractLsb' 8 4).toNat, .cfgFecOuter),
   ((s.cfg.maxPayload.extractLsb' 0 16).toNat = 0 ∨
      s.params.maxPayloadHw < (s.cfg.maxPayload.extractLsb' 0 16).toNat, .cfgMaxPayload),
   (dir = .rx ∧ (s.cfg.detThresh.extractLsb' 0 16).toNat = 0, .cfgDetThresh),
   (dir = .tx ∧ (s.cfg.maxPayload.extractLsb' 0 16).toNat < s.pendLen, .cfgPendingLen)]

/-- None of a list's conditions holds. -/
def NoneHolds (cs : List (Prop × ErrCode)) : Prop := ∀ c ∈ cs, ¬ c.1

/-- A list's first condition that holds stands at this error. -/
def FirstHolds (cs : List (Prop × ErrCode)) (code : ErrCode) : Prop :=
  ∃ before c after, cs = before ++ c :: after ∧ NoneHolds before ∧ c.1 ∧ c.2 = code

end Sys2Proof.Machine
end

