-- ==== Sys2Proof/Certificates/Slice0/Obligations.lean ====
section
/-! DEFINITION. The statements for the provers. Each says in its docstring which rule of spec/ it formalises. A result
statement gives the whole next state as an equation, so everything it does not name is unchanged; `respond` is the bus
response of 20_memory.md R102 and touches `out` alone, and `failAccess` and `raiseError` are pinned by
`FailedAccessOnlyRecordsItsError` and `RaiseErrorRecordsTheFirstCode`. -/

open Sys2Proof Sys2Proof.Machine

/-! Decoding and encoding (30_encoding.md). -/

/-- Decode and encode agree on every well-formed operation (30_encoding.md R140, R145, R152). -/
def Obligations.EncodeThenDecodeReturnsTheOperation : Prop :=
  ∀ i : Instr, i.wellFormed = true → decode (encode i) = .ok i

/-- Every 49-bit descriptor decodes, to a well-formed operation that encodes to the same bits, a read's ignored WDATA
apart (30_encoding.md R140, R152). -/
def Obligations.EveryDescriptorIsOneOperation : Prop :=
  ∀ txn : BitVec 49, ∃ i : Instr, decode (busWire txn) = .ok i ∧ i.wellFormed = true ∧
    (txn.getLsbD 48 = true → encode i = busWire txn) ∧
    (txn.getLsbD 48 = false → encode i = busWire (txn.extractLsb' 32 17 ++ 0#32))

/-- Words of opcode_table.json and 95_test_vectors.md decode to the operations they stand for. Two clauses are the model's
choice: that a word which two rows match stands for the narrower one (`memReadCsr`, `memWriteRo`, `memWriteIrqStatus`,
`memWriteTxbuf` and `memReadRxbuf`, not `memRead` or `memWrite`) is log 4; the table word of a port row, and the wire forms
`stepTx` and `stepRx` of the engine steps, which 30_encoding.md R151 gives no encoding, are log 3. -/
def Obligations.SpecWordsDecode : Prop :=
  decodeTableWord 49 0x1801000000001 = some (.cmdStartTx 0#24) ∧
  decodeTableWord 49 0x1801000001104 = some (.cmdTxCommit 17#16 0#8) ∧
  decodeTableWord 49 0x18010000000FF = some (.cmdReserved 0xFF#8 0#24) ∧
  decodeTableWord 49 0x0800000000000 = some (.memReadCsr 0x000#12) ∧
  decodeTableWord 49 0x0400000000000 = some (.memRead .half 0x0000#14) ∧
  decodeTableWord 49 0x1802400000000 = some (.memWrite .word 0x0024#14 0#32) ∧
  decodeTableWord 49 0x1801400000000 = some (.memWriteRo .word 0x0014#14 0#32) ∧
  decodeTableWord 49 0x1801C00000001 = some (.memWriteIrqStatus 1#32) ∧
  decodeTableWord 49 0x1900054534554 = some (.memWriteTxbuf .word 0x000#12 0x54534554#32) ∧
  decodeTableWord 49 0x0A01000000000 = some (.memReadRxbuf .word 0x010#12) ∧
  decodeTableWord 2 2 = some .radioFault ∧
  decode .stepTx = .ok .txStep ∧ decode .stepRx = .ok .rxStep

/-! The step (00_scope.md R4, 20_memory.md R120). -/

/-- A step runs the operation the schedule puts next, in the state with that operation taken off the schedule, and
adds nothing to it; what is no operation is refused. That the schedule is a list in the state is the model's choice
(log 1). -/
def Obligations.StepRunsTheDecodedOperation : Prop :=
  ∀ (s : State) (w : Wire) (rest : List Wire), s.pending = w :: rest →
    (∀ i, decode w = .ok i → step s = exec i { s with pending := rest }) ∧
    (∀ e, decode w = .error e → step s = .refused (.undecodable e))

/-- What the engines do where the schedule leaves it to them. With nothing scheduled, the engine whose step is enabled
moves, and with neither enabled nothing changes: the model's choice (log 1). And on every schedule without end, in any
order of the agents, that is weakly fair to TXE and RXE, the three liveness claims of 70_reset_and_hazards.md R540 hold,
each under the environment assumption it names: `StopLatency`, `TxProgress` and `RxProgress`. That a run takes its
operations one by one through `pending` is the model's choice (log 1). -/
def Obligations.EmptyScheduleRunsTheEnabledEngine : Prop :=
  (∀ s : State, s.pending = [] →
    (txEnabled s = true → step s = exec .txStep s) ∧ (rxEnabled s = true → step s = exec .rxStep s) ∧
    (txEnabled s = false → rxEnabled s = false → step s = .next s)) ∧
  StopLatency ∧ TxProgress ∧ RxProgress

/-- No well-formed operation stops the machine in a state whose generator is consistent: errors are recorded and the
block goes on (60_exceptions.md R473; `GenOk` is kept by every step, `EngineStateStaysConsistent`). RADIO_POP of no
samples and RADIO_PUSH of an empty list spell no operation and are refused (30_encoding.md R145). -/
def Obligations.EveryWellFormedOperationCompletes : Prop :=
  (∀ (i : Instr) (s : State), i.wellFormed = true → GenOk s → ∃ t, exec i s = .next t) ∧
  ∀ s : State, exec (.radioPop 0) s = .refused .noSuchOperation ∧ exec (.radioPush []) s = .refused .noSuchOperation

/-! Reset (70_reset_and_hazards.md R520). -/

/-- The power-on reset sets every listed element to its value, empties `hist` and leaves the stop-all input alone
(70_reset_and_hazards.md R520). That TXBUF reads the free value of its draw is the model's form of 'drawn' (log 9). -/
def Obligations.PowerOnLeavesTheStatedValues : Prop :=
  (∀ (p : Params) (level : Bool), AtReset (State.powerOn p level) ∧ (State.powerOn p level).hist = [] ∧
    (State.powerOn p level).stopAll = level ∧ (State.powerOn p level).params = p) ∧
  AtReset State.reset ∧ State.reset.hist = []

/-- SOFT_RESET applies the reset to all state except `hist` and the input pin (41_commands.md R229). That the model's own
fields, the parameters, the schedule and the port outputs, stay is the model's choice (log 20). -/
def Obligations.SoftResetKeepsOnlyHistoryAndPin : Prop :=
  ∀ s : State, ∃ t, exec (.cmdSoftReset 0#24) s = .next t ∧ AtReset t ∧ t.hist = s.hist ∧ t.stopAll = s.stopAll ∧
    t.params = s.params ∧ t.pending = s.pending ∧ t.out = { s.out with rdata := 0#32, slverr := false }

/-- The state after power-on reset meets every invariant; the defaults and the low input of `State.reset` are the model's
choice (logs 6 and 12). -/
def Obligations.ResetMeetsEveryInvariant : Prop :=
  (∀ (p : Params) (level : Bool), p.legal = true →
    MemoryOk (State.powerOn p level) ∧ FifoOk (State.powerOn p level) ∧ RegsOk (State.powerOn p level) ∧
    DirOk (State.powerOn p level) ∧ StopOk (State.powerOn p level) ∧ GenOk (State.powerOn p level) ∧ LastOk (State.powerOn p level) ∧
    ReceiveOk (State.powerOn p level) ∧ QueueIdsOk (State.powerOn p level) ∧ QueueBounded (State.powerOn p level)) ∧
  State.reset.params.legal = true ∧ State.reset = State.powerOn Params.default false

/-! Errors (60_exceptions.md R470, R471). -/

/-- `raise Error(code)` records the first code, sets OVF for a later one, sets IRQ_STATUS.ERROR, emits the event and
changes nothing else (60_exceptions.md R471). -/
def Obligations.RaiseErrorRecordsTheFirstCode : Prop :=
  ∀ (code : ErrCode) (s : State),
    (s.err.getLsbD 31 = false → raiseError code s = { s with
      err := 0x80000000#32 ||| (errCode code).setWidth 32, irqStatus := s.irqStatus ||| 0x1000#32,
      hist := s.hist ++ [.err code] }) ∧
    (s.err.getLsbD 31 = true → raiseError code s = { s with
      err := s.err ||| 0x100#32, irqStatus := s.irqStatus ||| 0x1000#32, hist := s.hist ++ [.err code] })

/-- While an error is recorded, every operation but CLEAR_ERR and SOFT_RESET keeps ERR as it is, but for OVF, which a
further error sets with IRQ_STATUS.ERROR (60_exceptions.md R474). -/
def Obligations.ErrKeepsTheFirstCode : Prop :=
  ∀ (i : Instr) (s t : State), exec i s = .next t → s.err.getLsbD 31 = true →
    (∀ size w, busWriteOf i = some (size, 0x010#14, w) → w ≠ 0x08#32 ∧ w ≠ 0x09#32) →
    (∀ code, t.hist = s.hist ++ [.err code] → t.err = s.err ||| 0x100#32 ∧ t.irqStatus.getLsbD 12 = true) ∧
    ((∀ code, t.hist ≠ s.hist ++ [.err code]) → t.err = s.err)

/-! Bus reads (40_bus.md R180, R182, R189, R190). -/

/-- A 4-byte read of a register returns the state element its rule names and changes nothing else (40_bus.md R182): the
registers that are one element, and those that show a count that fits its field. -/
def Obligations.RegisterReadsReturnTheirState : Prop :=
  ∀ (s : State) (off : BitVec 12) (i : Instr), i = .memReadCsr off ∨ i = .memRead .word (0#2 ++ off) →
    (∀ get, (off, get) ∈ plainRegisters → exec i s = .next (respond (get s) false s)) ∧
    (∀ get w, (off, get, w) ∈ countRegisters → get s < 2 ^ w →
      exec i s = .next (respond (BitVec.ofNat 32 (get s)) false s))

/-- A read of STATUS returns every field of its layout, computed from the state (10_state.md R28, R29, R30). -/
def Obligations.StatusReadShowsEveryField : Prop :=
  ∀ s : State, ∃ w : Word, exec (.memReadCsr 0x014#12) s = .next (respond w false s) ∧
    (w.extractLsb' 0 3).toNat = (match s.core with | .idle => 0 | .txRun => 1 | .rxRun => 2) ∧
    w.getLsbD 3 = decide (s.pendLen ≠ 0) ∧ w.getLsbD 4 = s.eos ∧ w.getLsbD 5 = decide (s.stop ≠ none) ∧
    w.getLsbD 6 = s.burstEnd ∧ w.getLsbD 7 = decide (s.fifo.length = 0) ∧
    w.getLsbD 8 = decide (s.fifo.length = s.params.fifoCap) ∧ w.getLsbD 9 = decide (0 < s.rxq.length) ∧
    w.getLsbD 10 = s.err.getLsbD 31 ∧ w.getLsbD 11 = decide (s.core = .txRun ∧ s.tx.phase = .drain) ∧
    (w.extractLsb' 12 3).toNat = (match s.stopReason with
      | .none => 0 | .hostStop => 1 | .stopAll => 2 | .complete => 3 | .timeout => 4 | .radioFault => 5) ∧
    w.getLsbD 15 = s.stopAll ∧ w.extractLsb' 16 16 = 0#16

/-- Reads of SYNC_STATUS, LAST_FLAGS and RXQ_FLAGS return every field of their layouts (10_state.md R51, R53, R56), and
a read of PARAM_MISC does where SPS fits its 8 bits and MAX_PAYLOAD_HW is legal (10_state.md R26). -/
def Obligations.ComposedRegisterReadsShowEveryField : Prop :=
  ∀ s : State, ∃ sync last rxq : Word,
    exec (.memReadCsr 0x0C0#12) s = .next (respond sync false s) ∧
    exec (.memReadCsr 0x0DC#12) s = .next (respond last false s) ∧
    exec (.memReadCsr 0x0F0#12) s = .next (respond rxq false s) ∧
    ((sync.extractLsb' 0 2).toNat = (match s.rx.sync with
      | .detectFrame => 0 | .rxPreamble => 1 | .rxHeader => 2 | .rxPayload => 3) ∧
      sync.extractLsb' 2 14 = 0#14 ∧ (sync.extractLsb' 16 16).toNat = min s.rx.cnt 65535) ∧
    (s.last = none → last = 0#32) ∧
    (∀ r, s.last = some r → last.getLsbD 0 = r.hv ∧ last.getLsbD 1 = r.pv ∧ last.getLsbD 2 = r.idm ∧
      last.getLsbD 3 = r.delivered ∧ last.getLsbD 4 = r.lenErr ∧ last.extractLsb' 5 26 = 0#26 ∧
      last.getLsbD 31 = true) ∧
    (s.rxq = [] → rxq = 0#32) ∧
    (∀ r rest, s.rxq = r :: rest → rxq.getLsbD 0 = r.hv ∧ rxq.extractLsb' 1 30 = 0#30 ∧ rxq.getLsbD 31 = true) ∧
    (s.params.sps < 256 → s.params.maxPayloadHw ≤ 4096 →
      ∃ w : Word, exec (.memReadCsr 0x00C#12) s = .next (respond w false s) ∧
        (w.extractLsb' 0 8).toNat = s.params.sps ∧ (w.extractLsb' 8 8).toNat = min s.params.rxqDepth 255 ∧
        (w.extractLsb' 16 13).toNat = s.params.maxPayloadHw ∧ w.getLsbD 29 = s.params.hasDump ∧
        w.extractLsb' 30 2 = 0#2)

/-- An aligned read inside TXBUF returns the stored bytes in its lanes, 0 in the others, and changes nothing else
(20_memory.md R109, 40_bus.md R189). -/
def Obligations.TxbufReadReturnsItsBytes : Prop :=
  ∀ (s : State) (size : AccessSize) (n : Nat) (off : BitVec 12) (i : Instr),
    sizeBytes size = some n → off.toNat + n ≤ s.params.maxPayloadHw → off.toNat % n = 0 →
    i = .memReadTxbuf size off ∨ i = .memRead size (1#2 ++ off) →
    ∃ w : Word, exec i s = .next (respond w false s) ∧
      (∀ k, k < n → lane w k = txByte s (0x1000 + off.toNat + k)) ∧ (∀ k, n ≤ k → k < 4 → lane w k = 0#8)

/-- An aligned read inside RXBUF returns the head record's payload bytes, and 0 past its length or with the queue empty;
it pops nothing (20_memory.md R110, 40_bus.md R190). -/
def Obligations.RxbufReadReturnsTheHeadRecord : Prop :=
  ∀ (s : State) (size : AccessSize) (n : Nat) (off : BitVec 12) (i : Instr),
    sizeBytes size = some n → off.toNat + n ≤ s.params.maxPayloadHw → off.toNat % n = 0 →
    i = .memReadRxbuf size off ∨ i = .memRead size (2#2 ++ off) →
    ∃ w : Word, exec i s = .next (respond w false s) ∧ (∀ k, n ≤ k → k < 4 → lane w k = 0#8) ∧
      (s.rxq = [] → w = 0#32) ∧
      (∀ r rest, s.rxq = r :: rest → ∀ k, k < n →
        lane w k = if off.toNat + k < r.len.toNat then r.payload.getD (off.toNat + k) 0#8 else 0#8)

/-- Every bus read that succeeds changes nothing but the response, and the same read again answers the same state
(20_memory.md R113). -/
def Obligations.ReadsHaveNoSideEffect : Prop :=
  ∀ (i : Instr) (size : AccessSize) (addr : BitVec 14) (s t : State), busReadOf i = some (size, addr) →
    exec i s = .next t → t.out.slverr = false →
    t = { s with out := { s.out with rdata := t.out.rdata, slverr := false } } ∧ exec i t = .next t

/-! Bus writes (40_bus.md R181, R184 to R188). -/

/-- A write to IRQ_STATUS clears the bits written 1, a write to IRQ_ENABLE stores the defined bits; nothing else changes
(40_bus.md R184, R185); `irq_out` is the level of the two registers' common bits (60_exceptions.md R481). -/
def Obligations.InterruptRegisterWrites : Prop :=
  ∀ (v : Word) (s : State) (i : Instr),
    (i = .memWriteIrqStatus v ∨ i = .memWrite .word 0x01C#14 v →
      exec i s = .next (respond 0#32 false
        { s with irqStatus := s.irqStatus &&& ~~~((v.extractLsb' 0 14).setWidth 32) })) ∧
    (i = .memWriteIrqEnable v ∨ i = .memWrite .word 0x020#14 v →
      exec i s = .next (respond 0#32 false { s with irqEnable := (v.extractLsb' 0 14).setWidth 32 })) ∧
    (irqOut s = true ↔ s.irqStatus &&& s.irqEnable ≠ 0#32)

/-- In IDLE a write to a CFG register stores its defined fields, reserved bits as 0, and changes nothing else; outside
IDLE it raises CFG_LOCKED (40_bus.md R186). -/
def Obligations.CfgWritesStoreTheDefinedFields : Prop :=
  ∀ (v : Word) (s : State),
    let stores := fun (off : BitVec 6) (c : Cfg) => ∀ i : Instr,
      i = .memWriteCfg off v ∨ i = .memWrite .word (1#8 ++ off) v →
      (s.core = .idle → exec i s = .next (respond 0#32 false { s with cfg := c })) ∧
      (s.core ≠ .idle → exec i s = .next (failAccess .cfgLocked s))
    stores 0x00#6 { s.cfg with sampleRate := v } ∧ stores 0x04#6 { s.cfg with bitRate := v } ∧
    stores 0x08#6 { s.cfg with freqOffset := v } ∧ stores 0x0C#6 { s.cfg with bt := v &&& 0xFFFF#32 } ∧
    stores 0x10#6 { s.cfg with coding := v &&& 0xFFF#32 } ∧ stores 0x14#6 { s.cfg with id := v } ∧
    stores 0x18#6 { s.cfg with timeout := v } ∧ stores 0x1C#6 { s.cfg with maxPayload := v &&& 0xFFFF#32 } ∧
    stores 0x20#6 { s.cfg with detThresh := v &&& 0xFFFF#32 } ∧
    stores 0x24#6 { s.cfg with dump := if s.params.hasDump then v &&& 1#32 else 0#32 }

/-- With no chunk pending, an aligned write inside TXBUF stores its lanes at its bytes and no other byte of TXBUF
changes; with a chunk pending it raises TXBUF_BUSY and writes nothing (20_memory.md R109, 40_bus.md R188). -/
def Obligations.TxbufWriteStoresItsLanes : Prop :=
  ∀ (s : State) (size : AccessSize) (n : Nat) (off : BitVec 12) (v : Word) (i : Instr),
    sizeBytes size = some n → off.toNat + n ≤ s.params.maxPayloadHw → off.toNat % n = 0 →
    i = .memWriteTxbuf size off v ∨ i = .memWrite size (1#2 ++ off) v →
    (s.pendLen = 0 → ∃ m, exec i s = .next (respond 0#32 false { s with txbuf := m }) ∧
      (∀ k, k < n → txByte { s with txbuf := m } (0x1000 + off.toNat + k) = lane v k) ∧
      (∀ a, a < 0x1000 + off.toNat ∨ 0x1000 + off.toNat + n ≤ a → txByte { s with txbuf := m } a = txByte s a)) ∧
    (s.pendLen ≠ 0 → exec i s = .next (failAccess .txbufBusy s))

/-- A 4-byte write to a read-only register, and an aligned write inside RXBUF, raise BUS_RO and change nothing else
(20_memory.md R107, 40_bus.md R187). -/
def Obligations.ReadOnlyPlacesRefuseWrites : Prop :=
  ∀ (s : State) (v : Word),
    (∀ e ∈ regTable, e.1 ∉ [0x010, 0x01C, 0x020] → ¬ (0x040 ≤ e.1 ∧ e.1 ≤ 0x064) →
      exec (.memWriteRo .word (BitVec.ofNat 14 e.1) v) s = .next (failAccess .busRo s)) ∧
    (∀ (size : AccessSize) (n : Nat) (off : BitVec 12), sizeBytes size = some n →
      off.toNat + n ≤ s.params.maxPayloadHw → off.toNat % n = 0 →
      exec (.memWriteRo size (2#2 ++ off) v) s = .next (failAccess .busRo s))

/-! Every bus access (20_memory.md R106, R111, R112; 40_bus.md R183). -/

/-- Every operation of the BUS and CMD rows is the one bus transaction its row stands for; a command is the 4-byte write
of its word to CMD (30_encoding.md R152, 40_bus.md R183). -/
def Obligations.RowsAreBusTransactions : Prop :=
  ∀ (i : Instr) (s : State),
    (∀ size addr v, busWriteOf i = some (size, addr, v) → exec i s = .next (busWrite size addr v s)) ∧
    (∀ size addr, busReadOf i = some (size, addr) → exec i s = .next (busRead size addr s))

/-- The checks of an access come in the order SIZE = 3, BUS_ADDR, BUS_ALIGN, BUS_WIDTH, BUS_RO, CFG_LOCKED or
TXBUF_BUSY; only the first that fails raises its error, and an access that passes all of them answers SLVERR = 0
(20_memory.md R111, 30_encoding.md R152). That a 1- or 2-byte access at a reserved CSR offset fails BUS_ADDR and not
BUS_WIDTH, and that an access across a window's end does before BUS_ALIGN, are the model's readings (logs 5 and 18). -/
def Obligations.AccessChecksRunInOrder : Prop :=
  ∀ (i : Instr) (s : State) (size : AccessSize) (addr : BitVec 14),
    (busReadOf i = some (size, addr) ∨ ∃ v, busWriteOf i = some (size, addr, v)) →
    let a := addr.toNat
    let fails := fun code => exec i s = .next (failAccess code s)
    (size = .reserved → fails .busWidth) ∧
    ∀ n, sizeBytes size = some n →
      (¬ Reaches s.params a n → fails .busAddr) ∧
      (Reaches s.params a n → a % n ≠ 0 → fails .busAlign) ∧
      (Reaches s.params a n → a % n = 0 → a < 0x1000 → n ≠ 4 → fails .busWidth) ∧
      (Reaches s.params a n → a % n = 0 → (a < 0x1000 → n = 4) →
        (busReadOf i = some (size, addr) → ∃ t, exec i s = .next t ∧ t.out.slverr = false) ∧
        ∀ v, busWriteOf i = some (size, addr, v) →
          (0x2000 ≤ a ∨ (a < 0x1000 ∧ a ∉ [0x010, 0x01C, 0x020] ∧ ¬ (0x040 ≤ a ∧ a ≤ 0x064)) → fails .busRo) ∧
          (0x040 ≤ a ∧ a ≤ 0x064 → s.core ≠ .idle → fails .cfgLocked) ∧
          (0x1000 ≤ a ∧ a < 0x2000 → s.pendLen ≠ 0 → fails .txbufBusy) ∧
          (a ∈ [0x010, 0x01C, 0x020] ∨ (0x040 ≤ a ∧ a ≤ 0x064 ∧ s.core = .idle) ∨
            (0x1000 ≤ a ∧ a < 0x2000 ∧ s.pendLen = 0) → ∃ t, exec i s = .next t ∧ t.out.slverr = false))

/-- A bus access that answers SLVERR = 1 returns 0, records one error and changes no other state (20_memory.md R112). -/
def Obligations.FailedAccessOnlyRecordsItsError : Prop :=
  ∀ (i : Instr) (s t : State), (busReadOf i).isSome = true ∨ (busWriteOf i).isSome = true → exec i s = .next t →
    t.out.slverr = true →
    ∃ code, t = { raiseError code s with out := { s.out with rdata := 0#32, slverr := true } }

/-- No operation changes a byte of TXBUF but a bus write whose address lies in TXBUF's page and SOFT_RESET
(20_memory.md R113, R109). -/
def Obligations.OnlyTxbufWritesAndResetChangeTxbuf : Prop :=
  ∀ (i : Instr) (s t : State), exec i s = .next t →
    (∀ size addr v, busWriteOf i = some (size, addr, v) →
      ¬ (0x1000 ≤ addr.toNat ∧ addr.toNat < 0x2000) ∧ ¬ (addr = 0x010#14 ∧ v = 0x09#32)) →
    SameTxbuf s t

/-! Commands (41_commands.md). -/

/-- The configuration check returns OK when none of its conditions holds, and otherwise the code of the first that
holds (41_commands.md R231). -/
def Obligations.ConfigCheckReturnsTheFirstFailure : Prop :=
  ∀ (dir : Dir) (s : State), (checkCfg dir s = none ↔ NoneHolds (configFailures dir s)) ∧
    ∀ code, checkCfg dir s = some code ↔ FirstHolds (configFailures dir s) code

/-- START_TX outside IDLE raises STATE; with a configuration that fails the check it raises the first failing code;
otherwise it latches, initialises and enters TX_RUN, and keeps everything else (41_commands.md R221). -/
def Obligations.StartTxBeginsATransfer : Prop :=
  ∀ s : State,
    (s.core ≠ .idle → exec (.cmdStartTx 0#24) s = .next (respond 0#32 false (raiseError .state s))) ∧
    (s.core = .idle → ∀ code, FirstHolds (configFailures .tx s) code →
      exec (.cmdStartTx 0#24) s = .next (respond 0#32 false (raiseError code s))) ∧
    (s.core = .idle → NoneHolds (configFailures .tx s) →
      let l := latch s.cfg
      let m := l.rb.toNat * s.params.sps
      let g := Nat.gcd l.fs.toNat m
      exec (.cmdStartTx 0#24) s = .next (respond 0#32 false { s with
        lcfg := l, fifo := [], fifoDir := .tx, stop := none, stopReason := .none, eos := false, burstEnd := false,
        tx := ⟨.produce, .wait, [], false, false, 0#32, Config.modInit l.bt.toNat⟩,
        pipe := ⟨Config.rsInit (l.fs.toNat / g) (m / g), 0#32, ncoInc l.foff l.fs.toNat, Config.txfInit⟩,
        stats := ⟨0#32, 0#32, 0#32, 0#32, 0#32, 0#32, 0#32, 0#32, 0#32, 0#32⟩, core := .txRun }))

/-- START_RX outside IDLE raises STATE; with a configuration that fails the check it raises the first failing code;
otherwise it latches, initialises and enters RX_RUN, and keeps everything else (41_commands.md R222). -/
def Obligations.StartRxBeginsATransfer : Prop :=
  ∀ s : State,
    (s.core ≠ .idle → exec (.cmdStartRx 0#24) s = .next (respond 0#32 false (raiseError .state s))) ∧
    (s.core = .idle → ∀ code, FirstHolds (configFailures .rx s) code →
      exec (.cmdStartRx 0#24) s = .next (respond 0#32 false (raiseError code s))) ∧
    (s.core = .idle → NoneHolds (configFailures .rx s) →
      let l := latch s.cfg
      let m := l.rb.toNat * s.params.sps
      let g := Nat.gcd l.fs.toNat m
      exec (.cmdStartRx 0#24) s = .next (respond 0#32 false { s with
        lcfg := l, fifo := [], fifoDir := .rx, stop := none, stopReason := .none, burstEnd := false,
        pipe := ⟨Config.rsInit (m / g) (l.fs.toNat / g), 0#32, -ncoInc l.foff l.fs.toNat, Config.rxfInit⟩,
        rx := ⟨.detectFrame, 0, [], List.replicate 10 0#8, false, 0#16, 0, Config.detInit, Config.trkInit⟩,
        rxq := [], last := none, idle := 0#64,
        stats := ⟨0#32, 0#32, 0#32, 0#32, 0#32, 0#32, 0#32, 0#32, 0#32, 0#32⟩, core := .rxRun }))

/-- What START latches: the fields of the CFG registers, CFG_FREQ_OFFSET as signed, and a listed code as its scheme
(10_state.md R62, 30_encoding.md R148; log 15). -/
def Obligations.LatchCopiesTheConfiguration : Prop :=
  ∀ c : Cfg, (latch c).fs = c.sampleRate ∧ (latch c).rb = c.bitRate ∧ (latch c).foff = c.freqOffset.toInt ∧
    (latch c).bt = c.bt.extractLsb' 0 16 ∧ (latch c).id = c.id ∧ (latch c).timeout = c.timeout ∧
    (latch c).maxp = c.maxPayload.extractLsb' 0 16 ∧ (latch c).thresh = c.detThresh.extractLsb' 0 16 ∧
    (latch c).dump = c.dump.getLsbD 0 ∧
    (c.coding.extractLsb' 0 4 = 0#4 → (latch c).crc = .none) ∧
    (c.coding.extractLsb' 0 4 = 1#4 → (latch c).crc = .crc32) ∧
    (c.coding.extractLsb' 4 4 = 0#4 → (latch c).fecIn = .none) ∧
    (c.coding.extractLsb' 4 4 = 1#4 → (latch c).fecIn = .hamming74) ∧
    (c.coding.extractLsb' 8 4 = 0#4 → (latch c).fecOut = .none) ∧
    (c.coding.extractLsb' 8 4 = 1#4 → (latch c).fecOut = .hamming74)

/-- The commands whose rule is one assignment: NOP changes nothing, CLEAR_STATS zeroes the ten counters, CLEAR_ERR zeroes
ERR, STOP requests HOST_STOP outside IDLE unless a reason is pending, TX_EOS closes the stream in TX_RUN, RXQ_POP frees
the head record; where the rule raises an error instead, nothing else happens (41_commands.md R220, R223, R225 to
R228). -/
def Obligations.SimpleCommandsDoOneThing : Prop :=
  ∀ s : State,
    exec (.cmdNop 0#24) s = .next (respond 0#32 false s) ∧
    exec (.cmdClearStats 0#24) s = .next (respond 0#32 false
      { s with stats := ⟨0#32, 0#32, 0#32, 0#32, 0#32, 0#32, 0#32, 0#32, 0#32, 0#32⟩ }) ∧
    exec (.cmdClearErr 0#24) s = .next (respond 0#32 false { s with err := 0#32 }) ∧
    exec (.cmdStop 0#24) s = .next (respond 0#32 false
      (if s.core = .idle then s else { s with stop := some (s.stop.getD .hostStop) })) ∧
    exec (.cmdTxEos 0#24) s = .next (respond 0#32 false
      (if s.core = .txRun then { s with eos := true } else raiseError .state s)) ∧
    (s.rxq = [] → exec (.cmdRxqPop 0#24) s = .next (respond 0#32 false (raiseError .rxqEmpty s))) ∧
    (∀ r rest, s.rxq = r :: rest → exec (.cmdRxqPop 0#24) s = .next (respond 0#32 false { s with rxq := rest }))

/-- TX_COMMIT LEN raises STATE, CMD_ARG or TX_PENDING, in that order, or sets the pending length, and changes nothing
else (41_commands.md R224). -/
def Obligations.TxCommitSetsThePendingLength : Prop :=
  ∀ (len : BitVec 16) (s : State),
    let max := if s.core = .txRun then s.lcfg.maxp.toNat
      else min (s.cfg.maxPayload.extractLsb' 0 16).toNat s.params.maxPayloadHw
    let answers := fun t => exec (.cmdTxCommit len 0#8) s = .next (respond 0#32 false t)
    (s.core = .rxRun ∨ (s.core = .txRun ∧ s.eos = true) → answers (raiseError .state s)) ∧
    (s.core = .idle ∨ (s.core = .txRun ∧ s.eos = false) →
      (len = 0#16 ∨ max < len.toNat → answers (raiseError .cmdArg s)) ∧
      (len ≠ 0#16 → len.toNat ≤ max → s.pendLen ≠ 0 → answers (raiseError .txPending s)) ∧
      (len ≠ 0#16 → len.toNat ≤ max → s.pendLen = 0 → answers { s with pendLen := len.toNat }))

/-- An opcode above 0x09 raises ILLEGAL_CMD whatever its ARG; a reserved argument bit that is not 0 raises CMD_ARG; the
command has no other effect and the write answers SLVERR = 0 (41_commands.md R230, R232; 30_encoding.md R147). -/
def Obligations.OpcodesAndArgumentsAreChecked : Prop :=
  ∀ (s : State) (arg : BitVec 24),
    (∀ opc : BitVec 8, 0x0A ≤ opc.toNat →
      exec (.cmdReserved opc arg) s = .next (respond 0#32 false (raiseError .illegalCmd s))) ∧
    (∀ (len : BitVec 16) (rsvd : BitVec 8), rsvd ≠ 0#8 →
      exec (.cmdTxCommit len rsvd) s = .next (respond 0#32 false (raiseError .cmdArg s))) ∧
    (arg ≠ 0#24 → ∀ i ∈ [Instr.cmdNop arg, .cmdStartTx arg, .cmdStartRx arg, .cmdStop arg, .cmdTxEos arg,
      .cmdRxqPop arg, .cmdClearStats arg, .cmdClearErr arg, .cmdSoftReset arg],
      exec i s = .next (respond 0#32 false (raiseError .cmdArg s)))

/-! The radio port and the pins (42_fifo.md, 60_exceptions.md). -/

/-- RADIO_POP N returns the first N entries padded with silence, counts an underrun in TX_RUN and marks a popped LAST;
where the FIFO belongs to the receive path it returns N silent entries and takes nothing (42_fifo.md R264). -/
def Obligations.RadioPopReturnsEntriesOrSilence : Prop :=
  ∀ (n : Nat) (s : State), 1 ≤ n →
    let silent : Tagged := ⟨⟨0#16, 0#16⟩, false⟩
    (s.core = .rxRun ∨ s.fifoDir = .rx →
      exec (.radioPop n) s = .next { s with
        hist := s.hist ++ [.radioOut (List.replicate n silent)],
        out := { s.out with popped := List.replicate n 0#33 } }) ∧
    (s.core ≠ .rxRun → s.fifoDir = .tx →
      let taken := s.fifo.take n
      let pad := n - s.fifo.length
      let res := taken ++ List.replicate pad silent
      let under := decide (s.fifo.length < n ∧ s.core = .txRun)
      let burst := taken.any (·.last)
      exec (.radioPop n) s = .next { s with
        fifo := s.fifo.drop n,
        stats := if under then { s.stats with
            underrunEv := s.stats.underrunEv + 1#32, underrunSmp := s.stats.underrunSmp + BitVec.ofNat 32 pad }
          else s.stats,
        irqStatus := s.irqStatus ||| (if under then 0x100#32 else 0#32) ||| (if burst then 0x2000#32 else 0#32),
        burstEnd := s.burstEnd || burst,
        hist := s.hist ++ (if burst then [.burstEnd] else []) ++ [.radioOut res],
        out := { s.out with popped := res.map taggedWord } })

/-- RADIO_PUSH keeps the longest prefix that fits, counts an overrun for the rest, and then accounts all the samples
offered against the idle timeout; outside RX_RUN it accepts 0 (42_fifo.md R265, 60_exceptions.md R483). -/
def Obligations.RadioPushKeepsThePrefixAndAccountsIdle : Prop :=
  ∀ (ws : List Word) (s : State), ws ≠ [] →
    (s.core ≠ .rxRun → exec (.radioPush ws) s = .next { s with out := { s.out with accepted := 0 } }) ∧
    (s.core = .rxRun →
      let k := min ws.length (s.params.fifoCap - s.fifo.length)
      let lost := decide (k < ws.length)
      let idle := min (s.idle.toNat + ws.length) (2 ^ 64 - 1)
      let fired := decide (s.lcfg.timeout ≠ 0#32 ∧ s.lcfg.timeout.toNat * s.lcfg.fs.toNat ≤ idle ∧ s.stop = none)
      exec (.radioPush ws) s = .next { s with
        fifo := s.fifo ++ (ws.take k).map (fun w => ⟨⟨w.extractLsb' 0 16, w.extractLsb' 16 16⟩, false⟩),
        stats := if lost then { s.stats with
            overrunEv := s.stats.overrunEv + 1#32,
            overrunSmp := s.stats.overrunSmp + BitVec.ofNat 32 (ws.length - k) }
          else s.stats,
        idle := BitVec.ofNat 64 idle,
        stop := if fired then some .timeout else s.stop,
        irqStatus := s.irqStatus ||| (if lost then 0x200#32 else 0#32) ||| (if fired then 0x800#32 else 0#32),
        out := { s.out with accepted := k } })

/-- RADIO_FAULT outside IDLE records the error and requests its stop over any pending reason, in IDLE it is ignored;
PIN_STOP_ALL sets the level; neither changes anything else (60_exceptions.md R478, R479). -/
def Obligations.FaultAndStopAllInputs : Prop :=
  ∀ s : State,
    (s.core = .idle → exec .radioFault s = .next s) ∧
    (s.core ≠ .idle → exec .radioFault s = .next { raiseError .radioFault s with stop := some .radioFault }) ∧
    (∀ level, exec (.pinStopAll level) s = .next { s with stopAll := level })

/-- A push into a FIFO with space keeps the longest prefix behind what is there, and pops give it back in order; from an
emptied FIFO a push of at most FIFO_CAP entries and a pop of as many return exactly them (42_fifo.md R261, R262,
R269). -/
def Obligations.FifoReturnsWhatWasPushed : Prop :=
  ∀ (xs : List Tagged) (s : State),
    pushCount xs s = min xs.length (s.params.fifoCap - s.fifo.length) ∧
    fifoPush xs s = { s with fifo := s.fifo ++ xs.take (pushCount xs s) } ∧
    (∀ n, popped n s ++ (fifoPop n s).fifo = s.fifo ∧ (popped n s).length = min n s.fifo.length ∧
      fifoPop n s = { s with fifo := (fifoPop n s).fifo }) ∧
    (s.fifo = [] → xs.length ≤ s.params.fifoCap →
      popped xs.length (fifoPush xs s) = xs ∧ (fifoPop xs.length (fifoPush xs s)).fifo = [])

/-- How the radio splits samples into pushes does not matter while nothing is dropped: two pushes and the one push of
both lists leave the same state, the accepted count apart (46_synchronizer.md R447). -/
def Obligations.SplittingAPushChangesNothing : Prop :=
  ∀ (ws1 ws2 : List Word) (s : State), ws1 ≠ [] → ws2 ≠ [] →
    s.fifo.length + ws1.length + ws2.length ≤ s.params.fifoCap →
    ∃ t, runOps [.radioPush ws1, .radioPush ws2] s = some t ∧
      ∃ n, runOps [.radioPush (ws1 ++ ws2)] s = some { t with out := { t.out with accepted := n } }

/-! The engines (45_generator.md, 46_synchronizer.md, 60_exceptions.md R477). -/

/-- A running engine that sees a stop request or the stop-all level ends the transfer in that step, with the reason of
the request, and keeps everything else (60_exceptions.md R477). -/
def Obligations.EngineStopEndsTheTransfer : Prop :=
  ∀ (i : Instr) (s : State), (i = .txStep ∧ s.core = .txRun) ∨ (i = .rxStep ∧ s.core = .rxRun) →
    (s.stop ≠ none ∨ s.stopAll = true) →
    exec i s = .next { s with
      stopReason := (match s.stop with
        | none => .stopAll | some .hostStop => .hostStop | some .stopAll => .stopAll
        | some .timeout => .timeout | some .radioFault => .radioFault),
      stop := none, core := .idle,
      tx := { s.tx with phase := .produce, outbuf := [], outFrameEnd := false, outFinal := false },
      irqStatus := s.irqStatus ||| 0x400#32 }

/-- Each engine's step is enabled exactly as its rule says, and an engine whose step is not enabled changes nothing
(45_generator.md R380, 46_synchronizer.md R440); the second is the model's reading of a hold (log 2). -/
def Obligations.EnginesHoldExactlyAsStated : Prop :=
  ∀ s : State,
    (txEnabled s = true ↔ s.core = .txRun ∧
      ¬ (s.tx.phase = .drain ∧ s.params.fifoCap - s.fifo.length = 0 ∧ s.stop = none ∧ s.stopAll = false)) ∧
    (rxEnabled s = true ↔ s.core = .rxRun ∧
      ((s.stop ≠ none ∨ s.stopAll = true) ∨ (0 < s.fifo.length ∧ s.rxq.length < s.params.rxqDepth))) ∧
    (txEnabled s = false → exec .txStep s = .next s) ∧ (rxEnabled s = false → exec .rxStep s = .next s)

/-- TXE is held only on a full FIFO and RXE only on an empty FIFO or a full queue; the pop, the push or the queue pop that
the rule names lifts the hold, and a STOP or the stop-all input always does, and the freed step then ends the transfer
(70_reset_and_hazards.md R542). -/
def Obligations.EveryHoldIsLifted : Prop :=
  ∀ s : State, FifoOk s → QueueBounded s → DirOk s → 1 ≤ s.params.fifoCap → 1 ≤ s.params.rxqDepth →
    (s.core = .txRun → txEnabled s = false →
      s.fifo.length = s.params.fifoCap ∧
      (∀ i ∈ [Instr.cmdStop 0#24, .pinStopAll true], ∃ t u, exec i s = .next t ∧ txEnabled t = true ∧
        exec .txStep t = .next u ∧ u.core = .idle) ∧
      (∀ n, 1 ≤ n → ∃ t, exec (.radioPop n) s = .next t ∧ txEnabled t = true)) ∧
    (s.core = .rxRun → rxEnabled s = false →
      (s.fifo = [] ∨ s.rxq.length = s.params.rxqDepth) ∧
      (∀ i ∈ [Instr.cmdStop 0#24, .pinStopAll true], ∃ t u, exec i s = .next t ∧ rxEnabled t = true ∧
        exec .rxStep t = .next u ∧ u.core = .idle) ∧
      (s.fifo = [] → s.rxq.length < s.params.rxqDepth → ∀ ws, ws ≠ [] →
        ∃ t, exec (.radioPush ws) s = .next t ∧ rxEnabled t = true) ∧
      (s.fifo ≠ [] → s.rxq.length = s.params.rxqDepth ∧
        ∃ t, exec (.cmdRxqPop 0#24) s = .next t ∧ rxEnabled t = true))

/-- A TX step that produces from a frame modulates the next block of it, and one in WAIT with a chunk pending first takes
the chunk: it builds the frame with the current counter, restarts the modulator, frees TXBUF and sets TX_READY
(45_generator.md R383, R384, R390). Where the dump is on, the block's samples are on the dump port, with DIR = 0, and in
`hist` (30_encoding.md R146, 43_pipeline.md R304); that the port's last words are a field of the state is log 13. -/
def Obligations.TxStepModulatesTheNextBlock : Prop :=
  ∀ s : State, s.core = .txRun → s.stop = none → s.stopAll = false → s.tx.phase = .produce →
    let produces := fun (m : ModS) (syms : List Bool) (pendLen : Nat) (irqStatus : Word) =>
      let blk := modulate m (syms.take s.params.blockSyms)
      let rest := syms.drop s.params.blockSyms
      let b := txBlock s.params.normLimit s.pipe blk.2
      let dump := s.params.hasDump && s.lcfg.dump
      exec .txStep s = .next { s with
        pendLen := pendLen, irqStatus := irqStatus, pipe := b.1,
        hist := s.hist ++ (if dump then b.2.map (Event.dump .tx) else []),
        out := { s.out with dumped := if dump then b.2.map (fun y => 0#1 ++ (y.q ++ y.i)) else s.out.dumped },
        tx := { s.tx with
          phase := .drain, gen := if rest = [] then .wait else .frame rest, modem := blk.1,
          outbuf := b.2.map (fun y => ⟨y, false⟩), outFrameEnd := decide (rest = []), outFinal := false } }
    (∀ syms, s.tx.gen = .frame syms → produces s.tx.modem syms s.pendLen s.irqStatus) ∧
    (s.tx.gen = .wait → s.pendLen ≠ 0 →
      produces (Config.modInit s.lcfg.bt.toNat)
        (frameSyms s.params s.lcfg s.tx.frameCnt ((List.range s.pendLen).map (fun k => txByte s (0x1000 + k))))
        0 (s.irqStatus ||| 4#32))

/-- A TX step in WAIT with nothing pending produces silence while the stream is open, and once it is closed the final
flush, whose last entry alone is tagged LAST (45_generator.md R385, R387, R389). It dumps the block as R304 says, on the
port field of log 13. -/
def Obligations.TxStepSendsSilenceOrTheFinalFlush : Prop :=
  ∀ s : State, s.core = .txRun → s.stop = none → s.stopAll = false → s.tx.phase = .produce → s.tx.gen = .wait →
    s.pendLen = 0 →
    let zeros := List.replicate (if s.eos then s.params.flushLen else s.params.blockSyms * s.params.sps)
      (⟨0#16, 0#16⟩ : Sample)
    let b := txBlock s.params.normLimit s.pipe zeros
    let dump := s.params.hasDump && s.lcfg.dump
    ∃ block, exec .txStep s = .next { s with
        pipe := b.1, hist := s.hist ++ (if dump then b.2.map (Event.dump .tx) else []),
        out := { s.out with dumped := if dump then b.2.map (fun y => 0#1 ++ (y.q ++ y.i)) else s.out.dumped },
        tx := { s.tx with
          phase := .drain, gen := if s.eos then .final else .wait, outbuf := block, outFrameEnd := false,
          outFinal := s.eos } } ∧
      (s.eos = false → block = b.2.map (fun y => ⟨y, false⟩)) ∧
      (s.eos = true → block.map (·.sample) = (if b.2 = [] then [⟨0#16, 0#16⟩] else b.2) ∧
        (∀ e ∈ block.dropLast, e.last = false) ∧ block.getLast?.map (·.last) = some true)

/-- A TX step in DRAIN moves what fits of the block into the FIFO; when the block is handed over whole it completes it:
the frame counter, the phase, and after the final flush the end of the transfer (45_generator.md R386, R388). -/
def Obligations.TxStepDrainsAndCompletes : Prop :=
  ∀ s : State, txEnabled s = true → s.stop = none → s.stopAll = false → s.tx.phase = .drain →
    let space := s.params.fifoCap - s.fifo.length
    (space < s.tx.outbuf.length → exec .txStep s = .next { s with
      fifo := s.fifo ++ s.tx.outbuf.take space, tx := { s.tx with outbuf := s.tx.outbuf.drop space } }) ∧
    (s.tx.outbuf.length ≤ space → exec .txStep s = .next { s with
      fifo := s.fifo ++ s.tx.outbuf,
      tx := { s.tx with
        outbuf := [], outFrameEnd := false, outFinal := false, phase := .produce,
        frameCnt := if s.tx.outFrameEnd then s.tx.frameCnt + 1#32 else s.tx.frameCnt },
      irqStatus := s.irqStatus ||| (if s.tx.outFrameEnd then 1#32 else 0#32) |||
        (if s.tx.outFinal then 2#32 else 0#32),
      core := if s.tx.outFinal then .idle else .txRun,
      stopReason := if s.tx.outFinal then .complete else s.stopReason })

/-- An enabled RX step with no stop seen consumes exactly one FIFO entry, dumps the filtered sample with DIR = 1 where the
dump is on (30_encoding.md R146, 43_pipeline.md R304; the port field is log 13), and gives each modem sample it makes to
the synchronizer; beyond the synchronizer's own state and its reports it changes nothing else (46_synchronizer.md R440).
What the synchronizer does with a modem sample (46_synchronizer.md R421): in DETECT_FRAME it steps the correlator alone,
with the latched threshold; an acquisition initialises the tracker from the estimate and the correlator anew, enters
RX_PREAMBLE and tracks the replayed samples in order up to the first that finds DETECT_FRAME entered again; in every other
state it steps the tracker alone, and a soft symbol that comes out is given to `symbol`. -/
def Obligations.RxStepConsumesOneEntry : Prop :=
  (∀ (s : State) (e : Tagged) (rest : List Tagged), rxEnabled s = true → s.stop = none → s.stopAll = false →
    s.fifo = e :: rest →
    let r := rxSample s.pipe e.sample
    let dump := s.params.hasDump && s.lcfg.dump
    let s1 := { s with
      fifo := rest, pipe := r.1, hist := s.hist ++ (if dump then [Event.dump .rx r.2.1] else []),
      out := { s.out with dumped := if dump then [1#1 ++ (r.2.1.q ++ r.2.1.i)] else s.out.dumped } }
    ∃ t, exec .rxStep s = .next t ∧ t = r.2.2.foldl (fun u y => syncStep y u) s1 ∧
      t = { s1 with
        rx := t.rx, rxq := t.rxq, last := t.last, stats := t.stats, idle := t.idle, irqStatus := t.irqStatus }) ∧
  ∀ (y : Sample) (s : State),
    let d := Config.detStep s.rx.det s.lcfg.thresh.toNat y
    let o := Config.trkStep s.rx.trk y
    let tracked := { s with rx := { s.rx with trk := o.1 } }
    (o.2 = none → track y s = tracked) ∧ (∀ soft, o.2 = some soft → track y s = symbol soft tracked) ∧
    (s.rx.sync ≠ .detectFrame → syncStep y s = track y s) ∧
    (s.rx.sync = .detectFrame → d.2 = none → syncStep y s = { s with rx := { s.rx with det := d.1 } }) ∧
    (s.rx.sync = .detectFrame → ∀ acq, d.2 = some acq →
      let acquired := { s with rx := { s.rx with
        trk := Config.trkAcquire s.rx.trk acq, det := Config.detInit, sync := .rxPreamble, cnt := 0, bits := [] } }
      let replayed := fun n => (acq.replay.take n).foldl (fun u z => track z u) acquired
      ∃ n, syncStep y s = replayed n ∧ n ≤ acq.replay.length ∧
        (∀ m, m < n → (replayed m).rx.sync ≠ .detectFrame) ∧
        (n < acq.replay.length → (replayed n).rx.sync = .detectFrame))

/-- What one recovered symbol does in each state: it is counted, its hard decision is collected in RX_HEADER and
RX_PAYLOAD, and the transition comes at the symbol that completes the state and clears the count and the bits
(46_synchronizer.md R441, R442; `report` is pinned by `ReportCountsAndDelivers`). -/
def Obligations.SymbolAdvancesTheSynchronizer : Prop :=
  ∀ (soft : Int) (s : State),
    let cnt := s.rx.cnt + 1
    let bits := s.rx.bits ++ [decide (soft > 0)]
    let HB := 8 * encodedLen s.lcfg 10
    let counted := { s with rx := { s.rx with cnt := cnt, bits := bits } }
    (∀ st, enter st s = { s with rx := { s.rx with sync := st, cnt := 0, bits := [] } }) ∧
    (s.rx.sync = .detectFrame → symbol soft s = { s with rx := { s.rx with cnt := cnt } }) ∧
    (s.rx.sync = .rxPreamble → cnt ≠ s.params.preRxSyms → symbol soft s = { s with rx := { s.rx with cnt := cnt } }) ∧
    (s.rx.sync = .rxPreamble → cnt = s.params.preRxSyms →
      symbol soft s = { s with rx := { s.rx with sync := .rxHeader, cnt := 0, bits := [] } }) ∧
    (s.rx.sync = .rxHeader → bits.length ≠ HB → symbol soft s = counted) ∧
    (s.rx.sync = .rxHeader → bits.length = HB →
      let d := decodeBlock s.lcfg (pack bits) 10
      let plen := BitVec.ofNat 16 (beNat ((d.1.drop 8).take 2))
      let decoded := { counted with rx := { counted.rx with hdr := d.1, hv := d.2, plen := plen } }
      (plen = 0#16 ∨ s.lcfg.maxp.toNat < plen.toNat →
        symbol soft s = enter .detectFrame (report [] false true decoded)) ∧
      (plen ≠ 0#16 → plen.toNat ≤ s.lcfg.maxp.toNat →
        symbol soft s = { decoded with rx := { decoded.rx with
          sync := .rxPayload, cnt := 0, bits := [], need := 8 * encodedLen s.lcfg plen.toNat } })) ∧
    (s.rx.sync = .rxPayload → bits.length ≠ s.rx.need → symbol soft s = counted) ∧
    (s.rx.sync = .rxPayload → bits.length = s.rx.need →
      let d := decodeBlock s.lcfg (pack bits) s.rx.plen.toNat
      symbol soft s = enter .detectFrame (report d.1 d.2 false counted))

/-- A report updates its counters and interrupt bits, replaces the last report, and delivers a record when the payload
is valid, the id matches and the length was good; nothing else changes (46_synchronizer.md R443, R444). -/
def Obligations.ReportCountsAndDelivers : Prop :=
  ∀ (pl : List Byte) (pv lenErr : Bool) (s : State),
    let hv := s.rx.hv
    let idm := decide (s.rx.hdr.take 4 = be32 s.lcfg.id)
    let del := pv && idm && !lenErr
    let one := fun b : Bool => if b then 1#32 else 0#32
    report pl pv lenErr s = { s with
      stats := { s.stats with
        rxFrames := s.stats.rxFrames + 1#32, rxHdrBad := s.stats.rxHdrBad + one (!hv),
        rxPayBad := s.stats.rxPayBad + one (!pv && !lenErr), rxIdMismatch := s.stats.rxIdMismatch + one (!idm),
        rxLenErr := s.stats.rxLenErr + one lenErr, rxDelivered := s.stats.rxDelivered + one del },
      irqStatus := s.irqStatus ||| 0x08#32 ||| (if hv then 0#32 else 0x20#32) |||
        (if !pv && !lenErr then 0x40#32 else 0#32) ||| (if idm then 0#32 else 0x80#32) |||
        (if del then 0x10#32 else 0#32),
      last := some ⟨s.rx.hdr.take 8, s.rx.plen, hv, pv, idm, del, lenErr⟩,
      rxq := if del then s.rxq ++ [⟨s.rx.hdr.take 8, hv, s.rx.plen, pl⟩] else s.rxq,
      idle := if del then 0#64 else s.idle }

/-- One modem sample reports at most one frame and queues at most one record, so an RX step queues at most one record
for each modem sample it made; no other operation appends to the queue (46_synchronizer.md R446, R444). So the queue never
overflows: every step keeps it within RXQ_DEPTH, where the receive pipeline makes at most one modem sample of the entry
that would be consumed, which is what P_RS_COUNT gives with a receive ratio of at most 1 (43_pipeline.md R291, R292). -/
def Obligations.OneModemSampleReportsAtMostOneFrame : Prop :=
  (∀ (y : Sample) (s : State),
    (syncStep y s).stats = s.stats ∧ (syncStep y s).rxq = s.rxq ∧ (syncStep y s).last = s.last ∨
    (syncStep y s).stats.rxFrames = s.stats.rxFrames + 1#32 ∧ (syncStep y s).rx.sync = .detectFrame ∧
      ((syncStep y s).rxq = s.rxq ∨ ∃ r, (syncStep y s).rxq = s.rxq ++ [r])) ∧
  (∀ (s t : State) (e : Tagged) (rest : List Tagged), exec .rxStep s = .next t → s.fifo = e :: rest →
    t.rxq.length ≤ s.rxq.length + (rxSample s.pipe e.sample).2.2.length) ∧
  (∀ (i : Instr) (s t : State), i ≠ .rxStep → exec i s = .next t → t.rxq.length ≤ s.rxq.length) ∧
  (∀ s t : State, QueueBounded s →
    (∀ e rest, s.fifo = e :: rest → (rxSample s.pipe e.sample).2.2.length ≤ 1) → step s = .next t → QueueBounded t)

/-- A frame's symbols, received without error from the first symbol RX_PREAMBLE counts, give exactly one report, valid
in every flag, and deliver exactly the payload with its counter (46_synchronizer.md R449, 44_frame_codec.md R341). -/
def Obligations.AFrameReceivedWithoutErrorIsDelivered : Prop :=
  ∀ (s : State) (c : Word) (pl : List Byte) (pre softs : List Int),
    s.rx.sync = .rxPreamble → s.rx.cnt = 0 → s.rx.bits = [] → 1 ≤ s.params.preRxSyms →
    1 ≤ pl.length → pl.length ≤ s.lcfg.maxp.toNat →
    pre.length = s.params.preRxSyms →
    softs.map (fun x => decide (x > 0)) = bitsOf (encodeBlock s.lcfg (hdrBlock s.lcfg.id c (BitVec.ofNat 16 pl.length)))
      ++ bitsOf (encodeBlock s.lcfg pl) →
    let t := (pre ++ softs).foldl (fun u x => symbol x u) s
    t.rxq = s.rxq ++ [⟨be32 s.lcfg.id ++ be32 c, true, BitVec.ofNat 16 pl.length, pl⟩] ∧
    t.last = some ⟨be32 s.lcfg.id ++ be32 c, BitVec.ofNat 16 pl.length, true, true, true, true, false⟩ ∧
    t.stats = { s.stats with
      rxFrames := s.stats.rxFrames + 1#32, rxDelivered := s.stats.rxDelivered + 1#32 } ∧
    t.rx.sync = .detectFrame ∧ t.idle = 0#64 ∧ t.irqStatus = s.irqStatus ||| 0x18#32

/-! The frame codec and the pipeline's fixed arithmetic (44_frame_codec.md, 43_pipeline.md). -/

/-- Decoding an encoded block with no errors gives the block back with validity true, for every configuration; and the
encoded block has the length the cascade states (44_frame_codec.md R340, R344(a)). -/
def Obligations.DecodeUndoesEncode : Prop :=
  ∀ (l : LCfg) (bs : List Byte), (encodeBlock l bs).length = encodedLen l bs.length ∧
    decodeBlock l (encodeBlock l bs) bs.length = (bs, true)

/-- With inner Hamming(7,4) and outer none, at most one flipped bit in each codeword of the encoded block, and any flips
in its padding, still decode to the original with validity true (44_frame_codec.md R344(b)). -/
def Obligations.SingleFlipsAreCorrected : Prop :=
  ∀ (l : LCfg) (bs : List Byte) (received : List Bool), l.fecIn = .hamming74 → l.fecOut = .none →
    let sent := bitsOf (encodeBlock l bs)
    received.length = sent.length →
    (∀ k, k < 2 * (bs.length + crcLen l.crc) → ∃ j, j < 7 ∧ ∀ m, m < 7 → m ≠ j →
      received[7 * k + m]? = sent[7 * k + m]?) →
    decodeBlock l (pack received) bs.length = (bs, true)

/-- With a zero offset both directions' mixers are the identity and their phase never advances (43_pipeline.md R296); with
another increment the mixer multiplies by the phasor at the phase before it advances (R295). The increment is the rounded
ratio mod 2^32 (R293), the two directions' increments are opposite (R297), and the complex product is exact, rounded and
saturated (R294). The stages in order: a transmit block is resampled, mixed, filtered and normalised, the n-th of its
resampled samples mixed at the phase n increments on (R298); a received sample is mixed, filtered and resampled (R300).
`normalise` leaves a block within the limit alone and scales any other by the limit over its peak (R299), the peak being
the largest integer square root of I·I + Q·Q; no sample it returns has a magnitude above the limit (R305): every r with
r·r ≤ I·I + Q·Q is at most the limit. -/
def Obligations.ZeroOffsetBypassAndTransmitPeak : Prop :=
  (∀ (p : Params) (l : LCfg) (pipe : Pipe) (x : Sample), l.foff = 0 →
    (pipeInitTx p l).inc = 0#32 ∧ (pipeInitRx p l).inc = 0#32 ∧ (pipe.inc = 0#32 → mix pipe x = (pipe, x))) ∧
  (∀ (pipe : Pipe) (x : Sample), pipe.inc ≠ 0#32 →
    mix pipe x = ({ pipe with phase := pipe.phase + pipe.inc }, cmul x (Config.cis pipe.phase))) ∧
  (∀ (f : Int) (fs : Nat), 0 < fs → ((ncoInc f fs).toNat : Int) = ((2 ^ 33 * f + fs) / (2 * fs)) % 2 ^ 32) ∧
  (∀ (p : Params) (l : LCfg), (pipeInitTx p l).inc = ncoInc l.foff l.fs.toNat ∧
    (pipeInitTx p l).inc + (pipeInitRx p l).inc = 0#32) ∧
  (∀ a b : Sample,
    let rounded := fun x : Int => max (-32768) (min 32767 ((x + 2 ^ 14) / 2 ^ 15))
    (cmul a b).i.toInt = rounded (a.i.toInt * b.i.toInt - a.q.toInt * b.q.toInt) ∧
    (cmul a b).q.toInt = rounded (a.i.toInt * b.q.toInt + a.q.toInt * b.i.toInt)) ∧
  (∀ (lim : Nat) (pipe : Pipe) (xs : List Sample),
    let resampled := Config.rsRun pipe.rs xs
    let mixed := if pipe.inc = 0#32 then resampled.2 else
      resampled.2.mapIdx (fun n r => cmul r (Config.cis (pipe.phase + BitVec.ofNat 32 n * pipe.inc)))
    txBlock lim pipe xs =
      ({ rs := resampled.1, phase := pipe.phase + BitVec.ofNat 32 resampled.2.length * pipe.inc, inc := pipe.inc,
         filt := mixed.foldl (fun f m => (Config.fltStep f m).1) pipe.filt },
       normalise lim (Config.fltRun pipe.filt mixed))) ∧
  (∀ (pipe : Pipe) (x : Sample),
    let mixed := if pipe.inc = 0#32 then x else cmul x (Config.cis pipe.phase)
    let filtered := Config.fltStep pipe.filt mixed
    let resampled := Config.rsStep pipe.rs filtered.2
    rxSample pipe x =
      ({ rs := resampled.1, phase := pipe.phase + pipe.inc, inc := pipe.inc, filt := filtered.1 }, filtered.2,
       resampled.2)) ∧
  (∀ (lim peak : Nat) (ys : List Sample),
    let power := fun y : Sample => y.i.toInt * y.i.toInt + y.q.toInt * y.q.toInt
    ((∀ y ∈ ys, power y < ((lim : Int) + 1) * (lim + 1)) → normalise lim ys = ys) ∧
    (lim < peak → (∀ y ∈ ys, power y < ((peak : Int) + 1) * (peak + 1)) → (∃ y ∈ ys, (peak * peak : Int) ≤ power y) →
      normalise lim ys = ys.map (fun y =>
        ⟨BitVec.ofInt 16 ((y.i.toInt * lim).tdiv peak), BitVec.ofInt 16 ((y.q.toInt * lim).tdiv peak)⟩))) ∧
  (∀ (lim : Nat) (ys : List Sample), ∀ y ∈ normalise lim ys,
    ∀ r : Nat, (r * r : Int) ≤ y.i.toInt * y.i.toInt + y.q.toInt * y.q.toInt → r ≤ lim)

/-! What every step keeps. -/

/-- Every step keeps TXBUF's memory canonical and inside its window (10_state.md R58), the FIFO's level at most its
capacity (42_fifo.md R260), and the FIFO's direction that of the transfer (10_state.md R66). -/
def Obligations.StepKeepsStorageInBounds : Prop :=
  ∀ s t : State, step s = .next t → (MemoryOk s → MemoryOk t) ∧ (FifoOk s → FifoOk t) ∧ (DirOk s → DirOk t)

/-- Every step keeps the reserved bits of the registers at 0 and ERR at a code the block records (10_state.md R31 to R43,
60_exceptions.md R470). -/
def Obligations.StepKeepsRegistersLegal : Prop :=
  ∀ s t : State, s.params.legal = true → RegsOk s → step s = .next t → RegsOk t

/-- Every step keeps the engine state consistent: no stop request in IDLE, FINAL exactly while the final flush drains;
and from such a state no step faults (45_generator.md R383, 60_exceptions.md R476). -/
def Obligations.EngineStateStaysConsistent : Prop :=
  ∀ s : State, StopOk s → GenOk s → NoFault (step s) ∧ ∀ t, step s = .next t → StopOk t ∧ GenOk t

/-- Every step keeps the LAST tag where it can stand: only on the newest entry, and outside IDLE on no FIFO entry
(45_generator.md R387, 30_encoding.md R144). -/
def Obligations.StepKeepsLastOnTheNewestEntry : Prop :=
  ∀ s t : State, GenOk s → LastOk s → step s = .next t → LastOk t

/-- Every step keeps the receive side well formed: the latched configuration legal outside IDLE, a pending chunk within
it, the synchronizer's counts below the lengths that end their states, every queued record well shaped
(46_synchronizer.md R442, R445; 41_commands.md R231). -/
def Obligations.StepKeepsTheReceiveSideWellFormed : Prop :=
  ∀ s t : State, ReceiveOk s → step s = .next t → ReceiveOk t

/-- Every step keeps frames of another id out of the queue (46_synchronizer.md R448). -/
def Obligations.StepKeepsForeignFramesOut : Prop :=
  ∀ s t : State, QueueIdsOk s → step s = .next t → QueueIdsOk t

/-- The history only grows, and the parameters never change (10_state.md R77, 00_scope.md R7). -/
def Obligations.HistoryIsAppendOnly : Prop :=
  ∀ s t : State, step s = .next t → s.hist <+: t.hist ∧ t.params = s.params

/-- While a transfer runs, no step changes the CFG registers or the latched configuration, unless it resets the block:
after such a step the transfer goes on under the same configuration or the block is IDLE (20_memory.md R125,
10_state.md R44). -/
def Obligations.ConfigurationIsFrozenDuringATransfer : Prop :=
  ∀ s t : State, s.core ≠ .idle → step s = .next t →
    (t.core = s.core ∧ t.lcfg = s.lcfg ∧ t.cfg = s.cfg) ∨ (t.core = .idle ∧ t.lcfg = s.lcfg ∧ t.cfg = s.cfg) ∨
    AtReset t

/-- What reset leaves unspecified is never read before a START sets it: from IDLE, two states that agree but for it
answer every operation alike, and an accepted START leaves them with the same configuration, engine and pipeline
(70_reset_and_hazards.md R520, 10_state.md R62). -/
def Obligations.UnspecifiedResetValuesAreNeverRead : Prop :=
  ∀ (i : Instr) (s t s' : State), s.core = .idle → AgreeButUnspecified s t → exec i s = .next s' →
    ∃ t', exec i t = .next t' ∧ AgreeButUnspecified s' t' ∧
      (s'.core ≠ .idle → t'.lcfg = s'.lcfg ∧ t'.pipe = s'.pipe) ∧
      (s'.core = .txRun → t'.tx = s'.tx) ∧ (s'.core = .rxRun → t'.rx = s'.rx)
end

