-- ==== Sys2Proof/Laws/State.lean ====
section
/-! SUPPORT. For each named update of the state, one lemma per field: what the field is after it. The lemmas of an update
that is one record update are true by rfl; the lemmas of an update that has cases say which fields no case touches. -/

namespace Sys2Proof.Machine

variable (s : State)

/-! `irq` -/

@[simp] theorem irq_params (b : IrqBit) : (irq b s).params = s.params := rfl
@[simp] theorem irq_pending (b : IrqBit) : (irq b s).pending = s.pending := rfl
@[simp] theorem irq_out (b : IrqBit) : (irq b s).out = s.out := rfl
@[simp] theorem irq_err (b : IrqBit) : (irq b s).err = s.err := rfl
@[simp] theorem irq_irqStatus (b : IrqBit) : (irq b s).irqStatus = setIrq b s.irqStatus := rfl
@[simp] theorem irq_irqEnable (b : IrqBit) : (irq b s).irqEnable = s.irqEnable := rfl
@[simp] theorem irq_cfg (b : IrqBit) : (irq b s).cfg = s.cfg := rfl
@[simp] theorem irq_core (b : IrqBit) : (irq b s).core = s.core := rfl
@[simp] theorem irq_lcfg (b : IrqBit) : (irq b s).lcfg = s.lcfg := rfl
@[simp] theorem irq_stop (b : IrqBit) : (irq b s).stop = s.stop := rfl
@[simp] theorem irq_stopReason (b : IrqBit) : (irq b s).stopReason = s.stopReason := rfl
@[simp] theorem irq_txbuf (b : IrqBit) : (irq b s).txbuf = s.txbuf := rfl
@[simp] theorem irq_draws (b : IrqBit) : (irq b s).draws = s.draws := rfl
@[simp] theorem irq_pendLen (b : IrqBit) : (irq b s).pendLen = s.pendLen := rfl
@[simp] theorem irq_eos (b : IrqBit) : (irq b s).eos = s.eos := rfl
@[simp] theorem irq_burstEnd (b : IrqBit) : (irq b s).burstEnd = s.burstEnd := rfl
@[simp] theorem irq_fifo (b : IrqBit) : (irq b s).fifo = s.fifo := rfl
@[simp] theorem irq_fifoDir (b : IrqBit) : (irq b s).fifoDir = s.fifoDir := rfl
@[simp] theorem irq_tx (b : IrqBit) : (irq b s).tx = s.tx := rfl
@[simp] theorem irq_pipe (b : IrqBit) : (irq b s).pipe = s.pipe := rfl
@[simp] theorem irq_rx (b : IrqBit) : (irq b s).rx = s.rx := rfl
@[simp] theorem irq_rxq (b : IrqBit) : (irq b s).rxq = s.rxq := rfl
@[simp] theorem irq_last (b : IrqBit) : (irq b s).last = s.last := rfl
@[simp] theorem irq_stats (b : IrqBit) : (irq b s).stats = s.stats := rfl
@[simp] theorem irq_idle (b : IrqBit) : (irq b s).idle = s.idle := rfl
@[simp] theorem irq_hist (b : IrqBit) : (irq b s).hist = s.hist := rfl
@[simp] theorem irq_stopAll (b : IrqBit) : (irq b s).stopAll = s.stopAll := rfl

/-! `emit` -/

@[simp] theorem emit_params (e : Event) : (emit e s).params = s.params := rfl
@[simp] theorem emit_pending (e : Event) : (emit e s).pending = s.pending := rfl
@[simp] theorem emit_out (e : Event) : (emit e s).out = s.out := rfl
@[simp] theorem emit_err (e : Event) : (emit e s).err = s.err := rfl
@[simp] theorem emit_irqStatus (e : Event) : (emit e s).irqStatus = s.irqStatus := rfl
@[simp] theorem emit_irqEnable (e : Event) : (emit e s).irqEnable = s.irqEnable := rfl
@[simp] theorem emit_cfg (e : Event) : (emit e s).cfg = s.cfg := rfl
@[simp] theorem emit_core (e : Event) : (emit e s).core = s.core := rfl
@[simp] theorem emit_lcfg (e : Event) : (emit e s).lcfg = s.lcfg := rfl
@[simp] theorem emit_stop (e : Event) : (emit e s).stop = s.stop := rfl
@[simp] theorem emit_stopReason (e : Event) : (emit e s).stopReason = s.stopReason := rfl
@[simp] theorem emit_txbuf (e : Event) : (emit e s).txbuf = s.txbuf := rfl
@[simp] theorem emit_draws (e : Event) : (emit e s).draws = s.draws := rfl
@[simp] theorem emit_pendLen (e : Event) : (emit e s).pendLen = s.pendLen := rfl
@[simp] theorem emit_eos (e : Event) : (emit e s).eos = s.eos := rfl
@[simp] theorem emit_burstEnd (e : Event) : (emit e s).burstEnd = s.burstEnd := rfl
@[simp] theorem emit_fifo (e : Event) : (emit e s).fifo = s.fifo := rfl
@[simp] theorem emit_fifoDir (e : Event) : (emit e s).fifoDir = s.fifoDir := rfl
@[simp] theorem emit_tx (e : Event) : (emit e s).tx = s.tx := rfl
@[simp] theorem emit_pipe (e : Event) : (emit e s).pipe = s.pipe := rfl
@[simp] theorem emit_rx (e : Event) : (emit e s).rx = s.rx := rfl
@[simp] theorem emit_rxq (e : Event) : (emit e s).rxq = s.rxq := rfl
@[simp] theorem emit_last (e : Event) : (emit e s).last = s.last := rfl
@[simp] theorem emit_stats (e : Event) : (emit e s).stats = s.stats := rfl
@[simp] theorem emit_idle (e : Event) : (emit e s).idle = s.idle := rfl
@[simp] theorem emit_hist (e : Event) : (emit e s).hist = s.hist ++ [e] := rfl
@[simp] theorem emit_stopAll (e : Event) : (emit e s).stopAll = s.stopAll := rfl

/-! `raiseError` -/

@[simp] theorem raiseError_params (c : ErrCode) : (raiseError c s).params = s.params := rfl
@[simp] theorem raiseError_pending (c : ErrCode) : (raiseError c s).pending = s.pending := rfl
@[simp] theorem raiseError_out (c : ErrCode) : (raiseError c s).out = s.out := rfl
@[simp] theorem raiseError_err (c : ErrCode) : (raiseError c s).err = recordErr c s.err := rfl
@[simp] theorem raiseError_irqStatus (c : ErrCode) : (raiseError c s).irqStatus = setIrq .error s.irqStatus := rfl
@[simp] theorem raiseError_irqEnable (c : ErrCode) : (raiseError c s).irqEnable = s.irqEnable := rfl
@[simp] theorem raiseError_cfg (c : ErrCode) : (raiseError c s).cfg = s.cfg := rfl
@[simp] theorem raiseError_core (c : ErrCode) : (raiseError c s).core = s.core := rfl
@[simp] theorem raiseError_lcfg (c : ErrCode) : (raiseError c s).lcfg = s.lcfg := rfl
@[simp] theorem raiseError_stop (c : ErrCode) : (raiseError c s).stop = s.stop := rfl
@[simp] theorem raiseError_stopReason (c : ErrCode) : (raiseError c s).stopReason = s.stopReason := rfl
@[simp] theorem raiseError_txbuf (c : ErrCode) : (raiseError c s).txbuf = s.txbuf := rfl
@[simp] theorem raiseError_draws (c : ErrCode) : (raiseError c s).draws = s.draws := rfl
@[simp] theorem raiseError_pendLen (c : ErrCode) : (raiseError c s).pendLen = s.pendLen := rfl
@[simp] theorem raiseError_eos (c : ErrCode) : (raiseError c s).eos = s.eos := rfl
@[simp] theorem raiseError_burstEnd (c : ErrCode) : (raiseError c s).burstEnd = s.burstEnd := rfl
@[simp] theorem raiseError_fifo (c : ErrCode) : (raiseError c s).fifo = s.fifo := rfl
@[simp] theorem raiseError_fifoDir (c : ErrCode) : (raiseError c s).fifoDir = s.fifoDir := rfl
@[simp] theorem raiseError_tx (c : ErrCode) : (raiseError c s).tx = s.tx := rfl
@[simp] theorem raiseError_pipe (c : ErrCode) : (raiseError c s).pipe = s.pipe := rfl
@[simp] theorem raiseError_rx (c : ErrCode) : (raiseError c s).rx = s.rx := rfl
@[simp] theorem raiseError_rxq (c : ErrCode) : (raiseError c s).rxq = s.rxq := rfl
@[simp] theorem raiseError_last (c : ErrCode) : (raiseError c s).last = s.last := rfl
@[simp] theorem raiseError_stats (c : ErrCode) : (raiseError c s).stats = s.stats := rfl
@[simp] theorem raiseError_idle (c : ErrCode) : (raiseError c s).idle = s.idle := rfl
@[simp] theorem raiseError_hist (c : ErrCode) : (raiseError c s).hist = s.hist ++ [.err c] := rfl
@[simp] theorem raiseError_stopAll (c : ErrCode) : (raiseError c s).stopAll = s.stopAll := rfl

/-! `respond` -/

@[simp] theorem respond_params (d : Word) (e : Bool) : (respond d e s).params = s.params := rfl
@[simp] theorem respond_pending (d : Word) (e : Bool) : (respond d e s).pending = s.pending := rfl
@[simp] theorem respond_out (d : Word) (e : Bool) : (respond d e s).out = { s.out with rdata := d, slverr := e } := rfl
@[simp] theorem respond_err (d : Word) (e : Bool) : (respond d e s).err = s.err := rfl
@[simp] theorem respond_irqStatus (d : Word) (e : Bool) : (respond d e s).irqStatus = s.irqStatus := rfl
@[simp] theorem respond_irqEnable (d : Word) (e : Bool) : (respond d e s).irqEnable = s.irqEnable := rfl
@[simp] theorem respond_cfg (d : Word) (e : Bool) : (respond d e s).cfg = s.cfg := rfl
@[simp] theorem respond_core (d : Word) (e : Bool) : (respond d e s).core = s.core := rfl
@[simp] theorem respond_lcfg (d : Word) (e : Bool) : (respond d e s).lcfg = s.lcfg := rfl
@[simp] theorem respond_stop (d : Word) (e : Bool) : (respond d e s).stop = s.stop := rfl
@[simp] theorem respond_stopReason (d : Word) (e : Bool) : (respond d e s).stopReason = s.stopReason := rfl
@[simp] theorem respond_txbuf (d : Word) (e : Bool) : (respond d e s).txbuf = s.txbuf := rfl
@[simp] theorem respond_draws (d : Word) (e : Bool) : (respond d e s).draws = s.draws := rfl
@[simp] theorem respond_pendLen (d : Word) (e : Bool) : (respond d e s).pendLen = s.pendLen := rfl
@[simp] theorem respond_eos (d : Word) (e : Bool) : (respond d e s).eos = s.eos := rfl
@[simp] theorem respond_burstEnd (d : Word) (e : Bool) : (respond d e s).burstEnd = s.burstEnd := rfl
@[simp] theorem respond_fifo (d : Word) (e : Bool) : (respond d e s).fifo = s.fifo := rfl
@[simp] theorem respond_fifoDir (d : Word) (e : Bool) : (respond d e s).fifoDir = s.fifoDir := rfl
@[simp] theorem respond_tx (d : Word) (e : Bool) : (respond d e s).tx = s.tx := rfl
@[simp] theorem respond_pipe (d : Word) (e : Bool) : (respond d e s).pipe = s.pipe := rfl
@[simp] theorem respond_rx (d : Word) (e : Bool) : (respond d e s).rx = s.rx := rfl
@[simp] theorem respond_rxq (d : Word) (e : Bool) : (respond d e s).rxq = s.rxq := rfl
@[simp] theorem respond_last (d : Word) (e : Bool) : (respond d e s).last = s.last := rfl
@[simp] theorem respond_stats (d : Word) (e : Bool) : (respond d e s).stats = s.stats := rfl
@[simp] theorem respond_idle (d : Word) (e : Bool) : (respond d e s).idle = s.idle := rfl
@[simp] theorem respond_hist (d : Word) (e : Bool) : (respond d e s).hist = s.hist := rfl
@[simp] theorem respond_stopAll (d : Word) (e : Bool) : (respond d e s).stopAll = s.stopAll := rfl

/-! `clearErr` -/

@[simp] theorem clearErr_params : (clearErr s).params = s.params := rfl
@[simp] theorem clearErr_pending : (clearErr s).pending = s.pending := rfl
@[simp] theorem clearErr_out : (clearErr s).out = s.out := rfl
@[simp] theorem clearErr_err : (clearErr s).err = 0#32 := rfl
@[simp] theorem clearErr_irqStatus : (clearErr s).irqStatus = s.irqStatus := rfl
@[simp] theorem clearErr_irqEnable : (clearErr s).irqEnable = s.irqEnable := rfl
@[simp] theorem clearErr_cfg : (clearErr s).cfg = s.cfg := rfl
@[simp] theorem clearErr_core : (clearErr s).core = s.core := rfl
@[simp] theorem clearErr_lcfg : (clearErr s).lcfg = s.lcfg := rfl
@[simp] theorem clearErr_stop : (clearErr s).stop = s.stop := rfl
@[simp] theorem clearErr_stopReason : (clearErr s).stopReason = s.stopReason := rfl
@[simp] theorem clearErr_txbuf : (clearErr s).txbuf = s.txbuf := rfl
@[simp] theorem clearErr_draws : (clearErr s).draws = s.draws := rfl
@[simp] theorem clearErr_pendLen : (clearErr s).pendLen = s.pendLen := rfl
@[simp] theorem clearErr_eos : (clearErr s).eos = s.eos := rfl
@[simp] theorem clearErr_burstEnd : (clearErr s).burstEnd = s.burstEnd := rfl
@[simp] theorem clearErr_fifo : (clearErr s).fifo = s.fifo := rfl
@[simp] theorem clearErr_fifoDir : (clearErr s).fifoDir = s.fifoDir := rfl
@[simp] theorem clearErr_tx : (clearErr s).tx = s.tx := rfl
@[simp] theorem clearErr_pipe : (clearErr s).pipe = s.pipe := rfl
@[simp] theorem clearErr_rx : (clearErr s).rx = s.rx := rfl
@[simp] theorem clearErr_rxq : (clearErr s).rxq = s.rxq := rfl
@[simp] theorem clearErr_last : (clearErr s).last = s.last := rfl
@[simp] theorem clearErr_stats : (clearErr s).stats = s.stats := rfl
@[simp] theorem clearErr_idle : (clearErr s).idle = s.idle := rfl
@[simp] theorem clearErr_hist : (clearErr s).hist = s.hist := rfl
@[simp] theorem clearErr_stopAll : (clearErr s).stopAll = s.stopAll := rfl

/-! `clearStats` -/

@[simp] theorem clearStats_params : (clearStats s).params = s.params := rfl
@[simp] theorem clearStats_pending : (clearStats s).pending = s.pending := rfl
@[simp] theorem clearStats_out : (clearStats s).out = s.out := rfl
@[simp] theorem clearStats_err : (clearStats s).err = s.err := rfl
@[simp] theorem clearStats_irqStatus : (clearStats s).irqStatus = s.irqStatus := rfl
@[simp] theorem clearStats_irqEnable : (clearStats s).irqEnable = s.irqEnable := rfl
@[simp] theorem clearStats_cfg : (clearStats s).cfg = s.cfg := rfl
@[simp] theorem clearStats_core : (clearStats s).core = s.core := rfl
@[simp] theorem clearStats_lcfg : (clearStats s).lcfg = s.lcfg := rfl
@[simp] theorem clearStats_stop : (clearStats s).stop = s.stop := rfl
@[simp] theorem clearStats_stopReason : (clearStats s).stopReason = s.stopReason := rfl
@[simp] theorem clearStats_txbuf : (clearStats s).txbuf = s.txbuf := rfl
@[simp] theorem clearStats_draws : (clearStats s).draws = s.draws := rfl
@[simp] theorem clearStats_pendLen : (clearStats s).pendLen = s.pendLen := rfl
@[simp] theorem clearStats_eos : (clearStats s).eos = s.eos := rfl
@[simp] theorem clearStats_burstEnd : (clearStats s).burstEnd = s.burstEnd := rfl
@[simp] theorem clearStats_fifo : (clearStats s).fifo = s.fifo := rfl
@[simp] theorem clearStats_fifoDir : (clearStats s).fifoDir = s.fifoDir := rfl
@[simp] theorem clearStats_tx : (clearStats s).tx = s.tx := rfl
@[simp] theorem clearStats_pipe : (clearStats s).pipe = s.pipe := rfl
@[simp] theorem clearStats_rx : (clearStats s).rx = s.rx := rfl
@[simp] theorem clearStats_rxq : (clearStats s).rxq = s.rxq := rfl
@[simp] theorem clearStats_last : (clearStats s).last = s.last := rfl
@[simp] theorem clearStats_stats : (clearStats s).stats = Stats.zero := rfl
@[simp] theorem clearStats_idle : (clearStats s).idle = s.idle := rfl
@[simp] theorem clearStats_hist : (clearStats s).hist = s.hist := rfl
@[simp] theorem clearStats_stopAll : (clearStats s).stopAll = s.stopAll := rfl

/-! `fifoPush` -/

@[simp] theorem fifoPush_params (xs : List Tagged) : (fifoPush xs s).params = s.params := rfl
@[simp] theorem fifoPush_pending (xs : List Tagged) : (fifoPush xs s).pending = s.pending := rfl
@[simp] theorem fifoPush_out (xs : List Tagged) : (fifoPush xs s).out = s.out := rfl
@[simp] theorem fifoPush_err (xs : List Tagged) : (fifoPush xs s).err = s.err := rfl
@[simp] theorem fifoPush_irqStatus (xs : List Tagged) : (fifoPush xs s).irqStatus = s.irqStatus := rfl
@[simp] theorem fifoPush_irqEnable (xs : List Tagged) : (fifoPush xs s).irqEnable = s.irqEnable := rfl
@[simp] theorem fifoPush_cfg (xs : List Tagged) : (fifoPush xs s).cfg = s.cfg := rfl
@[simp] theorem fifoPush_core (xs : List Tagged) : (fifoPush xs s).core = s.core := rfl
@[simp] theorem fifoPush_lcfg (xs : List Tagged) : (fifoPush xs s).lcfg = s.lcfg := rfl
@[simp] theorem fifoPush_stop (xs : List Tagged) : (fifoPush xs s).stop = s.stop := rfl
@[simp] theorem fifoPush_stopReason (xs : List Tagged) : (fifoPush xs s).stopReason = s.stopReason := rfl
@[simp] theorem fifoPush_txbuf (xs : List Tagged) : (fifoPush xs s).txbuf = s.txbuf := rfl
@[simp] theorem fifoPush_draws (xs : List Tagged) : (fifoPush xs s).draws = s.draws := rfl
@[simp] theorem fifoPush_pendLen (xs : List Tagged) : (fifoPush xs s).pendLen = s.pendLen := rfl
@[simp] theorem fifoPush_eos (xs : List Tagged) : (fifoPush xs s).eos = s.eos := rfl
@[simp] theorem fifoPush_burstEnd (xs : List Tagged) : (fifoPush xs s).burstEnd = s.burstEnd := rfl
@[simp] theorem fifoPush_fifo (xs : List Tagged) : (fifoPush xs s).fifo = s.fifo ++ xs.take (pushCount xs s) := rfl
@[simp] theorem fifoPush_fifoDir (xs : List Tagged) : (fifoPush xs s).fifoDir = s.fifoDir := rfl
@[simp] theorem fifoPush_tx (xs : List Tagged) : (fifoPush xs s).tx = s.tx := rfl
@[simp] theorem fifoPush_pipe (xs : List Tagged) : (fifoPush xs s).pipe = s.pipe := rfl
@[simp] theorem fifoPush_rx (xs : List Tagged) : (fifoPush xs s).rx = s.rx := rfl
@[simp] theorem fifoPush_rxq (xs : List Tagged) : (fifoPush xs s).rxq = s.rxq := rfl
@[simp] theorem fifoPush_last (xs : List Tagged) : (fifoPush xs s).last = s.last := rfl
@[simp] theorem fifoPush_stats (xs : List Tagged) : (fifoPush xs s).stats = s.stats := rfl
@[simp] theorem fifoPush_idle (xs : List Tagged) : (fifoPush xs s).idle = s.idle := rfl
@[simp] theorem fifoPush_hist (xs : List Tagged) : (fifoPush xs s).hist = s.hist := rfl
@[simp] theorem fifoPush_stopAll (xs : List Tagged) : (fifoPush xs s).stopAll = s.stopAll := rfl

/-! `fifoPop` -/

@[simp] theorem fifoPop_params (n : Nat) : (fifoPop n s).params = s.params := rfl
@[simp] theorem fifoPop_pending (n : Nat) : (fifoPop n s).pending = s.pending := rfl
@[simp] theorem fifoPop_out (n : Nat) : (fifoPop n s).out = s.out := rfl
@[simp] theorem fifoPop_err (n : Nat) : (fifoPop n s).err = s.err := rfl
@[simp] theorem fifoPop_irqStatus (n : Nat) : (fifoPop n s).irqStatus = s.irqStatus := rfl
@[simp] theorem fifoPop_irqEnable (n : Nat) : (fifoPop n s).irqEnable = s.irqEnable := rfl
@[simp] theorem fifoPop_cfg (n : Nat) : (fifoPop n s).cfg = s.cfg := rfl
@[simp] theorem fifoPop_core (n : Nat) : (fifoPop n s).core = s.core := rfl
@[simp] theorem fifoPop_lcfg (n : Nat) : (fifoPop n s).lcfg = s.lcfg := rfl
@[simp] theorem fifoPop_stop (n : Nat) : (fifoPop n s).stop = s.stop := rfl
@[simp] theorem fifoPop_stopReason (n : Nat) : (fifoPop n s).stopReason = s.stopReason := rfl
@[simp] theorem fifoPop_txbuf (n : Nat) : (fifoPop n s).txbuf = s.txbuf := rfl
@[simp] theorem fifoPop_draws (n : Nat) : (fifoPop n s).draws = s.draws := rfl
@[simp] theorem fifoPop_pendLen (n : Nat) : (fifoPop n s).pendLen = s.pendLen := rfl
@[simp] theorem fifoPop_eos (n : Nat) : (fifoPop n s).eos = s.eos := rfl
@[simp] theorem fifoPop_burstEnd (n : Nat) : (fifoPop n s).burstEnd = s.burstEnd := rfl
@[simp] theorem fifoPop_fifo (n : Nat) : (fifoPop n s).fifo = s.fifo.drop n := rfl
@[simp] theorem fifoPop_fifoDir (n : Nat) : (fifoPop n s).fifoDir = s.fifoDir := rfl
@[simp] theorem fifoPop_tx (n : Nat) : (fifoPop n s).tx = s.tx := rfl
@[simp] theorem fifoPop_pipe (n : Nat) : (fifoPop n s).pipe = s.pipe := rfl
@[simp] theorem fifoPop_rx (n : Nat) : (fifoPop n s).rx = s.rx := rfl
@[simp] theorem fifoPop_rxq (n : Nat) : (fifoPop n s).rxq = s.rxq := rfl
@[simp] theorem fifoPop_last (n : Nat) : (fifoPop n s).last = s.last := rfl
@[simp] theorem fifoPop_stats (n : Nat) : (fifoPop n s).stats = s.stats := rfl
@[simp] theorem fifoPop_idle (n : Nat) : (fifoPop n s).idle = s.idle := rfl
@[simp] theorem fifoPop_hist (n : Nat) : (fifoPop n s).hist = s.hist := rfl
@[simp] theorem fifoPop_stopAll (n : Nat) : (fifoPop n s).stopAll = s.stopAll := rfl

/-! `enter` -/

@[simp] theorem enter_params (st : SyncState) : (enter st s).params = s.params := rfl
@[simp] theorem enter_pending (st : SyncState) : (enter st s).pending = s.pending := rfl
@[simp] theorem enter_out (st : SyncState) : (enter st s).out = s.out := rfl
@[simp] theorem enter_err (st : SyncState) : (enter st s).err = s.err := rfl
@[simp] theorem enter_irqStatus (st : SyncState) : (enter st s).irqStatus = s.irqStatus := rfl
@[simp] theorem enter_irqEnable (st : SyncState) : (enter st s).irqEnable = s.irqEnable := rfl
@[simp] theorem enter_cfg (st : SyncState) : (enter st s).cfg = s.cfg := rfl
@[simp] theorem enter_core (st : SyncState) : (enter st s).core = s.core := rfl
@[simp] theorem enter_lcfg (st : SyncState) : (enter st s).lcfg = s.lcfg := rfl
@[simp] theorem enter_stop (st : SyncState) : (enter st s).stop = s.stop := rfl
@[simp] theorem enter_stopReason (st : SyncState) : (enter st s).stopReason = s.stopReason := rfl
@[simp] theorem enter_txbuf (st : SyncState) : (enter st s).txbuf = s.txbuf := rfl
@[simp] theorem enter_draws (st : SyncState) : (enter st s).draws = s.draws := rfl
@[simp] theorem enter_pendLen (st : SyncState) : (enter st s).pendLen = s.pendLen := rfl
@[simp] theorem enter_eos (st : SyncState) : (enter st s).eos = s.eos := rfl
@[simp] theorem enter_burstEnd (st : SyncState) : (enter st s).burstEnd = s.burstEnd := rfl
@[simp] theorem enter_fifo (st : SyncState) : (enter st s).fifo = s.fifo := rfl
@[simp] theorem enter_fifoDir (st : SyncState) : (enter st s).fifoDir = s.fifoDir := rfl
@[simp] theorem enter_tx (st : SyncState) : (enter st s).tx = s.tx := rfl
@[simp] theorem enter_pipe (st : SyncState) : (enter st s).pipe = s.pipe := rfl
@[simp] theorem enter_rx (st : SyncState) : (enter st s).rx = { s.rx with sync := st, cnt := 0, bits := [] } := rfl
@[simp] theorem enter_rxq (st : SyncState) : (enter st s).rxq = s.rxq := rfl
@[simp] theorem enter_last (st : SyncState) : (enter st s).last = s.last := rfl
@[simp] theorem enter_stats (st : SyncState) : (enter st s).stats = s.stats := rfl
@[simp] theorem enter_idle (st : SyncState) : (enter st s).idle = s.idle := rfl
@[simp] theorem enter_hist (st : SyncState) : (enter st s).hist = s.hist := rfl
@[simp] theorem enter_stopAll (st : SyncState) : (enter st s).stopAll = s.stopAll := rfl

/-! `writeIrqStatus` -/

@[simp] theorem writeIrqStatus_params (v : Word) : (writeIrqStatus v s).params = s.params := rfl
@[simp] theorem writeIrqStatus_pending (v : Word) : (writeIrqStatus v s).pending = s.pending := rfl
@[simp] theorem writeIrqStatus_out (v : Word) : (writeIrqStatus v s).out = s.out := rfl
@[simp] theorem writeIrqStatus_err (v : Word) : (writeIrqStatus v s).err = s.err := rfl
@[simp] theorem writeIrqStatus_irqStatus (v : Word) : (writeIrqStatus v s).irqStatus = s.irqStatus &&& ~~~irqMask v := rfl
@[simp] theorem writeIrqStatus_irqEnable (v : Word) : (writeIrqStatus v s).irqEnable = s.irqEnable := rfl
@[simp] theorem writeIrqStatus_cfg (v : Word) : (writeIrqStatus v s).cfg = s.cfg := rfl
@[simp] theorem writeIrqStatus_core (v : Word) : (writeIrqStatus v s).core = s.core := rfl
@[simp] theorem writeIrqStatus_lcfg (v : Word) : (writeIrqStatus v s).lcfg = s.lcfg := rfl
@[simp] theorem writeIrqStatus_stop (v : Word) : (writeIrqStatus v s).stop = s.stop := rfl
@[simp] theorem writeIrqStatus_stopReason (v : Word) : (writeIrqStatus v s).stopReason = s.stopReason := rfl
@[simp] theorem writeIrqStatus_txbuf (v : Word) : (writeIrqStatus v s).txbuf = s.txbuf := rfl
@[simp] theorem writeIrqStatus_draws (v : Word) : (writeIrqStatus v s).draws = s.draws := rfl
@[simp] theorem writeIrqStatus_pendLen (v : Word) : (writeIrqStatus v s).pendLen = s.pendLen := rfl
@[simp] theorem writeIrqStatus_eos (v : Word) : (writeIrqStatus v s).eos = s.eos := rfl
@[simp] theorem writeIrqStatus_burstEnd (v : Word) : (writeIrqStatus v s).burstEnd = s.burstEnd := rfl
@[simp] theorem writeIrqStatus_fifo (v : Word) : (writeIrqStatus v s).fifo = s.fifo := rfl
@[simp] theorem writeIrqStatus_fifoDir (v : Word) : (writeIrqStatus v s).fifoDir = s.fifoDir := rfl
@[simp] theorem writeIrqStatus_tx (v : Word) : (writeIrqStatus v s).tx = s.tx := rfl
@[simp] theorem writeIrqStatus_pipe (v : Word) : (writeIrqStatus v s).pipe = s.pipe := rfl
@[simp] theorem writeIrqStatus_rx (v : Word) : (writeIrqStatus v s).rx = s.rx := rfl
@[simp] theorem writeIrqStatus_rxq (v : Word) : (writeIrqStatus v s).rxq = s.rxq := rfl
@[simp] theorem writeIrqStatus_last (v : Word) : (writeIrqStatus v s).last = s.last := rfl
@[simp] theorem writeIrqStatus_stats (v : Word) : (writeIrqStatus v s).stats = s.stats := rfl
@[simp] theorem writeIrqStatus_idle (v : Word) : (writeIrqStatus v s).idle = s.idle := rfl
@[simp] theorem writeIrqStatus_hist (v : Word) : (writeIrqStatus v s).hist = s.hist := rfl
@[simp] theorem writeIrqStatus_stopAll (v : Word) : (writeIrqStatus v s).stopAll = s.stopAll := rfl

/-! `writeIrqEnable` -/

@[simp] theorem writeIrqEnable_params (v : Word) : (writeIrqEnable v s).params = s.params := rfl
@[simp] theorem writeIrqEnable_pending (v : Word) : (writeIrqEnable v s).pending = s.pending := rfl
@[simp] theorem writeIrqEnable_out (v : Word) : (writeIrqEnable v s).out = s.out := rfl
@[simp] theorem writeIrqEnable_err (v : Word) : (writeIrqEnable v s).err = s.err := rfl
@[simp] theorem writeIrqEnable_irqStatus (v : Word) : (writeIrqEnable v s).irqStatus = s.irqStatus := rfl
@[simp] theorem writeIrqEnable_irqEnable (v : Word) : (writeIrqEnable v s).irqEnable = irqMask v := rfl
@[simp] theorem writeIrqEnable_cfg (v : Word) : (writeIrqEnable v s).cfg = s.cfg := rfl
@[simp] theorem writeIrqEnable_core (v : Word) : (writeIrqEnable v s).core = s.core := rfl
@[simp] theorem writeIrqEnable_lcfg (v : Word) : (writeIrqEnable v s).lcfg = s.lcfg := rfl
@[simp] theorem writeIrqEnable_stop (v : Word) : (writeIrqEnable v s).stop = s.stop := rfl
@[simp] theorem writeIrqEnable_stopReason (v : Word) : (writeIrqEnable v s).stopReason = s.stopReason := rfl
@[simp] theorem writeIrqEnable_txbuf (v : Word) : (writeIrqEnable v s).txbuf = s.txbuf := rfl
@[simp] theorem writeIrqEnable_draws (v : Word) : (writeIrqEnable v s).draws = s.draws := rfl
@[simp] theorem writeIrqEnable_pendLen (v : Word) : (writeIrqEnable v s).pendLen = s.pendLen := rfl
@[simp] theorem writeIrqEnable_eos (v : Word) : (writeIrqEnable v s).eos = s.eos := rfl
@[simp] theorem writeIrqEnable_burstEnd (v : Word) : (writeIrqEnable v s).burstEnd = s.burstEnd := rfl
@[simp] theorem writeIrqEnable_fifo (v : Word) : (writeIrqEnable v s).fifo = s.fifo := rfl
@[simp] theorem writeIrqEnable_fifoDir (v : Word) : (writeIrqEnable v s).fifoDir = s.fifoDir := rfl
@[simp] theorem writeIrqEnable_tx (v : Word) : (writeIrqEnable v s).tx = s.tx := rfl
@[simp] theorem writeIrqEnable_pipe (v : Word) : (writeIrqEnable v s).pipe = s.pipe := rfl
@[simp] theorem writeIrqEnable_rx (v : Word) : (writeIrqEnable v s).rx = s.rx := rfl
@[simp] theorem writeIrqEnable_rxq (v : Word) : (writeIrqEnable v s).rxq = s.rxq := rfl
@[simp] theorem writeIrqEnable_last (v : Word) : (writeIrqEnable v s).last = s.last := rfl
@[simp] theorem writeIrqEnable_stats (v : Word) : (writeIrqEnable v s).stats = s.stats := rfl
@[simp] theorem writeIrqEnable_idle (v : Word) : (writeIrqEnable v s).idle = s.idle := rfl
@[simp] theorem writeIrqEnable_hist (v : Word) : (writeIrqEnable v s).hist = s.hist := rfl
@[simp] theorem writeIrqEnable_stopAll (v : Word) : (writeIrqEnable v s).stopAll = s.stopAll := rfl

/-! `writeTxbuf` -/

@[simp] theorem writeTxbuf_params (a n : Nat) (v : Word) : (writeTxbuf a n v s).params = s.params := rfl
@[simp] theorem writeTxbuf_pending (a n : Nat) (v : Word) : (writeTxbuf a n v s).pending = s.pending := rfl
@[simp] theorem writeTxbuf_out (a n : Nat) (v : Word) : (writeTxbuf a n v s).out = s.out := rfl
@[simp] theorem writeTxbuf_err (a n : Nat) (v : Word) : (writeTxbuf a n v s).err = s.err := rfl
@[simp] theorem writeTxbuf_irqStatus (a n : Nat) (v : Word) : (writeTxbuf a n v s).irqStatus = s.irqStatus := rfl
@[simp] theorem writeTxbuf_irqEnable (a n : Nat) (v : Word) : (writeTxbuf a n v s).irqEnable = s.irqEnable := rfl
@[simp] theorem writeTxbuf_cfg (a n : Nat) (v : Word) : (writeTxbuf a n v s).cfg = s.cfg := rfl
@[simp] theorem writeTxbuf_core (a n : Nat) (v : Word) : (writeTxbuf a n v s).core = s.core := rfl
@[simp] theorem writeTxbuf_lcfg (a n : Nat) (v : Word) : (writeTxbuf a n v s).lcfg = s.lcfg := rfl
@[simp] theorem writeTxbuf_stop (a n : Nat) (v : Word) : (writeTxbuf a n v s).stop = s.stop := rfl
@[simp] theorem writeTxbuf_stopReason (a n : Nat) (v : Word) : (writeTxbuf a n v s).stopReason = s.stopReason := rfl
@[simp] theorem writeTxbuf_txbuf (a n : Nat) (v : Word) : (writeTxbuf a n v s).txbuf = memWriteBytes s.txbuf a (lanes n v) := rfl
@[simp] theorem writeTxbuf_draws (a n : Nat) (v : Word) : (writeTxbuf a n v s).draws = s.draws := rfl
@[simp] theorem writeTxbuf_pendLen (a n : Nat) (v : Word) : (writeTxbuf a n v s).pendLen = s.pendLen := rfl
@[simp] theorem writeTxbuf_eos (a n : Nat) (v : Word) : (writeTxbuf a n v s).eos = s.eos := rfl
@[simp] theorem writeTxbuf_burstEnd (a n : Nat) (v : Word) : (writeTxbuf a n v s).burstEnd = s.burstEnd := rfl
@[simp] theorem writeTxbuf_fifo (a n : Nat) (v : Word) : (writeTxbuf a n v s).fifo = s.fifo := rfl
@[simp] theorem writeTxbuf_fifoDir (a n : Nat) (v : Word) : (writeTxbuf a n v s).fifoDir = s.fifoDir := rfl
@[simp] theorem writeTxbuf_tx (a n : Nat) (v : Word) : (writeTxbuf a n v s).tx = s.tx := rfl
@[simp] theorem writeTxbuf_pipe (a n : Nat) (v : Word) : (writeTxbuf a n v s).pipe = s.pipe := rfl
@[simp] theorem writeTxbuf_rx (a n : Nat) (v : Word) : (writeTxbuf a n v s).rx = s.rx := rfl
@[simp] theorem writeTxbuf_rxq (a n : Nat) (v : Word) : (writeTxbuf a n v s).rxq = s.rxq := rfl
@[simp] theorem writeTxbuf_last (a n : Nat) (v : Word) : (writeTxbuf a n v s).last = s.last := rfl
@[simp] theorem writeTxbuf_stats (a n : Nat) (v : Word) : (writeTxbuf a n v s).stats = s.stats := rfl
@[simp] theorem writeTxbuf_idle (a n : Nat) (v : Word) : (writeTxbuf a n v s).idle = s.idle := rfl
@[simp] theorem writeTxbuf_hist (a n : Nat) (v : Word) : (writeTxbuf a n v s).hist = s.hist := rfl
@[simp] theorem writeTxbuf_stopAll (a n : Nat) (v : Word) : (writeTxbuf a n v s).stopAll = s.stopAll := rfl

/-! `countUnderrun` -/

@[simp] theorem countUnderrun_params (k : Nat) : (countUnderrun k s).params = s.params := rfl
@[simp] theorem countUnderrun_pending (k : Nat) : (countUnderrun k s).pending = s.pending := rfl
@[simp] theorem countUnderrun_out (k : Nat) : (countUnderrun k s).out = s.out := rfl
@[simp] theorem countUnderrun_err (k : Nat) : (countUnderrun k s).err = s.err := rfl
@[simp] theorem countUnderrun_irqStatus (k : Nat) : (countUnderrun k s).irqStatus = setIrq .underrun s.irqStatus := rfl
@[simp] theorem countUnderrun_irqEnable (k : Nat) : (countUnderrun k s).irqEnable = s.irqEnable := rfl
@[simp] theorem countUnderrun_cfg (k : Nat) : (countUnderrun k s).cfg = s.cfg := rfl
@[simp] theorem countUnderrun_core (k : Nat) : (countUnderrun k s).core = s.core := rfl
@[simp] theorem countUnderrun_lcfg (k : Nat) : (countUnderrun k s).lcfg = s.lcfg := rfl
@[simp] theorem countUnderrun_stop (k : Nat) : (countUnderrun k s).stop = s.stop := rfl
@[simp] theorem countUnderrun_stopReason (k : Nat) : (countUnderrun k s).stopReason = s.stopReason := rfl
@[simp] theorem countUnderrun_txbuf (k : Nat) : (countUnderrun k s).txbuf = s.txbuf := rfl
@[simp] theorem countUnderrun_draws (k : Nat) : (countUnderrun k s).draws = s.draws := rfl
@[simp] theorem countUnderrun_pendLen (k : Nat) : (countUnderrun k s).pendLen = s.pendLen := rfl
@[simp] theorem countUnderrun_eos (k : Nat) : (countUnderrun k s).eos = s.eos := rfl
@[simp] theorem countUnderrun_burstEnd (k : Nat) : (countUnderrun k s).burstEnd = s.burstEnd := rfl
@[simp] theorem countUnderrun_fifo (k : Nat) : (countUnderrun k s).fifo = s.fifo := rfl
@[simp] theorem countUnderrun_fifoDir (k : Nat) : (countUnderrun k s).fifoDir = s.fifoDir := rfl
@[simp] theorem countUnderrun_tx (k : Nat) : (countUnderrun k s).tx = s.tx := rfl
@[simp] theorem countUnderrun_pipe (k : Nat) : (countUnderrun k s).pipe = s.pipe := rfl
@[simp] theorem countUnderrun_rx (k : Nat) : (countUnderrun k s).rx = s.rx := rfl
@[simp] theorem countUnderrun_rxq (k : Nat) : (countUnderrun k s).rxq = s.rxq := rfl
@[simp] theorem countUnderrun_last (k : Nat) : (countUnderrun k s).last = s.last := rfl
@[simp] theorem countUnderrun_stats (k : Nat) : (countUnderrun k s).stats = { s.stats with underrunEv := s.stats.underrunEv + 1#32, underrunSmp := s.stats.underrunSmp + BitVec.ofNat 32 k } := rfl
@[simp] theorem countUnderrun_idle (k : Nat) : (countUnderrun k s).idle = s.idle := rfl
@[simp] theorem countUnderrun_hist (k : Nat) : (countUnderrun k s).hist = s.hist := rfl
@[simp] theorem countUnderrun_stopAll (k : Nat) : (countUnderrun k s).stopAll = s.stopAll := rfl

/-! `countOverrun` -/

@[simp] theorem countOverrun_params (k : Nat) : (countOverrun k s).params = s.params := rfl
@[simp] theorem countOverrun_pending (k : Nat) : (countOverrun k s).pending = s.pending := rfl
@[simp] theorem countOverrun_out (k : Nat) : (countOverrun k s).out = s.out := rfl
@[simp] theorem countOverrun_err (k : Nat) : (countOverrun k s).err = s.err := rfl
@[simp] theorem countOverrun_irqStatus (k : Nat) : (countOverrun k s).irqStatus = setIrq .overrun s.irqStatus := rfl
@[simp] theorem countOverrun_irqEnable (k : Nat) : (countOverrun k s).irqEnable = s.irqEnable := rfl
@[simp] theorem countOverrun_cfg (k : Nat) : (countOverrun k s).cfg = s.cfg := rfl
@[simp] theorem countOverrun_core (k : Nat) : (countOverrun k s).core = s.core := rfl
@[simp] theorem countOverrun_lcfg (k : Nat) : (countOverrun k s).lcfg = s.lcfg := rfl
@[simp] theorem countOverrun_stop (k : Nat) : (countOverrun k s).stop = s.stop := rfl
@[simp] theorem countOverrun_stopReason (k : Nat) : (countOverrun k s).stopReason = s.stopReason := rfl
@[simp] theorem countOverrun_txbuf (k : Nat) : (countOverrun k s).txbuf = s.txbuf := rfl
@[simp] theorem countOverrun_draws (k : Nat) : (countOverrun k s).draws = s.draws := rfl
@[simp] theorem countOverrun_pendLen (k : Nat) : (countOverrun k s).pendLen = s.pendLen := rfl
@[simp] theorem countOverrun_eos (k : Nat) : (countOverrun k s).eos = s.eos := rfl
@[simp] theorem countOverrun_burstEnd (k : Nat) : (countOverrun k s).burstEnd = s.burstEnd := rfl
@[simp] theorem countOverrun_fifo (k : Nat) : (countOverrun k s).fifo = s.fifo := rfl
@[simp] theorem countOverrun_fifoDir (k : Nat) : (countOverrun k s).fifoDir = s.fifoDir := rfl
@[simp] theorem countOverrun_tx (k : Nat) : (countOverrun k s).tx = s.tx := rfl
@[simp] theorem countOverrun_pipe (k : Nat) : (countOverrun k s).pipe = s.pipe := rfl
@[simp] theorem countOverrun_rx (k : Nat) : (countOverrun k s).rx = s.rx := rfl
@[simp] theorem countOverrun_rxq (k : Nat) : (countOverrun k s).rxq = s.rxq := rfl
@[simp] theorem countOverrun_last (k : Nat) : (countOverrun k s).last = s.last := rfl
@[simp] theorem countOverrun_stats (k : Nat) : (countOverrun k s).stats = { s.stats with overrunEv := s.stats.overrunEv + 1#32, overrunSmp := s.stats.overrunSmp + BitVec.ofNat 32 k } := rfl
@[simp] theorem countOverrun_idle (k : Nat) : (countOverrun k s).idle = s.idle := rfl
@[simp] theorem countOverrun_hist (k : Nat) : (countOverrun k s).hist = s.hist := rfl
@[simp] theorem countOverrun_stopAll (k : Nat) : (countOverrun k s).stopAll = s.stopAll := rfl

/-! `engineStop` -/

@[simp] theorem engineStop_params : (engineStop s).params = s.params := rfl
@[simp] theorem engineStop_pending : (engineStop s).pending = s.pending := rfl
@[simp] theorem engineStop_out : (engineStop s).out = s.out := rfl
@[simp] theorem engineStop_err : (engineStop s).err = s.err := rfl
@[simp] theorem engineStop_irqStatus : (engineStop s).irqStatus = setIrq .stopped s.irqStatus := rfl
@[simp] theorem engineStop_irqEnable : (engineStop s).irqEnable = s.irqEnable := rfl
@[simp] theorem engineStop_cfg : (engineStop s).cfg = s.cfg := rfl
@[simp] theorem engineStop_core : (engineStop s).core = .idle := rfl
@[simp] theorem engineStop_lcfg : (engineStop s).lcfg = s.lcfg := rfl
@[simp] theorem engineStop_stop : (engineStop s).stop = none := rfl
@[simp] theorem engineStop_stopReason : (engineStop s).stopReason = endOfStop (s.stop.getD .stopAll) := rfl
@[simp] theorem engineStop_txbuf : (engineStop s).txbuf = s.txbuf := rfl
@[simp] theorem engineStop_draws : (engineStop s).draws = s.draws := rfl
@[simp] theorem engineStop_pendLen : (engineStop s).pendLen = s.pendLen := rfl
@[simp] theorem engineStop_eos : (engineStop s).eos = s.eos := rfl
@[simp] theorem engineStop_burstEnd : (engineStop s).burstEnd = s.burstEnd := rfl
@[simp] theorem engineStop_fifo : (engineStop s).fifo = s.fifo := rfl
@[simp] theorem engineStop_fifoDir : (engineStop s).fifoDir = s.fifoDir := rfl
@[simp] theorem engineStop_tx : (engineStop s).tx = { s.tx with phase := .produce, outbuf := [], outFrameEnd := false, outFinal := false } := rfl
@[simp] theorem engineStop_pipe : (engineStop s).pipe = s.pipe := rfl
@[simp] theorem engineStop_rx : (engineStop s).rx = s.rx := rfl
@[simp] theorem engineStop_rxq : (engineStop s).rxq = s.rxq := rfl
@[simp] theorem engineStop_last : (engineStop s).last = s.last := rfl
@[simp] theorem engineStop_stats : (engineStop s).stats = s.stats := rfl
@[simp] theorem engineStop_idle : (engineStop s).idle = s.idle := rfl
@[simp] theorem engineStop_hist : (engineStop s).hist = s.hist := rfl
@[simp] theorem engineStop_stopAll : (engineStop s).stopAll = s.stopAll := rfl

/-! `startFrame` -/

@[simp] theorem startFrame_params : (startFrame s).params = s.params := rfl
@[simp] theorem startFrame_pending : (startFrame s).pending = s.pending := rfl
@[simp] theorem startFrame_out : (startFrame s).out = s.out := rfl
@[simp] theorem startFrame_err : (startFrame s).err = s.err := rfl
@[simp] theorem startFrame_irqStatus : (startFrame s).irqStatus = setIrq .txReady s.irqStatus := rfl
@[simp] theorem startFrame_irqEnable : (startFrame s).irqEnable = s.irqEnable := rfl
@[simp] theorem startFrame_cfg : (startFrame s).cfg = s.cfg := rfl
@[simp] theorem startFrame_core : (startFrame s).core = s.core := rfl
@[simp] theorem startFrame_lcfg : (startFrame s).lcfg = s.lcfg := rfl
@[simp] theorem startFrame_stop : (startFrame s).stop = s.stop := rfl
@[simp] theorem startFrame_stopReason : (startFrame s).stopReason = s.stopReason := rfl
@[simp] theorem startFrame_txbuf : (startFrame s).txbuf = s.txbuf := rfl
@[simp] theorem startFrame_draws : (startFrame s).draws = s.draws := rfl
@[simp] theorem startFrame_pendLen : (startFrame s).pendLen = 0 := rfl
@[simp] theorem startFrame_eos : (startFrame s).eos = s.eos := rfl
@[simp] theorem startFrame_burstEnd : (startFrame s).burstEnd = s.burstEnd := rfl
@[simp] theorem startFrame_fifo : (startFrame s).fifo = s.fifo := rfl
@[simp] theorem startFrame_fifoDir : (startFrame s).fifoDir = s.fifoDir := rfl
@[simp] theorem startFrame_tx : (startFrame s).tx = { s.tx with gen := .frame (pendingSyms s), modem := Config.modInit s.lcfg.bt.toNat } := rfl
@[simp] theorem startFrame_pipe : (startFrame s).pipe = s.pipe := rfl
@[simp] theorem startFrame_rx : (startFrame s).rx = s.rx := rfl
@[simp] theorem startFrame_rxq : (startFrame s).rxq = s.rxq := rfl
@[simp] theorem startFrame_last : (startFrame s).last = s.last := rfl
@[simp] theorem startFrame_stats : (startFrame s).stats = s.stats := rfl
@[simp] theorem startFrame_idle : (startFrame s).idle = s.idle := rfl
@[simp] theorem startFrame_hist : (startFrame s).hist = s.hist := rfl
@[simp] theorem startFrame_stopAll : (startFrame s).stopAll = s.stopAll := rfl

/-! `deliver` -/

@[simp] theorem deliver_params (h pl : List Byte) : (deliver h pl s).params = s.params := rfl
@[simp] theorem deliver_pending (h pl : List Byte) : (deliver h pl s).pending = s.pending := rfl
@[simp] theorem deliver_out (h pl : List Byte) : (deliver h pl s).out = s.out := rfl
@[simp] theorem deliver_err (h pl : List Byte) : (deliver h pl s).err = s.err := rfl
@[simp] theorem deliver_irqStatus (h pl : List Byte) : (deliver h pl s).irqStatus = setIrq .rxDeliver s.irqStatus := rfl
@[simp] theorem deliver_irqEnable (h pl : List Byte) : (deliver h pl s).irqEnable = s.irqEnable := rfl
@[simp] theorem deliver_cfg (h pl : List Byte) : (deliver h pl s).cfg = s.cfg := rfl
@[simp] theorem deliver_core (h pl : List Byte) : (deliver h pl s).core = s.core := rfl
@[simp] theorem deliver_lcfg (h pl : List Byte) : (deliver h pl s).lcfg = s.lcfg := rfl
@[simp] theorem deliver_stop (h pl : List Byte) : (deliver h pl s).stop = s.stop := rfl
@[simp] theorem deliver_stopReason (h pl : List Byte) : (deliver h pl s).stopReason = s.stopReason := rfl
@[simp] theorem deliver_txbuf (h pl : List Byte) : (deliver h pl s).txbuf = s.txbuf := rfl
@[simp] theorem deliver_draws (h pl : List Byte) : (deliver h pl s).draws = s.draws := rfl
@[simp] theorem deliver_pendLen (h pl : List Byte) : (deliver h pl s).pendLen = s.pendLen := rfl
@[simp] theorem deliver_eos (h pl : List Byte) : (deliver h pl s).eos = s.eos := rfl
@[simp] theorem deliver_burstEnd (h pl : List Byte) : (deliver h pl s).burstEnd = s.burstEnd := rfl
@[simp] theorem deliver_fifo (h pl : List Byte) : (deliver h pl s).fifo = s.fifo := rfl
@[simp] theorem deliver_fifoDir (h pl : List Byte) : (deliver h pl s).fifoDir = s.fifoDir := rfl
@[simp] theorem deliver_tx (h pl : List Byte) : (deliver h pl s).tx = s.tx := rfl
@[simp] theorem deliver_pipe (h pl : List Byte) : (deliver h pl s).pipe = s.pipe := rfl
@[simp] theorem deliver_rx (h pl : List Byte) : (deliver h pl s).rx = s.rx := rfl
@[simp] theorem deliver_rxq (h pl : List Byte) : (deliver h pl s).rxq = s.rxq ++ [⟨h, s.rx.hv, s.rx.plen, pl⟩] := rfl
@[simp] theorem deliver_last (h pl : List Byte) : (deliver h pl s).last = s.last := rfl
@[simp] theorem deliver_stats (h pl : List Byte) : (deliver h pl s).stats = { s.stats with rxDelivered := s.stats.rxDelivered + 1#32 } := rfl
@[simp] theorem deliver_idle (h pl : List Byte) : (deliver h pl s).idle = 0#64 := rfl
@[simp] theorem deliver_hist (h pl : List Byte) : (deliver h pl s).hist = s.hist := rfl
@[simp] theorem deliver_stopAll (h pl : List Byte) : (deliver h pl s).stopAll = s.stopAll := rfl

/-! `countSymbol` -/

@[simp] theorem countSymbol_params (v : Int) : (countSymbol v s).params = s.params := rfl
@[simp] theorem countSymbol_pending (v : Int) : (countSymbol v s).pending = s.pending := rfl
@[simp] theorem countSymbol_out (v : Int) : (countSymbol v s).out = s.out := rfl
@[simp] theorem countSymbol_err (v : Int) : (countSymbol v s).err = s.err := rfl
@[simp] theorem countSymbol_irqStatus (v : Int) : (countSymbol v s).irqStatus = s.irqStatus := rfl
@[simp] theorem countSymbol_irqEnable (v : Int) : (countSymbol v s).irqEnable = s.irqEnable := rfl
@[simp] theorem countSymbol_cfg (v : Int) : (countSymbol v s).cfg = s.cfg := rfl
@[simp] theorem countSymbol_core (v : Int) : (countSymbol v s).core = s.core := rfl
@[simp] theorem countSymbol_lcfg (v : Int) : (countSymbol v s).lcfg = s.lcfg := rfl
@[simp] theorem countSymbol_stop (v : Int) : (countSymbol v s).stop = s.stop := rfl
@[simp] theorem countSymbol_stopReason (v : Int) : (countSymbol v s).stopReason = s.stopReason := rfl
@[simp] theorem countSymbol_txbuf (v : Int) : (countSymbol v s).txbuf = s.txbuf := rfl
@[simp] theorem countSymbol_draws (v : Int) : (countSymbol v s).draws = s.draws := rfl
@[simp] theorem countSymbol_pendLen (v : Int) : (countSymbol v s).pendLen = s.pendLen := rfl
@[simp] theorem countSymbol_eos (v : Int) : (countSymbol v s).eos = s.eos := rfl
@[simp] theorem countSymbol_burstEnd (v : Int) : (countSymbol v s).burstEnd = s.burstEnd := rfl
@[simp] theorem countSymbol_fifo (v : Int) : (countSymbol v s).fifo = s.fifo := rfl
@[simp] theorem countSymbol_fifoDir (v : Int) : (countSymbol v s).fifoDir = s.fifoDir := rfl
@[simp] theorem countSymbol_tx (v : Int) : (countSymbol v s).tx = s.tx := rfl
@[simp] theorem countSymbol_pipe (v : Int) : (countSymbol v s).pipe = s.pipe := rfl
@[simp] theorem countSymbol_rx (v : Int) : (countSymbol v s).rx = { s.rx with cnt := s.rx.cnt + 1, bits := if s.rx.sync = .rxHeader ∨ s.rx.sync = .rxPayload then s.rx.bits ++ [decide (0 < v)] else s.rx.bits } := rfl
@[simp] theorem countSymbol_rxq (v : Int) : (countSymbol v s).rxq = s.rxq := rfl
@[simp] theorem countSymbol_last (v : Int) : (countSymbol v s).last = s.last := rfl
@[simp] theorem countSymbol_stats (v : Int) : (countSymbol v s).stats = s.stats := rfl
@[simp] theorem countSymbol_idle (v : Int) : (countSymbol v s).idle = s.idle := rfl
@[simp] theorem countSymbol_hist (v : Int) : (countSymbol v s).hist = s.hist := rfl
@[simp] theorem countSymbol_stopAll (v : Int) : (countSymbol v s).stopAll = s.stopAll := rfl

/-! `requestStop`: the fields no case touches. -/

@[simp] theorem requestStop_params (r : StopReq) : (requestStop r s).params = s.params := by
  unfold requestStop; (repeat' split) <;> rfl
@[simp] theorem requestStop_pending (r : StopReq) : (requestStop r s).pending = s.pending := by
  unfold requestStop; (repeat' split) <;> rfl
@[simp] theorem requestStop_out (r : StopReq) : (requestStop r s).out = s.out := by
  unfold requestStop; (repeat' split) <;> rfl
@[simp] theorem requestStop_err (r : StopReq) : (requestStop r s).err = s.err := by
  unfold requestStop; (repeat' split) <;> rfl
@[simp] theorem requestStop_irqStatus (r : StopReq) : (requestStop r s).irqStatus = s.irqStatus := by
  unfold requestStop; (repeat' split) <;> rfl
@[simp] theorem requestStop_irqEnable (r : StopReq) : (requestStop r s).irqEnable = s.irqEnable := by
  unfold requestStop; (repeat' split) <;> rfl
@[simp] theorem requestStop_cfg (r : StopReq) : (requestStop r s).cfg = s.cfg := by
  unfold requestStop; (repeat' split) <;> rfl
@[simp] theorem requestStop_core (r : StopReq) : (requestStop r s).core = s.core := by
  unfold requestStop; (repeat' split) <;> rfl
@[simp] theorem requestStop_lcfg (r : StopReq) : (requestStop r s).lcfg = s.lcfg := by
  unfold requestStop; (repeat' split) <;> rfl
@[simp] theorem requestStop_stopReason (r : StopReq) : (requestStop r s).stopReason = s.stopReason := by
  unfold requestStop; (repeat' split) <;> rfl
@[simp] theorem requestStop_txbuf (r : StopReq) : (requestStop r s).txbuf = s.txbuf := by
  unfold requestStop; (repeat' split) <;> rfl
@[simp] theorem requestStop_draws (r : StopReq) : (requestStop r s).draws = s.draws := by
  unfold requestStop; (repeat' split) <;> rfl
@[simp] theorem requestStop_pendLen (r : StopReq) : (requestStop r s).pendLen = s.pendLen := by
  unfold requestStop; (repeat' split) <;> rfl
@[simp] theorem requestStop_eos (r : StopReq) : (requestStop r s).eos = s.eos := by
  unfold requestStop; (repeat' split) <;> rfl
@[simp] theorem requestStop_burstEnd (r : StopReq) : (requestStop r s).burstEnd = s.burstEnd := by
  unfold requestStop; (repeat' split) <;> rfl
@[simp] theorem requestStop_fifo (r : StopReq) : (requestStop r s).fifo = s.fifo := by
  unfold requestStop; (repeat' split) <;> rfl
@[simp] theorem requestStop_fifoDir (r : StopReq) : (requestStop r s).fifoDir = s.fifoDir := by
  unfold requestStop; (repeat' split) <;> rfl
@[simp] theorem requestStop_tx (r : StopReq) : (requestStop r s).tx = s.tx := by
  unfold requestStop; (repeat' split) <;> rfl
@[simp] theorem requestStop_pipe (r : StopReq) : (requestStop r s).pipe = s.pipe := by
  unfold requestStop; (repeat' split) <;> rfl
@[simp] theorem requestStop_rx (r : StopReq) : (requestStop r s).rx = s.rx := by
  unfold requestStop; (repeat' split) <;> rfl
@[simp] theorem requestStop_rxq (r : StopReq) : (requestStop r s).rxq = s.rxq := by
  unfold requestStop; (repeat' split) <;> rfl
@[simp] theorem requestStop_last (r : StopReq) : (requestStop r s).last = s.last := by
  unfold requestStop; (repeat' split) <;> rfl
@[simp] theorem requestStop_stats (r : StopReq) : (requestStop r s).stats = s.stats := by
  unfold requestStop; (repeat' split) <;> rfl
@[simp] theorem requestStop_idle (r : StopReq) : (requestStop r s).idle = s.idle := by
  unfold requestStop; (repeat' split) <;> rfl
@[simp] theorem requestStop_hist (r : StopReq) : (requestStop r s).hist = s.hist := by
  unfold requestStop; (repeat' split) <;> rfl
@[simp] theorem requestStop_stopAll (r : StopReq) : (requestStop r s).stopAll = s.stopAll := by
  unfold requestStop; (repeat' split) <;> rfl

/-! `dumpAll`: the fields no case touches. -/

@[simp] theorem dumpAll_params (d : Dir) (ys : List Sample) : (dumpAll d ys s).params = s.params := by
  unfold dumpAll; split <;> rfl
@[simp] theorem dumpAll_pending (d : Dir) (ys : List Sample) : (dumpAll d ys s).pending = s.pending := by
  unfold dumpAll; split <;> rfl
@[simp] theorem dumpAll_rdata (d : Dir) (ys : List Sample) : (dumpAll d ys s).out.rdata = s.out.rdata := by
  unfold dumpAll; split <;> rfl
@[simp] theorem dumpAll_slverr (d : Dir) (ys : List Sample) : (dumpAll d ys s).out.slverr = s.out.slverr := by
  unfold dumpAll; split <;> rfl
@[simp] theorem dumpAll_popped (d : Dir) (ys : List Sample) : (dumpAll d ys s).out.popped = s.out.popped := by
  unfold dumpAll; split <;> rfl
@[simp] theorem dumpAll_accepted (d : Dir) (ys : List Sample) : (dumpAll d ys s).out.accepted = s.out.accepted := by
  unfold dumpAll; split <;> rfl
@[simp] theorem dumpAll_err (d : Dir) (ys : List Sample) : (dumpAll d ys s).err = s.err := by
  unfold dumpAll; split <;> rfl
@[simp] theorem dumpAll_irqStatus (d : Dir) (ys : List Sample) : (dumpAll d ys s).irqStatus = s.irqStatus := by
  unfold dumpAll; split <;> rfl
@[simp] theorem dumpAll_irqEnable (d : Dir) (ys : List Sample) : (dumpAll d ys s).irqEnable = s.irqEnable := by
  unfold dumpAll; split <;> rfl
@[simp] theorem dumpAll_cfg (d : Dir) (ys : List Sample) : (dumpAll d ys s).cfg = s.cfg := by
  unfold dumpAll; split <;> rfl
@[simp] theorem dumpAll_core (d : Dir) (ys : List Sample) : (dumpAll d ys s).core = s.core := by
  unfold dumpAll; split <;> rfl
@[simp] theorem dumpAll_lcfg (d : Dir) (ys : List Sample) : (dumpAll d ys s).lcfg = s.lcfg := by
  unfold dumpAll; split <;> rfl
@[simp] theorem dumpAll_stop (d : Dir) (ys : List Sample) : (dumpAll d ys s).stop = s.stop := by
  unfold dumpAll; split <;> rfl
@[simp] theorem dumpAll_stopReason (d : Dir) (ys : List Sample) : (dumpAll d ys s).stopReason = s.stopReason := by
  unfold dumpAll; split <;> rfl
@[simp] theorem dumpAll_txbuf (d : Dir) (ys : List Sample) : (dumpAll d ys s).txbuf = s.txbuf := by
  unfold dumpAll; split <;> rfl
@[simp] theorem dumpAll_draws (d : Dir) (ys : List Sample) : (dumpAll d ys s).draws = s.draws := by
  unfold dumpAll; split <;> rfl
@[simp] theorem dumpAll_pendLen (d : Dir) (ys : List Sample) : (dumpAll d ys s).pendLen = s.pendLen := by
  unfold dumpAll; split <;> rfl
@[simp] theorem dumpAll_eos (d : Dir) (ys : List Sample) : (dumpAll d ys s).eos = s.eos := by
  unfold dumpAll; split <;> rfl
@[simp] theorem dumpAll_burstEnd (d : Dir) (ys : List Sample) : (dumpAll d ys s).burstEnd = s.burstEnd := by
  unfold dumpAll; split <;> rfl
@[simp] theorem dumpAll_fifo (d : Dir) (ys : List Sample) : (dumpAll d ys s).fifo = s.fifo := by
  unfold dumpAll; split <;> rfl
@[simp] theorem dumpAll_fifoDir (d : Dir) (ys : List Sample) : (dumpAll d ys s).fifoDir = s.fifoDir := by
  unfold dumpAll; split <;> rfl
@[simp] theorem dumpAll_tx (d : Dir) (ys : List Sample) : (dumpAll d ys s).tx = s.tx := by
  unfold dumpAll; split <;> rfl
@[simp] theorem dumpAll_pipe (d : Dir) (ys : List Sample) : (dumpAll d ys s).pipe = s.pipe := by
  unfold dumpAll; split <;> rfl
@[simp] theorem dumpAll_rx (d : Dir) (ys : List Sample) : (dumpAll d ys s).rx = s.rx := by
  unfold dumpAll; split <;> rfl
@[simp] theorem dumpAll_rxq (d : Dir) (ys : List Sample) : (dumpAll d ys s).rxq = s.rxq := by
  unfold dumpAll; split <;> rfl
@[simp] theorem dumpAll_last (d : Dir) (ys : List Sample) : (dumpAll d ys s).last = s.last := by
  unfold dumpAll; split <;> rfl
@[simp] theorem dumpAll_stats (d : Dir) (ys : List Sample) : (dumpAll d ys s).stats = s.stats := by
  unfold dumpAll; split <;> rfl
@[simp] theorem dumpAll_idle (d : Dir) (ys : List Sample) : (dumpAll d ys s).idle = s.idle := by
  unfold dumpAll; split <;> rfl
@[simp] theorem dumpAll_stopAll (d : Dir) (ys : List Sample) : (dumpAll d ys s).stopAll = s.stopAll := by
  unfold dumpAll; split <;> rfl

/-! `markBurstEnd`: the fields no case touches. -/

@[simp] theorem markBurstEnd_params (o : List Tagged) : (markBurstEnd o s).params = s.params := by
  unfold markBurstEnd; split <;> rfl
@[simp] theorem markBurstEnd_pending (o : List Tagged) : (markBurstEnd o s).pending = s.pending := by
  unfold markBurstEnd; split <;> rfl
@[simp] theorem markBurstEnd_out (o : List Tagged) : (markBurstEnd o s).out = s.out := by
  unfold markBurstEnd; split <;> rfl
@[simp] theorem markBurstEnd_err (o : List Tagged) : (markBurstEnd o s).err = s.err := by
  unfold markBurstEnd; split <;> rfl
@[simp] theorem markBurstEnd_irqEnable (o : List Tagged) : (markBurstEnd o s).irqEnable = s.irqEnable := by
  unfold markBurstEnd; split <;> rfl
@[simp] theorem markBurstEnd_cfg (o : List Tagged) : (markBurstEnd o s).cfg = s.cfg := by
  unfold markBurstEnd; split <;> rfl
@[simp] theorem markBurstEnd_core (o : List Tagged) : (markBurstEnd o s).core = s.core := by
  unfold markBurstEnd; split <;> rfl
@[simp] theorem markBurstEnd_lcfg (o : List Tagged) : (markBurstEnd o s).lcfg = s.lcfg := by
  unfold markBurstEnd; split <;> rfl
@[simp] theorem markBurstEnd_stop (o : List Tagged) : (markBurstEnd o s).stop = s.stop := by
  unfold markBurstEnd; split <;> rfl
@[simp] theorem markBurstEnd_stopReason (o : List Tagged) : (markBurstEnd o s).stopReason = s.stopReason := by
  unfold markBurstEnd; split <;> rfl
@[simp] theorem markBurstEnd_txbuf (o : List Tagged) : (markBurstEnd o s).txbuf = s.txbuf := by
  unfold markBurstEnd; split <;> rfl
@[simp] theorem markBurstEnd_draws (o : List Tagged) : (markBurstEnd o s).draws = s.draws := by
  unfold markBurstEnd; split <;> rfl
@[simp] theorem markBurstEnd_pendLen (o : List Tagged) : (markBurstEnd o s).pendLen = s.pendLen := by
  unfold markBurstEnd; split <;> rfl
@[simp] theorem markBurstEnd_eos (o : List Tagged) : (markBurstEnd o s).eos = s.eos := by
  unfold markBurstEnd; split <;> rfl
@[simp] theorem markBurstEnd_fifo (o : List Tagged) : (markBurstEnd o s).fifo = s.fifo := by
  unfold markBurstEnd; split <;> rfl
@[simp] theorem markBurstEnd_fifoDir (o : List Tagged) : (markBurstEnd o s).fifoDir = s.fifoDir := by
  unfold markBurstEnd; split <;> rfl
@[simp] theorem markBurstEnd_tx (o : List Tagged) : (markBurstEnd o s).tx = s.tx := by
  unfold markBurstEnd; split <;> rfl
@[simp] theorem markBurstEnd_pipe (o : List Tagged) : (markBurstEnd o s).pipe = s.pipe := by
  unfold markBurstEnd; split <;> rfl
@[simp] theorem markBurstEnd_rx (o : List Tagged) : (markBurstEnd o s).rx = s.rx := by
  unfold markBurstEnd; split <;> rfl
@[simp] theorem markBurstEnd_rxq (o : List Tagged) : (markBurstEnd o s).rxq = s.rxq := by
  unfold markBurstEnd; split <;> rfl
@[simp] theorem markBurstEnd_last (o : List Tagged) : (markBurstEnd o s).last = s.last := by
  unfold markBurstEnd; split <;> rfl
@[simp] theorem markBurstEnd_stats (o : List Tagged) : (markBurstEnd o s).stats = s.stats := by
  unfold markBurstEnd; split <;> rfl
@[simp] theorem markBurstEnd_idle (o : List Tagged) : (markBurstEnd o s).idle = s.idle := by
  unfold markBurstEnd; split <;> rfl
@[simp] theorem markBurstEnd_stopAll (o : List Tagged) : (markBurstEnd o s).stopAll = s.stopAll := by
  unfold markBurstEnd; split <;> rfl

/-! `tally`: the fields no case touches. -/

@[simp] theorem tally_params (c : Bool) (g : Stats → Stats) : (tally c g s).params = s.params := by cases c <;> rfl
@[simp] theorem tally_pending (c : Bool) (g : Stats → Stats) : (tally c g s).pending = s.pending := by cases c <;> rfl
@[simp] theorem tally_out (c : Bool) (g : Stats → Stats) : (tally c g s).out = s.out := by cases c <;> rfl
@[simp] theorem tally_err (c : Bool) (g : Stats → Stats) : (tally c g s).err = s.err := by cases c <;> rfl
@[simp] theorem tally_irqEnable (c : Bool) (g : Stats → Stats) : (tally c g s).irqEnable = s.irqEnable := by cases c <;> rfl
@[simp] theorem tally_cfg (c : Bool) (g : Stats → Stats) : (tally c g s).cfg = s.cfg := by cases c <;> rfl
@[simp] theorem tally_core (c : Bool) (g : Stats → Stats) : (tally c g s).core = s.core := by cases c <;> rfl
@[simp] theorem tally_lcfg (c : Bool) (g : Stats → Stats) : (tally c g s).lcfg = s.lcfg := by cases c <;> rfl
@[simp] theorem tally_stop (c : Bool) (g : Stats → Stats) : (tally c g s).stop = s.stop := by cases c <;> rfl
@[simp] theorem tally_stopReason (c : Bool) (g : Stats → Stats) : (tally c g s).stopReason = s.stopReason := by cases c <;> rfl
@[simp] theorem tally_txbuf (c : Bool) (g : Stats → Stats) : (tally c g s).txbuf = s.txbuf := by cases c <;> rfl
@[simp] theorem tally_draws (c : Bool) (g : Stats → Stats) : (tally c g s).draws = s.draws := by cases c <;> rfl
@[simp] theorem tally_pendLen (c : Bool) (g : Stats → Stats) : (tally c g s).pendLen = s.pendLen := by cases c <;> rfl
@[simp] theorem tally_eos (c : Bool) (g : Stats → Stats) : (tally c g s).eos = s.eos := by cases c <;> rfl
@[simp] theorem tally_burstEnd (c : Bool) (g : Stats → Stats) : (tally c g s).burstEnd = s.burstEnd := by cases c <;> rfl
@[simp] theorem tally_fifo (c : Bool) (g : Stats → Stats) : (tally c g s).fifo = s.fifo := by cases c <;> rfl
@[simp] theorem tally_fifoDir (c : Bool) (g : Stats → Stats) : (tally c g s).fifoDir = s.fifoDir := by cases c <;> rfl
@[simp] theorem tally_tx (c : Bool) (g : Stats → Stats) : (tally c g s).tx = s.tx := by cases c <;> rfl
@[simp] theorem tally_pipe (c : Bool) (g : Stats → Stats) : (tally c g s).pipe = s.pipe := by cases c <;> rfl
@[simp] theorem tally_rx (c : Bool) (g : Stats → Stats) : (tally c g s).rx = s.rx := by cases c <;> rfl
@[simp] theorem tally_rxq (c : Bool) (g : Stats → Stats) : (tally c g s).rxq = s.rxq := by cases c <;> rfl
@[simp] theorem tally_last (c : Bool) (g : Stats → Stats) : (tally c g s).last = s.last := by cases c <;> rfl
@[simp] theorem tally_idle (c : Bool) (g : Stats → Stats) : (tally c g s).idle = s.idle := by cases c <;> rfl
@[simp] theorem tally_hist (c : Bool) (g : Stats → Stats) : (tally c g s).hist = s.hist := by cases c <;> rfl
@[simp] theorem tally_stopAll (c : Bool) (g : Stats → Stats) : (tally c g s).stopAll = s.stopAll := by cases c <;> rfl
@[simp] theorem tally_irqStatus (c : Bool) (g : Stats → Stats) : (tally c g s).irqStatus = s.irqStatus := by cases c <;> rfl

/-! `countIf`: the fields no case touches. -/

@[simp] theorem countIf_params (c : Bool) (b : IrqBit) (g : Stats → Stats) : (countIf c b g s).params = s.params := by
  cases c <;> rfl
@[simp] theorem countIf_pending (c : Bool) (b : IrqBit) (g : Stats → Stats) : (countIf c b g s).pending = s.pending := by
  cases c <;> rfl
@[simp] theorem countIf_out (c : Bool) (b : IrqBit) (g : Stats → Stats) : (countIf c b g s).out = s.out := by
  cases c <;> rfl
@[simp] theorem countIf_err (c : Bool) (b : IrqBit) (g : Stats → Stats) : (countIf c b g s).err = s.err := by
  cases c <;> rfl
@[simp] theorem countIf_irqEnable (c : Bool) (b : IrqBit) (g : Stats → Stats) : (countIf c b g s).irqEnable = s.irqEnable := by
  cases c <;> rfl
@[simp] theorem countIf_cfg (c : Bool) (b : IrqBit) (g : Stats → Stats) : (countIf c b g s).cfg = s.cfg := by
  cases c <;> rfl
@[simp] theorem countIf_core (c : Bool) (b : IrqBit) (g : Stats → Stats) : (countIf c b g s).core = s.core := by
  cases c <;> rfl
@[simp] theorem countIf_lcfg (c : Bool) (b : IrqBit) (g : Stats → Stats) : (countIf c b g s).lcfg = s.lcfg := by
  cases c <;> rfl
@[simp] theorem countIf_stop (c : Bool) (b : IrqBit) (g : Stats → Stats) : (countIf c b g s).stop = s.stop := by
  cases c <;> rfl
@[simp] theorem countIf_stopReason (c : Bool) (b : IrqBit) (g : Stats → Stats) : (countIf c b g s).stopReason = s.stopReason := by
  cases c <;> rfl
@[simp] theorem countIf_txbuf (c : Bool) (b : IrqBit) (g : Stats → Stats) : (countIf c b g s).txbuf = s.txbuf := by
  cases c <;> rfl
@[simp] theorem countIf_draws (c : Bool) (b : IrqBit) (g : Stats → Stats) : (countIf c b g s).draws = s.draws := by
  cases c <;> rfl
@[simp] theorem countIf_pendLen (c : Bool) (b : IrqBit) (g : Stats → Stats) : (countIf c b g s).pendLen = s.pendLen := by
  cases c <;> rfl
@[simp] theorem countIf_eos (c : Bool) (b : IrqBit) (g : Stats → Stats) : (countIf c b g s).eos = s.eos := by
  cases c <;> rfl
@[simp] theorem countIf_burstEnd (c : Bool) (b : IrqBit) (g : Stats → Stats) : (countIf c b g s).burstEnd = s.burstEnd := by
  cases c <;> rfl
@[simp] theorem countIf_fifo (c : Bool) (b : IrqBit) (g : Stats → Stats) : (countIf c b g s).fifo = s.fifo := by
  cases c <;> rfl
@[simp] theorem countIf_fifoDir (c : Bool) (b : IrqBit) (g : Stats → Stats) : (countIf c b g s).fifoDir = s.fifoDir := by
  cases c <;> rfl
@[simp] theorem countIf_tx (c : Bool) (b : IrqBit) (g : Stats → Stats) : (countIf c b g s).tx = s.tx := by
  cases c <;> rfl
@[simp] theorem countIf_pipe (c : Bool) (b : IrqBit) (g : Stats → Stats) : (countIf c b g s).pipe = s.pipe := by
  cases c <;> rfl
@[simp] theorem countIf_rx (c : Bool) (b : IrqBit) (g : Stats → Stats) : (countIf c b g s).rx = s.rx := by
  cases c <;> rfl
@[simp] theorem countIf_rxq (c : Bool) (b : IrqBit) (g : Stats → Stats) : (countIf c b g s).rxq = s.rxq := by
  cases c <;> rfl
@[simp] theorem countIf_last (c : Bool) (b : IrqBit) (g : Stats → Stats) : (countIf c b g s).last = s.last := by
  cases c <;> rfl
@[simp] theorem countIf_idle (c : Bool) (b : IrqBit) (g : Stats → Stats) : (countIf c b g s).idle = s.idle := by
  cases c <;> rfl
@[simp] theorem countIf_hist (c : Bool) (b : IrqBit) (g : Stats → Stats) : (countIf c b g s).hist = s.hist := by
  cases c <;> rfl
@[simp] theorem countIf_stopAll (c : Bool) (b : IrqBit) (g : Stats → Stats) : (countIf c b g s).stopAll = s.stopAll := by
  cases c <;> rfl

/-! `countReport`: the fields no case touches. -/

@[simp] theorem countReport_params (r : Report) : (countReport r s).params = s.params := by simp [countReport]
@[simp] theorem countReport_pending (r : Report) : (countReport r s).pending = s.pending := by simp [countReport]
@[simp] theorem countReport_out (r : Report) : (countReport r s).out = s.out := by simp [countReport]
@[simp] theorem countReport_err (r : Report) : (countReport r s).err = s.err := by simp [countReport]
@[simp] theorem countReport_irqEnable (r : Report) : (countReport r s).irqEnable = s.irqEnable := by simp [countReport]
@[simp] theorem countReport_cfg (r : Report) : (countReport r s).cfg = s.cfg := by simp [countReport]
@[simp] theorem countReport_core (r : Report) : (countReport r s).core = s.core := by simp [countReport]
@[simp] theorem countReport_lcfg (r : Report) : (countReport r s).lcfg = s.lcfg := by simp [countReport]
@[simp] theorem countReport_stop (r : Report) : (countReport r s).stop = s.stop := by simp [countReport]
@[simp] theorem countReport_stopReason (r : Report) : (countReport r s).stopReason = s.stopReason := by simp [countReport]
@[simp] theorem countReport_txbuf (r : Report) : (countReport r s).txbuf = s.txbuf := by simp [countReport]
@[simp] theorem countReport_draws (r : Report) : (countReport r s).draws = s.draws := by simp [countReport]
@[simp] theorem countReport_pendLen (r : Report) : (countReport r s).pendLen = s.pendLen := by simp [countReport]
@[simp] theorem countReport_eos (r : Report) : (countReport r s).eos = s.eos := by simp [countReport]
@[simp] theorem countReport_burstEnd (r : Report) : (countReport r s).burstEnd = s.burstEnd := by simp [countReport]
@[simp] theorem countReport_fifo (r : Report) : (countReport r s).fifo = s.fifo := by simp [countReport]
@[simp] theorem countReport_fifoDir (r : Report) : (countReport r s).fifoDir = s.fifoDir := by simp [countReport]
@[simp] theorem countReport_tx (r : Report) : (countReport r s).tx = s.tx := by simp [countReport]
@[simp] theorem countReport_pipe (r : Report) : (countReport r s).pipe = s.pipe := by simp [countReport]
@[simp] theorem countReport_rx (r : Report) : (countReport r s).rx = s.rx := by simp [countReport]
@[simp] theorem countReport_rxq (r : Report) : (countReport r s).rxq = s.rxq := by simp [countReport]
@[simp] theorem countReport_last (r : Report) : (countReport r s).last = s.last := by simp [countReport]
@[simp] theorem countReport_idle (r : Report) : (countReport r s).idle = s.idle := by simp [countReport]
@[simp] theorem countReport_hist (r : Report) : (countReport r s).hist = s.hist := by simp [countReport]
@[simp] theorem countReport_stopAll (r : Report) : (countReport r s).stopAll = s.stopAll := by simp [countReport]

end Sys2Proof.Machine
end

