-- ==== Sys2Proof/Laws/Memory.lean ====
section
/-! SUPPORT. TXBUF's memory: what a read gives after a write, that every memory operation keeps the canonical form and
the addresses it holds, and the canonical form after reset. -/

namespace Sys2Proof.Machine

@[simp] theorem memRead_nil (a : Nat) : memRead [] a = none := rfl

/-- A read at the address just written gives the byte written. -/
@[simp] theorem memRead_memWrite_same (m : Memory) (a : Nat) (b : Byte) : memRead (memWrite m a b) a = some b := by
  induction m with
  | nil => simp [memWrite, memRead]
  | cons c m ih =>
    unfold memWrite
    split
    · simp [memRead]
    · split
      · simp [memRead]
      · simp only [memRead]
        rw [if_neg (by omega)]
        exact ih

/-- A write leaves a read at every other address alone. -/
theorem memRead_memWrite_other (m : Memory) (a a' : Nat) (b : Byte) (h : a' ≠ a) :
    memRead (memWrite m a b) a' = memRead m a' := by
  induction m with
  | nil => simp [memWrite, memRead, h.symm]
  | cons c m ih =>
    unfold memWrite
    split
    · simp [memRead, h.symm]
    · split
      · rename_i _ hac
        simp only [memRead]
        rw [if_neg h.symm, if_neg (by omega)]
      · simp only [memRead, ih]

/-- The addresses a memory holds after a write. -/
theorem mem_memWrite {m : Memory} {a : Nat} {b : Byte} {c : Host.Cell} (h : c ∈ memWrite m a b) :
    c = (a, b) ∨ c ∈ m := by
  induction m with
  | nil => simpa [memWrite] using h
  | cons d m ih =>
    unfold memWrite at h
    split at h
    · simpa using h
    · split at h
      · rcases List.mem_cons.1 h with h | h
        · exact .inl h
        · exact .inr (List.mem_cons_of_mem _ h)
      · rcases List.mem_cons.1 h with h | h
        · exact .inr (h ▸ List.mem_cons_self)
        · rcases ih h with h | h
          · exact .inl h
          · exact .inr (List.mem_cons_of_mem _ h)

/-- The canonical form as an order on the list. -/
theorem memWf_iff (m : Memory) : memWf m = true ↔ m.Pairwise (fun c d => c.1 < d.1) := by
  induction m with
  | nil => simp [memWf]
  | cons c m ih =>
    cases m with
    | nil => simp [memWf]
    | cons d m =>
      simp only [memWf, Bool.and_eq_true, decide_eq_true_eq, ih, List.pairwise_cons]
      constructor
      · rintro ⟨h, hd, hp⟩
        refine ⟨fun e he => ?_, hd, hp⟩
        rcases List.mem_cons.1 he with rfl | he
        · exact h
        · exact h.trans (hd e he)
      · rintro ⟨h, hd, hp⟩
        exact ⟨h d List.mem_cons_self, hd, hp⟩

/-- A write keeps the canonical form. -/
theorem memWrite_wf {m : Memory} (a : Nat) (b : Byte) (h : memWf m = true) : memWf (memWrite m a b) = true := by
  rw [memWf_iff] at h ⊢
  induction m with
  | nil => simp [memWrite]
  | cons c m ih =>
    obtain ⟨hc, hm⟩ := List.pairwise_cons.1 h
    unfold memWrite
    split
    · rename_i hac
      refine List.pairwise_cons.2 ⟨fun e he => ?_, h⟩
      rcases List.mem_cons.1 he with rfl | he
      · exact hac
      · exact hac.trans (hc e he)
    · split
      · rename_i hac
        exact List.pairwise_cons.2 ⟨fun e he => hac ▸ hc e he, hm⟩
      · rename_i h1 h2
        refine List.pairwise_cons.2 ⟨fun e he => ?_, ih hm⟩
        rcases mem_memWrite he with rfl | he
        · show c.1 < a
          omega
        · exact hc e he

/-- Writing consecutive bytes keeps the canonical form. -/
theorem memWriteBytes_wf (bs : List Byte) {m : Memory} (a : Nat) (h : memWf m = true) :
    memWf (memWriteBytes m a bs) = true := by
  induction bs generalizing m a with
  | nil => exact h
  | cons b bs ih => exact ih _ (memWrite_wf a b h)

/-- The entries of a memory after consecutive bytes are written: those it held, and those at the written addresses. -/
theorem mem_memWriteBytes {bs : List Byte} {m : Memory} {a : Nat} {c : Host.Cell} (h : c ∈ memWriteBytes m a bs) :
    (a ≤ c.1 ∧ c.1 < a + bs.length) ∨ c ∈ m := by
  induction bs generalizing m a with
  | nil => exact .inr h
  | cons b bs ih =>
    rw [List.length_cons]
    rcases ih h with h | h
    · exact .inl ⟨by omega, by omega⟩
    · rcases mem_memWrite h with rfl | h
      · exact .inl ⟨le_refl a, by omega⟩
      · exact .inr h

/-- What a read gives after consecutive bytes were written. -/
theorem memRead_memWriteBytes (bs : List Byte) (m : Memory) (a x : Nat) :
    memRead (memWriteBytes m a bs) x = if a ≤ x ∧ x < a + bs.length then bs[x - a]? else memRead m x := by
  induction bs generalizing m a with
  | nil => rw [if_neg (by simp)]; rfl
  | cons b bs ih =>
    rw [memWriteBytes, ih]
    by_cases hx : x = a
    · subst hx
      rw [if_neg (by omega), if_pos ⟨le_refl x, by simp⟩]
      simp
    · rw [memRead_memWrite_other _ _ _ _ hx]
      by_cases h : a + 1 ≤ x ∧ x < a + 1 + bs.length
      · rw [if_pos h, if_pos ⟨by omega, by simp; omega⟩, show x - a = (x - (a + 1)) + 1 by omega,
          List.getElem?_cons_succ]
      · rw [if_neg h, if_neg (by simp; omega)]

/-- The lanes of a data word, in order. -/
@[simp] theorem lanes_length (n : Nat) (v : Word) : (lanes n v).length = n := by simp [lanes]

theorem lanes_getElem? (n : Nat) (v : Word) (k : Nat) (h : k < n) : (lanes n v)[k]? = some (lane v k) := by
  simp [lanes, h]

/-- TXBUF's bytes after a write of n lanes at a. -/
theorem txByte_writeTxbuf (a n : Nat) (v : Word) (s : State) (x : Nat) :
    txByte (writeTxbuf a n v s) x = if a ≤ x ∧ x < a + n then lane v (x - a) else txByte s x := by
  unfold txByte writeTxbuf
  simp only [memRead_memWriteBytes, lanes_length]
  split
  · rename_i h
    rw [lanes_getElem? _ _ _ (by omega)]
    rfl
  · rfl

/-- The machine after reset holds nothing in memory, in canonical form. -/
theorem reset_memWf : memWf State.reset.txbuf = true := rfl

theorem powerOn_memWf (p : Params) (level : Bool) : memWf (State.powerOn p level).txbuf = true := rfl

end Sys2Proof.Machine
end

