-- ==== Sys2Proof/Laws/Bus.lean ====
section
/-! SUPPORT. What the checks of a bus access decide, and every outcome of a bus read, a bus write and a command. -/

namespace Sys2Proof.Machine

/-- The widths an access can have. -/
theorem sizeBytes_cases {size : AccessSize} {n : Nat} (h : sizeBytes size = some n) : n = 1 ∨ n = 2 ∨ n = 4 := by
  cases size <;> simp [sizeBytes] at h <;> omega

theorem sizeBytes_word_iff {size : AccessSize} : sizeBytes size = some 4 ↔ size = .word := by
  cases size <;> simp [sizeBytes]

theorem sizeBytes_reserved_iff {size : AccessSize} : sizeBytes size = none ↔ size = .reserved := by
  cases size <;> simp [sizeBytes]

/-- Every register stands at a multiple of 4 in the CSR page. -/
theorem regTable_offsets : ∀ e ∈ regTable, e.1 % 4 = 0 ∧ e.1 ≤ 0x0F0 := by decide

/-- No two entries of the map have one offset. -/
theorem regAt_of_mem : ∀ e ∈ regTable, regAt e.1 = some e.2 := by decide

/-- A listed offset is that of an entry of the map. -/
theorem regAt_some {a : Nat} {r : Reg} (h : regAt a = some r) : (a, r) ∈ regTable := by
  unfold regAt at h
  obtain ⟨e, he, rfl⟩ := Option.map_eq_some_iff.1 h
  have ha : e.1 = a := by simpa using List.find?_some he
  have := List.mem_of_find?_eq_some he
  obtain ⟨b, r⟩ := e
  simp only at ha
  exact ha ▸ this

/-- A byte belongs to a listed register exactly when it lies in the four bytes of one. -/
theorem csrByteListed_iff (b : Nat) : csrByteListed b = true ↔ ∃ e ∈ regTable, e.1 ≤ b ∧ b < e.1 + 4 := by
  unfold csrByteListed
  simp only [Bool.and_eq_true, decide_eq_true_eq, Option.isSome_iff_exists]
  constructor
  · rintro ⟨-, r, hr⟩
    exact ⟨_, regAt_some hr, by omega, by simp only; omega⟩
  · rintro ⟨e, he, h1, h2⟩
    have ho := regTable_offsets e he
    have hb : b / 4 * 4 = e.1 := by omega
    exact ⟨by unfold csrEnd; omega, e.2, hb ▸ regAt_of_mem e he⟩

/-- The address check is the one `Reaches` states. -/
theorem addrListed_iff (p : Params) (a n : Nat) : addrListed p a n = true ↔ Reaches p a n := by
  unfold addrListed Reaches inWindow
  simp only [Bool.or_eq_true, Bool.and_eq_true, decide_eq_true_eq, List.all_eq_true, List.mem_range, or_assoc,
    csrByteListed_iff]
  refine or_congr ⟨fun h b h1 h2 => ?_, fun h i hi => h _ (by omega) (by omega)⟩ Iff.rfl
  have := h (b - a) (by omega)
  rwa [show a + (b - a) = b by omega] at this

/-- Where an access that passes the address, alignment and width checks goes. -/
theorem checkAddr_ok {p : Params} {size : AccessSize} {a n : Nat} {t : Target} (h : checkAddr p size a = .ok (n, t)) :
    sizeBytes size = some n ∧ a % n = 0 ∧
    ((∃ r, t = .reg r ∧ regAt a = some r ∧ a < 0x1000 ∧ n = 4) ∨
     (t = .txbuf a ∧ 0x1000 ≤ a ∧ a < 0x2000 ∧ a + n ≤ 0x1000 + p.maxPayloadHw) ∨
     (t = .rxbuf (a - 0x2000) ∧ 0x2000 ≤ a)) := by
  unfold checkAddr at h
  split at h
  · cases h
  · rename_i m hm
    split at h
    · cases h
    · rename_i hl
      split at h
      · cases h
      · rename_i hal
        split at h
        · cases h
        · rename_i hw
          unfold targetAt at h
          split at h
          · cases h
          · rename_i t' ht
            simp only [Except.ok.injEq, Prod.mk.injEq] at h
            obtain ⟨rfl, rfl⟩ := h
            refine ⟨hm, by simpa using hal, ?_⟩
            have hce : csrEnd = 0x1000 := rfl
            have hrb : rxbufBase = 0x2000 := rfl
            have hl' : Reaches p a m := (addrListed_iff p a m).1 (by simpa using hl)
            have hm1 := sizeBytes_cases hm
            split at ht
            · obtain ⟨r, hr, rfl⟩ := Option.map_eq_some_iff.1 ht
              exact .inl ⟨r, rfl, hr, by omega, by omega⟩
            · split at ht
              · cases ht
                refine .inr (.inl ⟨rfl, by omega, by omega, ?_⟩)
                rcases hl' with hl' | hl' | hl'
                · obtain ⟨e, he, -, h2⟩ := hl' a (le_refl a) (by omega)
                  have := regTable_offsets e he
                  omega
                · exact hl'.2
                · omega
              · cases ht
                exact .inr (.inr ⟨rfl, by omega⟩)

/-- Where a 4-byte access at a listed register's offset goes. -/
theorem checkAddr_reg (p : Params) {a : Nat} {r : Reg} (h : regAt a = some r) :
    checkAddr p .word a = .ok (4, .reg r) := by
  have hm := regAt_some h
  have ho := regTable_offsets _ hm
  simp only at ho
  have hl : addrListed p a 4 = true := (addrListed_iff p a 4).2 (.inl fun b h1 h2 => ⟨_, hm, h1, h2⟩)
  simp [checkAddr, sizeBytes, hl, ho.1, targetAt, csrEnd, h, show a < 0x1000 by omega]

/-- Where an aligned access inside TXBUF goes. -/
theorem checkAddr_txbuf (p : Params) {size : AccessSize} {n a : Nat} (hs : sizeBytes size = some n) (h1 : 0x1000 ≤ a)
    (h2 : a < 0x2000) (h3 : a + n ≤ 0x1000 + p.maxPayloadHw) (h4 : a % n = 0) :
    checkAddr p size a = .ok (n, .txbuf a) := by
  have hl : addrListed p a n = true := (addrListed_iff p a n).2 (.inr (.inl ⟨h1, h3⟩))
  simp [checkAddr, hs, hl, h4, targetAt, csrEnd, rxbufBase, show ¬ a < 0x1000 by omega, h2]

/-- Where an aligned access inside RXBUF goes. -/
theorem checkAddr_rxbuf (p : Params) {size : AccessSize} {n a : Nat} (hs : sizeBytes size = some n) (h1 : 0x2000 ≤ a)
    (h3 : a + n ≤ 0x2000 + p.maxPayloadHw) (h4 : a % n = 0) :
    checkAddr p size a = .ok (n, .rxbuf (a - 0x2000)) := by
  have hl : addrListed p a n = true := (addrListed_iff p a n).2 (.inr (.inr ⟨h1, h3⟩))
  simp [checkAddr, hs, hl, h4, targetAt, csrEnd, rxbufBase, show ¬ a < 0x1000 by omega, show ¬ a < 0x2000 by omega]

/-- Every outcome of a bus read. -/
theorem busRead_cases (size : AccessSize) (addr : BitVec 14) (s : State) :
    (∃ code, busRead size addr s = failAccess code s) ∨ ∃ v, busRead size addr s = respond v false s := by
  unfold busRead
  split
  · exact .inl ⟨_, rfl⟩
  · exact .inr ⟨_, rfl⟩

/-- Every outcome of an accepted write to something that is not CMD. -/
inductive StoreEffect (s : State) : State → Prop
  | irqStatus (v : Word) : StoreEffect s (writeIrqStatus v s)
  | irqEnable (v : Word) : StoreEffect s (writeIrqEnable v s)
  | cfg (r : Reg) (v : Word) (idle : s.core = .idle) :
      StoreEffect s { s with cfg := writeCfg s.params.hasDump r v s.cfg }
  | txbuf (a n : Nat) (v : Word) (free : s.pendLen = 0) (lo : 0x1000 ≤ a) (page : a < 0x2000)
      (hi : a + n ≤ 0x1000 + s.params.maxPayloadHw) : StoreEffect s (writeTxbuf a n v s)

/-- Every outcome of a bus write: it fails, it is a command, or it stores. -/
theorem busWrite_cases (size : AccessSize) (addr : BitVec 14) (v : Word) (s : State) :
    (∃ code, busWrite size addr v s = failAccess code s) ∨
    (size = .word ∧ addr = 0x010#14 ∧ busWrite size addr v s = respond 0#32 false (execCmdWord v s)) ∨
    ∃ t, StoreEffect s t ∧ busWrite size addr v s = respond 0#32 false t := by
  unfold busWrite
  split
  · exact .inl ⟨_, rfl⟩
  · rename_i n t hok
    split
    · exact .inl ⟨_, rfl⟩
    · rename_i hcw
      right
      obtain ⟨hs, hal, ht⟩ := checkAddr_ok hok
      rcases ht with ⟨r, rfl, hr, hlt, rfl⟩ | ⟨rfl, h1, h2, h3⟩ | ⟨rfl, h1⟩
      · cases r <;> simp only [checkWrite, regAccess, reduceCtorEq, ite_eq_right_iff] at hcw
        case cmd =>
          left
          refine ⟨sizeBytes_word_iff.1 hs, ?_, rfl⟩
          have := regAt_some hr
          have h : ∀ e ∈ regTable, e.2 = .cmd → e.1 = 0x010 := by decide
          exact BitVec.eq_of_toNat_eq (h _ this rfl)
        case irqStatus => exact .inr ⟨_, .irqStatus v, rfl⟩
        case irqEnable => exact .inr ⟨_, .irqEnable v, rfl⟩
        all_goals exact .inr ⟨_, .cfg _ v (Classical.not_not.1 hcw), rfl⟩
      · right
        have hp : s.pendLen = 0 := by
          by_contra hne
          simp [checkWrite, hne] at hcw
        exact ⟨_, .txbuf addr.toNat n v hp h1 h2 h3, rfl⟩
      · simp [checkWrite] at hcw

/-- Every outcome of a command word. -/
inductive CommandEffect (s : State) : State → Prop
  | nothing : CommandEffect s s
  | error (code : ErrCode) : CommandEffect s (raiseError code s)
  | startTx (idle : s.core = .idle) (ok : checkCfg .tx s = none) : CommandEffect s (beginTx s)
  | startRx (idle : s.core = .idle) (ok : checkCfg .rx s = none) : CommandEffect s (beginRx s)
  | stop (running : s.core ≠ .idle) (first : s.stop = none) : CommandEffect s { s with stop := some .hostStop }
  | commit (len : BitVec 16) (direction : s.core ≠ .rxRun) (lo : 1 ≤ len.toNat) (hi : len.toNat ≤ commitMax s)
      (free : s.pendLen = 0) (open_ : s.core = .txRun → s.eos = false) : CommandEffect s { s with pendLen := len.toNat }
  | eos (running : s.core = .txRun) : CommandEffect s { s with eos := true }
  | rxqPop : CommandEffect s { s with rxq := s.rxq.drop 1 }
  | clearStats : CommandEffect s (clearStats s)
  | clearErr : CommandEffect s (clearErr s)
  | softReset : CommandEffect s (softReset s)

theorem startTx_cases (s : State) : CommandEffect s (startTx s) := by
  unfold startTx
  split
  · exact .error _
  · rename_i h
    split
    · exact .error _
    · rename_i hc
      exact .startTx (by simpa using h) hc

theorem startRx_cases (s : State) : CommandEffect s (startRx s) := by
  unfold startRx
  split
  · exact .error _
  · rename_i h
    split
    · exact .error _
    · rename_i hc
      exact .startRx (by simpa using h) hc

theorem stopTransfer_cases (s : State) : CommandEffect s (stopTransfer s) := by
  unfold stopTransfer requestStop
  split
  · exact .nothing
  · rename_i h
    split
    · rename_i h'
      exact .stop h (by simpa using h')
    · exact .nothing

theorem txCommit_cases (len : BitVec 16) (s : State) : CommandEffect s (txCommit len s) := by
  unfold txCommit
  split
  · exact .error _
  · rename_i h1
    split
    · exact .error _
    · rename_i h2
      split
      · exact .error _
      · rename_i h3
        exact .commit len (fun h => h1 (.inl h)) (by omega) (by omega) (by simpa using h3)
          (fun h => by simpa [h] using h1)

theorem txEos_cases (s : State) : CommandEffect s (txEos s) := by
  unfold txEos
  split
  · exact .error _
  · rename_i h
    exact .eos (by simpa using h)

theorem rxqPop_cases (s : State) : CommandEffect s (rxqPop s) := by
  unfold rxqPop
  split
  · exact .error _
  · exact .rxqPop

theorem withArg0_cases {run : State → State} (h : ∀ s, CommandEffect s (run s)) (arg : BitVec 24) (s : State) :
    CommandEffect s (withArg0 arg run s) := by
  unfold withArg0
  split
  · exact .error _
  · exact h s

theorem withRsvd0_cases {run : State → State} (h : ∀ s, CommandEffect s (run s)) (rsvd : BitVec 8) (s : State) :
    CommandEffect s (withRsvd0 rsvd run s) := by
  unfold withRsvd0
  split
  · exact .error _
  · exact h s

/-- Every outcome of the command dispatch. -/
theorem runCommand_cases (opc : BitVec 8) (arg : BitVec 24) (s : State) : CommandEffect s (runCommand opc arg s) := by
  unfold runCommand
  repeat' split
  · exact withArg0_cases (fun s => .nothing) arg s
  · exact withArg0_cases startTx_cases arg s
  · exact withArg0_cases startRx_cases arg s
  · exact withArg0_cases stopTransfer_cases arg s
  · exact withRsvd0_cases (txCommit_cases _) _ s
  · exact withArg0_cases txEos_cases arg s
  · exact withArg0_cases rxqPop_cases arg s
  · exact withArg0_cases (fun s => .clearStats) arg s
  · exact withArg0_cases (fun s => .clearErr) arg s
  · exact withArg0_cases (fun s => .softReset) arg s
  · exact .error _

/-- The command word of a row, split by the dispatch into its opcode and its argument. -/
@[simp] theorem commandWord_opc (arg : BitVec 24) (opc : BitVec 8) : (arg ++ opc).extractLsb' 0 8 = opc := by
  ext i hi
  simp only [BitVec.getElem_extractLsb', BitVec.getLsbD_append, Nat.zero_add, hi, if_true, BitVec.getLsbD_eq_getElem]

@[simp] theorem commandWord_arg (arg : BitVec 24) (opc : BitVec 8) : (arg ++ opc).extractLsb' 8 24 = arg := by
  ext i hi
  simp only [BitVec.getElem_extractLsb', BitVec.getLsbD_append, Nat.not_lt.2 (Nat.le_add_right 8 i), if_false,
    Nat.add_sub_cancel_left, hi, BitVec.getLsbD_eq_getElem]

/-- A 4-byte write to CMD runs the command dispatch on its data. -/
theorem busWrite_cmd (v : Word) (s : State) :
    busWrite .word 0x010#14 v s = respond 0#32 false (execCmdWord v s) := by
  unfold busWrite
  rw [show checkAddr s.params .word (0x010#14).toNat = .ok (4, .reg .cmd) from checkAddr_reg _ (by decide)]
  rfl

end Sys2Proof.Machine
end

