-- ==== Sys2Proof/Laws/Codec.lean ====
section
/-! SUPPORT. The codec's building blocks: bits and bytes are inverse to each other, the lengths of each layer, and what
decoding one codeword gives. -/

namespace Sys2Proof.Machine

@[simp] theorem byteBits_length (b : Byte) : (byteBits b).length = 8 := rfl

theorem byteOfBits_byteBits : ∀ b : Byte, byteOfBits (b.getLsbD 7) (b.getLsbD 6) (b.getLsbD 5) (b.getLsbD 4)
    (b.getLsbD 3) (b.getLsbD 2) (b.getLsbD 1) (b.getLsbD 0) = b := by decide

theorem byteBits_byteOfBits : ∀ b7 b6 b5 b4 b3 b2 b1 b0 : Bool,
    byteBits (byteOfBits b7 b6 b5 b4 b3 b2 b1 b0) = [b7, b6, b5, b4, b3, b2, b1, b0] := by decide

@[simp] theorem bitsOf_nil : bitsOf [] = [] := rfl

@[simp] theorem bitsOf_cons (b : Byte) (bs : List Byte) : bitsOf (b :: bs) = byteBits b ++ bitsOf bs := rfl

@[simp] theorem bitsOf_length (bs : List Byte) : (bitsOf bs).length = 8 * bs.length := by
  induction bs with
  | nil => rfl
  | cons b bs ih => simp [ih]; omega

/-- Packing the bits of a byte list gives it back. -/
@[simp] theorem pack_bitsOf (bs : List Byte) : pack (bitsOf bs) = bs := by
  induction bs with
  | nil => rfl
  | cons b bs ih =>
    simp only [bitsOf_cons, byteBits, List.cons_append, List.nil_append, pack, ih, byteOfBits_byteBits]

/-- Bits packed and spread again are the bits, whatever the eighth bits are, while whole bytes last. -/
theorem bitsOf_pack_of_length (n : Nat) (bs : List Bool) (h : bs.length = 8 * n) : bitsOf (pack bs) = bs := by
  induction n generalizing bs with
  | zero =>
    have h0 : bs = [] := List.length_eq_zero_iff.1 (by simpa using h)
    subst h0
    rfl
  | succ n ih =>
    match bs, h with
    | b7 :: b6 :: b5 :: b4 :: b3 :: b2 :: b1 :: b0 :: rest, h =>
      simp only [List.length_cons] at h
      simp only [pack, bitsOf_cons, byteBits_byteOfBits, ih rest (by omega), List.cons_append, List.nil_append]

/-- The number of bytes packed from bits. -/
theorem pack_length (bs : List Bool) : (pack bs).length = bs.length / 8 := by
  fun_induction pack bs with
  | case1 b7 b6 b5 b4 b3 b2 b1 b0 rest ih => simp only [List.length_cons, ih]; omega
  | case2 bs h =>
    rw [List.length_nil]
    rcases bs with _ | ⟨b7, _ | ⟨b6, _ | ⟨b5, _ | ⟨b4, _ | ⟨b3, _ | ⟨b2, _ | ⟨b1, _ | ⟨b0, rest⟩⟩⟩⟩⟩⟩⟩⟩
    case cons.cons.cons.cons.cons.cons.cons.cons => exact absurd rfl (h b7 b6 b5 b4 b3 b2 b1 b0 rest)
    all_goals simp only [List.length_cons, List.length_nil]

@[simp] theorem be16_length (v : BitVec 16) : (be16 v).length = 2 := rfl

@[simp] theorem be32_length (v : Word) : (be32 v).length = 4 := rfl

@[simp] theorem hdrBlock_length (id c : Word) (len : BitVec 16) : (hdrBlock id c len).length = 10 := rfl

/-- The two bytes of a length field spell it. -/
theorem beNat_be16 (v : BitVec 16) : beNat (be16 v) = v.toNat := by
  simp only [be16, beNat, List.foldl_cons, List.foldl_nil, BitVec.extractLsb'_toNat, Nat.shiftRight_eq_div_pow]
  omega

@[simp] theorem byteCodewords_length (x : Byte) : (byteCodewords x).length = 14 := rfl

theorem flatMap_codewords_length (bs : List Byte) : (bs.flatMap byteCodewords).length = 14 * bs.length := by
  induction bs with
  | nil => rfl
  | cons b bs ih => simp [List.flatMap_cons, ih]; omega

/-- The length of a Hamming-encoded list (44_frame_codec.md R337). -/
@[simp] theorem h74Enc_length (bs : List Byte) : (h74Enc bs).length = h74Len bs.length := by
  simp only [h74Enc, pack_length, List.length_append, List.length_replicate, flatMap_codewords_length, h74Len]
  omega

@[simp] theorem decodeBytes_length (n : Nat) (b : List Bool) : (decodeBytes n b).length = n := by
  induction n generalizing b with
  | zero => rfl
  | succ n ih => simp [decodeBytes, ih]

@[simp] theorem h74Dec_length (cs : List Byte) (n : Nat) : (h74Dec cs n).length = n := decodeBytes_length n _

theorem crcAdd_length (k : CrcScheme) (bs : List Byte) : (crcAdd k bs).length = bs.length + crcLen k := by
  cases k <;> simp [crcAdd, crcLen]

theorem fecEnc_length (k : FecScheme) (bs : List Byte) : (fecEnc k bs).length = fecLen k bs.length := by
  cases k <;> simp [fecEnc, fecLen]

theorem fecDec_length (k : FecScheme) (cs : List Byte) (n : Nat) (h : cs.length = fecLen k n) :
    (fecDec k cs n).length = n := by
  cases k
  · exact h
  · simp [fecDec]

/-- The length of a decoded block that has the length of an encoded one. -/
theorem decodeBlock_length (l : LCfg) (cs : List Byte) (n : Nat) (h : cs.length = encodedLen l n) :
    (decodeBlock l cs n).1.length = n := by
  have h1 := fecDec_length l.fecOut cs _ h
  have h2 := fecDec_length l.fecIn _ _ h1
  unfold decodeBlock
  cases hc : l.crc <;> simp only [hc, crcLen, crcCheck, List.length_take] at h2 ⊢ <;> omega

/-- Nothing encodes to nothing, and what is longer encodes to something. -/
theorem encodedLen_pos (l : LCfg) {n : Nat} (h : 1 ≤ n) : 1 ≤ encodedLen l n := by
  unfold encodedLen fecLen h74Len
  cases l.fecOut <;> cases l.fecIn <;> simp only <;> omega

/-- A codeword decodes to its nibble. -/
theorem decodeCodeword_codeword : ∀ d1 d2 d3 d4 : Bool,
    decodeCodeword (d1 ^^ d2 ^^ d4) (d1 ^^ d3 ^^ d4) d1 (d2 ^^ d3 ^^ d4) d2 d3 d4 = (d1, d2, d3, d4) := by decide

/-- The nibble at the head of a bit list that starts with seven given bits. -/
theorem nibbleAt_cons (c1 c2 c3 c4 c5 c6 c7 : Bool) (rest : List Bool) :
    nibbleAt (c1 :: c2 :: c3 :: c4 :: c5 :: c6 :: c7 :: rest) = decodeCodeword c1 c2 c3 c4 c5 c6 c7 := rfl

/-- A codeword in which one position at most differs decodes to the nibble. -/
theorem decodeCodeword_flip : ∀ d1 d2 d3 d4 f1 f2 f3 f4 f5 f6 f7 : Bool,
    f1.toNat + f2.toNat + f3.toNat + f4.toNat + f5.toNat + f6.toNat + f7.toNat ≤ 1 →
    decodeCodeword ((d1 ^^ d2 ^^ d4) ^^ f1) ((d1 ^^ d3 ^^ d4) ^^ f2) (d1 ^^ f3) ((d2 ^^ d3 ^^ d4) ^^ f4) (d2 ^^ f5)
      (d3 ^^ f6) (d4 ^^ f7) = (d1, d2, d3, d4) := by
  decide

end Sys2Proof.Machine
end

