-- ==== Sys2Proof/Laws/Frames.lean ====
section
/-! SUPPORT. For each composite operation one lemma that names every field it can change: the operation's result is the
state with those fields replaced, so every other field of it reads by rfl. -/

namespace Sys2Proof.Machine

/-- An interrupt word with its reserved bits 0 becomes one with its reserved bits 0. -/
def KeepsIrq (a b : Word) : Prop := irqMask a = a → irqMask b = b

theorem KeepsIrq.refl (a : Word) : KeepsIrq a a := id

theorem KeepsIrq.trans {a b c : Word} (h1 : KeepsIrq a b) (h2 : KeepsIrq b c) : KeepsIrq a c := h2 ∘ h1

theorem irqMask_or (a b : Word) : irqMask (a ||| b) = irqMask a ||| irqMask b := by
  ext i hi
  by_cases h : i < 14
  · simp [irqMask, BitVec.getElem_setWidth, h]
  · simp [irqMask, BitVec.getElem_setWidth, BitVec.getLsbD_extractLsb', h]

theorem KeepsIrq.setIrq (b : IrqBit) (w : Word) : KeepsIrq w (setIrq b w) := by
  intro h
  unfold Machine.setIrq
  rw [irqMask_or, h]
  cases b <;> rfl

theorem raiseError_frame (code : ErrCode) (s : State) : ∃ err irqStatus,
    raiseError code s = { s with err := err, irqStatus := irqStatus, hist := s.hist ++ [.err code] } ∧
    KeepsIrq s.irqStatus irqStatus ∧ err = recordErr code s.err := ⟨_, _, rfl, .setIrq _ _, rfl⟩

theorem requestStop_frame (r : StopReq) (s : State) : ∃ stop,
    requestStop r s = { s with stop := stop } ∧ (s.core = .idle → stop = s.stop) := by
  unfold requestStop
  split
  · exact ⟨_, rfl, fun _ => rfl⟩
  · rename_i h
    split
    · exact ⟨_, rfl, fun hi => absurd hi h⟩
    · exact ⟨_, rfl, fun _ => rfl⟩

theorem dumpAll_frame (dir : Dir) (ys : List Sample) (s : State) : ∃ more words,
    dumpAll dir ys s = { s with hist := s.hist ++ more, out := { s.out with dumped := words } } := by
  unfold dumpAll
  split
  · exact ⟨_, _, rfl⟩
  · exact ⟨[], s.out.dumped, by simp⟩

theorem markBurstEnd_frame (out : List Tagged) (s : State) : ∃ irqStatus burstEnd more,
    markBurstEnd out s = { s with irqStatus := irqStatus, burstEnd := burstEnd, hist := s.hist ++ more } ∧
    KeepsIrq s.irqStatus irqStatus := by
  unfold markBurstEnd
  split
  · exact ⟨_, _, _, rfl, .setIrq _ _⟩
  · exact ⟨_, s.burstEnd, [], by simp only [List.append_nil], .refl _⟩

theorem popTransmit_frame (n : Nat) (s : State) : ∃ stats irqStatus burstEnd more,
    popTransmit n s = { s with
      fifo := s.fifo.drop n, stats := stats, irqStatus := irqStatus, burstEnd := burstEnd, hist := s.hist ++ more } ∧
    KeepsIrq s.irqStatus irqStatus := by
  unfold popTransmit
  dsimp only
  split
  · obtain ⟨ir, be, more, h, hk⟩ := markBurstEnd_frame (popped n s)
      (countUnderrun (n - (popped n s).length) (fifoPop n s))
    exact ⟨_, ir, be, more, by rw [h]; rfl, (KeepsIrq.setIrq _ _).trans hk⟩
  · obtain ⟨ir, be, more, h, hk⟩ := markBurstEnd_frame (popped n s) (fifoPop n s)
    exact ⟨_, ir, be, more, by rw [h]; rfl, hk⟩

theorem popBlock_frame (n : Nat) (s : State) : ∃ fifo stats irqStatus burstEnd more out,
    popBlock n s = { s with
      fifo := fifo, stats := stats, irqStatus := irqStatus, burstEnd := burstEnd, hist := s.hist ++ more, out := out } ∧
    (∃ k, fifo = s.fifo.drop k) ∧ KeepsIrq s.irqStatus irqStatus := by
  unfold popBlock emit
  dsimp only
  split
  · exact ⟨_, _, _, _, _, _, rfl, ⟨0, rfl⟩, .refl _⟩
  · obtain ⟨st, ir, be, more, h, hk⟩ := popTransmit_frame n s
    refine ⟨s.fifo.drop n, st, ir, be, more ++ [.radioOut (popResult n s)],
      { s.out with popped := (popResult n s).map taggedWord }, ?_, ⟨n, rfl⟩, hk⟩
    simp only [h, List.append_assoc]

theorem idleAccount_frame (n : Nat) (s : State) : ∃ idle stop irqStatus,
    idleAccount n s = { s with idle := idle, stop := stop, irqStatus := irqStatus } ∧
    KeepsIrq s.irqStatus irqStatus := by
  unfold idleAccount irq
  dsimp only
  split
  · obtain ⟨stop, h, -⟩ := requestStop_frame .timeout
      { s with idle := BitVec.ofNat 64 (min (s.idle.toNat + n) (2 ^ 64 - 1)) }
    exact ⟨_, stop, _, by rw [h], .setIrq _ _⟩
  · exact ⟨_, _, _, rfl, .refl _⟩

theorem pushBlock_frame (ws : List Word) (s : State) : ∃ more stats idle stop irqStatus out,
    pushBlock ws s = { s with
      fifo := s.fifo ++ more, stats := stats, idle := idle, stop := stop, irqStatus := irqStatus, out := out } ∧
    (∀ e ∈ more, e.last = false) ∧ more.length ≤ fifoSpace s ∧ (s.core = .idle → stop = s.stop) ∧
    KeepsIrq s.irqStatus irqStatus := by
  unfold pushBlock
  dsimp only
  split
  · exact ⟨[], s.stats, s.idle, s.stop, s.irqStatus, { s.out with accepted := acceptedCount ws s },
      by simp only [List.append_nil], by simp, by simp, fun _ => rfl, .refl _⟩
  · rename_i hc
    have hc : s.core = .rxRun := by simpa using hc
    have hl : ∀ e ∈ (pushEntries ws).take (pushCount (pushEntries ws) s), e.last = false := by
      intro e he
      have := List.mem_of_mem_take he
      simp only [pushEntries, List.mem_map] at this
      obtain ⟨w, -, rfl⟩ := this
      rfl
    have hn : ((pushEntries ws).take (pushCount (pushEntries ws) s)).length ≤ fifoSpace s := by
      simp [pushCount]
    unfold pushReceive
    dsimp only
    split
    · obtain ⟨i, st, ir, h, hk⟩ := idleAccount_frame ws.length
        (countOverrun (ws.length - pushCount (pushEntries ws) s) (fifoPush (pushEntries ws) s))
      exact ⟨_, _, i, st, ir, { s.out with accepted := acceptedCount ws s }, by rw [h]; rfl, hl, hn,
        fun h => by simp [hc] at h, (KeepsIrq.setIrq _ _).trans hk⟩
    · obtain ⟨i, st, ir, h, hk⟩ := idleAccount_frame ws.length (fifoPush (pushEntries ws) s)
      exact ⟨_, _, i, st, ir, { s.out with accepted := acceptedCount ws s }, by rw [h]; rfl, hl, hn,
        fun h => by simp [hc] at h, hk⟩

theorem produceBlock_frame (xs : List Sample) (frameEnd final : Bool) (s : State) : ∃ more words,
    produceBlock xs frameEnd final s = { s with
      pipe := (txBlock s.params.normLimit s.pipe xs).1, hist := s.hist ++ more, out := { s.out with dumped := words },
      tx := { s.tx with
        outbuf := blockEntries (txBlock s.params.normLimit s.pipe xs).2 final, outFrameEnd := frameEnd,
        outFinal := final, phase := .drain } } := by
  unfold produceBlock
  obtain ⟨more, words, h⟩ := dumpAll_frame .tx (txBlock s.params.normLimit s.pipe xs).2
    { s with pipe := (txBlock s.params.normLimit s.pipe xs).1 }
  exact ⟨more, words, by simp only [h]⟩

theorem frameBlock_frame (syms : List Bool) (s : State) : ∃ more words pipe ys frameEnd modem,
    frameBlock syms s = { s with
      pipe := pipe, hist := s.hist ++ more, out := { s.out with dumped := words },
      tx := { s.tx with
        gen := genAfter (syms.drop s.params.blockSyms), modem := modem, outbuf := blockEntries ys false,
        outFrameEnd := frameEnd, outFinal := false, phase := .drain } } := by
  unfold frameBlock
  obtain ⟨more, words, h⟩ := produceBlock_frame (modulate s.tx.modem (syms.take s.params.blockSyms)).2
    (syms.drop s.params.blockSyms).isEmpty false
    { s with tx := { s.tx with
        modem := (modulate s.tx.modem (syms.take s.params.blockSyms)).1,
        gen := genAfter (syms.drop s.params.blockSyms) } }
  exact ⟨more, words, _, _, _, _, h⟩

theorem silenceBlock_frame (s : State) : ∃ more words pipe ys,
    silenceBlock s = { s with
      pipe := pipe, hist := s.hist ++ more, out := { s.out with dumped := words },
      tx := { s.tx with outbuf := blockEntries ys false, outFrameEnd := false, outFinal := false, phase := .drain } } := by
  obtain ⟨more, words, h⟩ :=
    produceBlock_frame (List.replicate (s.params.blockSyms * s.params.sps) Sample.zero) false false s
  exact ⟨more, words, _, _, h⟩

theorem finalFlush_frame (s : State) : ∃ more words pipe ys,
    finalFlush s = { s with
      pipe := pipe, hist := s.hist ++ more, out := { s.out with dumped := words },
      tx := { s.tx with
        gen := .final, outbuf := blockEntries ys true, outFrameEnd := false, outFinal := true, phase := .drain } } := by
  obtain ⟨more, words, h⟩ := produceBlock_frame (List.replicate s.params.flushLen Sample.zero) false true
    { s with tx := { s.tx with gen := .final } }
  exact ⟨more, words, _, _, h⟩

theorem genAfter_ne_final (rest : List Bool) : genAfter rest ≠ .final := by
  unfold genAfter
  split <;> simp

/-- A drain that does not hand the whole block over, and one that does, with the completion of R388. -/
theorem drain_cases (s : State) :
    (drain s = { s with
        fifo := s.fifo ++ s.tx.outbuf.take (fifoSpace s),
        tx := { s.tx with outbuf := s.tx.outbuf.drop (fifoSpace s) } } ∧ fifoSpace s < s.tx.outbuf.length) ∨
    (s.tx.outbuf.length ≤ fifoSpace s ∧ ∃ frameCnt irqStatus core stopReason,
      drain s = { s with
        fifo := s.fifo ++ s.tx.outbuf,
        tx := { s.tx with
          outbuf := [], outFrameEnd := false, outFinal := false, phase := .produce, frameCnt := frameCnt },
        irqStatus := irqStatus, core := core, stopReason := stopReason } ∧
      (s.tx.outFinal = true → core = .idle ∧ stopReason = .complete) ∧
      (s.tx.outFinal = false → core = s.core ∧ stopReason = s.stopReason) ∧ KeepsIrq s.irqStatus irqStatus) := by
  unfold drain pushCount
  rcases Nat.lt_or_ge (fifoSpace s) s.tx.outbuf.length with h | h
  · left
    have hk : min s.tx.outbuf.length (fifoSpace s) = fifoSpace s := by omega
    have hd : s.tx.outbuf.drop (fifoSpace s) ≠ [] := by
      intro h0
      have := congrArg List.length h0
      simp at this
      omega
    simp only [hk, fifoPush, pushCount]
    rw [if_neg hd]
    exact ⟨rfl, h⟩
  · right
    have hk : min s.tx.outbuf.length (fifoSpace s) = s.tx.outbuf.length := by omega
    refine ⟨h, ?_⟩
    simp only [hk, fifoPush, pushCount, List.drop_length, List.take_length, if_true]
    unfold complete irq
    cases he : s.tx.outFrameEnd <;> cases hf : s.tx.outFinal
    · exact ⟨s.tx.frameCnt, s.irqStatus, s.core, s.stopReason, by simp, by simp, fun _ => ⟨rfl, rfl⟩, .refl _⟩
    · exact ⟨s.tx.frameCnt, _, .idle, .complete, by simp; rfl, fun _ => ⟨rfl, rfl⟩, by simp, .setIrq _ _⟩
    · exact ⟨s.tx.frameCnt + 1#32, _, s.core, s.stopReason, by simp; rfl, by simp, fun _ => ⟨rfl, rfl⟩, .setIrq _ _⟩
    · exact ⟨s.tx.frameCnt + 1#32, _, .idle, .complete, by simp; rfl, fun _ => ⟨rfl, rfl⟩, by simp,
        (KeepsIrq.setIrq _ _).trans (.setIrq _ _)⟩

/-! The receive side. -/

/-- t is s with other counters and interrupt bits. -/
def SameButCounts (s t : State) : Prop :=
  t = { s with stats := t.stats, irqStatus := t.irqStatus } ∧ KeepsIrq s.irqStatus t.irqStatus

theorem SameButCounts.countIf {s t : State} (h : SameButCounts s t) (c : Bool) (b : IrqBit) (f : Stats → Stats) :
    SameButCounts s (countIf c b f t) := by
  obtain ⟨h, k⟩ := h
  cases c
  · exact ⟨h, k⟩
  · refine ⟨?_, k.trans (.setIrq b _)⟩
    rw [h]
    rfl

theorem SameButCounts.tally {s t : State} (h : SameButCounts s t) (c : Bool) (f : Stats → Stats) :
    SameButCounts s (tally c f t) := by
  obtain ⟨h, k⟩ := h
  cases c
  · exact ⟨h, k⟩
  · refine ⟨?_, k⟩
    rw [h]
    rfl

theorem countReport_same (r : Report) (s : State) : SameButCounts s (countReport r s) :=
  SameButCounts.tally (.countIf (.countIf (.countIf (.countIf ⟨rfl, .refl _⟩ _ _ _) _ _ _) _ _ _) _ _ _) _ _

theorem countReport_frame (r : Report) (s : State) : ∃ stats irqStatus,
    countReport r s = { s with stats := stats, irqStatus := irqStatus } ∧ KeepsIrq s.irqStatus irqStatus :=
  ⟨_, _, (countReport_same r s).1, (countReport_same r s).2⟩

/-- A report queues the record of a delivered frame, whose id matched, and no other. -/
theorem report_frame (pl : List Byte) (pv lenErr : Bool) (s : State) : ∃ stats irqStatus rxq idle,
    report pl pv lenErr s = { s with
      stats := stats, irqStatus := irqStatus, rxq := rxq, idle := idle, last := some (reportOf pv lenErr s) } ∧
    ((rxq = s.rxq ∧ idle = s.idle) ∨
      (pv = true ∧ lenErr = false ∧ idMatches s = true ∧ idle = 0#64 ∧
        rxq = s.rxq ++ [⟨s.rx.hdr.take 8, s.rx.hv, s.rx.plen, pl⟩])) ∧ KeepsIrq s.irqStatus irqStatus := by
  unfold report
  obtain ⟨st, ir, h, k⟩ := countReport_frame (reportOf pv lenErr s) s
  simp only [h]
  split
  · rename_i hd
    simp only [reportOf, Bool.and_eq_true, Bool.not_eq_true'] at hd
    exact ⟨_, _, _, _, rfl, .inr ⟨hd.1.1, hd.2, hd.1.2, rfl, rfl⟩, k.trans (.setIrq _ _)⟩
  · exact ⟨_, _, _, _, rfl, .inl ⟨rfl, rfl⟩, k⟩

/-- The fields the receive engine's own work can change: the synchronizer, the queue, the last report, the counters,
the idle count and the interrupt bits. -/
def SameButReceive (s t : State) : Prop :=
  t = { s with rx := t.rx, rxq := t.rxq, last := t.last, stats := t.stats, idle := t.idle, irqStatus := t.irqStatus }

theorem SameButReceive.refl (s : State) : SameButReceive s s := rfl

theorem SameButReceive.trans {s t u : State} (h1 : SameButReceive s t) (h2 : SameButReceive t u) :
    SameButReceive s u := by
  unfold SameButReceive at *
  rw [h1] at h2
  exact h2

theorem enter_same (st : SyncState) (s : State) : SameButReceive s (enter st s) := rfl

theorem report_same (pl : List Byte) (pv lenErr : Bool) (s : State) : SameButReceive s (report pl pv lenErr s) := by
  obtain ⟨st, ir, q, idle, h, -⟩ := report_frame pl pv lenErr s
  rw [h]
  rfl

theorem headerDone_same (s : State) : SameButReceive s (headerDone s) := by
  unfold headerDone
  simp only
  split
  · exact (SameButReceive.trans (by rfl) (report_same [] false true _)).trans (enter_same _ _)
  · rfl

theorem payloadDone_same (s : State) : SameButReceive s (payloadDone s) := by
  unfold payloadDone
  exact (report_same _ _ _ _).trans (enter_same _ _)

theorem symbol_same (soft : Int) (s : State) : SameButReceive s (symbol soft s) := by
  unfold symbol
  simp only
  repeat' split
  all_goals first
    | rfl
    | exact SameButReceive.trans (t := countSymbol soft s) rfl (headerDone_same _)
    | exact SameButReceive.trans (t := countSymbol soft s) rfl (payloadDone_same _)

theorem track_same (z : Sample) (s : State) : SameButReceive s (track z s) := by
  unfold track
  simp only
  split
  · rfl
  · exact SameButReceive.trans (t := { s with rx := { s.rx with trk := (Config.trkStep s.rx.trk z).1 } }) rfl
      (symbol_same _ _)

theorem replay_same (zs : List Sample) (s : State) : SameButReceive s (replay zs s) := by
  induction zs generalizing s with
  | nil => rfl
  | cons z zs ih =>
    unfold replay
    split
    · rfl
    · exact (track_same z s).trans (ih _)

theorem syncStep_same (y : Sample) (s : State) : SameButReceive s (syncStep y s) := by
  unfold syncStep
  split
  · simp only
    split
    · rfl
    · exact SameButReceive.trans (by rfl) (replay_same _ _)
  · exact track_same y s

theorem syncSteps_same (ys : List Sample) (s : State) : SameButReceive s (syncSteps ys s) := by
  induction ys generalizing s with
  | nil => rfl
  | cons y ys ih => exact (syncStep_same y s).trans (ih _)

theorem receiveSample_frame (e : Tagged) (s : State) : ∃ more words pipe rx rxq last stats idle irqStatus,
    receiveSample e s = { s with
      fifo := s.fifo.drop 1, pipe := pipe, hist := s.hist ++ more, out := { s.out with dumped := words }, rx := rx,
      rxq := rxq, last := last, stats := stats, idle := idle, irqStatus := irqStatus } := by
  unfold receiveSample
  obtain ⟨more, words, h⟩ := dumpAll_frame .rx [(rxSample s.pipe e.sample).2.1]
    { fifoPop 1 s with pipe := (rxSample s.pipe e.sample).1 }
  simp only [h]
  exact ⟨more, words, _, _, _, _, _, _, _, syncSteps_same _ _⟩

/-- What holds after every step of the synchronizer over a property that a symbol, a tracker step and a search keep. -/
theorem syncSteps_keeps {P : State → Prop}
    (hdet : ∀ (s : State) (d : DetS), P s → P { s with rx := { s.rx with det := d } })
    (htrk : ∀ (s : State) (k : TrkS), P s → P { s with rx := { s.rx with trk := k } })
    (hacq : ∀ s, P s → s.rx.sync = .detectFrame → P (enter .rxPreamble s))
    (hsym : ∀ s soft, P s → s.rx.sync ≠ .detectFrame → P (symbol soft s)) (ys : List Sample) (s : State) (h : P s) :
    P (syncSteps ys s) := by
  have ht : ∀ s z, P s → s.rx.sync ≠ .detectFrame → P (track z s) := by
    intro s z hs hn
    unfold track
    simp only
    split
    · exact htrk s _ hs
    · exact hsym _ _ (htrk s _ hs) hn
  have hr : ∀ zs s, P s → P (replay zs s) := by
    intro zs
    induction zs with
    | nil => exact fun s hs => hs
    | cons z zs ih =>
      intro s hs
      unfold replay
      split
      · exact hs
      · exact ih _ (ht s z hs (by assumption))
  have h1 : ∀ y s, P s → P (syncStep y s) := by
    intro y s hs
    unfold syncStep
    split
    · rename_i hd
      simp only
      split
      · exact hdet s _ hs
      · refine hr _ _ (hacq _ ?_ hd)
        exact htrk { s with rx := { s.rx with det := Config.detInit } } _ (hdet s Config.detInit hs)
    · exact ht s y hs (by assumption)
  induction ys generalizing s with
  | nil => exact h
  | cons y ys ih => exact ih _ (h1 y s h)

end Sys2Proof.Machine
end

