-- ==== Sys2Proof/Laws/Effect.lean ====
section
/-! SUPPORT. Everything an operation can do, said once: `exec_effect` lists the outcomes of every operation with the
conditions under which they come, and `step_keeps` carries a property kept by every outcome to the step. -/

namespace Sys2Proof.Machine

/-- Every next state of an operation. -/
inductive Effect (s : State) : State → Prop
  | hold : Effect s s
  | failed (code : ErrCode) : Effect s (failAccess code s)
  | read (v : Word) : Effect s (respond v false s)
  | store (t : State) (h : StoreEffect s t) : Effect s (respond 0#32 false t)
  | command (t : State) (h : CommandEffect s t) : Effect s (respond 0#32 false t)
  | pop (n : Nat) : Effect s (popBlock n s)
  | push (ws : List Word) : Effect s (pushBlock ws s)
  | fault (running : s.core ≠ .idle) : Effect s (requestStop .radioFault (raiseError .radioFault s))
  | pin (level : Bool) : Effect s { s with stopAll := level }
  | stopped (running : s.core ≠ .idle) (seen : stopSeen s = true) : Effect s (engineStop s)
  | drain (running : s.core = .txRun) (go : stopSeen s = false) (phase : s.tx.phase = .drain) : Effect s (drain s)
  | frame (syms : List Bool) (running : s.core = .txRun) (go : stopSeen s = false) (phase : s.tx.phase = .produce)
      (gen : s.tx.gen = .frame syms) : Effect s (frameBlock syms s)
  | chunk (running : s.core = .txRun) (go : stopSeen s = false) (phase : s.tx.phase = .produce)
      (gen : s.tx.gen = .wait) (pending : s.pendLen ≠ 0) : Effect s (frameBlock (pendingSyms s) (startFrame s))
  | silence (running : s.core = .txRun) (go : stopSeen s = false) (phase : s.tx.phase = .produce)
      (gen : s.tx.gen = .wait) (free : s.pendLen = 0) (open_ : s.eos = false) : Effect s (silenceBlock s)
  | flush (running : s.core = .txRun) (go : stopSeen s = false) (phase : s.tx.phase = .produce)
      (gen : s.tx.gen = .wait) (free : s.pendLen = 0) (closed : s.eos = true) : Effect s (finalFlush s)
  | receive (e : Tagged) (rest : List Tagged) (running : s.core = .rxRun) (go : stopSeen s = false)
      (fifo : s.fifo = e :: rest) (room : s.rxq.length < s.params.rxqDepth) : Effect s (receiveSample e s)

theorem busRead_effect (size : AccessSize) (addr : BitVec 14) (s : State) : Effect s (busRead size addr s) := by
  rcases busRead_cases size addr s with ⟨code, h⟩ | ⟨v, h⟩
  · exact h ▸ .failed code
  · exact h ▸ .read v

theorem busWrite_effect (size : AccessSize) (addr : BitVec 14) (v : Word) (s : State) :
    Effect s (busWrite size addr v s) := by
  rcases busWrite_cases size addr v s with ⟨code, h⟩ | ⟨-, -, h⟩ | ⟨t, ht, h⟩
  · exact h ▸ .failed code
  · exact h ▸ .command _ (runCommand_cases _ _ s)
  · exact h ▸ .store t ht

theorem txStep_effect {s t : State} (h : execTxStep s = .next t) : Effect s t := by
  unfold execTxStep at h
  split at h
  · cases h
    exact .hold
  · rename_i he
    have hc : s.core = .txRun := by
      have : txEnabled s = true := by simpa using he
      simp only [txEnabled, Bool.and_eq_true, beq_iff_eq] at this
      exact this.1
    split at h
    · rename_i hs
      cases h
      exact .stopped (by simp [hc]) hs
    · rename_i hs
      have hs : stopSeen s = false := by simpa using hs
      split at h
      · cases h
        exact .drain hc hs (by assumption)
      · rename_i hp
        have hp : s.tx.phase = .produce := by
          cases hph : s.tx.phase <;> simp_all
        unfold produce at h
        split at h
        · cases h
          exact .frame _ hc hs hp (by assumption)
        · split at h
          · cases h
            exact .chunk hc hs hp (by assumption) (by assumption)
          · rename_i hpl
            have hpl : s.pendLen = 0 := by simpa using hpl
            split at h
            · rename_i hc'
              cases h
              exact .silence hc hs hp (by assumption) hpl (by simpa using hc')
            · rename_i hc'
              cases h
              exact .flush hc hs hp (by assumption) hpl (by simpa using hc')
        · cases h

theorem rxStep_effect {s t : State} (h : execRxStep s = .next t) : Effect s t := by
  unfold execRxStep at h
  split at h
  · cases h
    exact .hold
  · rename_i he
    have he : rxEnabled s = true := by simpa using he
    simp only [rxEnabled, Bool.and_eq_true, beq_iff_eq, Bool.or_eq_true, decide_eq_true_eq] at he
    split at h
    · rename_i hs
      cases h
      exact .stopped (by simp [he.1]) hs
    · rename_i hs
      split at h
      · cases h
        exact .hold
      · rename_i e rest hf
        cases h
        rcases he.2 with h2 | h2
        · exact absurd h2 hs
        · exact .receive e rest he.1 (by simpa using hs) hf h2.2

/-- Every operation's next state is one of the outcomes. -/
theorem exec_effect {i : Instr} {s t : State} (h : exec i s = .next t) : Effect s t := by
  cases i <;> simp only [exec] at h
  case memRead => cases h; exact busRead_effect _ _ s
  case memWrite => cases h; exact busWrite_effect _ _ _ s
  case memReadCsr => cases h; exact busRead_effect _ _ s
  case memWriteIrqStatus => cases h; exact busWrite_effect _ _ _ s
  case memWriteIrqEnable => cases h; exact busWrite_effect _ _ _ s
  case memWriteCfg => cases h; exact busWrite_effect _ _ _ s
  case memWriteRo => cases h; exact busWrite_effect _ _ _ s
  case memWriteTxbuf => cases h; exact busWrite_effect _ _ _ s
  case memReadTxbuf => cases h; exact busRead_effect _ _ s
  case memReadRxbuf => cases h; exact busRead_effect _ _ s
  case cmdNop arg => cases h; exact .command _ (withArg0_cases (fun s => .nothing) arg s)
  case cmdStartTx arg => cases h; exact .command _ (withArg0_cases startTx_cases arg s)
  case cmdStartRx arg => cases h; exact .command _ (withArg0_cases startRx_cases arg s)
  case cmdStop arg => cases h; exact .command _ (withArg0_cases stopTransfer_cases arg s)
  case cmdTxCommit len rsvd => cases h; exact .command _ (withRsvd0_cases (txCommit_cases len) rsvd s)
  case cmdTxEos arg => cases h; exact .command _ (withArg0_cases txEos_cases arg s)
  case cmdRxqPop arg => cases h; exact .command _ (withArg0_cases rxqPop_cases arg s)
  case cmdClearStats arg => cases h; exact .command _ (withArg0_cases (fun s => .clearStats) arg s)
  case cmdClearErr arg => cases h; exact .command _ (withArg0_cases (fun s => .clearErr) arg s)
  case cmdSoftReset arg => cases h; exact .command _ (withArg0_cases (fun s => .softReset) arg s)
  case cmdReserved opc arg => cases h; exact .command _ (runCommand_cases opc arg s)
  case radioPop n =>
    unfold execRadioPop at h
    split at h
    · cases h
    · cases h
      exact .pop n
  case radioPush ws =>
    unfold execRadioPush at h
    split at h
    · cases h
    · cases h
      exact .push ws
  case radioFault =>
    cases h
    unfold radioFault
    split
    · exact .hold
    · exact .fault (by assumption)
  case pinStopAll level => cases h; exact .pin level
  case txStep => exact txStep_effect h
  case rxStep => exact rxStep_effect h

/-- Every next state of a step: nothing happened, or one operation ran in the state itself or with the operation taken
off the schedule. -/
theorem step_cases {s t : State} (h : step s = .next t) :
    t = s ∨ ∃ i, exec i s = .next t ∨ ∃ w rest, s.pending = w :: rest ∧ decode w = .ok i ∧
      exec i { s with pending := rest } = .next t := by
  unfold step fetch at h
  split at h
  · rename_i w s' hf
    split at hf
    · cases hf
    · rename_i w' rest hp
      cases hf
      split at h
      · rename_i i hi
        exact .inr ⟨i, .inr ⟨_, rest, hp, hi, h⟩⟩
      · cases h
  · split at h
    · rename_i i _
      exact .inr ⟨i, .inl h⟩
    · cases h
      exact .inl rfl

/-- A property that does not read the schedule and that every outcome keeps is kept by every step. -/
theorem step_keeps {P : State → Prop} (hp : ∀ s rest, P s → P { s with pending := rest })
    (he : ∀ s t, P s → Effect s t → P t) {s t : State} (h0 : P s) (h : step s = .next t) : P t := by
  rcases step_cases h with rfl | ⟨i, h | ⟨w, rest, -, -, h⟩⟩
  · exact h0
  · exact he s t h0 (exec_effect h)
  · exact he _ t (hp s rest h0) (exec_effect h)

/-- A relation between a state and what follows it that does not read the schedule, holds of a state and itself and
holds of every outcome, holds of every step. -/
theorem step_relates {R : State → State → Prop} (h1 : ∀ s, R s s)
    (hp : ∀ s t rest, R { s with pending := rest } t → R s t) (he : ∀ s t, Effect s t → R s t) {s t : State}
    (h : step s = .next t) : R s t := by
  rcases step_cases h with rfl | ⟨i, h | ⟨w, rest, -, -, h⟩⟩
  · exact h1 _
  · exact he s t (exec_effect h)
  · exact hp s t rest (he _ t (exec_effect h))

end Sys2Proof.Machine
end

