-- ==== Sys2Proof/Laws/Encoding.lean ====
section
/-! SUPPORT. The fields of a packed descriptor and of the addresses the rows build. -/

namespace Sys2Proof

@[simp] theorem AccessSize.ofBits_toBits (size : AccessSize) : AccessSize.ofBits size.toBits = size := by
  cases size <;> rfl

@[simp] theorem AccessSize.toBits_ofBits (b : BitVec 2) : (AccessSize.ofBits b).toBits = b := by
  revert b
  decide

@[simp] theorem packTxn_write (write : Bool) (size : AccessSize) (addr : BitVec 14) (wdata : Word) :
    (packTxn write size addr wdata).getLsbD 48 = write := by
  unfold packTxn
  rw [BitVec.getLsbD_append, BitVec.getLsbD_append, BitVec.getLsbD_append]
  simp

@[simp] theorem packTxn_size (write : Bool) (size : AccessSize) (addr : BitVec 14) (wdata : Word) :
    (packTxn write size addr wdata).extractLsb' 46 2 = size.toBits := by
  unfold packTxn
  ext i hi
  simp only [BitVec.getElem_extractLsb', BitVec.getLsbD_append, show ¬ 46 + i < 32 by omega,
    show ¬ 46 + i - 32 < 14 by omega, show 46 + i - 32 - 14 = i by omega, show i < 2 from hi, if_true, if_false]
  exact BitVec.getLsbD_eq_getElem hi

@[simp] theorem packTxn_addr (write : Bool) (size : AccessSize) (addr : BitVec 14) (wdata : Word) :
    (packTxn write size addr wdata).extractLsb' 32 14 = addr := by
  unfold packTxn
  ext i hi
  simp only [BitVec.getElem_extractLsb', BitVec.getLsbD_append, show ¬ 32 + i < 32 by omega,
    show 32 + i - 32 = i by omega, show i < 14 from hi, if_true, if_false]
  exact BitVec.getLsbD_eq_getElem hi

@[simp] theorem packTxn_wdata (write : Bool) (size : AccessSize) (addr : BitVec 14) (wdata : Word) :
    (packTxn write size addr wdata).extractLsb' 0 32 = wdata := by
  unfold packTxn
  ext i hi
  simp only [BitVec.getElem_extractLsb', BitVec.getLsbD_append, Nat.zero_add, show i < 32 from hi, if_true]
  exact BitVec.getLsbD_eq_getElem hi

/-- A descriptor in its seven bytes decodes as the descriptor. -/
theorem decode_busWire (txn : BitVec 49) : decode (busWire txn) = .ok (decodeTxn txn) := by
  have h1 : ((0#7 ++ txn : BitVec (7 + 49)).extractLsb' 49 7 : BitVec 7) = 0#7 := by
    ext i hi
    simp only [BitVec.getElem_extractLsb', BitVec.getLsbD_append, show ¬ 49 + i < 49 by omega, if_false]
    simp
  have h2 : ((0#7 ++ txn : BitVec (7 + 49)).extractLsb' 0 49 : BitVec 49) = txn := by
    ext i hi
    simp only [BitVec.getElem_extractLsb', BitVec.getLsbD_append, Nat.zero_add, show i < 49 from hi, if_true]
    exact BitVec.getLsbD_eq_getElem hi
  exact (if_pos h1).trans (congrArg (fun t => Except.ok (decodeTxn t)) h2)

/-- A packed descriptor decodes by its fields. -/
theorem decode_packTxn (write : Bool) (size : AccessSize) (addr : BitVec 14) (wdata : Word) :
    decode (busWire (packTxn write size addr wdata)) =
      .ok (if write then decodeWrite size addr wdata else decodeRead size addr) := by
  rw [decode_busWire]
  unfold decodeTxn
  simp only [packTxn_write, packTxn_size, packTxn_addr, packTxn_wdata, AccessSize.ofBits_toBits]

/-- The page and the offset of an address built from them. -/
@[simp] theorem page_append (p : BitVec 2) (off : BitVec 12) : page (p ++ off) = p := by
  unfold page
  ext i hi
  simp only [BitVec.getElem_extractLsb', BitVec.getLsbD_append, show ¬ 12 + i < 12 by omega,
    show 12 + i - 12 = i by omega, if_false]
  exact BitVec.getLsbD_eq_getElem hi

@[simp] theorem offset_append (p : BitVec 2) (off : BitVec 12) :
    (p ++ off : BitVec (2 + 12)).extractLsb' 0 12 = off := by
  ext i hi
  simp only [BitVec.getElem_extractLsb', BitVec.getLsbD_append, Nat.zero_add, show i < 12 from hi, if_true]
  exact BitVec.getLsbD_eq_getElem hi

theorem toNat_append_offset (p : BitVec 2) (off : BitVec 12) : (p ++ off).toNat = p.toNat * 0x1000 + off.toNat := by
  rw [BitVec.toNat_append, Nat.shiftLeft_eq, Nat.mul_comm, ← Nat.two_pow_add_eq_or_of_lt off.isLt, Nat.mul_comm]

theorem toNat_append_cfg (b : BitVec 8) (off : BitVec 6) : (b ++ off).toNat = b.toNat * 0x40 + off.toNat := by
  rw [BitVec.toNat_append, Nat.shiftLeft_eq, Nat.mul_comm, ← Nat.two_pow_add_eq_or_of_lt off.isLt, Nat.mul_comm]

end Sys2Proof
end

