-- ==== Sys2Proof/Laws/PerInstr.lean ====
section
/-! SUPPORT. Families of statements about every operation as syntax, one lemma for each constructor. -/

namespace Sys2Proof.Laws

/-- The decoder accepts the encoding of the operation. -/
def EncodeAccepted.Statement (i : Instr) : Prop := i.wellFormed = true → ∃ j, decode (encode i) = .ok j

theorem EncodeAccepted.memRead (size : AccessSize) (addr : BitVec 14) : EncodeAccepted.Statement (.memRead size addr) :=
  fun _ => ⟨_, decode_busWire _⟩

theorem EncodeAccepted.memWrite (size : AccessSize) (addr : BitVec 14) (wdata : Word) : EncodeAccepted.Statement (.memWrite size addr wdata) :=
  fun _ => ⟨_, decode_busWire _⟩

theorem EncodeAccepted.memReadCsr (off : BitVec 12) : EncodeAccepted.Statement (.memReadCsr off) :=
  fun _ => ⟨_, decode_busWire _⟩

theorem EncodeAccepted.memWriteIrqStatus (wdata : Word) : EncodeAccepted.Statement (.memWriteIrqStatus wdata) :=
  fun _ => ⟨_, decode_busWire _⟩

theorem EncodeAccepted.memWriteIrqEnable (wdata : Word) : EncodeAccepted.Statement (.memWriteIrqEnable wdata) :=
  fun _ => ⟨_, decode_busWire _⟩

theorem EncodeAccepted.memWriteCfg (off : BitVec 6) (wdata : Word) : EncodeAccepted.Statement (.memWriteCfg off wdata) :=
  fun _ => ⟨_, decode_busWire _⟩

theorem EncodeAccepted.memWriteRo (size : AccessSize) (addr : BitVec 14) (wdata : Word) : EncodeAccepted.Statement (.memWriteRo size addr wdata) :=
  fun _ => ⟨_, decode_busWire _⟩

theorem EncodeAccepted.memWriteTxbuf (size : AccessSize) (off : BitVec 12) (wdata : Word) : EncodeAccepted.Statement (.memWriteTxbuf size off wdata) :=
  fun _ => ⟨_, decode_busWire _⟩

theorem EncodeAccepted.memReadTxbuf (size : AccessSize) (off : BitVec 12) : EncodeAccepted.Statement (.memReadTxbuf size off) :=
  fun _ => ⟨_, decode_busWire _⟩

theorem EncodeAccepted.memReadRxbuf (size : AccessSize) (off : BitVec 12) : EncodeAccepted.Statement (.memReadRxbuf size off) :=
  fun _ => ⟨_, decode_busWire _⟩

theorem EncodeAccepted.cmdNop (arg : BitVec 24) : EncodeAccepted.Statement (.cmdNop arg) :=
  fun _ => ⟨_, decode_busWire _⟩

theorem EncodeAccepted.cmdStartTx (arg : BitVec 24) : EncodeAccepted.Statement (.cmdStartTx arg) :=
  fun _ => ⟨_, decode_busWire _⟩

theorem EncodeAccepted.cmdStartRx (arg : BitVec 24) : EncodeAccepted.Statement (.cmdStartRx arg) :=
  fun _ => ⟨_, decode_busWire _⟩

theorem EncodeAccepted.cmdStop (arg : BitVec 24) : EncodeAccepted.Statement (.cmdStop arg) :=
  fun _ => ⟨_, decode_busWire _⟩

theorem EncodeAccepted.cmdTxCommit (len : BitVec 16) (rsvd : BitVec 8) : EncodeAccepted.Statement (.cmdTxCommit len rsvd) :=
  fun _ => ⟨_, decode_busWire _⟩

theorem EncodeAccepted.cmdTxEos (arg : BitVec 24) : EncodeAccepted.Statement (.cmdTxEos arg) :=
  fun _ => ⟨_, decode_busWire _⟩

theorem EncodeAccepted.cmdRxqPop (arg : BitVec 24) : EncodeAccepted.Statement (.cmdRxqPop arg) :=
  fun _ => ⟨_, decode_busWire _⟩

theorem EncodeAccepted.cmdClearStats (arg : BitVec 24) : EncodeAccepted.Statement (.cmdClearStats arg) :=
  fun _ => ⟨_, decode_busWire _⟩

theorem EncodeAccepted.cmdClearErr (arg : BitVec 24) : EncodeAccepted.Statement (.cmdClearErr arg) :=
  fun _ => ⟨_, decode_busWire _⟩

theorem EncodeAccepted.cmdSoftReset (arg : BitVec 24) : EncodeAccepted.Statement (.cmdSoftReset arg) :=
  fun _ => ⟨_, decode_busWire _⟩

theorem EncodeAccepted.cmdReserved (opc : BitVec 8) (arg : BitVec 24) : EncodeAccepted.Statement (.cmdReserved opc arg) :=
  fun _ => ⟨_, decode_busWire _⟩

theorem EncodeAccepted.radioPop (n : Nat) : EncodeAccepted.Statement (.radioPop n) := fun _ => ⟨_, rfl⟩

theorem EncodeAccepted.radioPush (ws : List Word) : EncodeAccepted.Statement (.radioPush ws) := by
  intro h
  cases ws with
  | nil => simp [Instr.wellFormed] at h
  | cons w ws => exact ⟨_, rfl⟩

theorem EncodeAccepted.radioFault : EncodeAccepted.Statement .radioFault := fun _ => ⟨_, rfl⟩

theorem EncodeAccepted.pinStopAll (level : Bool) : EncodeAccepted.Statement (.pinStopAll level) := fun _ => ⟨_, rfl⟩

theorem EncodeAccepted.txStep : EncodeAccepted.Statement .txStep := fun _ => ⟨_, rfl⟩

theorem EncodeAccepted.rxStep : EncodeAccepted.Statement .rxStep := fun _ => ⟨_, rfl⟩

end Sys2Proof.Laws
end

