-- ==== Sys2Proof/Laws/Run.lean ====
section
/-! SUPPORT. What a step of a run is: the operation that the schedule takes, run in the state with nothing pending. -/

namespace Sys2Proof.Machine

@[simp] theorem offer_pending (s : State) (w : Wire) : (s.offer w).pending = [w] := rfl

/-- A state with one operation placed runs exactly that operation. -/
theorem step_offer {s : State} {w : Wire} {i : Instr} (h : decode w = .ok i) :
    step (s.offer w) = exec i { s with pending := [] } := by
  simp only [step, fetch, State.offer, h]

/-- The operation a run takes at a time, and that it answers the run's next state. -/
theorem IsRun.exec {sched : Schedule} {run : Nat → State} (h : IsRun sched run) (n : Nat) :
    ∃ i, decode (sched n) = .ok i ∧ Machine.exec i { run n with pending := [] } = .next (run (n + 1)) := by
  have hn := h n
  simp only [step, fetch, State.offer] at hn
  split at hn
  · exact ⟨_, by assumption, hn⟩
  · cases hn

/-- Each step of a run is one of the outcomes of an operation. -/
theorem IsRun.effect {sched : Schedule} {run : Nat → State} (h : IsRun sched run) (n : Nat) :
    Effect { run n with pending := [] } (run (n + 1)) := by
  obtain ⟨i, -, hx⟩ := h.exec n
  exact exec_effect hx

/-- TXE's only step is TX_STEP. -/
theorem eq_txStep_of_agent {i : Instr} (h : agentOf i = .txe) : i = .txStep := by
  cases i <;> first | rfl | cases h

/-- RXE's only step is RX_STEP. -/
theorem eq_rxStep_of_agent {i : Instr} (h : agentOf i = .rxe) : i = .rxStep := by
  cases i <;> first | rfl | cases h

/-- What a step that TXE takes answers. -/
theorem IsRun.takes_txe {sched : Schedule} {run : Nat → State} (h : IsRun sched run) {n : Nat}
    (ht : Takes .txe sched n) : Machine.exec .txStep { run n with pending := [] } = .next (run (n + 1)) := by
  obtain ⟨i, hi, hx⟩ := h.exec n
  obtain ⟨j, hj, ha⟩ := ht
  cases hi.symm.trans hj
  exact eq_txStep_of_agent ha ▸ hx

/-- What a step that RXE takes answers. -/
theorem IsRun.takes_rxe {sched : Schedule} {run : Nat → State} (h : IsRun sched run) {n : Nat}
    (ht : Takes .rxe sched n) : Machine.exec .rxStep { run n with pending := [] } = .next (run (n + 1)) := by
  obtain ⟨i, hi, hx⟩ := h.exec n
  obtain ⟨j, hj, ha⟩ := ht
  cases hi.symm.trans hj
  exact eq_rxStep_of_agent ha ▸ hx

/-- A seen stop enables the step of the engine that runs (45_generator.md R380, 46_synchronizer.md R440). -/
theorem txEnabled_of_stopSeen {s : State} (hc : s.core = .txRun) (h : stopSeen s = true) : txEnabled s = true := by
  unfold stopSeen at h
  cases hp : s.stop <;> simp_all [txEnabled]

theorem rxEnabled_of_stopSeen {s : State} (hc : s.core = .rxRun) (h : stopSeen s = true) : rxEnabled s = true := by
  simp [rxEnabled, hc, h]

/-- RXE's step always answers a next state. -/
theorem rxStep_next (s : State) : ∃ t, Machine.exec .rxStep s = .next t := by
  simp only [Machine.exec, execRxStep]
  repeat' split
  all_goals exact ⟨_, rfl⟩

@[simp] theorem consumed_zero (sched : Schedule) (run : Nat → State) (n : Nat) : consumed sched run n 0 = [] := rfl

theorem consumed_succ (sched : Schedule) (run : Nat → State) (n len : Nat) :
    consumed sched run n (len + 1) = consumedBy (sched n) (run n) ++ consumed sched run (n + 1) len := by
  simp only [consumed, List.range_succ_eq_map, List.flatMap_cons, List.flatMap_map, Nat.add_zero]
  congr 2
  funext k
  rw [show n + 1 + k = n + (k + 1) by omega]

@[simp] theorem commits_zero (run : Nat → State) : commits run 0 = 0 := rfl

theorem commits_succ (run : Nat → State) (n : Nat) :
    commits run (n + 1) = commits run n + if (run n).pendLen = 0 ∧ (run (n + 1)).pendLen ≠ 0 then 1 else 0 := by
  simp [commits, List.range_succ, List.countP_append, List.countP_cons]

end Sys2Proof.Machine
end

