-- ==== Sys2Proof/Laws/Words.lean ====
section
/-! SUPPORT. Bits of the words the block builds: a flag at its place, bytes in their lanes. -/

namespace Sys2Proof.Machine

/-- A flag's word has the flag at its place and 0 elsewhere. -/
theorem flagAt_getLsbD (b : Bool) (k i : Nat) (hk : k < 32) : (flagAt b k).getLsbD i = (b && decide (i = k)) := by
  unfold flagAt
  rw [BitVec.getLsbD_shiftLeft, BitVec.getLsbD_setWidth, BitVec.getLsbD_ofBool]
  by_cases h : i = k
  · subst h
    cases b <;> simp [hk]
  · cases b <;> simp [h]
    intro _ _
    omega

/-- Bit j of lane i is bit 8i + j of the word. -/
theorem lane_getLsbD (v : Word) (i j : Nat) : (lane v i).getLsbD j = (decide (j < 8) && v.getLsbD (8 * i + j)) := by
  unfold lane
  rw [BitVec.getLsbD_extractLsb']

/-- Bit i of a byte shifted to a lane. -/
theorem laneAt_getLsbD (b : Byte) (k i : Nat) (hk : k < 4) :
    ((b.setWidth 32 : Word) <<< (8 * k)).getLsbD i =
      (decide (8 * k ≤ i) && decide (i < 8 * k + 8) && b.getLsbD (i - 8 * k)) := by
  rw [BitVec.getLsbD_shiftLeft, BitVec.getLsbD_setWidth]
  by_cases h1 : 8 * k ≤ i <;> by_cases h2 : i < 8 * k + 8
  · simp [h1, h2, show i < 32 by omega, show ¬ i < 8 * k by omega, show i - 8 * k < 32 by omega]
  · have : b.getLsbD (i - 8 * k) = false := BitVec.getLsbD_of_ge _ _ (by omega)
    simp [this]
  · simp [h1, show i < 8 * k by omega]
  · simp [h1, show i < 8 * k by omega]

/-- The word of n bytes has byte k in lane k, and 0 in the lanes from n on. -/
theorem lane_fromLanes (n : Nat) (f : Nat → Byte) (hn : n = 1 ∨ n = 2 ∨ n = 4) (k : Nat) :
    lane (fromLanes n f) k = if k < n then f k else 0#8 := by
  have key : ∀ i, (fromLanes n f).getLsbD i = (decide (i < 8 * n) && (f (i / 8)).getLsbD (i % 8)) := by
    intro i
    have h0 : ∀ j, j < 4 → ((f j).setWidth 32 <<< (8 * j) : Word).getLsbD i =
        (decide (i / 8 = j) && (f (i / 8)).getLsbD (i % 8)) := by
      intro j hj
      rw [laneAt_getLsbD _ _ _ hj]
      by_cases hij : i / 8 = j
      · subst hij
        rw [show i - 8 * (i / 8) = i % 8 by omega]
        simp [show 8 * (i / 8) ≤ i by omega, show i < 8 * (i / 8) + 8 by omega]
      · have : (decide (8 * j ≤ i) && decide (i < 8 * j + 8)) = false := by
          simp
          omega
        rw [this]
        simp [hij]
    rcases hn with rfl | rfl | rfl
    · show (0#32 ||| ((f 0).setWidth 32 <<< (8 * 0))).getLsbD i = _
      simp only [BitVec.getLsbD_or, h0 0 (by omega)]
      by_cases h : i / 8 = 0 <;> simp [h] <;> omega
    · show (0#32 ||| ((f 0).setWidth 32 <<< (8 * 0)) ||| ((f 1).setWidth 32 <<< (8 * 1))).getLsbD i = _
      simp only [BitVec.getLsbD_or, h0 0 (by omega), h0 1 (by omega)]
      by_cases h : i < 16
      · have : i / 8 = 0 ∨ i / 8 = 1 := by omega
        rcases this with h' | h' <;> simp [h', h]
      · simp [h, show ¬ i / 8 = 0 by omega, show ¬ i / 8 = 1 by omega]
    · show (0#32 ||| ((f 0).setWidth 32 <<< (8 * 0)) ||| ((f 1).setWidth 32 <<< (8 * 1)) |||
        ((f 2).setWidth 32 <<< (8 * 2)) ||| ((f 3).setWidth 32 <<< (8 * 3))).getLsbD i = _
      simp only [BitVec.getLsbD_or, h0 0 (by omega), h0 1 (by omega), h0 2 (by omega), h0 3 (by omega)]
      by_cases h : i < 32
      · have : i / 8 = 0 ∨ i / 8 = 1 ∨ i / 8 = 2 ∨ i / 8 = 3 := by omega
        rcases this with h' | h' | h' | h' <;> simp [h', h]
      · simp [h, show ¬ i / 8 = 0 by omega, show ¬ i / 8 = 1 by omega, show ¬ i / 8 = 2 by omega,
          show ¬ i / 8 = 3 by omega]
  apply BitVec.eq_of_getLsbD_eq
  intro j hj
  rw [lane_getLsbD, key]
  rw [show (8 * k + j) / 8 = k by omega, show (8 * k + j) % 8 = j by omega]
  by_cases h : k < n
  · simp [h, hj, show 8 * k + j < 8 * n by omega]
  · simp [h, show ¬ 8 * k + j < 8 * n by omega]

end Sys2Proof.Machine
end

