-- ==== Sys2Proof/Tests/Slice0.lean ====
section
/-! SUPPORT. Tests: the ill-formed terms WellFormed refuses, each row's decoding from a word written out from the
encoding of 30_encoding.md, one step of each operation against a vector of 95_test_vectors.md, and for each obligation
with hypotheses a state and operands that meet them. -/

namespace Sys2Proof.Tests

open Sys2Proof.Machine

/-! Small states. -/

/-- After reset with CFG_SAMPLE_RATE = 2000000 and CFG_BIT_RATE = 9600, the start of 95_test_vectors.md §2.2. -/
def ready : State :=
  { State.reset with cfg := { State.reset.cfg with sampleRate := 2000000#32, bitRate := 9600#32, id := 0x54455354#32 } }

/-- TX_RUN, right after START_TX. -/
def txRunning : State := beginTx ready

/-- RX_RUN, right after START_RX. -/
def rxRunning : State := beginRx ready

/-- A FIFO entry. -/
def entry (w : Word) (last : Bool) : Tagged := ⟨sampleOfWord w, last⟩

/-- The record of V-BUS-36: 17 bytes 00 to 10 with the id "TEST" and the counter 0. -/
def record17 : Record :=
  { hdr := [0x54#8, 0x45#8, 0x53#8, 0x54#8, 0#8, 0#8, 0#8, 0#8], hv := true, len := 17#16,
    payload := (List.range 17).map (BitVec.ofNat 8) }

/-- `s` with FIFO_CAP entries of capacity and these entries in the FIFO. -/
def withFifo (cap : Nat) (xs : List Tagged) (s : State) : State :=
  { s with params := { s.params with fifoCap := cap }, fifo := xs }

/-- The state after an operation that completes; the state itself where it stops. -/
def after (i : Instr) (s : State) : State :=
  match exec i s with
  | .next t => t
  | .fault _ => s
  | .refused _ => s

/-- The bus response and ERR after an operation. -/
def response (i : Instr) (s : State) : Word × Bool × Word :=
  ((after i s).out.rdata, (after i s).out.slverr, (after i s).err)

/-- What a 4-byte read of a register answers after an operation. -/
def readsAfter (off : BitVec 12) (i : Instr) (s : State) : Word := (after (.memReadCsr off) (after i s)).out.rdata

/-! WellFormed refuses a term that stands for no operation of its own row. -/

theorem test_wf_memRead_not_a_register_read : Instr.wellFormed (.memRead .word 0x014#14) = false := by decide
theorem test_wf_memRead_not_txbuf : Instr.wellFormed (.memRead .byte 0x1000#14) = false := by decide
theorem test_wf_memRead_not_rxbuf : Instr.wellFormed (.memRead .byte 0x2000#14) = false := by decide
theorem test_wf_memWrite_not_cmd : Instr.wellFormed (.memWrite .word 0x010#14 0#32) = false := by decide
theorem test_wf_memWrite_not_irq_status : Instr.wellFormed (.memWrite .word 0x01C#14 0#32) = false := by decide
theorem test_wf_memWrite_not_irq_enable : Instr.wellFormed (.memWrite .word 0x020#14 0#32) = false := by decide
theorem test_wf_memWrite_not_cfg : Instr.wellFormed (.memWrite .word 0x07F#14 0#32) = false := by decide
theorem test_wf_memWrite_not_read_only : Instr.wellFormed (.memWrite .word 0x0F0#14 0#32) = false := by decide
theorem test_wf_memWrite_not_txbuf : Instr.wellFormed (.memWrite .half 0x1FFE#14 0#32) = false := by decide
theorem test_wf_memWrite_not_rxbuf : Instr.wellFormed (.memWrite .half 0x2000#14 0#32) = false := by decide
theorem test_wf_memWriteRo_not_cmd : Instr.wellFormed (.memWriteRo .word 0x010#14 0#32) = false := by decide
theorem test_wf_memWriteRo_not_narrow : Instr.wellFormed (.memWriteRo .byte 0x014#14 0#32) = false := by decide
theorem test_wf_memWriteRo_not_txbuf : Instr.wellFormed (.memWriteRo .word 0x1000#14 0#32) = false := by decide
theorem test_wf_cmdReserved_not_listed : Instr.wellFormed (.cmdReserved 0x09#8 0#24) = false := by decide
theorem test_wf_radioPop_not_zero : Instr.wellFormed (.radioPop 0) = false := by decide
theorem test_wf_radioPush_not_empty : Instr.wellFormed (.radioPush []) = false := by decide

/-! Each row's decoding. A descriptor is WRITE, SIZE, ADDR, WDATA from the top (30_encoding.md R140), in binary digits
where the fields do not end at a hexadecimal digit. -/

/-- WRITE 0, SIZE 1, ADDR 0x0000 (V-BUS-2). -/
theorem test_decode_memRead : decodeTableWord 49 (0b00100000000000000 * 2 ^ 32) = some (.memRead .half 0x0000#14) := by
  decide
/-- WRITE 1, SIZE 0, ADDR 0x3000 (V-BUS-11). -/
theorem test_decode_memWrite :
    decodeTableWord 49 (0b10011000000000000 * 2 ^ 32 + 0x89ABCDEF) = some (.memWrite .byte 0x3000#14 0x89ABCDEF#32) := by
  decide
/-- WRITE 0, SIZE 2, ADDR 0x0014 (V-BUS-3). -/
theorem test_decode_memReadCsr : decodeTableWord 49 (0b01000000000010100 * 2 ^ 32) = some (.memReadCsr 0x014#12) := by
  decide
/-- V-BUS-28. -/
theorem test_decode_memWriteIrqStatus :
    decodeTableWord 49 0x1801C00000001 = some (.memWriteIrqStatus 1#32) := by decide
/-- V-BUS-30. -/
theorem test_decode_memWriteIrqEnable :
    decodeTableWord 49 0x1802000000010 = some (.memWriteIrqEnable 0x10#32) := by decide
/-- V-BUS-26: CFG_BT is 0x040 + 0x0C. -/
theorem test_decode_memWriteCfg :
    decodeTableWord 49 0x1804C123401F4 = some (.memWriteCfg 0x0C#6 0x123401F4#32) := by decide
/-- V-BUS-18: STATUS; V-BUS-20: RXBUF+0, one byte. -/
theorem test_decode_memWriteRo :
    decodeTableWord 49 0x1801400000000 = some (.memWriteRo .word 0x0014#14 0#32) ∧
    decodeTableWord 49 0x1200000000000 = some (.memWriteRo .byte 0x2000#14 0#32) := by decide
/-- V-BUS-24: TXBUF+1, two bytes. -/
theorem test_decode_memWriteTxbuf :
    decodeTableWord 49 0x1500100004142 = some (.memWriteTxbuf .half 0x001#12 0x4142#32) := by decide
/-- V-BUS-21: TXBUF+0x3E4, four bytes. -/
theorem test_decode_memReadTxbuf : decodeTableWord 49 0x093E400000000 = some (.memReadTxbuf .word 0x3E4#12) := by decide
/-- V-BUS-36: RXBUF+16, four bytes. -/
theorem test_decode_memReadRxbuf : decodeTableWord 49 0x0A01000000000 = some (.memReadRxbuf .word 0x010#12) := by decide
/-- SIZE = 3 at 0x3001 (V-BUS-13) and at a register (V-BUS-12) is a read that no narrower row takes. -/
theorem test_decode_size_3 :
    decodeTableWord 49 0x0F00100000000 = some (.memRead .reserved 0x3001#14) ∧
    decodeTableWord 49 0x0C00000000000 = some (.memRead .reserved 0x0000#14) := by decide
/-- The command table of 95_test_vectors.md §2.2: `wr CMD, w` is 0x18010 and the eight digits of w. -/
theorem test_decode_cmdNop : decodeTableWord 49 0x1801000000100 = some (.cmdNop 1#24) := by decide
theorem test_decode_cmdStartTx : decodeTableWord 49 0x1801000000001 = some (.cmdStartTx 0#24) := by decide
theorem test_decode_cmdStartRx : decodeTableWord 49 0x1801000000002 = some (.cmdStartRx 0#24) := by decide
theorem test_decode_cmdStop : decodeTableWord 49 0x1801000000103 = some (.cmdStop 1#24) := by decide
/-- TX_COMMIT 1000, and with bit 24 set (V-CMD-6). -/
theorem test_decode_cmdTxCommit :
    decodeTableWord 49 0x180100003E804 = some (.cmdTxCommit 1000#16 0#8) ∧
    decodeTableWord 49 0x1801001001104 = some (.cmdTxCommit 17#16 1#8) := by decide
theorem test_decode_cmdTxEos : decodeTableWord 49 0x1801000000005 = some (.cmdTxEos 0#24) := by decide
theorem test_decode_cmdRxqPop : decodeTableWord 49 0x1801000000006 = some (.cmdRxqPop 0#24) := by decide
theorem test_decode_cmdClearStats : decodeTableWord 49 0x1801000000007 = some (.cmdClearStats 0#24) := by decide
theorem test_decode_cmdClearErr : decodeTableWord 49 0x1801000000008 = some (.cmdClearErr 0#24) := by decide
theorem test_decode_cmdSoftReset : decodeTableWord 49 0x1801000000009 = some (.cmdSoftReset 0#24) := by decide
/-- V-CMD-3 and V-CMD-7. -/
theorem test_decode_cmdReserved :
    decodeTableWord 49 0x180100000000A = some (.cmdReserved 0x0A#8 0#24) ∧
    decodeTableWord 49 0x18010000001FF = some (.cmdReserved 0xFF#8 1#24) := by decide
/-- OP 0, 1, 2, 3 of the radio and pin port (30_encoding.md R145), with the operand where log 3 puts it. -/
theorem test_decode_radioPop : decodeTableWord 2 0b00 = some (.radioPop 1) ∧ decode (.port 0#2 (.count 4)) = .ok (.radioPop 5) := by
  decide
theorem test_decode_radioPush :
    decodeTableWord 2 0b01 = some (.radioPush [0#32]) ∧
    decode (.port 1#2 (.samples 7#32 [8#32, 9#32])) = .ok (.radioPush [7#32, 8#32, 9#32]) := by decide
theorem test_decode_radioFault : decodeTableWord 2 0b10 = some .radioFault := by decide
theorem test_decode_pinStopAll :
    decodeTableWord 2 0b11 = some (.pinStopAll false) ∧ decodeTableWord 8 0b111 = some (.pinStopAll true) := by decide
theorem test_decode_txStep : decode .stepTx = .ok .txStep := by decide
theorem test_decode_rxStep : decode .stepRx = .ok .rxStep := by decide
/-- A bit above bit 48, and operands of another operation, are rejected by name. -/
theorem test_decode_rejects :
    decodeTableWord 56 0x2000000000000 = none ∧ decode (.bus 0x2000000000000#56) = .error .descriptorTooWide ∧
    decode (.port 2#2 (.count 0)) = .error .portOperandShape := by decide

/-! One step of each operation. -/

/-- V-BUS-2: BUS_WIDTH. -/
theorem test_memRead_width : response (.memRead .half 0x0000#14) State.reset = (0#32, true, 0x8000000A#32) := by decide
/-- V-BUS-10: BUS_ADDR. -/
theorem test_memRead_addr : response (.memRead .word 0x3FFC#14) State.reset = (0#32, true, 0x80000008#32) := by decide
/-- V-BUS-9: BUS_ADDR. -/
theorem test_memWrite_addr : response (.memWrite .word 0x0024#14 0#32) State.reset = (0#32, true, 0x80000008#32) := by
  decide
/-- V-BUS-17: width before RO. -/
theorem test_memWrite_width : response (.memWrite .byte 0x0014#14 0#32) State.reset = (0#32, true, 0x8000000A#32) := by
  decide
/-- V-BUS-3: STATUS after reset. -/
theorem test_memReadCsr_status : response (.memReadCsr 0x014#12) State.reset = (0x00000080#32, false, 0#32) := by decide
/-- V-BUS-5: PARAM_MISC. -/
theorem test_memReadCsr_param_misc : response (.memReadCsr 0x00C#12) State.reset = (0x23E80202#32, false, 0#32) := by
  decide
/-- V-BUS-28: 1 clears. -/
theorem test_memWriteIrqStatus :
    (after (.memWriteIrqStatus 1#32) { State.reset with irqStatus := 9#32 }).irqStatus = 8#32 := by decide
/-- V-BUS-27. -/
theorem test_memWriteIrqEnable : (after (.memWriteIrqEnable 0xFFFFFFFF#32) State.reset).irqEnable = 0x3FFF#32 := by decide
/-- V-BUS-30: irq_out. -/
theorem test_irqOut :
    irqOut (after (.memWriteIrqEnable 0x10#32) { State.reset with irqStatus := 0x10#32 }) = true := by decide
/-- V-BUS-26: the reserved bits are dropped. -/
theorem test_memWriteCfg : readsAfter 0x04C#12 (.memWriteCfg 0x0C#6 0x123401F4#32) State.reset = 0x1F4#32 := by decide
/-- V-BUS-31: CFG_LOCKED. -/
theorem test_memWriteCfg_locked : response (.memWriteCfg 0x0C#6 0x1F4#32) txRunning = (0#32, true, 0x80000004#32) := by
  decide
/-- V-BUS-18 and V-BUS-20: BUS_RO. -/
theorem test_memWriteRo :
    response (.memWriteRo .word 0x0014#14 0#32) State.reset = (0#32, true, 0x8000000B#32) ∧
    response (.memWriteRo .byte 0x2000#14 0#32) State.reset = (0#32, true, 0x8000000B#32) := by decide
/-- V-BUS-25: lane 1 of the word. -/
theorem test_memWriteTxbuf :
    txByte (after (.memWriteTxbuf .word 0x000#12 0x54534554#32) State.reset) 0x1001 = 0x45#8 := by decide
/-- V-BUS-33: TXBUF_BUSY. -/
theorem test_memWriteTxbuf_busy :
    response (.memWriteTxbuf .word 0x000#12 0x54534554#32) { State.reset with pendLen := 17 } =
      (0#32, true, 0x80000005#32) := by decide
/-- V-BUS-25: the byte read back in lane 0. -/
theorem test_memReadTxbuf :
    response (.memReadTxbuf .byte 0x001#12) { State.reset with txbuf := [(0x1001, 0x45#8)] } =
      (0x45#32, false, 0#32) := by decide
/-- V-BUS-22: past the window, checked before alignment. -/
theorem test_memReadTxbuf_addr : response (.memReadTxbuf .word 0x3E6#12) State.reset = (0#32, true, 0x80000008#32) := by
  decide
/-- V-BUS-36: the last byte of the record in lane 0. -/
theorem test_memReadRxbuf :
    response (.memReadRxbuf .word 0x010#12) { State.reset with rxq := [record17] } = (0x10#32, false, 0#32) := by decide
/-- V-BUS-37: past the record's length. -/
theorem test_memReadRxbuf_past_len :
    response (.memReadRxbuf .word 0x014#12) { State.reset with rxq := [record17] } = (0#32, false, 0#32) := by decide
/-- V-CMD-2: CMD_ARG, and the write answers SLVERR 0. -/
theorem test_cmdNop_arg : response (.cmdNop 1#24) State.reset = (0#32, false, 0x80000002#32) := by decide
/-- V-CMD-26. -/
theorem test_cmdStartTx : readsAfter 0x014#12 (.cmdStartTx 0#24) ready = 0x81#32 := by decide
/-- V-CMD-8: the first failing check. -/
theorem test_cmdStartTx_refused : response (.cmdStartTx 0#24) State.reset = (0#32, false, 0x80000010#32) := by decide
/-- V-CMD-29. -/
theorem test_cmdStartRx : readsAfter 0x014#12 (.cmdStartRx 0#24) ready = 0x82#32 := by decide
/-- V-CMD-22. -/
theorem test_cmdStartRx_threshold :
    response (.cmdStartRx 0#24) { ready with cfg := { ready.cfg with detThresh := 0#32 } } =
      (0#32, false, 0x80000018#32) := by decide
/-- V-CMD-31. -/
theorem test_cmdStop : (after (.cmdStop 0#24) txRunning).stop = some .hostStop := by decide
/-- V-CMD-32: the first reason is kept. -/
theorem test_cmdStop_keeps :
    (after (.cmdStop 0#24) { rxRunning with stop := some .timeout }).stop = some .timeout := by decide
/-- V-CMD-34. -/
theorem test_cmdTxCommit : (after (.cmdTxCommit 1000#16 0#8) State.reset).pendLen = 1000 := by decide
/-- V-CMD-38: STATE before CMD_ARG. -/
theorem test_cmdTxCommit_state :
    response (.cmdTxCommit 0#16 0#8) { rxRunning with pendLen := 17 } = (0#32, false, 0x80000003#32) := by decide
/-- V-CMD-41. -/
theorem test_cmdTxEos : (after (.cmdTxEos 0#24) txRunning).eos = true := by decide
/-- V-CMD-40. -/
theorem test_cmdTxEos_idle : response (.cmdTxEos 0#24) State.reset = (0#32, false, 0x80000003#32) := by decide
/-- V-CMD-43. -/
theorem test_cmdRxqPop : (after (.cmdRxqPop 0#24) { State.reset with rxq := [record17] }).rxq = [] := by decide
/-- V-CMD-42. -/
theorem test_cmdRxqPop_empty : response (.cmdRxqPop 0#24) State.reset = (0#32, false, 0x80000007#32) := by decide
/-- V-CMD-44. -/
theorem test_cmdClearStats :
    let t := after (.cmdClearStats 0#24)
      { State.reset with idle := 9#64, stats := { Stats.zero with rxFrames := 5#32 }, tx := { TxEngine.reset with frameCnt := 3#32 } }
    t.stats = Stats.zero ∧ t.idle = 9#64 ∧ t.tx.frameCnt = 3#32 := by decide
/-- V-CMD-45. -/
theorem test_cmdClearErr :
    let t := after (.cmdClearErr 0#24) { State.reset with err := 0x80000102#32, irqStatus := 0x1000#32 }
    t.err = 0#32 ∧ t.irqStatus = 0x1000#32 := by decide
/-- V-CMD-46. -/
theorem test_cmdSoftReset :
    let t := after (.cmdSoftReset 0#24) rxRunning
    t.core = .idle ∧ t.cfg.sampleRate = 0#32 ∧ t.cfg.bt = 0x1F4#32 ∧ t.irqStatus = 0#32 := by decide
/-- V-CMD-7: the opcode is checked before ARG. -/
theorem test_cmdReserved : response (.cmdReserved 0xFF#8 1#24) State.reset = (0#32, false, 0x80000001#32) := by decide
/-- V-FIFO-2: the prefix, the padding and the underrun. -/
theorem test_radioPop_underrun :
    let t := after (.radioPop 5) (withFifo 4 [entry 1#32 false, entry 2#32 false, entry 3#32 false] txRunning)
    t.out.popped = [1#33, 2#33, 3#33, 0#33, 0#33] ∧ t.stats.underrunEv = 1#32 ∧ t.stats.underrunSmp = 2#32 ∧
      t.irqStatus = 0x100#32 := by decide
/-- V-FIFO-6: the LAST entry ends the burst, in IDLE no underrun is counted. -/
theorem test_radioPop_burst_end :
    let t := after (.radioPop 4) (withFifo 4 [entry 1#32 false, entry 2#32 true] State.reset)
    t.burstEnd = true ∧ t.stats.underrunEv = 0#32 ∧ t.irqStatus = 0x2000#32 ∧ t.hist.head? = some .burstEnd := by decide
/-- V-FIFO-4: the prefix that fits, and the overrun. -/
theorem test_radioPush_overrun :
    let t := after (.radioPush [4#32, 5#32, 6#32])
      (withFifo 4 [entry 1#32 false, entry 2#32 false, entry 3#32 false] rxRunning)
    t.out.accepted = 1 ∧ t.fifo.length = 4 ∧ t.stats.overrunEv = 1#32 ∧ t.stats.overrunSmp = 2#32 := by decide
/-- P2, step 9: the push that brings IDLE_CNT to fs · CFG_TIMEOUT requests the stop. -/
theorem test_radioPush_timeout :
    let t := after (.radioPush [0#32, 0#32])
      { rxRunning with lcfg := { rxRunning.lcfg with fs := 8#32, timeout := 1#32 }, idle := 6#64 }
    t.idle = 8#64 ∧ t.stop = some .timeout ∧ t.irqStatus = 0x800#32 := by decide
/-- V-EXC-3. -/
theorem test_radioFault :
    let t := after .radioFault txRunning
    t.err = 0x80000020#32 ∧ t.stop = some .radioFault := by decide
/-- V-EXC-5. -/
theorem test_radioFault_idle : (after .radioFault State.reset).err = 0#32 := by decide
/-- P5, step 6. -/
theorem test_pinStopAll : readsAfter 0x014#12 (.pinStopAll true) State.reset = 0x8080#32 := by decide
/-- V-FIFO-12: the drain takes what fits. -/
theorem test_txStep_drain :
    let t := after .txStep
      { withFifo 4 [] txRunning with tx := { txRunning.tx with phase := .drain, outbuf := List.replicate 6 padEntry } }
    t.fifo.length = 4 ∧ t.tx.outbuf.length = 2 ∧ t.core = .txRun := by decide
/-- V-GEN-9: a stop in DRAIN with the FIFO full. -/
theorem test_txStep_stop :
    let t := after .txStep
      { withFifo 1 [padEntry] txRunning with
        stop := some .hostStop, tx := { txRunning.tx with phase := .drain, outbuf := [padEntry] } }
    t.core = .idle ∧ t.tx.outbuf = [] ∧ t.fifo.length = 1 ∧ t.stopReason = .hostStop ∧ t.irqStatus = 0x400#32 := by
  decide
/-- V-EXC-8: the stop-all input. -/
theorem test_rxStep_stopAll : readsAfter 0x014#12 .rxStep { rxRunning with stopAll := true } = 0xA080#32 := by decide
/-- V-EXC-7: the reason of the request is kept. -/
theorem test_rxStep_stop : (after .rxStep { rxRunning with stop := some .timeout }).stopReason = .timeout := by decide
/-- V-SYNC-2: a valid frame of another id is reported and not queued. -/
theorem test_report_foreign_id :
    let s := { rxRunning with
      lcfg := { rxRunning.lcfg with id := 0x41424344#32 },
      rx := { rxRunning.rx with hdr := hdrBlock 0x54455354#32 0#32 17#16, hv := true, plen := 17#16 } }
    let t := report record17.payload true false s
    lastFlagsWord t.last = 0x80000003#32 ∧ t.rxq = [] ∧ t.stats.rxFrames = 1#32 ∧ t.stats.rxIdMismatch = 1#32 ∧
      t.irqStatus = 0x88#32 := by decide
/-- V-SYNC-6 and V-CODEC-12: a valid header of length 0 is a length error. -/
theorem test_headerDone_length_0 :
    let s := { rxRunning with
      lcfg := { rxRunning.lcfg with crc := .crc32, fecIn := .hamming74 },
      rx := { rxRunning.rx with
        sync := .rxHeader,
        bits := bitsOf [0x4B#8, 0x32#8, 0x62#8, 0x54#8, 0xB0#8, 0xD2#8, 0xCC#8, 0#8, 0#8, 0#8, 0#8, 0#8, 0#8, 0#8, 0#8,
          0#8, 0#8, 0x07#8, 0x8C#8, 0xE6#8, 0x43#8, 0x87#8, 0xA7#8, 0x85#8, 0x50#8] } }
    let t := headerDone s
    lastFlagsWord t.last = 0x80000015#32 ∧ t.stats.rxLenErr = 1#32 ∧ t.stats.rxPayBad = 0#32 ∧
      t.rx.sync = .detectFrame := by decide +kernel

/-! The frame codec and the pipeline's arithmetic against the vectors of 95_test_vectors.md §2.4, §2.5. -/

/-- V-CODEC-1. -/
theorem test_preamble :
    pack (preamble ++ [false]) = [0x82#8, 0x18#8, 0xA7#8, 0xA3#8, 0x92#8, 0xDD#8, 0x9A#8, 0xBE#8] := by decide
/-- V-CODEC-2. -/
theorem test_crc32 :
    crc32 [0x31#8, 0x32#8, 0x33#8, 0x34#8, 0x35#8, 0x36#8, 0x37#8, 0x38#8, 0x39#8] = 0xCBF43926#32 := by
  decide +kernel
/-- V-CODEC-4. -/
theorem test_h74Enc :
    h74Enc [0xA5#8] = [0xB4#8, 0x94#8] ∧ h74Enc [0x12#8, 0x34#8, 0x56#8] = [0xD2#8, 0xAA#8, 0x1C#8, 0xC4#8, 0xB9#8, 0x80#8] := by
  decide
/-- V-CODEC-5: one flip corrected, two not. -/
theorem test_h74Dec : h74Dec [0x34#8, 0x94#8] 1 = [0xA5#8] ∧ h74Dec [0x74#8, 0x94#8] 1 = [0x25#8] := by decide
/-- V-CODEC-17: payload "A" with CRC-32 and inner Hamming. -/
theorem test_encodeBlock :
    encodeBlock { LCfg.reset with crc := .crc32, fecIn := .hamming74 } [0x41#8] =
      [0x99#8, 0xA6#8, 0xAC#8, 0x3A#8, 0xA6#8, 0x4C#8, 0x96#8, 0xE0#8, 0xCC#8] := by decide
/-- The NCO increments of f = 1, 100000 and -999999 at fs = 2000000. -/
theorem test_ncoInc :
    ncoInc 1 2000000 = 0x863#32 ∧ ncoInc 100000 2000000 = 0x0CCCCCCD#32 ∧ ncoInc (-999999) 2000000 = 0x80000863#32 := by
  decide
/-- `cmul`: an exact half rounds up, a multiplication by -j, and saturation. -/
theorem test_cmul :
    cmul ⟨16384#16, 0#16⟩ ⟨1#16, 0#16⟩ = ⟨1#16, 0#16⟩ ∧
    cmul ⟨10000#16, -20000#16⟩ ⟨0#16, -32768#16⟩ = ⟨-20000#16, -10000#16⟩ ∧
    cmul ⟨-32768#16, 0#16⟩ ⟨-32768#16, 0#16⟩ = ⟨32767#16, 0#16⟩ := by decide
/-- `normalise` with NORM_LIMIT = 29491. -/
theorem test_normalise :
    normalise 29491 [⟨-32768#16, -32768#16⟩, ⟨1#16, -1#16⟩] = [⟨-20853#16, -20853#16⟩, ⟨0#16, 0#16⟩] ∧
    normalise 29491 [⟨29492#16, 0#16⟩, ⟨-3#16, 3#16⟩] = [⟨29491#16, 0#16⟩, ⟨-2#16, 2#16⟩] := by decide

/-- `txRunning` with the dump on. -/
def dumping : State := { txRunning with lcfg := { txRunning.lcfg with dump := true } }

/-- The dump of the block of 43_pipeline.md R299, R304 on the port of 30_encoding.md R146, and a receive tap's word. -/
theorem test_dump :
    (dumpAll .tx (normalise 29491 [⟨30000#16, 10000#16⟩, ⟨-20000#16, 5000#16⟩, ⟨0#16, -32768#16⟩]) dumping).out.dumped =
      [0x023276977#33, 0x01193B9B1#33, 0x08CCD0000#33] ∧
    (dumpAll .rx [⟨0x1234#16, 0x5678#16⟩] dumping).out.dumped = [0x156781234#33] ∧
    (dumpAll .rx [⟨0x1234#16, 0x5678#16⟩] txRunning).out.dumped = [] := by decide

/-! Witnesses: for each obligation with hypotheses, a state and operands that meet them, clause by clause. -/

/-- A state the step runs a single operation in. -/
def scheduled (i : Instr) (s : State) : State := { s with pending := [encode i] }

/-- One well-formed term of each row, at an end of its operands' range. -/
def everyForm : List Instr :=
  [.memRead .reserved 0x3FFF#14, .memWrite .byte 0x0FFF#14 0#32, .memReadCsr 0xFFF#12, .memWriteIrqStatus 0#32,
   .memWriteIrqEnable 0#32, .memWriteCfg 0x3F#6 0#32, .memWriteRo .reserved 0x2FFF#14 0#32,
   .memWriteTxbuf .byte 0xFFF#12 0#32, .memReadTxbuf .byte 0xFFF#12, .memReadRxbuf .byte 0xFFF#12, .cmdNop 0xFFFFFF#24,
   .cmdStartTx 0#24, .cmdStartRx 0#24, .cmdStop 0#24, .cmdTxCommit 0xFFFF#16 0xFF#8, .cmdTxEos 0#24, .cmdRxqPop 0#24,
   .cmdClearStats 0#24, .cmdClearErr 0#24, .cmdSoftReset 0#24, .cmdReserved 0x0A#8 0#24, .cmdReserved 0xFF#8 0#24,
   .radioPop 1, .radioPush [0#32], .radioFault, .pinStopAll true, .txStep, .rxStep]

theorem witness_EncodeThenDecodeReturnsTheOperation : everyForm.all Instr.wellFormed = true := by decide

theorem witness_EveryDescriptorIsOneOperation :
    (0x1800000000000#49).getLsbD 48 = true ∧ (0x0800000000001#49).getLsbD 48 = false := by decide

theorem witness_StepRunsTheDecodedOperation :
    (State.reset.withFetchWord 49 0x1801000000000).pending = [encode (.cmdNop 0#24)] ∧
    decode (encode (.cmdNop 0#24)) = .ok (.cmdNop 0#24) ∧
    decode (tableWire 56 0x2000000000000) = .error .descriptorTooWide := by decide

theorem witness_EmptyScheduleRunsTheEnabledEngine :
    (txRunning.pending = [] ∧ txEnabled txRunning = true) ∧
    ({ rxRunning with stopAll := true }.pending = [] ∧ rxEnabled { rxRunning with stopAll := true } = true) ∧
    (State.reset.pending = [] ∧ txEnabled State.reset = false ∧ rxEnabled State.reset = false) := by decide

/-- GenOk of a state that has just entered TX_RUN. -/
theorem txRunning_genOk : GenOk txRunning :=
  fun _ => ⟨fun _ => ⟨by decide, rfl, rfl⟩, fun h => by cases h⟩

/-! A fair run for each liveness claim. -/

/-- A stop is requested; TXE takes its step at every time. -/
def stopRun : Nat → State
  | 0 => { txRunning with stop := some .hostStop }
  | _ + 1 => after .txStep { txRunning with stop := some .hostStop }

theorem witness_StopLatency :
    FairRun (fun _ => .stepTx) stopRun ∧ (stopRun 0).core ≠ .idle ∧ (stopRun 0).stop ≠ none := by
  refine ⟨⟨fun n => by cases n <;> rfl, fun n _ => ⟨n, le_rfl, .txStep, rfl, rfl⟩, fun n h => ?_⟩, by decide, by decide⟩
  have h := h n le_rfl
  cases n <;> cases h

/-- The final flush has one entry left to drain, and the FIFO is empty. -/
def lastDrain : State :=
  { txRunning with
    eos := true, tx := { txRunning.tx with phase := .drain, gen := .final, outFinal := true, outbuf := [entry 0#32 true] } }

/-- TXE hands the last entry over, then RADIO pops one entry at a time. -/
def popRun : Nat → State
  | 0 => lastDrain
  | 1 => after .txStep lastDrain
  | n + 2 => popBlock 1 { popRun (n + 1) with pending := [] }

def popSchedule : Schedule
  | 0 => .stepTx
  | _ + 1 => .port 0#2 (.count 0)

theorem popRun_idle (n : Nat) : (popRun (n + 1)).core = .idle := by
  induction n with
  | zero => rfl
  | succ n ih =>
    obtain ⟨_, _, _, _, _, _, h, -⟩ := popBlock_frame 1 { popRun (n + 1) with pending := [] }
    exact (congrArg State.core h).trans ih

theorem witness_TxProgress :
    FairRun popSchedule popRun ∧ (popRun 0).params.legal = true ∧ (popRun 0).core = .txRun ∧ FifoOk (popRun 0) ∧
    DirOk (popRun 0) ∧ GenOk (popRun 0) ∧
    ((popRun 0).tx.gen = .final → (popRun 0).eos = true ∧ (popRun 0).pendLen = 0) ∧ NeverReset popSchedule ∧
    (∀ n, (popRun n).core = .txRun → stopSeen (popRun n) = false) ∧
    (∀ n, ∃ m, n ≤ m ∧ ∃ k, decode (popSchedule m) = .ok (.radioPop k)) ∧ ∃ n, (popRun n).eos = true := by
  have hidle : ∀ n, txEnabled (popRun (n + 1)) = false ∧ rxEnabled (popRun (n + 1)) = false := fun n => by
    simp [txEnabled, rxEnabled, popRun_idle n]
  refine ⟨⟨?_, fun n h => ?_, fun n h => ?_⟩, by decide, rfl, Nat.zero_le _, ⟨fun _ => rfl, nofun⟩,
    fun _ => ⟨nofun, fun _ => ⟨fun _ => rfl, fun _ => rfl⟩⟩, fun _ => ⟨rfl, rfl⟩, ?_, fun n h => ?_,
    fun n => ⟨n + 1, by omega, 1, rfl⟩, 0, rfl⟩
  · rintro (_ | _ | n) <;> rfl
  · exact absurd (h (n + 1) (by omega)) (by simp [hidle n])
  · exact absurd (h (n + 1) (by omega)) (by simp [hidle n])
  · rintro (_ | n) i h <;> cases h <;> nofun
  · cases n with
    | zero => rfl
    | succ n => rw [popRun_idle n] at h; cases h

/-- RXE and the host's RXQ_POP in turn. -/
def receiveOp (n : Nat) : Instr := if n % 2 = 0 then .rxStep else .cmdRxqPop 0#24

def receiveRun : Nat → State
  | 0 => withFifo 1 [padEntry] rxRunning
  | n + 1 => after (receiveOp n) { receiveRun n with pending := [] }

theorem receiveOp_next (n : Nat) (s : State) : exec (receiveOp n) s = .next (after (receiveOp n) s) := by
  obtain ⟨t, h⟩ : ∃ t, exec (receiveOp n) s = .next t := by
    unfold receiveOp
    split
    · exact rxStep_next s
    · exact ⟨_, rfl⟩
  simp only [after, h]

theorem receiveOp_goes_on {n : Nat} {s t : State} (h : exec (receiveOp n) s = .next t) (hc : s.core = .rxRun)
    (hs : stopSeen s = false) : t.core = .rxRun ∧ stopSeen t = false := by
  unfold receiveOp at h
  split at h
  · simp only [exec, execRxStep, hs, Bool.false_eq_true, if_false] at h
    split at h
    · cases h
      exact ⟨hc, hs⟩
    · split at h
      · cases h
        exact ⟨hc, hs⟩
      · rename_i e _ _
        obtain ⟨_, _, _, _, _, _, _, _, _, hf⟩ := receiveSample_frame e s
        cases h
        rw [hf]
        exact ⟨hc, hs⟩
  · cases h
    simp only [cmdWrite, withArg0, rxqPop]
    repeat' split
    all_goals exact ⟨hc, hs⟩

theorem receiveRun_goes_on (n : Nat) : (receiveRun n).core = .rxRun ∧ stopSeen (receiveRun n) = false := by
  induction n with
  | zero => exact ⟨rfl, rfl⟩
  | succ n ih => exact receiveOp_goes_on (receiveOp_next n { receiveRun n with pending := [] }) ih.1 ih.2

theorem receiveOp_decode (n : Nat) : decode (encode (receiveOp n)) = .ok (receiveOp n) := by
  unfold receiveOp
  split <;> decide

theorem witness_RxProgress :
    FairRun (fun n => encode (receiveOp n)) receiveRun ∧ (receiveRun 0).params.legal = true ∧
    (∀ m, 0 ≤ m → (receiveRun m).core = .rxRun ∧ stopSeen (receiveRun m) = false) ∧
    (∀ m, 0 ≤ m → (receiveRun m).rxq ≠ [] → ∃ l, m ≤ l ∧ decode (encode (receiveOp l)) = .ok (.cmdRxqPop 0#24)) := by
  refine ⟨⟨fun n => ?_, fun n h => ?_, fun n _ => ?_⟩, by decide, fun m _ => receiveRun_goes_on m, fun m _ _ => ?_⟩
  · rw [step_offer (receiveOp_decode n)]
    exact receiveOp_next n _
  · have h := h n le_rfl
    simp [txEnabled, (receiveRun_goes_on n).1] at h
  · exact ⟨2 * n, by omega, .rxStep, by simp [receiveOp, encode, decode], rfl⟩
  · refine ⟨2 * m + 1, by omega, ?_⟩
    rw [receiveOp_decode, receiveOp, if_neg (by omega)]

theorem witness_EveryWellFormedOperationCompletes : Instr.wellFormed .txStep = true ∧ GenOk txRunning :=
  ⟨rfl, txRunning_genOk⟩

theorem witness_ResetMeetsEveryInvariant : Params.default.legal = true := by decide

theorem witness_RaiseErrorRecordsTheFirstCode :
    State.reset.err.getLsbD 31 = false ∧ { State.reset with err := 0x80000101#32 }.err.getLsbD 31 = true := by decide

/-- Both clauses: an operation that records an error, and one that records none. -/
theorem witness_ErrKeepsTheFirstCode :
    let s := { State.reset with err := 0x80000101#32 }
    s.err.getLsbD 31 = true ∧
    (∃ t, exec (.cmdNop 1#24) s = .next t ∧ t.hist = s.hist ++ [.err .cmdArg]) ∧
    (∃ t, exec (.cmdNop 0#24) s = .next t ∧ ∀ code, t.hist ≠ s.hist ++ [.err code]) ∧
    busWriteOf (.cmdNop 1#24) = some (.word, 0x010#14, 0x100#32) := by
  refine ⟨by decide, ⟨_, rfl, rfl⟩, ⟨_, rfl, fun code h => ?_⟩, by decide⟩
  cases h

theorem witness_RegisterReadsReturnTheirState :
    (∃ get, (0x0BC#12, get) ∈ plainRegisters) ∧
    (∃ get, (0x0EC#12, get, 16) ∈ countRegisters ∧ get { State.reset with rxq := [record17] } < 2 ^ 16) :=
  ⟨⟨_, List.mem_of_getLast? rfl⟩, ⟨_, List.mem_of_getLast? rfl, by decide⟩⟩

theorem witness_ComposedRegisterReadsShowEveryField :
    State.reset.last = none ∧ (∃ r, { State.reset with last := some ⟨[], 0#16, true, false, true, false, true⟩ }.last = some r) ∧
    State.reset.rxq = [] ∧ (∃ r rest, { State.reset with rxq := [record17] }.rxq = r :: rest) ∧
    { Params.default with sps := 255 }.sps < 256 ∧ { Params.default with maxPayloadHw := 4096 }.maxPayloadHw ≤ 4096 :=
  ⟨rfl, ⟨_, rfl⟩, rfl, ⟨_, _, rfl⟩, by decide, by decide⟩

/-- The last word, half-word and byte of the default TXBUF. -/
theorem witness_TxbufReadReturnsItsBytes :
    (sizeBytes .word = some 4 ∧ (0x3E4#12).toNat + 4 ≤ State.reset.params.maxPayloadHw ∧ (0x3E4#12).toNat % 4 = 0) ∧
    (sizeBytes .half = some 2 ∧ (0x3E6#12).toNat + 2 ≤ State.reset.params.maxPayloadHw ∧ (0x3E6#12).toNat % 2 = 0) ∧
    (sizeBytes .byte = some 1 ∧ (0x3E7#12).toNat + 1 ≤ State.reset.params.maxPayloadHw ∧ (0x3E7#12).toNat % 1 = 0) := by
  decide

/-- The last word of RXBUF, with the queue empty and with a record in it. -/
theorem witness_RxbufReadReturnsTheHeadRecord :
    sizeBytes .word = some 4 ∧ (0x3E4#12).toNat + 4 ≤ State.reset.params.maxPayloadHw ∧ (0x3E4#12).toNat % 4 = 0 ∧
    State.reset.rxq = [] ∧ { State.reset with rxq := [record17] }.rxq = record17 :: [] := by decide

theorem witness_ReadsHaveNoSideEffect :
    busReadOf (.memReadCsr 0x014#12) = some (.word, 0x0014#14) ∧
    ∃ t, exec (.memReadCsr 0x014#12) State.reset = .next t ∧ t.out.slverr = false := ⟨by decide, _, rfl, by decide⟩

theorem witness_CfgWritesStoreTheDefinedFields : State.reset.core = .idle ∧ txRunning.core ≠ .idle := by decide

theorem witness_TxbufWriteStoresItsLanes :
    (sizeBytes .word = some 4 ∧ (0x3E4#12).toNat + 4 ≤ State.reset.params.maxPayloadHw ∧ (0x3E4#12).toNat % 4 = 0 ∧
      State.reset.pendLen = 0) ∧ { State.reset with pendLen := 1 }.pendLen ≠ 0 := by decide

/-- A register of each end of the map, and the last byte of RXBUF. -/
theorem witness_ReadOnlyPlacesRefuseWrites :
    ((0x000, Reg.id) ∈ regTable ∧ (0x0F0, Reg.rxqFlags) ∈ regTable ∧ 0x0F0 ∉ [0x010, 0x01C, 0x020] ∧
      ¬ (0x040 ≤ 0x0F0 ∧ 0x0F0 ≤ 0x064)) ∧
    (sizeBytes .byte = some 1 ∧ (0x3E7#12).toNat + 1 ≤ State.reset.params.maxPayloadHw ∧ (0x3E7#12).toNat % 1 = 0) := by
  decide

theorem witness_RowsAreBusTransactions :
    busWriteOf (.cmdNop 0#24) = some (.word, 0x010#14, 0#32) ∧ busReadOf (.memReadCsr 0xFFF#12) = some (.word, 0x0FFF#14) := by
  decide

/-- Every check of an access at an end of its range: SIZE = 3; the first byte past the last register and past TXBUF;
a misaligned word; a half-word in the CSR page; a read-only register and RXBUF; a CFG register in a transfer; TXBUF with
a chunk pending; and the accesses that pass. -/
theorem witness_AccessChecksRunInOrder :
    busReadOf (.memRead .reserved 0x3001#14) = some (.reserved, 0x3001#14) ∧
    (¬ Reaches State.reset.params 0x0F4 4 ∧ ¬ Reaches State.reset.params 0x13E8 1) ∧
    (Reaches State.reset.params 0x015 4 ∧ 0x015 % 4 ≠ 0) ∧
    (Reaches State.reset.params 0x016 2 ∧ 0x016 % 2 = 0 ∧ 0x016 < 0x1000) ∧
    (Reaches State.reset.params 0x0F0 4 ∧ Reaches State.reset.params 0x2000 1 ∧ Reaches State.reset.params 0x010 4 ∧
      Reaches State.reset.params 0x13E4 4) ∧
    (Reaches txRunning.params 0x064 4 ∧ txRunning.core ≠ .idle) ∧ State.reset.core = .idle ∧
    (State.reset.pendLen = 0 ∧ { State.reset with pendLen := 1 }.pendLen ≠ 0) := by
  simp only [← addrListed_iff]
  decide

theorem witness_FailedAccessOnlyRecordsItsError :
    (busReadOf (.memRead .half 0x0000#14)).isSome = true ∧
    ∃ t, exec (.memRead .half 0x0000#14) State.reset = .next t ∧ t.out.slverr = true := ⟨rfl, _, rfl, by decide⟩

theorem witness_OnlyTxbufWritesAndResetChangeTxbuf :
    (∃ t, exec (.cmdSoftReset 1#24) State.reset = .next t) ∧
    ∀ size addr v, busWriteOf (.cmdSoftReset 1#24) = some (size, addr, v) →
      ¬ (0x1000 ≤ addr.toNat ∧ addr.toNat < 0x2000) ∧ ¬ (addr = 0x010#14 ∧ v = 0x09#32) := by
  refine ⟨⟨_, rfl⟩, fun size addr v h => ?_⟩
  cases h
  decide

/-- Every check of START passes in `ready`, whatever its direction. -/
theorem ready_passes (dir : Dir) : NoneHolds (configFailures dir ready) := by
  intro c hc
  simp only [configFailures, List.mem_cons, List.not_mem_nil, or_false] at hc
  rcases hc with rfl | rfl | rfl | rfl | rfl | rfl | rfl | rfl | rfl | rfl | rfl <;> cases dir <;> decide

/-- The first and the last check of the list fail, and none does. -/
theorem witness_ConfigCheckReturnsTheFirstFailure :
    FirstHolds (configFailures .tx State.reset) .cfgSampleRate ∧
    FirstHolds (configFailures .tx { ready with pendLen := 1001 }) .cfgPendingLen ∧ NoneHolds (configFailures .rx ready) := by
  refine ⟨⟨[], _, _, rfl, by simp [NoneHolds], by decide, rfl⟩,
    ⟨(configFailures .tx { ready with pendLen := 1001 }).dropLast, _, [], rfl, ?_, by decide, rfl⟩, ready_passes .rx⟩
  exact fun c hc => ready_passes .tx c (List.mem_of_mem_dropLast hc)

theorem witness_StartTxBeginsATransfer :
    txRunning.core ≠ .idle ∧ (State.reset.core = .idle ∧ FirstHolds (configFailures .tx State.reset) .cfgSampleRate) ∧
    ready.core = .idle ∧ NoneHolds (configFailures .tx ready) := by
  exact ⟨by decide, ⟨rfl, [], _, _, rfl, by simp [NoneHolds], by decide, rfl⟩, rfl, ready_passes .tx⟩

theorem witness_StartRxBeginsATransfer :
    rxRunning.core ≠ .idle ∧ (State.reset.core = .idle ∧ FirstHolds (configFailures .rx State.reset) .cfgSampleRate) ∧
    ready.core = .idle ∧ NoneHolds (configFailures .rx ready) := by
  exact ⟨by decide, ⟨rfl, [], _, _, rfl, by simp [NoneHolds], by decide, rfl⟩, rfl, ready_passes .rx⟩

theorem witness_LatchCopiesTheConfiguration :
    ((0x000#32).extractLsb' 0 4 = 0#4 ∧ (0x000#32).extractLsb' 4 4 = 0#4 ∧ (0x000#32).extractLsb' 8 4 = 0#4) ∧
    ((0x111#32).extractLsb' 0 4 = 1#4 ∧ (0x111#32).extractLsb' 4 4 = 1#4 ∧ (0x111#32).extractLsb' 8 4 = 1#4) := by decide

theorem witness_SimpleCommandsDoOneThing :
    State.reset.rxq = [] ∧ { State.reset with rxq := [record17] }.rxq = record17 :: [] := by decide

/-- The ends of each clause: LEN 0, 1, the maximum and one above it, in IDLE and in TX_RUN. -/
theorem witness_TxCommitSetsThePendingLength :
    (rxRunning.core = .rxRun ∧ { txRunning with eos := true }.core = .txRun ∧ { txRunning with eos := true }.eos = true) ∧
    (State.reset.core = .idle ∧ txRunning.core = .txRun ∧ txRunning.eos = false) ∧
    (min (State.reset.cfg.maxPayload.extractLsb' 0 16).toNat State.reset.params.maxPayloadHw = 1000 ∧
      txRunning.lcfg.maxp.toNat = 1000) ∧
    ((1000#16).toNat ≤ 1000 ∧ 1000 < (1001#16).toNat ∧ 1#16 ≠ 0#16) ∧
    (State.reset.pendLen = 0 ∧ { State.reset with pendLen := 1 }.pendLen ≠ 0) := by decide

theorem witness_OpcodesAndArgumentsAreChecked :
    0x0A ≤ (0x0A#8).toNat ∧ 0x0A ≤ (0xFF#8).toNat ∧ 0x80#8 ≠ 0#8 ∧ 0x800000#24 ≠ 0#24 := by decide

theorem witness_RadioPopReturnsEntriesOrSilence :
    rxRunning.core = .rxRun ∧ { rxRunning with core := .idle }.fifoDir = .rx ∧
    txRunning.core ≠ .rxRun ∧ txRunning.fifoDir = .tx := by decide

theorem witness_RadioPushKeepsThePrefixAndAccountsIdle :
    [0#32] ≠ [] ∧ txRunning.core ≠ .rxRun ∧ rxRunning.core = .rxRun := by decide

theorem witness_FaultAndStopAllInputs : State.reset.core = .idle ∧ txRunning.core ≠ .idle := by decide

theorem witness_FifoReturnsWhatWasPushed :
    let s := withFifo 2 [] txRunning
    s.fifo = [] ∧ [padEntry, padEntry].length ≤ s.params.fifoCap := by decide

theorem witness_SplittingAPushChangesNothing :
    let s := withFifo 3 [padEntry] rxRunning
    [1#32] ≠ [] ∧ [2#32] ≠ [] ∧ s.fifo.length + [1#32].length + [2#32].length ≤ s.params.fifoCap := by decide

theorem witness_EngineStopEndsTheTransfer :
    txRunning.core = .txRun ∧ rxRunning.core = .rxRun ∧ { txRunning with stop := some .hostStop }.stop ≠ none ∧
    { rxRunning with stopAll := true }.stopAll = true := by decide

/-- TX_RUN, draining into a full FIFO. -/
def txHeld : State :=
  { withFifo 1 [padEntry] txRunning with tx := { txRunning.tx with phase := .drain, outbuf := [padEntry] } }

/-- RX_RUN with entries waiting and the queue full. -/
def rxHeld : State := { withFifo 1 [padEntry] rxRunning with rxq := [record17, record17] }

theorem witness_EnginesHoldExactlyAsStated :
    txEnabled txHeld = false ∧ txEnabled txRunning = true ∧ rxEnabled rxHeld = false ∧ rxEnabled rxRunning = false := by
  decide

theorem witness_EveryHoldIsLifted :
    (FifoOk txHeld ∧ QueueBounded txHeld ∧ DirOk txHeld ∧ 1 ≤ txHeld.params.fifoCap ∧ 1 ≤ txHeld.params.rxqDepth ∧
      txHeld.core = .txRun ∧ txEnabled txHeld = false) ∧
    (FifoOk rxHeld ∧ QueueBounded rxHeld ∧ DirOk rxHeld ∧ 1 ≤ rxHeld.params.fifoCap ∧ 1 ≤ rxHeld.params.rxqDepth ∧
      rxHeld.core = .rxRun ∧ rxEnabled rxHeld = false ∧ rxHeld.fifo ≠ []) ∧
    (rxRunning.core = .rxRun ∧ rxEnabled rxRunning = false ∧ rxRunning.fifo = [] ∧
      rxRunning.rxq.length < rxRunning.params.rxqDepth) := by
  unfold FifoOk QueueBounded DirOk
  decide

theorem witness_TxStepModulatesTheNextBlock :
    let s := { txRunning with tx := { txRunning.tx with gen := .frame [true] } }
    (s.core = .txRun ∧ s.stop = none ∧ s.stopAll = false ∧ s.tx.phase = .produce ∧ s.tx.gen = .frame [true]) ∧
    (txRunning.tx.phase = .produce ∧ txRunning.tx.gen = .wait ∧ { txRunning with pendLen := 1 }.pendLen ≠ 0) := by decide

theorem witness_TxStepSendsSilenceOrTheFinalFlush :
    (txRunning.core = .txRun ∧ txRunning.stop = none ∧ txRunning.stopAll = false ∧ txRunning.tx.phase = .produce ∧
      txRunning.tx.gen = .wait ∧ txRunning.pendLen = 0) ∧
    txRunning.eos = false ∧ { txRunning with eos := true }.eos = true := by decide

/-- The block is one entry longer than the space, and exactly as long. -/
theorem witness_TxStepDrainsAndCompletes :
    let s := fun xs => { withFifo 2 [padEntry] txRunning with tx := { txRunning.tx with phase := .drain, outbuf := xs } }
    (txEnabled (s [padEntry]) = true ∧ (s [padEntry]).stop = none ∧ (s [padEntry]).stopAll = false ∧
      (s [padEntry]).tx.phase = .drain) ∧
    2 - 1 < [padEntry, padEntry].length ∧ [padEntry].length ≤ 2 - 1 := by decide

theorem witness_RxStepConsumesOneEntry :
    let s := withFifo 1 [padEntry] rxRunning
    rxEnabled s = true ∧ s.stop = none ∧ s.stopAll = false ∧ s.fifo = padEntry :: [] := by decide

/-- The synchronizer's clauses: a state in DETECT_FRAME and one outside it. What the correlator and the tracker answer is a
free value, so a witness can only say that one of the two clauses of each is met. -/
theorem witness_RxStepConsumesOneEntry_synchronizer :
    let s := rxRunning
    let d := Config.detStep s.rx.det s.lcfg.thresh.toNat Sample.zero
    let o := Config.trkStep s.rx.trk Sample.zero
    s.rx.sync = .detectFrame ∧ (d.2 = none ∨ ∃ acq, d.2 = some acq) ∧ (o.2 = none ∨ ∃ soft, o.2 = some soft) ∧
    (enter .rxHeader s).rx.sync ≠ .detectFrame :=
  ⟨rfl, Option.eq_none_or_eq_some _, Option.eq_none_or_eq_some _, by decide⟩

/-- The synchronizer in each state, one symbol before the end of it. -/
def syncing (st : SyncState) (cnt : Nat) (need : Nat) (plen : BitVec 16) : State :=
  { rxRunning with
    lcfg := LCfg.reset, params := { rxRunning.params with preRxSyms := 1 },
    rx := { rxRunning.rx with
      sync := st, cnt := cnt, need := need, plen := plen,
      bits := if st = .rxPreamble then [] else List.replicate cnt false } }

/-- Each clause, at the symbol that completes the state and before it; a header of zeros declares length 0, and one whose
last bit is set the length 1. -/
theorem witness_SymbolAdvancesTheSynchronizer :
    (syncing .detectFrame 0 0 0#16).rx.sync = .detectFrame ∧
    ((syncing .rxPreamble 0 0 0#16).rx.sync = .rxPreamble ∧ 0 + 1 = (syncing .rxPreamble 0 0 0#16).params.preRxSyms) ∧
    ((syncing .rxHeader 79 0 0#16).rx.sync = .rxHeader ∧
      ((syncing .rxHeader 79 0 0#16).rx.bits ++ [decide ((-1 : Int) > 0)]).length =
        8 * encodedLen (syncing .rxHeader 79 0 0#16).lcfg 10) ∧
    declaredLen (decodeBlock LCfg.reset (pack (List.replicate 79 false ++ [decide ((-1 : Int) > 0)])) 10).1 = 0#16 ∧
    declaredLen (decodeBlock LCfg.reset (pack (List.replicate 79 false ++ [decide ((1 : Int) > 0)])) 10).1 = 1#16 ∧
    ((syncing .rxPayload 7 8 1#16).rx.sync = .rxPayload ∧
      ((syncing .rxPayload 7 8 1#16).rx.bits ++ [decide ((1 : Int) > 0)]).length = (syncing .rxPayload 7 8 1#16).rx.need) ∧
    (1#16).toNat ≤ { LCfg.reset with maxp := 1#16 }.maxp.toNat := by decide +kernel

theorem witness_OneModemSampleReportsAtMostOneFrame :
    (∃ t, exec .rxStep (withFifo 1 [padEntry] rxRunning) = .next t) ∧
    (withFifo 1 [padEntry] rxRunning).fifo = padEntry :: [] ∧
    ∃ t, exec (.cmdRxqPop 0#24) rxHeld = .next t := ⟨⟨_, rfl⟩, rfl, ⟨_, rfl⟩⟩

/-- The queue's clause, in a state whose queue is full. -/
theorem witness_OneModemSampleReportsAtMostOneFrame_bounded :
    let s := scheduled (.cmdRxqPop 0#24) { rxRunning with rxq := [record17, record17] }
    QueueBounded s ∧ (∀ e rest, s.fifo = e :: rest → (rxSample s.pipe e.sample).2.2.length ≤ 1) ∧
    ∃ t, step s = .next t :=
  ⟨by unfold QueueBounded; decide, fun _ _ h => absurd (show ([] : List Tagged) = _ from h) (by simp), ⟨_, rfl⟩⟩

/-- The symbol of a bit. -/
def softOf (b : Bool) : Int := if b then 1 else -1

/-- A frame of one byte without coding, after one preamble symbol. -/
theorem witness_AFrameReceivedWithoutErrorIsDelivered :
    let s := { syncing .rxPreamble 0 0 0#16 with lcfg := { LCfg.reset with maxp := 1#16, id := 0x54455354#32 } }
    let sent := bitsOf (encodeBlock s.lcfg (hdrBlock s.lcfg.id 0#32 (BitVec.ofNat 16 [0x41#8].length))) ++
      bitsOf (encodeBlock s.lcfg [0x41#8])
    s.rx.sync = .rxPreamble ∧ s.rx.cnt = 0 ∧ s.rx.bits = [] ∧ 1 ≤ s.params.preRxSyms ∧ 1 ≤ [0x41#8].length ∧
    [0x41#8].length ≤ s.lcfg.maxp.toNat ∧ [softOf true].length = s.params.preRxSyms ∧
    (sent.map softOf).map (fun x => decide (x > 0)) = sent := by decide +kernel

/-- The codewords of one byte, the first bit of the first flipped. -/
theorem witness_SingleFlipsAreCorrected :
    let l := { LCfg.reset with fecIn := .hamming74 }
    let sent := bitsOf (encodeBlock l [0xA5#8])
    let received := bitsOf [0x34#8, 0x94#8]
    l.fecIn = .hamming74 ∧ l.fecOut = .none ∧ received.length = sent.length ∧
    ∀ k, k < 2 * ([0xA5#8].length + crcLen l.crc) →
      ∃ j, j < 7 ∧ ∀ m, m < 7 → m ≠ j → received[7 * k + m]? = sent[7 * k + m]? := by
  refine ⟨rfl, rfl, by decide, fun k hk => ⟨0, by decide, ?_⟩⟩
  have hk : k < 2 := hk
  revert k
  decide

theorem witness_ZeroOffsetBypassAndTransmitPeak :
    LCfg.reset.foff = 0 ∧ Pipe.reset.inc = 0#32 ∧
    (⟨29491#16, 0#16⟩ : Sample) ∈ normalise 29491 [⟨29492#16, 0#16⟩, ⟨-3#16, 3#16⟩] ∧
    ((29491 : Nat) * (29491 : Nat) : Int) ≤ (29491#16).toInt * (29491#16).toInt + (0#16).toInt * (0#16).toInt := by
  decide

/-- The other clauses: an increment that is not 0, a sample rate above 0, a block at the limit and one above it. -/
theorem witness_ZeroOffsetBypassAndTransmitPeak_rest :
    { Pipe.reset with inc := 1#32 }.inc ≠ 0#32 ∧ 0 < 2000000 ∧
    (let power := fun y : Sample => y.i.toInt * y.i.toInt + y.q.toInt * y.q.toInt
     (∀ y ∈ [(⟨29491#16, 0#16⟩ : Sample)], power y < ((29491 : Int) + 1) * (29491 + 1)) ∧
     29491 < 29492 ∧ (∀ y ∈ [(⟨29492#16, 0#16⟩ : Sample)], power y < ((29492 : Int) + 1) * (29492 + 1)) ∧
     ∃ y ∈ [(⟨29492#16, 0#16⟩ : Sample)], (29492 * 29492 : Int) ≤ power y) := by decide

theorem witness_StepKeepsStorageInBounds :
    (∃ t, step (scheduled (.memWriteTxbuf .word 0x3E4#12 0x01020304#32) State.reset) = .next t) ∧
    MemoryOk (scheduled (.memWriteTxbuf .word 0x3E4#12 0x01020304#32) State.reset) ∧
    (∃ t, step (scheduled (.radioPush [1#32, 2#32]) (withFifo 1 [] rxRunning)) = .next t) ∧
    FifoOk (scheduled (.radioPush [1#32, 2#32]) (withFifo 1 [] rxRunning)) ∧
    DirOk (scheduled (.radioPush [1#32, 2#32]) (withFifo 1 [] rxRunning)) :=
  ⟨⟨_, rfl⟩, ⟨rfl, fun _ h => by cases h⟩, ⟨_, rfl⟩, by unfold FifoOk; decide, by unfold DirOk; decide⟩

theorem witness_StepKeepsRegistersLegal :
    let s := scheduled (.memWriteCfg 0x0C#6 0x123401F4#32) State.reset
    s.params.legal = true ∧ RegsOk s ∧ ∃ t, step s = .next t :=
  ⟨by decide, ⟨.inl rfl, by decide, by decide, by decide, by decide, by decide, by decide, by decide⟩, ⟨_, rfl⟩⟩

theorem witness_EngineStateStaysConsistent :
    StopOk (scheduled .txStep txRunning) ∧ GenOk (scheduled .txStep txRunning) ∧
    ∃ t, step (scheduled .txStep txRunning) = .next t :=
  ⟨fun h => absurd h (by decide), txRunning_genOk, ⟨_, rfl⟩⟩

/-- The drain of the final flush, whose last entry carries LAST. -/
theorem witness_StepKeepsLastOnTheNewestEntry :
    let s := scheduled .txStep { txRunning with tx := { txRunning.tx with
      phase := .drain, gen := .final, outFinal := true, outbuf := [padEntry, ⟨Sample.zero, true⟩] } }
    GenOk s ∧ LastOk s ∧ ∃ t, step s = .next t := by
  refine ⟨fun _ => ⟨fun h => (by cases h), fun _ => by decide⟩, ⟨?_, ?_, ?_, ?_⟩, ⟨_, rfl⟩⟩ <;>
    first | unfold OnlyNewestLast; decide | (intro _; unfold NoneLast; decide) | (intro h; cases h)

/-- In RX_RUN with a record queued, one symbol into a header. -/
theorem witness_StepKeepsTheReceiveSideWellFormed :
    let s := scheduled (.cmdRxqPop 0#24) { rxRunning with
      rxq := [record17], rx := { rxRunning.rx with sync := .rxHeader, cnt := 1, bits := [true] } }
    ReceiveOk s ∧ ∃ t, step s = .next t := by
  refine ⟨⟨by decide, ⟨?_, ?_, by decide⟩, ⟨rfl, ?_⟩, ?_⟩, ⟨_, rfl⟩⟩
  · intro _
    unfold lcfgLegal
    decide
  · intro h
    cases h
  · intro _
    exact ⟨rfl, by decide⟩
  · unfold QueueOk
    intro r hr
    simp only [scheduled, List.mem_singleton] at hr
    subst hr
    unfold RecordOk
    decide

theorem witness_StepKeepsForeignFramesOut :
    let s := scheduled (.cmdRxqPop 0#24) { rxRunning with rxq := [record17] }
    QueueIdsOk s ∧ s.core = .rxRun ∧ ∃ t, step s = .next t := by
  refine ⟨fun _ => ?_, rfl, ⟨_, rfl⟩⟩
  decide

theorem witness_HistoryIsAppendOnly : ∃ t, step (scheduled (.cmdSoftReset 0#24) txRunning) = .next t := ⟨_, rfl⟩

theorem witness_ConfigurationIsFrozenDuringATransfer :
    (scheduled (.memWriteCfg 0x14#6 1#32) txRunning).core ≠ .idle ∧
    ∃ t, step (scheduled (.memWriteCfg 0x14#6 1#32) txRunning) = .next t := ⟨by decide, _, rfl⟩

/-- Two states that differ in the unspecified elements, and an accepted START of each direction. -/
theorem witness_UnspecifiedResetValuesAreNeverRead :
    let t := { ready with
      lcfg := { LCfg.reset with fs := 7#32 }, pipe := ⟨1, 2#32, 3#32, 4⟩, tx := { ready.tx with modem := 5 },
      rx := { ready.rx with det := 6, trk := 7 } }
    ready.core = .idle ∧ AgreeButUnspecified ready t ∧
    (∃ s', exec (.cmdStartTx 0#24) ready = .next s' ∧ s'.core = .txRun) ∧
    (∃ s', exec (.cmdStartRx 0#24) ready = .next s' ∧ s'.core = .rxRun) :=
  ⟨rfl, rfl, ⟨_, rfl, by decide⟩, ⟨_, rfl, by decide⟩⟩

end Sys2Proof.Tests
end

section
/-! Scope (00_scope.md R4, 20_memory.md R120): what step does with the schedule's next element. -/

namespace Sys2Proof.Machine

theorem fetch_of_pending_cons {s : State} {w : Wire} {rest : List Wire} (hp : s.pending = w :: rest) :
    fetch s = some (w, { s with pending := rest }) := by
  rw [fetch, hp]

/-- The schedule's next element is an operation: it runs in the state that has taken it off. -/
theorem step_of_decode_ok {s : State} {w : Wire} {rest : List Wire} {i : Instr}
    (hp : s.pending = w :: rest) (hd : decode w = .ok i) : step s = exec i { s with pending := rest } := by
  simp only [step, fetch_of_pending_cons hp, hd]

/-- The schedule's next element is no operation: the step answers the decoder's reason. -/
theorem step_of_decode_error {s : State} {w : Wire} {rest : List Wire} {e : DecodeError}
    (hp : s.pending = w :: rest) (hd : decode w = .error e) : step s = .refused (.undecodable e) := by
  simp only [step, fetch_of_pending_cons hp, hd]

/-- Settles O4, one lemma for each answer of the decoder. -/
theorem stepRunsTheDecodedOperation : Obligations.StepRunsTheDecodedOperation := by
  unfold Obligations.StepRunsTheDecodedOperation
  intro s w rest hp
  exact ⟨fun _ hd => step_of_decode_ok hp hd, fun _ hd => step_of_decode_error hp hd⟩

end Sys2Proof.Machine
end

section
/-! The registers and the history under a step (10_state.md R31 to R43, R77; 60_exceptions.md R470): an outcome writes
at most one register or records one error, and what it does besides keeps the registers. -/

namespace Sys2Proof.Machine

/-- What happens from s to t writes no register that has storage: the interrupt bits it may set are defined ones, the
history grows, and ERR, IRQ_ENABLE, the CFG registers and the parameters stay. -/
structure RegistersKept (s t : State) : Prop where
  params : t.params = s.params
  hist : s.hist <+: t.hist
  err : t.err = s.err
  irqStatus : KeepsIrq s.irqStatus t.irqStatus
  irqEnable : t.irqEnable = s.irqEnable
  cfg : t.cfg = s.cfg

namespace RegistersKept

theorem refl (s : State) : RegistersKept s s := ⟨rfl, List.prefix_rfl, rfl, .refl _, rfl, rfl⟩

theorem trans {s t u : State} (h : RegistersKept s t) (k : RegistersKept t u) : RegistersKept s u :=
  ⟨k.params.trans h.params, h.hist.trans k.hist, k.err.trans h.err, h.irqStatus.trans k.irqStatus,
    k.irqEnable.trans h.irqEnable, k.cfg.trans h.cfg⟩

theorem respond (v : Word) (e : Bool) (s : State) : RegistersKept s (respond v e s) :=
  ⟨rfl, List.prefix_rfl, rfl, .refl _, rfl, rfl⟩

theorem writeTxbuf (a n : Nat) (v : Word) (s : State) : RegistersKept s (writeTxbuf a n v s) :=
  ⟨rfl, List.prefix_rfl, rfl, .refl _, rfl, rfl⟩

theorem beginTx (s : State) : RegistersKept s (beginTx s) := ⟨rfl, List.prefix_rfl, rfl, .refl _, rfl, rfl⟩

theorem beginRx (s : State) : RegistersKept s (beginRx s) := ⟨rfl, List.prefix_rfl, rfl, .refl _, rfl, rfl⟩

theorem clearStats (s : State) : RegistersKept s (clearStats s) := ⟨rfl, List.prefix_rfl, rfl, .refl _, rfl, rfl⟩

theorem requestStop (r : StopReq) (s : State) : RegistersKept s (requestStop r s) := by
  obtain ⟨stop, h, -⟩ := requestStop_frame r s
  rw [h]
  exact ⟨rfl, List.prefix_rfl, rfl, .refl _, rfl, rfl⟩

theorem engineStop (s : State) : RegistersKept s (engineStop s) :=
  ⟨rfl, List.prefix_rfl, rfl, .setIrq _ _, rfl, rfl⟩

theorem popBlock (n : Nat) (s : State) : RegistersKept s (popBlock n s) := by
  obtain ⟨fifo, stats, irqStatus, burstEnd, more, out, h, -, hirq⟩ := popBlock_frame n s
  rw [h]
  exact ⟨rfl, List.prefix_append _ _, rfl, hirq, rfl, rfl⟩

theorem pushBlock (ws : List Word) (s : State) : RegistersKept s (pushBlock ws s) := by
  obtain ⟨more, stats, idle, stop, irqStatus, out, h, -, -, -, hirq⟩ := pushBlock_frame ws s
  rw [h]
  exact ⟨rfl, List.prefix_rfl, rfl, hirq, rfl, rfl⟩

theorem drain (s : State) : RegistersKept s (drain s) := by
  rcases drain_cases s with ⟨h, -⟩ | ⟨-, frameCnt, irqStatus, core, stopReason, h, -, -, hirq⟩
  · rw [h]
    exact ⟨rfl, List.prefix_rfl, rfl, .refl _, rfl, rfl⟩
  · rw [h]
    exact ⟨rfl, List.prefix_rfl, rfl, hirq, rfl, rfl⟩

theorem startFrame (s : State) : RegistersKept s (startFrame s) :=
  ⟨rfl, List.prefix_rfl, rfl, .setIrq _ _, rfl, rfl⟩

theorem frameBlock (syms : List Bool) (s : State) : RegistersKept s (frameBlock syms s) := by
  obtain ⟨more, words, pipe, ys, frameEnd, modem, h⟩ := frameBlock_frame syms s
  rw [h]
  exact ⟨rfl, List.prefix_append _ _, rfl, .refl _, rfl, rfl⟩

theorem silenceBlock (s : State) : RegistersKept s (silenceBlock s) := by
  obtain ⟨more, words, pipe, ys, h⟩ := silenceBlock_frame s
  rw [h]
  exact ⟨rfl, List.prefix_append _ _, rfl, .refl _, rfl, rfl⟩

theorem finalFlush (s : State) : RegistersKept s (finalFlush s) := by
  obtain ⟨more, words, pipe, ys, h⟩ := finalFlush_frame s
  rw [h]
  exact ⟨rfl, List.prefix_append _ _, rfl, .refl _, rfl, rfl⟩

theorem dumpAll (dir : Dir) (ys : List Sample) (s : State) : RegistersKept s (dumpAll dir ys s) := by
  obtain ⟨more, words, h⟩ := dumpAll_frame dir ys s
  rw [h]
  exact ⟨rfl, List.prefix_append _ _, rfl, .refl _, rfl, rfl⟩

/-- A change of the synchronizer alone. -/
theorem withRx (rx : Synchronizer) (s : State) : RegistersKept s { s with rx := rx } :=
  ⟨rfl, List.prefix_rfl, rfl, .refl _, rfl, rfl⟩

theorem report (pl : List Byte) (pv lenErr : Bool) (s : State) : RegistersKept s (report pl pv lenErr s) := by
  obtain ⟨stats, irqStatus, rxq, idle, h, -, hirq⟩ := report_frame pl pv lenErr s
  rw [h]
  exact ⟨rfl, List.prefix_rfl, rfl, hirq, rfl, rfl⟩

theorem headerDone (s : State) : RegistersKept s (headerDone s) := by
  unfold Machine.headerDone
  dsimp only
  split
  · exact ((withRx _ s).trans (report [] false true _)).trans (withRx _ _)
  · exact withRx _ s

theorem payloadDone (s : State) : RegistersKept s (payloadDone s) := (report _ _ _ s).trans (withRx _ _)

theorem symbol (soft : Int) (s : State) : RegistersKept s (symbol soft s) := by
  have counted : RegistersKept s (countSymbol soft s) := withRx _ s
  unfold Machine.symbol
  dsimp only
  cases s.rx.sync with
  | detectFrame => exact counted
  | rxPreamble =>
    dsimp only
    split
    · exact counted.trans (withRx _ _)
    · exact counted
  | rxHeader =>
    dsimp only
    split
    · exact counted.trans (headerDone _)
    · exact counted
  | rxPayload =>
    dsimp only
    split
    · exact counted.trans (payloadDone _)
    · exact counted

theorem syncSteps (ys : List Sample) (s : State) : RegistersKept s (syncSteps ys s) :=
  syncSteps_keeps (P := RegistersKept s) (fun _ _ h => h.trans (withRx _ _)) (fun _ _ h => h.trans (withRx _ _))
    (fun _ h _ => h.trans (withRx _ _)) (fun _ soft h _ => h.trans (symbol soft _)) ys s (refl s)

theorem receiveSample (e : Tagged) (s : State) : RegistersKept s (receiveSample e s) := by
  have popped : RegistersKept s { fifoPop 1 s with pipe := (rxSample s.pipe e.sample).1 } :=
    ⟨rfl, List.prefix_rfl, rfl, .refl _, rfl, rfl⟩
  exact (popped.trans (dumpAll _ _ _)).trans (syncSteps _ _)

end RegistersKept

/-- The writes that change a register, an error recorded among them. -/
inductive RegisterWrite (s : State) : State → Prop
  | error (code : ErrCode) : RegisterWrite s (raiseError code s)
  | irqStatus (v : Word) : RegisterWrite s (writeIrqStatus v s)
  | irqEnable (v : Word) : RegisterWrite s (writeIrqEnable v s)
  | cfg (r : Reg) (v : Word) : RegisterWrite s { s with cfg := writeCfg s.params.hasDump r v s.cfg }
  | clearErr : RegisterWrite s (clearErr s)
  | softReset : RegisterWrite s (softReset s)

/-- At most one register write, and then what keeps the registers. -/
def WritesAtMostOne (s t : State) : Prop := ∃ u, (u = s ∨ RegisterWrite s u) ∧ RegistersKept u t

theorem RegistersKept.writesAtMostOne {s t : State} (h : RegistersKept s t) : WritesAtMostOne s t := ⟨s, .inl rfl, h⟩

theorem RegisterWrite.writesAtMostOne {s t : State} (h : RegisterWrite s t) : WritesAtMostOne s t :=
  ⟨t, .inr h, .refl t⟩

theorem WritesAtMostOne.then {s t u : State} (h : WritesAtMostOne s t) (k : RegistersKept t u) :
    WritesAtMostOne s u := by
  obtain ⟨w, hw, kept⟩ := h
  exact ⟨w, hw, kept.trans k⟩

theorem StoreEffect.writesAtMostOne {s t : State} (h : StoreEffect s t) : WritesAtMostOne s t := by
  cases h with
  | irqStatus v => exact (RegisterWrite.irqStatus v).writesAtMostOne
  | irqEnable v => exact (RegisterWrite.irqEnable v).writesAtMostOne
  | cfg r v _ => exact (RegisterWrite.cfg r v).writesAtMostOne
  | txbuf a n v => exact (RegistersKept.writeTxbuf a n v s).writesAtMostOne

theorem CommandEffect.writesAtMostOne {s t : State} (h : CommandEffect s t) : WritesAtMostOne s t := by
  have unstored : ∀ {u : State}, RegistersKept s u → WritesAtMostOne s u := RegistersKept.writesAtMostOne
  cases h with
  | nothing => exact unstored (.refl s)
  | error code => exact (RegisterWrite.error code).writesAtMostOne
  | startTx => exact unstored (.beginTx s)
  | startRx => exact unstored (.beginRx s)
  | stop => exact unstored ⟨rfl, List.prefix_rfl, rfl, .refl _, rfl, rfl⟩
  | commit => exact unstored ⟨rfl, List.prefix_rfl, rfl, .refl _, rfl, rfl⟩
  | eos => exact unstored ⟨rfl, List.prefix_rfl, rfl, .refl _, rfl, rfl⟩
  | rxqPop => exact unstored ⟨rfl, List.prefix_rfl, rfl, .refl _, rfl, rfl⟩
  | clearStats => exact unstored (.clearStats s)
  | clearErr => exact RegisterWrite.clearErr.writesAtMostOne
  | softReset => exact RegisterWrite.softReset.writesAtMostOne

/-- Every outcome of an operation writes at most one register. -/
theorem Effect.writesAtMostOne {s t : State} (h : Effect s t) : WritesAtMostOne s t := by
  have unstored : ∀ {u : State}, RegistersKept s u → WritesAtMostOne s u := RegistersKept.writesAtMostOne
  cases h with
  | hold => exact unstored (.refl s)
  | failed code => exact (RegisterWrite.error code).writesAtMostOne.then (.respond _ _ _)
  | read v => exact unstored (.respond _ _ s)
  | store t h => exact h.writesAtMostOne.then (.respond _ _ t)
  | command t h => exact h.writesAtMostOne.then (.respond _ _ t)
  | pop n => exact unstored (.popBlock n s)
  | push ws => exact unstored (.pushBlock ws s)
  | fault => exact (RegisterWrite.error .radioFault).writesAtMostOne.then (.requestStop _ _)
  | pin level => exact unstored ⟨rfl, List.prefix_rfl, rfl, .refl _, rfl, rfl⟩
  | stopped => exact unstored (.engineStop s)
  | drain => exact unstored (.drain s)
  | frame syms => exact unstored (.frameBlock syms s)
  | chunk => exact unstored ((RegistersKept.startFrame s).trans (.frameBlock _ _))
  | silence => exact unstored (.silenceBlock s)
  | flush => exact unstored (.finalFlush s)
  | receive e => exact unstored (.receiveSample e s)

/-! The history and the parameters. -/

/-- The history of s goes on in t, under the same parameters. -/
def HistoryGoesOn (s t : State) : Prop := s.hist <+: t.hist ∧ t.params = s.params

theorem RegisterWrite.historyGoesOn {s t : State} (h : RegisterWrite s t) : HistoryGoesOn s t := by
  cases h with
  | error code => exact ⟨List.prefix_append _ _, rfl⟩
  | irqStatus | irqEnable | cfg | clearErr | softReset => exact ⟨List.prefix_rfl, rfl⟩

theorem Effect.historyGoesOn {s t : State} (h : Effect s t) : HistoryGoesOn s t := by
  obtain ⟨u, rfl | hw, kept⟩ := h.writesAtMostOne
  · exact ⟨kept.hist, kept.params⟩
  · obtain ⟨hist, params⟩ := hw.historyGoesOn
    exact ⟨hist.trans kept.hist, kept.params.trans params⟩

/-- Settles O58: what holds of every outcome holds of every step. -/
theorem historyIsAppendOnly : Obligations.HistoryIsAppendOnly := by
  unfold Obligations.HistoryIsAppendOnly
  intro s t h
  exact step_relates (R := HistoryGoesOn) (fun _ => ⟨List.prefix_rfl, rfl⟩) (fun _ _ _ h => h)
    (fun _ _ h => h.historyGoesOn) h

/-! The reserved bits and ERR's codes. -/

@[simp] theorem flagAt_false (k : Nat) : flagAt false k = 0#32 := by
  simp [flagAt]

theorem errValid_errWord (code : ErrCode) (ovf : Bool) : errValid (errWord code ovf) = true := by
  simp only [errValid, errWord, BitVec.getLsbD_or, flagAt_getLsbD, Nat.reduceLT, decide_true, Bool.and_self,
    Bool.true_or]

/-- A further error sets OVF beside the code that stands. -/
theorem recordErr_errWord (code first : ErrCode) (ovf : Bool) :
    recordErr code (errWord first ovf) = errWord first true := by
  rw [recordErr, if_pos (errValid_errWord first ovf)]
  cases ovf with
  | false => simp [errWord]
  | true => simp [errWord, BitVec.or_assoc]

/-- The first error stands with OVF clear. -/
theorem recordErr_zero (code : ErrCode) : recordErr code 0#32 = errWord code false := by
  simp [recordErr, errValid, errWord]

/-- A value that fits n bits is its own low n bits. -/
theorem lowBits_setWidth {n : Nat} (hn : n ≤ 32) (x : BitVec n) :
    ((x.setWidth 32).extractLsb' 0 n).setWidth 32 = x.setWidth 32 := by
  rw [← BitVec.setWidth_eq_extractLsb' hn, BitVec.setWidth_setWidth_of_le _ hn, BitVec.setWidth_eq]

theorem irqMask_irqMask (v : Word) : irqMask (irqMask v) = irqMask v := lowBits_setWidth (by omega) _

/-- Clearing bits of a word with its reserved bits 0 leaves them 0. -/
theorem KeepsIrq.and (a b : Word) : KeepsIrq a (a &&& b) := by
  intro h
  have masked_and : irqMask (a &&& b) = irqMask a &&& b := by
    apply BitVec.eq_of_getLsbD_eq
    intro i hi
    simp only [irqMask, BitVec.getLsbD_setWidth, BitVec.getLsbD_extractLsb', BitVec.getLsbD_and, Bool.and_assoc,
      Nat.zero_add]
  rw [masked_and, h]

/-- The reserved bits of the CFG registers are 0, and CFG_DUMP's bit is 0 where the dump port does not exist. -/
structure CfgOk (hasDump : Bool) (c : Cfg) : Prop where
  bt : (c.bt.extractLsb' 0 16).setWidth 32 = c.bt
  coding : (c.coding.extractLsb' 0 12).setWidth 32 = c.coding
  maxPayload : (c.maxPayload.extractLsb' 0 16).setWidth 32 = c.maxPayload
  detThresh : (c.detThresh.extractLsb' 0 16).setWidth 32 = c.detThresh
  dump : flagAt (c.dump.getLsbD 0 && hasDump) 0 = c.dump

/-- The register invariant in its four parts. -/
theorem regsOk_iff (s : State) : RegsOk s ↔ (s.err = 0#32 ∨ ∃ code ovf, s.err = errWord code ovf) ∧
    irqMask s.irqStatus = s.irqStatus ∧ irqMask s.irqEnable = s.irqEnable ∧ CfgOk s.params.hasDump s.cfg := by
  constructor
  · rintro ⟨err, irqStatus, irqEnable, bt, coding, maxPayload, detThresh, dump⟩
    exact ⟨err, irqStatus, irqEnable, bt, coding, maxPayload, detThresh, dump⟩
  · rintro ⟨err, irqStatus, irqEnable, bt, coding, maxPayload, detThresh, dump⟩
    exact ⟨err, irqStatus, irqEnable, bt, coding, maxPayload, detThresh, dump⟩

/-- A CFG write stores the defined fields only. -/
theorem CfgOk.writeCfg {hasDump : Bool} {c : Cfg} (h : CfgOk hasDump c) (r : Reg) (v : Word) :
    CfgOk hasDump (writeCfg hasDump r v c) := by
  obtain ⟨bt, coding, maxPayload, detThresh, dump⟩ := h
  cases r
  case cfgBt => exact ⟨lowBits_setWidth (by omega) _, coding, maxPayload, detThresh, dump⟩
  case cfgCoding => exact ⟨bt, lowBits_setWidth (by omega) _, maxPayload, detThresh, dump⟩
  case cfgMaxPayload => exact ⟨bt, coding, lowBits_setWidth (by omega) _, detThresh, dump⟩
  case cfgDetThresh => exact ⟨bt, coding, maxPayload, lowBits_setWidth (by omega) _, dump⟩
  case cfgDump =>
    refine ⟨bt, coding, maxPayload, detThresh, ?_⟩
    simp only [Machine.writeCfg, flagAt_getLsbD, Nat.reduceLT, decide_true, Bool.and_true, Bool.and_assoc,
      Bool.and_self]
  all_goals exact ⟨bt, coding, maxPayload, detThresh, dump⟩

/-- The reset values of the CFG registers fit their fields: a legal MAX_PAYLOAD_HW is at most 4096. -/
theorem CfgOk.reset {p : Params} (hp : p.legal = true) : CfgOk p.hasDump (Cfg.reset p) := by
  have hmax : p.maxPayloadHw ≤ 4096 := by
    simp only [Params.legal, Bool.and_eq_true, decide_eq_true_eq] at hp
    omega
  refine ⟨rfl, rfl, ?_, lowBits_setWidth (by omega) _, by simp [Cfg.reset]⟩
  apply BitVec.eq_of_toNat_eq
  simp [Cfg.reset]
  omega

theorem RegisterWrite.regsOk {s t : State} (hp : s.params.legal = true) (hs : RegsOk s) (h : RegisterWrite s t) :
    RegsOk t := by
  obtain ⟨err, irqStatus, irqEnable, cfg⟩ := (regsOk_iff s).1 hs
  rw [regsOk_iff]
  cases h with
  | error code =>
    refine ⟨.inr ?_, KeepsIrq.setIrq .error _ irqStatus, irqEnable, cfg⟩
    obtain h0 | ⟨first, ovf, h1⟩ := err
    · exact ⟨code, false, by rw [raiseError_err, h0, recordErr_zero]⟩
    · exact ⟨first, true, by rw [raiseError_err, h1, recordErr_errWord]⟩
  | irqStatus v => exact ⟨err, KeepsIrq.and _ _ irqStatus, irqEnable, cfg⟩
  | irqEnable v => exact ⟨err, irqStatus, irqMask_irqMask v, cfg⟩
  | cfg r v => exact ⟨err, irqStatus, irqEnable, cfg.writeCfg r v⟩
  | clearErr => exact ⟨.inl rfl, irqStatus, irqEnable, cfg⟩
  | softReset => exact ⟨.inl rfl, rfl, rfl, .reset hp⟩

theorem RegistersKept.regsOk {s t : State} (hs : RegsOk s) (h : RegistersKept s t) : RegsOk t := by
  obtain ⟨err, irqStatus, irqEnable, cfg⟩ := (regsOk_iff s).1 hs
  rw [regsOk_iff, h.err, h.irqEnable, h.cfg, h.params]
  exact ⟨err, h.irqStatus irqStatus, irqEnable, cfg⟩

theorem Effect.regsOk {s t : State} (hp : s.params.legal = true) (hs : RegsOk s) (h : Effect s t) : RegsOk t := by
  obtain ⟨u, rfl | hw, kept⟩ := h.writesAtMostOne
  · exact kept.regsOk hs
  · exact kept.regsOk (hw.regsOk hp hs)

/-- The register invariant under legal parameters. -/
def LegalRegs (s : State) : Prop := s.params.legal = true ∧ RegsOk s

/-- Settles O53: every outcome keeps the registers legal, and the parameters, on whose legality SOFT_RESET's value of
CFG_MAX_PAYLOAD rests. -/
theorem stepKeepsRegistersLegal : Obligations.StepKeepsRegistersLegal := by
  unfold Obligations.StepKeepsRegistersLegal
  intro s t hp hs h
  have legal_and_ok : LegalRegs t := by
    refine step_keeps ?_ ?_ ⟨hp, hs⟩ h
    · rintro s rest ⟨hp, hs⟩
      exact ⟨hp, RegistersKept.regsOk hs ⟨rfl, List.prefix_rfl, rfl, .refl _, rfl, rfl⟩⟩
    · rintro s t ⟨hp, hs⟩ he
      obtain ⟨-, params⟩ := he.historyGoesOn
      exact ⟨params ▸ hp, he.regsOk hp hs⟩
  exact legal_and_ok.2

end Sys2Proof.Machine
end

section
/-! Reads of the registers composed of fields (10_state.md R26, R28 to R30, R51, R53, R56). A composed word is an `or`
of fields and flags at their places; each field is read back from its place, and no field reaches another's. -/

namespace Sys2Proof.Machine

/-- A 4-byte read at a listed register's offset returns the register's value and changes nothing else. -/
theorem exec_memReadCsr_reg {off : BitVec 12} {r : Reg} (h : regAt off.toNat = some r) (s : State) :
    exec (.memReadCsr off) s = .next (respond (readReg s r) false s) := by
  have hok : checkAddr s.params .word (0#2 ++ off).toNat = .ok (4, .reg r) :=
    checkAddr_reg s.params (by rw [toNat_append_offset]; simpa using h)
  have hread : busRead .word (0#2 ++ off) s = respond (readReg s r) false s := by
    simp only [busRead, hok, readTarget]
  exact congrArg Host.Outcome.next hread

/-! A field at its place. -/

/-- Bit i of a field shifted to place k. -/
theorem placed_getLsbD {w : Nat} (x : BitVec w) {k : Nat} (hk : k + w ≤ 32) (i : Nat) :
    ((x.setWidth 32 : Word) <<< k).getLsbD i = (decide (k ≤ i) && x.getLsbD (i - k)) := by
  rw [BitVec.getLsbD_shiftLeft, BitVec.getLsbD_setWidth]
  by_cases hi : i < k + w
  · by_cases hki : k ≤ i
    · simp [hki, show i < 32 by omega, show ¬ i < k by omega, show i - k < 32 by omega]
    · simp [hki, show i < k by omega]
  · simp [BitVec.getLsbD_of_ge x (i - k) (by omega)]

theorem placed_extract_same {w : Nat} (x : BitVec w) {k : Nat} (hk : k + w ≤ 32) :
    ((x.setWidth 32 : Word) <<< k).extractLsb' k w = x := by
  apply BitVec.eq_of_getLsbD_eq
  intro i hi
  simp [placed_getLsbD x hk, hi]

theorem placed_extract_outside {w : Nat} (x : BitVec w) {k start len : Nat} (hk : k + w ≤ 32)
    (h : start + len ≤ k ∨ k + w ≤ start) : ((x.setWidth 32 : Word) <<< k).extractLsb' start len = 0#len := by
  apply BitVec.eq_of_getLsbD_eq
  intro i hi
  rw [BitVec.getLsbD_extractLsb', placed_getLsbD x hk, BitVec.getLsbD_zero]
  rcases h with h | h
  · simp [show ¬ k ≤ start + i by omega]
  · simp [BitVec.getLsbD_of_ge x (start + i - k) (by omega)]

theorem flagAt_extract_outside (b : Bool) {k start len : Nat} (hk : k < 32) (h : start + len ≤ k ∨ k < start) :
    (flagAt b k).extractLsb' start len = 0#len :=
  placed_extract_outside (BitVec.ofBool b) hk h

/-- The field at place 0, which is written without a shift. -/
theorem placed_zero {w : Nat} (x : BitVec w) : (x.setWidth 32 : Word) = x.setWidth 32 <<< 0 :=
  (BitVec.shiftLeft_zero _).symm

/-- A count that fits a field of w bits is the field's word. -/
theorem ofNat_eq_setWidth {w n : Nat} (hw : w ≤ 32) (h : n < 2 ^ w) :
    BitVec.ofNat 32 n = (BitVec.ofNat w n).setWidth 32 := by
  have h32 : 2 ^ w ≤ 2 ^ 32 := Nat.pow_le_pow_right (by omega) hw
  apply BitVec.eq_of_toNat_eq
  rw [BitVec.toNat_setWidth, BitVec.toNat_ofNat, BitVec.toNat_ofNat, Nat.mod_eq_of_lt h]

theorem field_toNat {w n : Nat} (h : n < 2 ^ w) : (field w n).toNat = n := by
  rw [field, if_pos h, BitVec.toNat_ofNat, Nat.mod_eq_of_lt h]

/-! STATUS. -/

theorem statusWord_state (s : State) : (statusWord s).extractLsb' 0 3 = coreCode s.core := by
  rw [statusWord, placed_zero (coreCode s.core)]
  simp (disch := omega) only [BitVec.extractLsb'_or, placed_extract_same, placed_extract_outside,
    flagAt_extract_outside, BitVec.or_zero]

theorem statusWord_stopReason (s : State) : (statusWord s).extractLsb' 12 3 = endCode s.stopReason := by
  rw [statusWord, placed_zero (coreCode s.core)]
  simp (disch := omega) only [BitVec.extractLsb'_or, placed_extract_same, placed_extract_outside,
    flagAt_extract_outside, BitVec.or_zero, BitVec.zero_or]

theorem statusWord_reserved (s : State) : (statusWord s).extractLsb' 16 16 = 0#16 := by
  rw [statusWord, placed_zero (coreCode s.core)]
  simp (disch := omega) only [BitVec.extractLsb'_or, placed_extract_outside, flagAt_extract_outside, BitVec.or_zero]

/-- A bit of STATUS outside its two codes is the flag that stands there. -/
theorem statusWord_flag (s : State) {i : Nat} (h3 : 3 ≤ i) (h12 : i < 12 ∨ 15 ≤ i) :
    (statusWord s).getLsbD i =
      ((s.pendLen != 0) && decide (i = 3) || s.eos && decide (i = 4) || s.stop.isSome && decide (i = 5) ||
      s.burstEnd && decide (i = 6) || (s.fifo.length == 0) && decide (i = 7) ||
      (s.fifo.length == s.params.fifoCap) && decide (i = 8) || decide (0 < s.rxq.length) && decide (i = 9) ||
      errValid s.err && decide (i = 10) || (s.core == .txRun && s.tx.phase == .drain) && decide (i = 11) ||
      s.stopAll && decide (i = 15)) := by
  have state : ((coreCode s.core).setWidth 32 : Word).getLsbD i = false := by
    rw [BitVec.getLsbD_setWidth, BitVec.getLsbD_of_ge _ i h3, Bool.and_false]
  have reason : ((endCode s.stopReason).setWidth 32 <<< 12 : Word).getLsbD i = false := by
    rw [placed_getLsbD _ (by omega)]
    rcases h12 with h | h
    · simp [show ¬ 12 ≤ i by omega]
    · simp [BitVec.getLsbD_of_ge (endCode s.stopReason) (i - 12) (by omega)]
  simp (disch := omega) only [statusWord, BitVec.getLsbD_or, state, reason, flagAt_getLsbD, Bool.false_or,
    Bool.or_false]

/-- Settles O13, field by field. -/
theorem statusReadShowsEveryField : Obligations.StatusReadShowsEveryField := by
  unfold Obligations.StatusReadShowsEveryField
  intro s
  refine ⟨statusWord s, exec_memReadCsr_reg (r := .status) (by decide) s, ?_⟩
  have stopPending : s.stop.isSome = decide (s.stop ≠ none) := by cases s.stop <;> rfl
  rw [statusWord_state, statusWord_stopReason, statusWord_reserved]
  refine ⟨by cases s.core <;> rfl, ?_, ?_, ?_, ?_, ?_, ?_, ?_, ?_, ?_, by cases s.stopReason <;> rfl, ?_, rfl⟩
  all_goals
    simp (disch := omega) [-BitVec.getLsbD_eq_getElem, statusWord_flag, stopPending, bne, beq_eq_decide, errValid]

/-! SYNC_STATUS, LAST_FLAGS, RXQ_FLAGS and PARAM_MISC. -/

/-- SYNC_STATUS as its two fields at their places. -/
theorem syncStatusWord_eq (r : Synchronizer) : syncStatusWord r =
    (syncCode r.sync).setWidth 32 <<< 0 ||| (BitVec.ofNat 16 (min r.cnt 65535)).setWidth 32 <<< 16 := by
  rw [syncStatusWord, BitVec.shiftLeft_zero, ofNat_eq_setWidth (w := 16) (by omega) (by omega)]

theorem syncStatusWord_fields (r : Synchronizer) :
    (syncStatusWord r).extractLsb' 0 2 = syncCode r.sync ∧ (syncStatusWord r).extractLsb' 2 14 = 0#14 ∧
    ((syncStatusWord r).extractLsb' 16 16).toNat = min r.cnt 65535 := by
  rw [syncStatusWord_eq]
  simp (disch := omega) only [BitVec.extractLsb'_or, placed_extract_same, placed_extract_outside, BitVec.or_zero,
    BitVec.zero_or, BitVec.toNat_ofNat, Nat.mod_eq_of_lt, true_and]

theorem lastFlagsWord_fields (r : Report) :
    (lastFlagsWord (some r)).getLsbD 0 = r.hv ∧ (lastFlagsWord (some r)).getLsbD 1 = r.pv ∧
    (lastFlagsWord (some r)).getLsbD 2 = r.idm ∧ (lastFlagsWord (some r)).getLsbD 3 = r.delivered ∧
    (lastFlagsWord (some r)).getLsbD 4 = r.lenErr ∧ (lastFlagsWord (some r)).extractLsb' 5 26 = 0#26 ∧
    (lastFlagsWord (some r)).getLsbD 31 = true := by
  simp (disch := omega) [-BitVec.getLsbD_eq_getElem, lastFlagsWord, flagAt_getLsbD, BitVec.extractLsb'_or,
    flagAt_extract_outside]

theorem rxqFlagsWord_fields (r : Record) :
    (rxqFlagsWord (some r)).getLsbD 0 = r.hv ∧ (rxqFlagsWord (some r)).extractLsb' 1 30 = 0#30 ∧
    (rxqFlagsWord (some r)).getLsbD 31 = true := by
  simp (disch := omega) [-BitVec.getLsbD_eq_getElem, rxqFlagsWord, flagAt_getLsbD, BitVec.extractLsb'_or,
    flagAt_extract_outside]

/-- PARAM_MISC as its three fields and its flag at their places. -/
theorem paramMiscWord_eq (p : Params) : paramMiscWord p =
    (field 8 p.sps).setWidth 32 <<< 0 ||| (BitVec.ofNat 8 (min p.rxqDepth 255)).setWidth 32 <<< 8 |||
      (field 13 p.maxPayloadHw).setWidth 32 <<< 16 ||| flagAt p.hasDump 29 := by
  rw [paramMiscWord, BitVec.shiftLeft_zero, ofNat_eq_setWidth (w := 8) (by omega) (by omega)]

theorem paramMiscWord_fields {p : Params} (hsps : p.sps < 256) (hmax : p.maxPayloadHw ≤ 4096) :
    ((paramMiscWord p).extractLsb' 0 8).toNat = p.sps ∧
    ((paramMiscWord p).extractLsb' 8 8).toNat = min p.rxqDepth 255 ∧
    ((paramMiscWord p).extractLsb' 16 13).toNat = p.maxPayloadHw ∧ (paramMiscWord p).getLsbD 29 = p.hasDump ∧
    (paramMiscWord p).extractLsb' 30 2 = 0#2 := by
  rw [paramMiscWord_eq]
  simp (disch := omega) only [BitVec.extractLsb'_or, placed_extract_same, placed_extract_outside,
    flagAt_extract_outside, BitVec.or_zero, BitVec.zero_or, BitVec.toNat_ofNat, field_toNat, Nat.mod_eq_of_lt,
    BitVec.getLsbD_or, placed_getLsbD, flagAt_getLsbD, BitVec.getLsbD_of_ge, Bool.and_false, Bool.false_or,
    decide_true, Bool.and_true, and_self]

/-- Settles O14: the four reads, and each word's fields. -/
theorem composedRegisterReadsShowEveryField : Obligations.ComposedRegisterReadsShowEveryField := by
  unfold Obligations.ComposedRegisterReadsShowEveryField
  intro s
  obtain ⟨state, reserved, count⟩ := syncStatusWord_fields s.rx
  refine ⟨syncStatusWord s.rx, lastFlagsWord s.last, rxqFlagsWord s.rxq.head?,
    exec_memReadCsr_reg (r := .syncStatus) (by decide) s, exec_memReadCsr_reg (r := .lastFlags) (by decide) s,
    exec_memReadCsr_reg (r := .rxqFlags) (by decide) s, ⟨?_, reserved, count⟩, ?_, ?_, ?_, ?_, ?_⟩
  · rw [state]
    cases s.rx.sync <;> rfl
  · intro h
    rw [h]
    rfl
  · intro r h
    rw [h]
    exact lastFlagsWord_fields r
  · intro h
    rw [h]
    rfl
  · intro r rest h
    rw [h]
    exact rxqFlagsWord_fields r
  · intro hsps hmax
    exact ⟨paramMiscWord s.params, exec_memReadCsr_reg (r := .paramMisc) (by decide) s,
      paramMiscWord_fields hsps hmax⟩

end Sys2Proof.Machine
end

section
/-! The latch (10_state.md R62, 30_encoding.md R148). -/

namespace Sys2Proof.Machine

@[simp] theorem crcScheme_zero : crcScheme 0#4 = .none := rfl
@[simp] theorem crcScheme_one : crcScheme 1#4 = .crc32 := rfl
@[simp] theorem fecScheme_zero : fecScheme 0#4 = .none := rfl
@[simp] theorem fecScheme_one : fecScheme 1#4 = .hamming74 := rfl

theorem latch_crc (c : Cfg) : (latch c).crc = crcScheme (c.coding.extractLsb' 0 4) := rfl
theorem latch_fecIn (c : Cfg) : (latch c).fecIn = fecScheme (c.coding.extractLsb' 4 4) := rfl
theorem latch_fecOut (c : Cfg) : (latch c).fecOut = fecScheme (c.coding.extractLsb' 8 4) := rfl

/-- Settles O29: the copied fields, then each code's scheme. -/
theorem latchCopiesTheConfiguration : Obligations.LatchCopiesTheConfiguration := by
  unfold Obligations.LatchCopiesTheConfiguration
  intro c
  refine ⟨rfl, rfl, rfl, rfl, rfl, rfl, rfl, rfl, rfl, ?_⟩
  rw [latch_crc, latch_fecIn, latch_fecOut]
  refine ⟨?_, ?_, ?_, ?_, ?_, ?_⟩ <;>
  · intro h
    simp only [h, crcScheme_zero, crcScheme_one, fecScheme_zero, fecScheme_one]

end Sys2Proof.Machine
end

section
/-! Bus transactions (30_encoding.md R140, R152; 40_bus.md R183): each operation of the BUS and CMD rows is the access
its row stands for, and what a read and a failed access answer. -/

namespace Sys2Proof.Machine

/-- TX_COMMIT's argument, split by the dispatch into its reserved byte and its length. -/
theorem commitArg_rsvd (rsvd : BitVec 8) (len : BitVec 16) : (rsvd ++ len).extractLsb' 16 8 = rsvd := by
  ext i hi
  simp only [BitVec.getElem_extractLsb', BitVec.getLsbD_append, Nat.not_lt.2 (Nat.le_add_right 16 i), if_false,
    Nat.add_sub_cancel_left, BitVec.getLsbD_eq_getElem hi]

theorem commitArg_len (rsvd : BitVec 8) (len : BitVec 16) : (rsvd ++ len).extractLsb' 0 16 = len := by
  ext i hi
  simp only [BitVec.getElem_extractLsb', BitVec.getLsbD_append, Nat.zero_add, hi, if_true, BitVec.getLsbD_eq_getElem]

/-- A 4-byte write of {ARG, OPC} to CMD runs the dispatch on ARG and OPC. -/
theorem busWrite_cmd_append (arg : BitVec 24) (opc : BitVec 8) (s : State) :
    busWrite .word 0x010#14 (arg ++ opc) s = cmdWrite (runCommand opc arg) s := by
  rw [busWrite_cmd, execCmdWord, commandWord_opc, commandWord_arg]
  rfl

/-- A read row runs its transaction. -/
theorem exec_of_busReadOf {i : Instr} {size : AccessSize} {addr : BitVec 14} (h : busReadOf i = some (size, addr))
    (s : State) : exec i s = .next (busRead size addr s) := by
  cases i <;> cases h <;> rfl

/-- A write row runs its transaction; a command's row is the write of its word to CMD. -/
theorem exec_of_busWriteOf {i : Instr} {size : AccessSize} {addr : BitVec 14} {v : Word}
    (h : busWriteOf i = some (size, addr, v)) (s : State) : exec i s = .next (busWrite size addr v s) := by
  cases i <;> cases h
  case memWrite | memWriteIrqStatus | memWriteIrqEnable | memWriteCfg | memWriteRo | memWriteTxbuf => rfl
  case cmdTxCommit len rsvd =>
    have dispatch : runCommand 0x04#8 (rsvd ++ len) = withRsvd0 rsvd (txCommit len) := by
      funext s
      show withRsvd0 ((rsvd ++ len).extractLsb' 16 8) (txCommit ((rsvd ++ len).extractLsb' 0 16)) s = _
      rw [commitArg_rsvd, commitArg_len]
    rw [busWrite_cmd_append, dispatch]
    rfl
  all_goals
    rw [busWrite_cmd_append]
    rfl

/-- Every next state: that of a bus read, that of a bus write, or that of an operation that is no bus access. -/
theorem exec_next_cases {i : Instr} {s t : State} (h : exec i s = .next t) :
    (∃ size addr, busReadOf i = some (size, addr) ∧ t = busRead size addr s) ∨
    (∃ size addr v, busWriteOf i = some (size, addr, v) ∧ t = busWrite size addr v s) ∨
    (busReadOf i = none ∧ busWriteOf i = none) := by
  rcases hr : busReadOf i with _ | ⟨size, addr⟩
  · rcases hw : busWriteOf i with _ | ⟨size, addr, v⟩
    · exact .inr (.inr ⟨rfl, rfl⟩)
    · rw [exec_of_busWriteOf hw] at h
      cases h
      exact .inr (.inl ⟨size, addr, v, rfl, rfl⟩)
  · rw [exec_of_busReadOf hr] at h
    cases h
    exact .inl ⟨size, addr, rfl, rfl⟩

/-- No value a read returns depends on the response of an earlier access. -/
theorem readTarget_respond (w : Word) (e : Bool) (s : State) (n : Nat) (target : Target) :
    readTarget (respond w e s) n target = readTarget s n target := by
  cases target with
  | reg r => cases r <;> rfl
  | txbuf a => rfl
  | rxbuf o => rfl

/-- A read that passes its checks, done again in the state it answers, answers that state. -/
theorem busRead_again {size : AccessSize} {addr : BitVec 14} {s : State} {n : Nat} {target : Target}
    (hok : checkAddr s.params size addr.toNat = .ok (n, target)) :
    busRead size addr (busRead size addr s) = busRead size addr s := by
  have first : busRead size addr s = respond (readTarget s n target) false s := by
    simp only [busRead, hok]
  rw [first]
  simp only [busRead, respond_params, hok, readTarget_respond]
  rfl

/-- Settles O17: a read that answers SLVERR 0 has passed its checks, and then it sets the response alone. -/
theorem readsHaveNoSideEffect : Obligations.ReadsHaveNoSideEffect := by
  unfold Obligations.ReadsHaveNoSideEffect
  intro i size addr s t hi h hok
  rw [exec_of_busReadOf hi] at h ⊢
  cases h
  rcases hc : checkAddr s.params size addr.toNat with code | ⟨n, target⟩
  · simp [busRead, hc, failAccess] at hok
  · refine ⟨?_, congrArg _ (busRead_again hc)⟩
    simp only [busRead, hc]
    rfl

/-- A bus write that answers SLVERR 1 failed one of its checks: a command and a store answer SLVERR 0. -/
theorem busWrite_of_slverr {size : AccessSize} {addr : BitVec 14} {v : Word} {s : State}
    (h : (busWrite size addr v s).out.slverr = true) : ∃ code, busWrite size addr v s = failAccess code s := by
  rcases busWrite_cases size addr v s with failed | ⟨-, -, command⟩ | ⟨u, -, stored⟩
  · exact failed
  · simp [command] at h
  · simp [stored] at h

/-- A bus read that answers SLVERR 1 failed one of its checks. -/
theorem busRead_of_slverr {size : AccessSize} {addr : BitVec 14} {s : State}
    (h : (busRead size addr s).out.slverr = true) : ∃ code, busRead size addr s = failAccess code s := by
  rcases busRead_cases size addr s with failed | ⟨v, read⟩
  · exact failed
  · simp [read] at h

/-- Settles O24: the failing outcome of a read and of a write is `failAccess`. -/
theorem failedAccessOnlyRecordsItsError : Obligations.FailedAccessOnlyRecordsItsError := by
  unfold Obligations.FailedAccessOnlyRecordsItsError
  intro i s t hi h herr
  have failed : ∃ code, t = failAccess code s := by
    rcases exec_next_cases h with ⟨size, addr, -, rfl⟩ | ⟨size, addr, v, -, rfl⟩ | ⟨hr, hw⟩
    · exact busRead_of_slverr herr
    · exact busWrite_of_slverr herr
    · simp [hr, hw] at hi
  obtain ⟨code, rfl⟩ := failed
  exact ⟨code, rfl⟩

end Sys2Proof.Machine
end

section
/-! The checks of an access in their order (20_memory.md R106, R108, R111; 30_encoding.md R152): what the checks of the
address answer, what a write's own checks answer, and what every access makes of the two. -/

namespace Sys2Proof.Machine

/-- What an address that passes its checks is of: a listed register in the CSR page, or its own byte of a window. -/
inductive TargetOf (a : Nat) : Target → Prop
  | reg (r : Reg) (listed : regAt a = some r) (csr : a < 0x1000) : TargetOf a (.reg r)
  | txbuf (lo : 0x1000 ≤ a) (hi : a < 0x2000) : TargetOf a (.txbuf a)
  | rxbuf (lo : 0x2000 ≤ a) : TargetOf a (.rxbuf (a - 0x2000))

section AddressChecks

variable {p : Params} {size : AccessSize} {a n : Nat}

theorem checkAddr_reserved (p : Params) (a : Nat) : checkAddr p .reserved a = .error .busWidth := rfl

theorem checkAddr_unreached (hs : sizeBytes size = some n) (hr : ¬ Reaches p a n) :
    checkAddr p size a = .error .busAddr := by
  have unlisted : ¬ addrListed p a n = true := mt (addrListed_iff p a n).1 hr
  simp [checkAddr, hs, unlisted]

theorem checkAddr_misaligned (hs : sizeBytes size = some n) (hr : Reaches p a n) (hal : a % n ≠ 0) :
    checkAddr p size a = .error .busAlign := by
  simp [checkAddr, hs, (addrListed_iff p a n).2 hr, hal]

theorem checkAddr_narrow (hs : sizeBytes size = some n) (hr : Reaches p a n) (hal : a % n = 0) (hcsr : a < 0x1000)
    (hn : n ≠ 4) : checkAddr p size a = .error .busWidth := by
  simp [checkAddr, hs, (addrListed_iff p a n).2 hr, hal, csrEnd, hcsr, hn]

/-- A multiple of 4 below the windows whose bytes may be reached is a listed register's offset. -/
theorem regAt_of_reaches (hr : Reaches p a 4) (hal : a % 4 = 0) (hcsr : a < 0x1000) : ∃ r, regAt a = some r := by
  rcases hr with listed | ⟨lo, -⟩ | ⟨lo, -⟩
  · obtain ⟨e, he, lo, hi⟩ := listed a (le_refl a) (by omega)
    obtain ⟨aligned, -⟩ := regTable_offsets e he
    have same : e.1 = a := by omega
    exact ⟨e.2, same ▸ regAt_of_mem e he⟩
  · omega
  · omega

/-- The target of an address at which an access can pass its checks. -/
theorem targetAt_of_reaches (hr : Reaches p a n) (hal : a % n = 0) (hn : a < 0x1000 → n = 4) :
    ∃ target, targetAt a = some target ∧ TargetOf a target := by
  rcases Nat.lt_or_ge a 0x1000 with csr | window
  · obtain rfl := hn csr
    obtain ⟨r, listed⟩ := regAt_of_reaches hr hal csr
    exact ⟨.reg r, by simp [targetAt, csrEnd, csr, listed], .reg r listed csr⟩
  · rcases Nat.lt_or_ge a 0x2000 with tx | rx
    · exact ⟨.txbuf a, by simp [targetAt, csrEnd, rxbufBase, window.not_gt, tx], .txbuf window tx⟩
    · refine ⟨.rxbuf (a - 0x2000), ?_, .rxbuf rx⟩
      simp [targetAt, csrEnd, rxbufBase, window.not_gt, rx.not_gt]

/-- Where an access goes that passes the checks of its address. -/
theorem checkAddr_passes (hs : sizeBytes size = some n) (hr : Reaches p a n) (hal : a % n = 0)
    (hn : a < 0x1000 → n = 4) : ∃ target, checkAddr p size a = .ok (n, target) ∧ TargetOf a target := by
  obtain ⟨target, ht, of⟩ := targetAt_of_reaches hr hal hn
  refine ⟨target, ?_, of⟩
  have wide : ¬ (a < csrEnd ∧ n ≠ 4) := fun ⟨csr, narrow⟩ => narrow (hn csr)
  simp [checkAddr, hs, (addrListed_iff p a n).2 hr, hal, wide, ht]

end AddressChecks

/-! A write's own checks. -/

/-- The kinds of the registers by their offsets (10_state.md R22). -/
theorem regAccess_ro_iff : ∀ e ∈ regTable,
    regAccess e.2 = .ro ↔ e.1 ∉ [0x010, 0x01C, 0x020] ∧ ¬ (0x040 ≤ e.1 ∧ e.1 ≤ 0x064) := by decide

theorem regAccess_rwIdle_iff : ∀ e ∈ regTable, regAccess e.2 = .rwIdle ↔ 0x040 ≤ e.1 ∧ e.1 ≤ 0x064 := by decide

section WriteChecks

variable {s : State} {a : Nat} {target : Target}

/-- RXBUF and every register but CMD, the two interrupt registers and the CFG registers are read-only. -/
theorem checkWrite_readOnly (h : TargetOf a target)
    (ha : 0x2000 ≤ a ∨ (a < 0x1000 ∧ a ∉ [0x010, 0x01C, 0x020] ∧ ¬ (0x040 ≤ a ∧ a ≤ 0x064))) :
    checkWrite s target = some .busRo := by
  cases h with
  | reg r listed csr =>
    have ro : regAccess r = .ro := (regAccess_ro_iff _ (regAt_some listed)).2 (ha.resolve_left (by omega)).2
    simp only [checkWrite, ro]
  | txbuf lo hi => omega
  | rxbuf lo => rfl

theorem checkWrite_cfg (h : TargetOf a target) (ha : 0x040 ≤ a ∧ a ≤ 0x064) :
    checkWrite s target = if s.core ≠ .idle then some .cfgLocked else none := by
  cases h with
  | reg r listed csr =>
    have rwIdle : regAccess r = .rwIdle := (regAccess_rwIdle_iff _ (regAt_some listed)).2 ha
    simp only [checkWrite, rwIdle]
  | txbuf lo hi => omega
  | rxbuf lo => omega

theorem checkWrite_txbuf (h : TargetOf a target) (ha : 0x1000 ≤ a ∧ a < 0x2000) :
    checkWrite s target = if s.pendLen ≠ 0 then some .txbufBusy else none := by
  cases h with
  | reg r listed csr => omega
  | txbuf lo hi => rfl
  | rxbuf lo => omega

/-- A write to CMD or to an interrupt register passes in every state. -/
theorem checkWrite_control (h : TargetOf a target) (ha : a ∈ [0x010, 0x01C, 0x020]) : checkWrite s target = none := by
  have low : a ≤ 0x020 := by
    simp only [List.mem_cons, List.not_mem_nil, or_false] at ha
    omega
  cases h with
  | reg r listed csr =>
    have notRo : regAccess r ≠ .ro := fun ro => ((regAccess_ro_iff _ (regAt_some listed)).1 ro).1 ha
    have notCfg : regAccess r ≠ .rwIdle := fun rwIdle => by
      obtain ⟨lo, -⟩ := (regAccess_rwIdle_iff _ (regAt_some listed)).1 rwIdle
      exact absurd lo (by simp only; omega)
    cases access : regAccess r with
    | ro => exact absurd access notRo
    | rwIdle => exact absurd access notCfg
    | wo | rw | w1c => simp only [checkWrite, access]
  | txbuf lo hi => omega
  | rxbuf lo => omega

/-- A write passes its own checks at a writable place that is not locked. -/
theorem checkWrite_passes (h : TargetOf a target)
    (ha : a ∈ [0x010, 0x01C, 0x020] ∨ (0x040 ≤ a ∧ a ≤ 0x064 ∧ s.core = .idle) ∨
      (0x1000 ≤ a ∧ a < 0x2000 ∧ s.pendLen = 0)) : checkWrite s target = none := by
  rcases ha with control | ⟨lo, hi, idle⟩ | ⟨lo, hi, free⟩
  · exact checkWrite_control h control
  · rw [checkWrite_cfg h ⟨lo, hi⟩, if_neg (not_not.2 idle)]
  · rw [checkWrite_txbuf h ⟨lo, hi⟩, if_neg (not_not.2 free)]

end WriteChecks

/-! What an access makes of its checks. -/

section Access

variable {i : Instr} {s : State} {size : AccessSize} {addr : BitVec 14} {v : Word} {n : Nat} {target : Target}
  {code : ErrCode}

/-- An access of either kind that fails a check of its address. -/
theorem exec_of_checkAddr_error
    (hi : busReadOf i = some (size, addr) ∨ ∃ v, busWriteOf i = some (size, addr, v))
    (hc : checkAddr s.params size addr.toNat = .error code) : exec i s = .next (failAccess code s) := by
  rcases hi with read | ⟨v, write⟩
  · rw [exec_of_busReadOf read, busRead, hc]
  · rw [exec_of_busWriteOf write, busWrite, hc]

theorem exec_read_passes (hi : busReadOf i = some (size, addr))
    (hc : checkAddr s.params size addr.toNat = .ok (n, target)) :
    ∃ t, exec i s = .next t ∧ t.out.slverr = false := by
  rw [exec_of_busReadOf hi, busRead, hc]
  exact ⟨_, rfl, rfl⟩

theorem exec_write_refused (hi : busWriteOf i = some (size, addr, v))
    (hc : checkAddr s.params size addr.toNat = .ok (n, target)) (hw : checkWrite s target = some code) :
    exec i s = .next (failAccess code s) := by
  rw [exec_of_busWriteOf hi, busWrite, hc]
  simp only [hw]

theorem exec_write_passes (hi : busWriteOf i = some (size, addr, v))
    (hc : checkAddr s.params size addr.toNat = .ok (n, target)) (hw : checkWrite s target = none) :
    ∃ t, exec i s = .next t ∧ t.out.slverr = false := by
  rw [exec_of_busWriteOf hi, busWrite, hc]
  simp only [hw]
  exact ⟨_, rfl, rfl⟩

end Access

/-- Settles O23, clause by clause in the order of the checks. -/
theorem accessChecksRunInOrder : Obligations.AccessChecksRunInOrder := by
  unfold Obligations.AccessChecksRunInOrder
  intro i s size addr hi a fails
  constructor
  · rintro rfl
    exact exec_of_checkAddr_error hi (checkAddr_reserved _ _)
  intro n hs
  refine ⟨fun unreached => ?_, fun hr misaligned => ?_, fun hr hal csr narrow => ?_, fun hr hal hn => ?_⟩
  · exact exec_of_checkAddr_error hi (checkAddr_unreached hs unreached)
  · exact exec_of_checkAddr_error hi (checkAddr_misaligned hs hr misaligned)
  · exact exec_of_checkAddr_error hi (checkAddr_narrow hs hr hal csr narrow)
  obtain ⟨target, hc, of⟩ := checkAddr_passes hs hr hal hn
  refine ⟨fun read => exec_read_passes read hc, fun v write => ?_⟩
  refine ⟨fun readOnly => ?_, fun cfg running => ?_, fun window pending => ?_, fun writable => ?_⟩
  · exact exec_write_refused write hc (checkWrite_readOnly of readOnly)
  · exact exec_write_refused write hc ((checkWrite_cfg of cfg).trans (if_pos running))
  · exact exec_write_refused write hc ((checkWrite_txbuf of window).trans (if_pos pending))
  · exact exec_write_passes write hc (checkWrite_passes of writable)

end Sys2Proof.Machine
end

section
/-! What an operation leaves alone: TXBUF's bytes (20_memory.md R109, R113) and a running transfer's configuration
(20_memory.md R125, 10_state.md R44). The port and the engines leave both alone. -/

namespace Sys2Proof.Machine

/-- From s to t no byte of TXBUF is written and none is drawn anew. -/
structure TxbufKept (s t : State) : Prop where
  txbuf : t.txbuf = s.txbuf
  draws : t.draws = s.draws

/-- From s to t the transfer goes on or ends, under the same CFG registers and latched configuration. -/
structure TransferKept (s t : State) : Prop where
  core : t.core = s.core ∨ t.core = .idle
  lcfg : t.lcfg = s.lcfg
  cfg : t.cfg = s.cfg

/-- From s to t both TXBUF and the transfer are left alone. -/
structure TxbufAndTransferKept (s t : State) : Prop extends TxbufKept s t, TransferKept s t

theorem TxbufKept.sameTxbuf {s t : State} (h : TxbufKept s t) : SameTxbuf s t := by
  intro a
  rw [txByte, txByte, h.txbuf, h.draws]

theorem TxbufKept.refl (s : State) : TxbufKept s s := ⟨rfl, rfl⟩

theorem TxbufKept.respond {s t : State} (h : TxbufKept s t) (w : Word) (e : Bool) : TxbufKept s (respond w e t) :=
  ⟨h.txbuf, h.draws⟩

theorem TransferKept.refl (s : State) : TransferKept s s := ⟨.inl rfl, rfl, rfl⟩

theorem TransferKept.respond {s t : State} (h : TransferKept s t) (w : Word) (e : Bool) :
    TransferKept s (respond w e t) := ⟨h.core, h.lcfg, h.cfg⟩

namespace TxbufAndTransferKept

theorem refl (s : State) : TxbufAndTransferKept s s := ⟨.refl s, .refl s⟩

theorem trans {s t u : State} (h : TxbufAndTransferKept s t) (k : TxbufAndTransferKept t u) :
    TxbufAndTransferKept s u where
  txbuf := k.txbuf.trans h.txbuf
  draws := k.draws.trans h.draws
  core := by
    rcases k.core with same | idle
    · exact same ▸ h.core
    · exact .inr idle
  lcfg := k.lcfg.trans h.lcfg
  cfg := k.cfg.trans h.cfg

/-- What changes neither TXBUF, nor STATE, nor a configuration. -/
theorem of_eq {s t : State} (txbuf : t.txbuf = s.txbuf) (draws : t.draws = s.draws) (core : t.core = s.core)
    (lcfg : t.lcfg = s.lcfg) (cfg : t.cfg = s.cfg) : TxbufAndTransferKept s t :=
  ⟨⟨txbuf, draws⟩, ⟨.inl core, lcfg, cfg⟩⟩

theorem raiseError (code : ErrCode) (s : State) : TxbufAndTransferKept s (raiseError code s) :=
  of_eq rfl rfl rfl rfl rfl

theorem failAccess (code : ErrCode) (s : State) : TxbufAndTransferKept s (failAccess code s) :=
  of_eq rfl rfl rfl rfl rfl

theorem busRead (size : AccessSize) (addr : BitVec 14) (s : State) : TxbufAndTransferKept s (busRead size addr s) := by
  rcases busRead_cases size addr s with ⟨code, h⟩ | ⟨v, h⟩
  · exact h ▸ failAccess code s
  · exact h ▸ of_eq rfl rfl rfl rfl rfl

theorem requestStop (r : StopReq) (s : State) : TxbufAndTransferKept s (requestStop r s) := by
  obtain ⟨stop, h, -⟩ := requestStop_frame r s
  rw [h]
  exact of_eq rfl rfl rfl rfl rfl

theorem popBlock (n : Nat) (s : State) : TxbufAndTransferKept s (popBlock n s) := by
  obtain ⟨fifo, stats, irqStatus, burstEnd, more, out, h, -, -⟩ := popBlock_frame n s
  rw [h]
  exact of_eq rfl rfl rfl rfl rfl

theorem pushBlock (ws : List Word) (s : State) : TxbufAndTransferKept s (pushBlock ws s) := by
  obtain ⟨more, stats, idle, stop, irqStatus, out, h, -, -, -, -⟩ := pushBlock_frame ws s
  rw [h]
  exact of_eq rfl rfl rfl rfl rfl

theorem radioFault (s : State) : TxbufAndTransferKept s (radioFault s) := by
  unfold Machine.radioFault
  split
  · exact refl s
  · exact (raiseError .radioFault s).trans (requestStop .radioFault _)

/-- The engine's stop ends the transfer. -/
theorem engineStop (s : State) : TxbufAndTransferKept s (engineStop s) := ⟨⟨rfl, rfl⟩, ⟨.inr rfl, rfl, rfl⟩⟩

/-- A drain ends the transfer where it hands over the final flush. -/
theorem drain (s : State) : TxbufAndTransferKept s (drain s) := by
  rcases drain_cases s with ⟨h, -⟩ | ⟨-, frameCnt, irqStatus, core, stopReason, h, last, notLast, -⟩
  · rw [h]
    exact of_eq rfl rfl rfl rfl rfl
  · rw [h]
    refine ⟨⟨rfl, rfl⟩, ⟨?_, rfl, rfl⟩⟩
    cases final : s.tx.outFinal with
    | true => exact .inr (last final).1
    | false => exact .inl (notLast final).1

theorem startFrame (s : State) : TxbufAndTransferKept s (startFrame s) := of_eq rfl rfl rfl rfl rfl

theorem frameBlock (syms : List Bool) (s : State) : TxbufAndTransferKept s (frameBlock syms s) := by
  obtain ⟨more, words, pipe, ys, frameEnd, modem, h⟩ := frameBlock_frame syms s
  rw [h]
  exact of_eq rfl rfl rfl rfl rfl

theorem silenceBlock (s : State) : TxbufAndTransferKept s (silenceBlock s) := by
  obtain ⟨more, words, pipe, ys, h⟩ := silenceBlock_frame s
  rw [h]
  exact of_eq rfl rfl rfl rfl rfl

theorem finalFlush (s : State) : TxbufAndTransferKept s (finalFlush s) := by
  obtain ⟨more, words, pipe, ys, h⟩ := finalFlush_frame s
  rw [h]
  exact of_eq rfl rfl rfl rfl rfl

theorem produce {s t : State} (h : produce s = .next t) : TxbufAndTransferKept s t := by
  unfold Machine.produce at h
  split at h
  · cases h
    exact frameBlock _ s
  · split at h
    · cases h
      exact (startFrame s).trans (frameBlock _ _)
    · split at h
      · cases h
        exact silenceBlock s
      · cases h
        exact finalFlush s
  · cases h

theorem execTxStep {s t : State} (h : execTxStep s = .next t) : TxbufAndTransferKept s t := by
  unfold Machine.execTxStep at h
  split at h
  · cases h
    exact refl s
  · split at h
    · cases h
      exact engineStop s
    · split at h
      · cases h
        exact drain s
      · exact produce h

theorem receiveSample (e : Tagged) (s : State) : TxbufAndTransferKept s (receiveSample e s) := by
  obtain ⟨more, words, pipe, rx, rxq, last, stats, idle, irqStatus, h⟩ := receiveSample_frame e s
  rw [h]
  exact of_eq rfl rfl rfl rfl rfl

theorem execRxStep {s t : State} (h : execRxStep s = .next t) : TxbufAndTransferKept s t := by
  unfold Machine.execRxStep at h
  split at h
  · cases h
    exact refl s
  · split at h
    · cases h
      exact engineStop s
    · split at h
      · cases h
        exact refl s
      · cases h
        exact receiveSample _ s

/-- An operation that is no bus access: the radio port, the pins and the engines' own steps. -/
theorem exec_notBus {i : Instr} {s t : State} (hr : busReadOf i = none) (hw : busWriteOf i = none)
    (h : exec i s = .next t) : TxbufAndTransferKept s t := by
  cases i
  case radioPop n =>
    simp only [exec, execRadioPop] at h
    split at h <;> cases h
    exact popBlock n s
  case radioPush ws =>
    simp only [exec, execRadioPush] at h
    split at h <;> cases h
    exact pushBlock ws s
  case radioFault =>
    cases h
    exact radioFault s
  case pinStopAll level =>
    cases h
    exact of_eq rfl rfl rfl rfl rfl
  case txStep => exact execTxStep h
  case rxStep => exact execRxStep h
  case memRead | memReadCsr | memReadTxbuf | memReadRxbuf => cases hr
  all_goals cases hw

end TxbufAndTransferKept

/-! TXBUF under a bus write. -/

theorem startTx_txbufKept (s : State) : TxbufKept s (startTx s) := by
  unfold startTx
  split
  · exact ⟨rfl, rfl⟩
  · split <;> exact ⟨rfl, rfl⟩

theorem startRx_txbufKept (s : State) : TxbufKept s (startRx s) := by
  unfold startRx
  split
  · exact ⟨rfl, rfl⟩
  · split <;> exact ⟨rfl, rfl⟩

theorem txCommit_txbufKept (len : BitVec 16) (s : State) : TxbufKept s (txCommit len s) := by
  unfold txCommit
  split
  · exact ⟨rfl, rfl⟩
  · split
    · exact ⟨rfl, rfl⟩
    · split <;> exact ⟨rfl, rfl⟩

theorem txEos_txbufKept (s : State) : TxbufKept s (txEos s) := by
  unfold txEos
  split <;> exact ⟨rfl, rfl⟩

theorem rxqPop_txbufKept (s : State) : TxbufKept s (rxqPop s) := by
  unfold rxqPop
  split <;> exact ⟨rfl, rfl⟩

theorem withArg0_txbufKept {run : State → State} {arg : BitVec 24} {s : State}
    (h : arg = 0#24 → TxbufKept s (run s)) : TxbufKept s (withArg0 arg run s) := by
  unfold withArg0
  split
  · exact ⟨rfl, rfl⟩
  · rename_i harg
    exact h (not_not.1 harg)

theorem withRsvd0_txbufKept {run : State → State} {s : State} (h : TxbufKept s (run s)) (rsvd : BitVec 8) :
    TxbufKept s (withRsvd0 rsvd run s) := by
  unfold withRsvd0
  split
  · exact ⟨rfl, rfl⟩
  · exact h

/-- Every command but SOFT_RESET leaves TXBUF alone; SOFT_RESET with a nonzero argument is refused. -/
theorem runCommand_txbufKept {opc : BitVec 8} {arg : BitVec 24} (notReset : ¬ (opc = 0x09#8 ∧ arg = 0#24))
    (s : State) : TxbufKept s (runCommand opc arg s) := by
  unfold runCommand
  repeat' split
  · exact withArg0_txbufKept fun _ => ⟨rfl, rfl⟩
  · exact withArg0_txbufKept fun _ => startTx_txbufKept s
  · exact withArg0_txbufKept fun _ => startRx_txbufKept s
  · exact withArg0_txbufKept fun _ => (TxbufAndTransferKept.requestStop .hostStop s).toTxbufKept
  · exact withRsvd0_txbufKept (txCommit_txbufKept _ s) _
  · exact withArg0_txbufKept fun _ => txEos_txbufKept s
  · exact withArg0_txbufKept fun _ => rxqPop_txbufKept s
  · exact withArg0_txbufKept fun _ => ⟨rfl, rfl⟩
  · exact withArg0_txbufKept fun _ => ⟨rfl, rfl⟩
  · exact withArg0_txbufKept fun harg => absurd ⟨‹opc = 0x09#8›, harg⟩ notReset
  · exact ⟨rfl, rfl⟩

/-- A command word is its argument beside its opcode. -/
theorem commandWord_eq {w : Word} {opc : BitVec 8} {arg : BitVec 24} (hopc : w.extractLsb' 0 8 = opc)
    (harg : w.extractLsb' 8 24 = arg) : w = arg ++ opc := by
  subst hopc harg
  calc w = w.extractLsb' 0 32 := BitVec.extractLsb'_eq_self.symm
    _ = w.extractLsb' 8 24 ++ w.extractLsb' 0 8 :=
      (BitVec.extractLsb'_append_extractLsb'_eq_extractLsb' (len₁ := 8) (len₂ := 24) rfl).symm

/-- The one offset of CMD. -/
theorem eq_cmd_of_regAt {addr : BitVec 14} (h : regAt addr.toNat = some .cmd) : addr = 0x010#14 := by
  have cmd_offset : ∀ e ∈ regTable, e.2 = .cmd → e.1 = 0x010 := by decide
  exact BitVec.eq_of_toNat_eq (cmd_offset _ (regAt_some h) rfl)

/-- A bus write outside TXBUF's page leaves TXBUF alone, but for the word of SOFT_RESET to CMD. -/
theorem busWrite_txbufKept {size : AccessSize} {addr : BitVec 14} {v : Word}
    (outside : ¬ (0x1000 ≤ addr.toNat ∧ addr.toNat < 0x2000)) (notReset : ¬ (addr = 0x010#14 ∧ v = 0x09#32))
    (s : State) : TxbufKept s (busWrite size addr v s) := by
  unfold busWrite
  split
  · exact (TxbufAndTransferKept.failAccess _ s).toTxbufKept
  · rename_i n target hok
    split
    · exact (TxbufAndTransferKept.failAccess _ s).toTxbufKept
    · refine TxbufKept.respond ?_ _ _
      obtain ⟨-, -, ⟨r, rfl, hr, -, -⟩ | ⟨rfl, lo, hi, -⟩ | ⟨rfl, -⟩⟩ := checkAddr_ok hok
      · cases r
        case cmd =>
          refine runCommand_txbufKept (fun ⟨hopc, harg⟩ => notReset ⟨eq_cmd_of_regAt hr, ?_⟩) s
          exact commandWord_eq hopc harg
        all_goals exact ⟨rfl, rfl⟩
      · exact absurd ⟨lo, hi⟩ outside
      · exact .refl s

/-- Settles O25: by the kind of access the operation is. -/
theorem onlyTxbufWritesAndResetChangeTxbuf : Obligations.OnlyTxbufWritesAndResetChangeTxbuf := by
  unfold Obligations.OnlyTxbufWritesAndResetChangeTxbuf
  intro i s t h allowed
  rcases exec_next_cases h with ⟨size, addr, -, rfl⟩ | ⟨size, addr, v, hw, rfl⟩ | ⟨hr, hw⟩
  · exact (TxbufAndTransferKept.busRead size addr s).sameTxbuf
  · obtain ⟨outside, notReset⟩ := allowed size addr v hw
    exact (busWrite_txbufKept outside notReset s).sameTxbuf
  · exact (TxbufAndTransferKept.exec_notBus hr hw h).sameTxbuf

/-! The transfer under a bus write. -/

/-- Outside IDLE no accepted store writes a configuration. -/
theorem StoreEffect.transferKept {s t : State} (running : s.core ≠ .idle) (h : StoreEffect s t) :
    TransferKept s t := by
  cases h with
  | irqStatus | irqEnable | txbuf => exact ⟨.inl rfl, rfl, rfl⟩
  | cfg r v idle => exact absurd idle running

/-- Outside IDLE a command starts nothing, and only SOFT_RESET writes a configuration. -/
theorem CommandEffect.transferKept_or_reset {s t : State} (running : s.core ≠ .idle) (h : CommandEffect s t) :
    TransferKept s t ∨ t = Machine.softReset s := by
  cases h with
  | startTx idle | startRx idle => exact absurd idle running
  | softReset => exact .inr rfl
  | nothing | error | stop | commit | eos | rxqPop | clearStats | clearErr => exact .inl ⟨.inl rfl, rfl, rfl⟩

/-- SOFT_RESET, answered by its response, leaves every element at the value R520 lists. -/
theorem atReset_respond_softReset (w : Word) (e : Bool) (s : State) : AtReset (respond w e (softReset s)) :=
  ⟨rfl, ⟨rfl, rfl⟩, rfl, fun _ => rfl, ⟨rfl, rfl⟩, ⟨rfl, rfl⟩, ⟨rfl, rfl, rfl, rfl, rfl, rfl⟩,
    ⟨rfl, rfl, rfl, rfl, rfl, rfl, rfl⟩, ⟨rfl, rfl⟩, rfl, rfl, ⟨rfl, rfl, rfl⟩, rfl⟩

theorem busWrite_transferKept_or_atReset (size : AccessSize) (addr : BitVec 14) (v : Word) {s : State}
    (running : s.core ≠ .idle) :
    TransferKept s (busWrite size addr v s) ∨ AtReset (busWrite size addr v s) := by
  rcases busWrite_cases size addr v s with ⟨code, h⟩ | ⟨-, -, h⟩ | ⟨u, stored, h⟩ <;> rw [h]
  · exact .inl (TxbufAndTransferKept.failAccess code s).toTransferKept
  · rcases (runCommand_cases _ _ s).transferKept_or_reset running with kept | reset
    · exact .inl (kept.respond _ _)
    · refine .inr ?_
      rw [execCmdWord, reset]
      exact atReset_respond_softReset _ _ s
  · exact .inl ((stored.transferKept running).respond _ _)

/-- Outside IDLE every operation leaves the transfer's configuration alone or resets the block. -/
theorem exec_transferKept_or_atReset {i : Instr} {s t : State} (running : s.core ≠ .idle)
    (h : exec i s = .next t) : TransferKept s t ∨ AtReset t := by
  rcases exec_next_cases h with ⟨size, addr, -, rfl⟩ | ⟨size, addr, v, -, rfl⟩ | ⟨hr, hw⟩
  · exact .inl (TxbufAndTransferKept.busRead size addr s).toTransferKept
  · exact busWrite_transferKept_or_atReset size addr v running
  · exact .inl (TxbufAndTransferKept.exec_notBus hr hw h).toTransferKept

/-- Settles O59: the step's operation runs in a state with the same transfer, whatever the schedule holds. -/
theorem configurationIsFrozenDuringATransfer : Obligations.ConfigurationIsFrozenDuringATransfer := by
  unfold Obligations.ConfigurationIsFrozenDuringATransfer
  intro s t running h
  have outcome : TransferKept s t ∨ AtReset t := by
    rcases step_cases h with rfl | ⟨i, hx | ⟨w, rest, -, -, hx⟩⟩
    · exact .inl (.refl _)
    · exact exec_transferKept_or_atReset running hx
    · exact (exec_transferKept_or_atReset (s := { s with pending := rest }) running hx).imp_left
        fun ⟨core, lcfg, cfg⟩ => ⟨core, lcfg, cfg⟩
  rcases outcome with ⟨same | idle, lcfg, cfg⟩ | reset
  · exact .inl ⟨same, lcfg, cfg⟩
  · exact .inr (.inl ⟨idle, lcfg, cfg⟩)
  · exact .inr (.inr reset)

end Sys2Proof.Machine
end

section
/-! Decode and encode (30_encoding.md R140, R141, R145, R152): the encoder sends a BUS or CMD row as the one access
`busReadOf` or `busWriteOf` gives it, and the decoder of reads or of writes takes that access back to the row. Both
directions, an operation's encoding and a descriptor's decoding, go through these two. -/

namespace Sys2Proof.Machine

/-! The encoder. -/

/-- The encoding of a read row is its access, with WDATA 0. -/
theorem encode_of_busReadOf {i : Instr} {size : AccessSize} {addr : BitVec 14} (h : busReadOf i = some (size, addr)) :
    encode i = busWire (packTxn false size addr 0#32) := by
  cases i <;> cases h <;> rfl

/-- The encoding of a write or command row is its access. -/
theorem encode_of_busWriteOf {i : Instr} {size : AccessSize} {addr : BitVec 14} {v : Word}
    (h : busWriteOf i = some (size, addr, v)) : encode i = busWire (packTxn true size addr v) := by
  cases i <;> cases h <;> rfl

/-! Fields of words and addresses that were cut and are put together again. -/

/-- TX_COMMIT's length, read from the whole command word. -/
theorem commandWord_len (rsvd : BitVec 8) (len : BitVec 16) (opc : BitVec 8) :
    ((rsvd ++ len) ++ opc).extractLsb' 8 16 = len := by
  rw [BitVec.extractLsb'_append_eq_of_le (by omega)]
  exact BitVec.extractLsb'_append_eq_right

/-- TX_COMMIT's reserved byte, read from the whole command word. -/
theorem commandWord_rsvd (rsvd : BitVec 8) (len : BitVec 16) (opc : BitVec 8) :
    ((rsvd ++ len) ++ opc).extractLsb' 24 8 = rsvd := by
  rw [BitVec.extractLsb'_append_eq_of_le (by omega)]
  exact BitVec.extractLsb'_append_eq_left

/-- A command word's argument is TX_COMMIT's reserved byte beside its length. -/
theorem commitArg_eq (w : Word) : w.extractLsb' 24 8 ++ w.extractLsb' 8 16 = w.extractLsb' 8 24 :=
  BitVec.extractLsb'_append_extractLsb'_eq_extractLsb' (len₁ := 16) (len₂ := 8) rfl

/-- An address is its page beside its offset. -/
theorem page_append_offset {addr : BitVec 14} {p : BitVec 2} (h : page addr = p) :
    p ++ addr.extractLsb' 0 12 = addr :=
  h ▸ BitVec.extractLsb'_append_extractLsb' (w := 2) (len := 12)

/-- An address is its 64-byte block beside its offset in the block. -/
theorem block_append_offset {addr : BitVec 14} {b : BitVec 8} (h : addr.extractLsb' 6 8 = b) :
    b ++ addr.extractLsb' 0 6 = addr :=
  h ▸ BitVec.extractLsb'_append_extractLsb' (w := 8) (len := 6)

/-- An address in none of the pages 0, 1 and 2 is in page 3. -/
theorem page_eq_three_of_ne {addr : BitVec 14} (h0 : page addr ≠ 0#2) (h1 : page addr ≠ 1#2) (h2 : page addr ≠ 2#2) :
    page addr = 3#2 := by
  revert h0 h1 h2
  generalize page addr = p
  revert p
  decide

/-- The three upper fields of a descriptor, packed with any data, are its upper 17 bits beside that data. -/
theorem packTxn_fields (txn : BitVec 49) (v : Word) :
    packTxn (txn.getLsbD 48) (.ofBits (txn.extractLsb' 46 2)) (txn.extractLsb' 32 14) v =
      txn.extractLsb' 32 17 ++ v := by
  have write : BitVec.ofBool (txn.getLsbD 48) = txn.extractLsb' 48 1 := by
    ext i hi
    obtain rfl : i = 0 := by omega
    simp
  unfold packTxn
  rw [AccessSize.toBits_ofBits, write,
    BitVec.extractLsb'_append_extractLsb'_eq_extractLsb' (len₁ := 2) (len₂ := 1) rfl,
    BitVec.extractLsb'_append_extractLsb'_eq_extractLsb' (len₁ := 14) (len₂ := 3) rfl]

/-- A descriptor is its upper 17 bits beside its data. -/
theorem descriptor_append_wdata (txn : BitVec 49) : txn.extractLsb' 32 17 ++ txn.extractLsb' 0 32 = txn :=
  BitVec.extractLsb'_append_extractLsb' (w := 17) (len := 32)

/-! The commands. -/

/-- A reserved opcode is none of the ten listed ones. -/
theorem decodeCmd_reserved {opc : BitVec 8} (h : 0x0A ≤ opc.toNat) (arg : BitVec 24) :
    decodeCmd (arg ++ opc) = .cmdReserved opc arg := by
  have unlisted : ∀ c : BitVec 8, c.toNat < 0x0A → opc ≠ c := by
    rintro c hc rfl
    omega
  simp [decodeCmd, unlisted]

/-- TX_COMMIT's word decodes to its length and its reserved byte. -/
theorem decodeCmd_txCommit (len : BitVec 16) (rsvd : BitVec 8) :
    decodeCmd ((rsvd ++ len) ++ 0x04#8) = .cmdTxCommit len rsvd := by
  simp [decodeCmd, commandWord_len, commandWord_rsvd]

/-- A command word decodes to a well-formed command, and that command is the write of the word to CMD. -/
theorem decodeCmd_row (w : Word) :
    (decodeCmd w).wellFormed = true ∧ busWriteOf (decodeCmd w) = some (.word, 0x010#14, w) := by
  have word {opc : BitVec 8} (hopc : w.extractLsb' 0 8 = opc) :
      some (AccessSize.word, 0x010#14, w.extractLsb' 8 24 ++ opc) = some (.word, 0x010#14, w) := by
    rw [← commandWord_eq hopc rfl]
  unfold decodeCmd
  dsimp only
  iterate 4
    split
    next hopc => exact ⟨rfl, word hopc⟩
  split
  next hopc => exact ⟨rfl, by rw [busWriteOf, commitArg_eq, word hopc]⟩
  iterate 5
    split
    next hopc => exact ⟨rfl, word hopc⟩
  refine ⟨decide_eq_true ?_, word rfl⟩
  generalize w.extractLsb' 0 8 = opc at *
  bv_omega

/-! The rows of reads. -/

/-- A read that no narrower row takes is MEM_READ's own. -/
theorem decodeRead_generic {size : AccessSize} {addr : BitVec 14} (h : readIsGeneric size addr = true) :
    decodeRead size addr = .memRead size addr := by
  simp only [readIsGeneric, Bool.or_eq_true, Bool.and_eq_true, beq_iff_eq, bne_iff_ne] at h
  rcases h with ⟨hpage, hsize⟩ | hpage
  · simp [decodeRead, hpage, hsize]
  · simp [decodeRead, hpage]

/-- A well-formed read's access decodes to the read. -/
theorem decodeRead_of_busReadOf {i : Instr} {size : AccessSize} {addr : BitVec 14} (hwf : i.wellFormed = true)
    (h : busReadOf i = some (size, addr)) : decodeRead size addr = i := by
  cases i <;> cases h
  case memRead => exact decodeRead_generic hwf
  all_goals simp [decodeRead]

/-- Every read access decodes to a well-formed operation, and that operation is the access. -/
theorem decodeRead_row (size : AccessSize) (addr : BitVec 14) :
    (decodeRead size addr).wellFormed = true ∧ busReadOf (decodeRead size addr) = some (size, addr) := by
  unfold decodeRead
  split
  next h1 => exact ⟨rfl, by rw [busReadOf, page_append_offset h1]⟩
  split
  next h2 => exact ⟨rfl, by rw [busReadOf, page_append_offset h2]⟩
  split
  next h0 => exact ⟨rfl, by rw [busReadOf, page_append_offset h0.1, h0.2]⟩
  next h1 h2 hcsr =>
    refine ⟨?_, rfl⟩
    by_cases h0 : page addr = 0#2
    · have narrow : size ≠ .word := fun hsize => hcsr ⟨h0, hsize⟩
      simp [Instr.wellFormed, readIsGeneric, h0, narrow]
    · simp [Instr.wellFormed, readIsGeneric, page_eq_three_of_ne h0 h1 h2]

/-! The rows of writes. -/

/-- A read-only register stands in the CSR page, at no offset that a row for one register or for the CFG block takes. -/
theorem roRegister_address {addr : BitVec 14} (h : isRoOffset addr.toNat = true) :
    page addr = 0#2 ∧ addr ≠ 0x010#14 ∧ addr ≠ 0x01C#14 ∧ addr ≠ 0x020#14 ∧ addr.extractLsb' 6 8 ≠ 1#8 := by
  have table : ∀ e ∈ regTable, regAccess e.2 = .ro →
      let a := BitVec.ofNat 14 e.1
      page a = 0#2 ∧ a ≠ 0x010#14 ∧ a ≠ 0x01C#14 ∧ a ≠ 0x020#14 ∧ a.extractLsb' 6 8 ≠ 1#8 := by decide
  obtain ⟨r, hr, hro⟩ : ∃ r, regAt addr.toNat = some r ∧ regAccess r = .ro := by
    simpa [isRoOffset] using h
  simpa using table _ (regAt_some hr) hro

/-- A write that no narrower row takes is MEM_WRITE's own. -/
theorem decodeWrite_generic {size : AccessSize} {addr : BitVec 14} (h : writeIsGeneric size addr = true) (v : Word) :
    decodeWrite size addr v = .memWrite size addr v := by
  simp only [writeIsGeneric, csrWriteHasRow, Bool.or_eq_true, Bool.and_eq_true, beq_iff_eq, bne_iff_ne,
    Bool.not_eq_true', Bool.or_eq_false_iff, beq_eq_false_iff_ne] at h
  rcases h with ⟨hpage, hsize | ⟨⟨⟨⟨cmd, status⟩, enable⟩, cfg⟩, ro⟩⟩ | hpage
  · simp [decodeWrite, hpage, hsize]
  · simp [decodeWrite, hpage, cmd, status, enable, cfg, ro]
  · simp [decodeWrite, hpage]

/-- A write to RXBUF, or a 4-byte write to a read-only register, is the row of R187. -/
theorem decodeWrite_ro {size : AccessSize} {addr : BitVec 14} (h : writeIsRo size addr = true) (v : Word) :
    decodeWrite size addr v = .memWriteRo size addr v := by
  simp only [writeIsRo, Bool.or_eq_true, Bool.and_eq_true, beq_iff_eq] at h
  rcases h with hpage | ⟨rfl, ro⟩
  · simp [decodeWrite, hpage]
  · obtain ⟨hpage, cmd, status, enable, cfg⟩ := roRegister_address ro
    simp [decodeWrite, hpage, cmd, status, enable, cfg, ro]

/-- A 4-byte write to CMD is its command (R141). -/
theorem decodeWrite_cmd (v : Word) : decodeWrite .word 0x010#14 v = decodeCmd v := rfl

/-- A 4-byte write to the CFG block is its row's: CMD, IRQ_STATUS and IRQ_ENABLE stand in the block below. -/
theorem decodeWrite_cfg (off : BitVec 6) (v : Word) : decodeWrite .word (1#8 ++ off) v = .memWriteCfg off v := by
  have block : (1#8 ++ off : BitVec (8 + 6)).extractLsb' 6 8 = 1#8 := BitVec.extractLsb'_append_eq_left
  have offset : (1#8 ++ off : BitVec (8 + 6)).extractLsb' 0 6 = off := BitVec.extractLsb'_append_eq_right
  have hpage : page (1#8 ++ off) = 0#2 := by
    rw [page, BitVec.extractLsb'_append_eq_of_le (by omega)]
    rfl
  have outside {c : BitVec 14} (hc : c.extractLsb' 6 8 ≠ 1#8) : (1#8 ++ off : BitVec (8 + 6)) ≠ c :=
    fun h => hc (h ▸ block)
  have cmd := outside (c := 0x010#14) (by decide)
  have status := outside (c := 0x01C#14) (by decide)
  have enable := outside (c := 0x020#14) (by decide)
  simp [decodeWrite, hpage, cmd, status, enable, block, offset]

/-- A well-formed write's or command's access decodes to it. -/
theorem decodeWrite_of_busWriteOf {i : Instr} {size : AccessSize} {addr : BitVec 14} {v : Word}
    (hwf : i.wellFormed = true) (h : busWriteOf i = some (size, addr, v)) : decodeWrite size addr v = i := by
  cases i <;> cases h
  case memWrite => exact decodeWrite_generic hwf v
  case memWriteRo => exact decodeWrite_ro hwf v
  case memWriteIrqStatus | memWriteIrqEnable => rfl
  case memWriteCfg off => exact decodeWrite_cfg off v
  case memWriteTxbuf => simp [decodeWrite]
  case cmdReserved opc arg => exact decodeCmd_reserved (of_decide_eq_true hwf) arg
  case cmdTxCommit len rsvd => exact decodeCmd_txCommit len rsvd
  all_goals
    rw [decodeWrite_cmd]
    simp [decodeCmd]

/-- Every write access decodes to a well-formed operation, and that operation is the access. -/
theorem decodeWrite_row (size : AccessSize) (addr : BitVec 14) (v : Word) :
    (decodeWrite size addr v).wellFormed = true ∧ busWriteOf (decodeWrite size addr v) = some (size, addr, v) := by
  unfold decodeWrite
  split
  next h1 => exact ⟨rfl, by rw [busWriteOf, page_append_offset h1]⟩
  split
  next h2 => exact ⟨by simp [Instr.wellFormed, writeIsRo, h2], rfl⟩
  split
  next h0 =>
    obtain ⟨h0, rfl⟩ := h0
    split
    next cmd => exact cmd ▸ decodeCmd_row v
    split
    next status => exact ⟨rfl, by rw [busWriteOf, status]⟩
    split
    next enable => exact ⟨rfl, by rw [busWriteOf, enable]⟩
    split
    next cfg => exact ⟨rfl, by rw [busWriteOf, block_append_offset cfg]⟩
    split
    next ro => exact ⟨by simp [Instr.wellFormed, writeIsRo, ro], rfl⟩
    next cmd status enable cfg ro =>
      exact ⟨by simp [Instr.wellFormed, writeIsGeneric, csrWriteHasRow, h0, cmd, status, enable, cfg, ro], rfl⟩
  next h1 h2 hcsr =>
    refine ⟨?_, rfl⟩
    by_cases h0 : page addr = 0#2
    · have narrow : size ≠ .word := fun hsize => hcsr ⟨h0, hsize⟩
      simp [Instr.wellFormed, writeIsGeneric, h0, narrow]
    · simp [Instr.wellFormed, writeIsGeneric, page_eq_three_of_ne h0 h1 h2]

/-! The obligations. -/

/-- A port operation or an engine step decodes from its own wire form. -/
theorem decode_encode_notBus {i : Instr} (hwf : i.wellFormed = true) (hr : busReadOf i = none)
    (hw : busWriteOf i = none) : decode (encode i) = .ok i := by
  cases i <;> cases hr <;> cases hw
  case radioPop n =>
    have pos : 1 ≤ n := of_decide_eq_true hwf
    simp [encode, decode, decodePort, Nat.sub_add_cancel pos]
  case radioPush ws =>
    cases ws with
    | nil => cases hwf
    | cons w ws => rfl
  all_goals rfl

/-- Settles O1: by the kind of access the operation is. -/
theorem encodeThenDecodeReturnsTheOperation : Obligations.EncodeThenDecodeReturnsTheOperation := by
  unfold Obligations.EncodeThenDecodeReturnsTheOperation
  intro i hwf
  rcases hr : busReadOf i with _ | ⟨size, addr⟩
  · rcases hw : busWriteOf i with _ | ⟨size, addr, v⟩
    · exact decode_encode_notBus hwf hr hw
    · rw [encode_of_busWriteOf hw, decode_packTxn, if_pos rfl, decodeWrite_of_busWriteOf hwf hw]
  · rw [encode_of_busReadOf hr, decode_packTxn, if_neg Bool.false_ne_true, decodeRead_of_busReadOf hwf hr]

/-- Settles O2: the descriptor's fields make an access, whose row is well formed and encodes as that access. -/
theorem everyDescriptorIsOneOperation : Obligations.EveryDescriptorIsOneOperation := by
  unfold Obligations.EveryDescriptorIsOneOperation
  intro txn
  refine ⟨decodeTxn txn, decode_busWire txn, ?_⟩
  have fields := packTxn_fields txn
  unfold decodeTxn
  dsimp only
  generalize AccessSize.ofBits (txn.extractLsb' 46 2) = size at *
  generalize txn.extractLsb' 32 14 = addr at *
  cases write : txn.getLsbD 48 with
  | false =>
    obtain ⟨wf, row⟩ := decodeRead_row size addr
    refine ⟨wf, nofun, fun _ => ?_⟩
    rw [if_neg Bool.false_ne_true, encode_of_busReadOf row, ← write, fields]
  | true =>
    obtain ⟨wf, row⟩ := decodeWrite_row size addr (txn.extractLsb' 0 32)
    refine ⟨wf, fun _ => ?_, nofun⟩
    rw [if_pos rfl, encode_of_busWriteOf row, ← write, fields, descriptor_append_wdata]

/-- Settles O22: a read row runs its read, a write or command row its write. -/
theorem rowsAreBusTransactions : Obligations.RowsAreBusTransactions := by
  unfold Obligations.RowsAreBusTransactions
  exact fun _ s => ⟨fun _ _ _ hw => exec_of_busWriteOf hw s, fun _ _ hr => exec_of_busReadOf hr s⟩

/-- Settles O3: eleven fixed words and the two engine steps, each evaluated by the decoder. -/
theorem specWordsDecode : Obligations.SpecWordsDecode := by
  unfold Obligations.SpecWordsDecode
  refine ⟨?_, ?_, ?_, ?_, ?_, ?_, ?_, ?_, ?_, ?_, ?_, ?_, ?_⟩ <;> decide

end Sys2Proof.Machine
end


section
/-! The register reads and the registers' writes (40_bus.md R182, R184 to R187). An access that passes its checks
answers what its target holds or does what its target's write says; each register's rule is then one fact about
`readReg` or `writeTarget`. -/

namespace Sys2Proof.Machine

/-! An access that passes its checks. -/

section PassedAccess

variable {i : Instr} {s : State} {size : AccessSize} {addr : BitVec 14} {v : Word} {n : Nat} {target : Target}

theorem exec_read_answers (hi : busReadOf i = some (size, addr))
    (hc : checkAddr s.params size addr.toNat = .ok (n, target)) :
    exec i s = .next (respond (readTarget s n target) false s) := by
  rw [exec_of_busReadOf hi, busRead, hc]

theorem exec_write_performs (hi : busWriteOf i = some (size, addr, v))
    (hc : checkAddr s.params size addr.toNat = .ok (n, target)) (hw : checkWrite s target = none) :
    exec i s = .next (respond 0#32 false (writeTarget n v target s)) := by
  rw [exec_of_busWriteOf hi, busWrite, hc]
  simp only [hw]

end PassedAccess

/-! Register reads. -/

/-- A generic 4-byte read in the CSR page is the register read at its offset. -/
theorem exec_memRead_csr (off : BitVec 12) (s : State) :
    exec (.memRead .word (0#2 ++ off)) s = exec (.memReadCsr off) s :=
  (exec_of_busReadOf rfl s).trans (exec_of_busReadOf rfl s).symm

/-- The register is neither composed of fields nor one that shows a count or a field of a report or a record. -/
def isPlain : Reg → Bool
  | .paramFifoCap | .paramMisc | .status | .txPendLen | .fifoLevel | .syncStatus | .lastHdrId | .lastHdrCnt | .lastLen
  | .lastFlags | .rxqCount | .rxqHdrId | .rxqHdrCnt | .rxqLen | .rxqFlags => false
  | _ => true

/-- The plain registers are those of the map that `isPlain` picks, each with the value its read returns. -/
theorem plainRegisters_eq : plainRegisters =
    (regTable.filter (fun e => isPlain e.2)).map (fun e => (BitVec.ofNat 12 e.1, fun s => readReg s e.2)) := by
  rfl

theorem regAt_ofNat_of_mem {e : Nat × Reg} (he : e ∈ regTable) : regAt (BitVec.ofNat 12 e.1).toNat = some e.2 := by
  obtain ⟨-, small⟩ := regTable_offsets e he
  rw [BitVec.toNat_ofNat, Nat.mod_eq_of_lt (by omega)]
  exact regAt_of_mem e he

theorem plainRegisters_readReg {off : BitVec 12} {get : State → Word} (h : (off, get) ∈ plainRegisters) :
    ∃ r, regAt off.toNat = some r ∧ ∀ s, readReg s r = get s := by
  rw [plainRegisters_eq] at h
  obtain ⟨e, he, same⟩ := List.mem_map.1 h
  cases same
  exact ⟨e.2, regAt_ofNat_of_mem (List.mem_of_mem_filter he), fun _ => rfl⟩

/-- A count that fits its field is the field's value. -/
theorem field_setWidth {w n : Nat} (hw : w ≤ 32) (h : n < 2 ^ w) : (field w n).setWidth 32 = BitVec.ofNat 32 n := by
  rw [field, if_pos h, ofNat_eq_setWidth hw h]

/-- A field of a report or record that may be absent: the field's word, or 0. -/
theorem optionWord_eq {α : Type} {word : α → Word} {value : α → Nat}
    (h : ∀ r, word r = BitVec.ofNat 32 (value r)) (o : Option α) :
    (o.map word).getD 0#32 = BitVec.ofNat 32 (o.elim 0 value) := by
  cases o with
  | none => rfl
  | some r => exact h r

theorem optionLen_eq {α : Type} (len : α → BitVec 16) (o : Option α) :
    (o.map (fun r => (len r).setWidth 32)).getD 0#32 = BitVec.ofNat 32 (o.elim 0 (fun r => (len r).toNat)) :=
  optionWord_eq (fun r => (BitVec.ofNat_toNat 32 (len r)).symm) o

/-- Register r shows the count `get` where it fits w bits. -/
def ShowsCount (r : Reg) (get : State → Nat) (w : Nat) : Prop :=
  ∀ s, get s < 2 ^ w → readReg s r = BitVec.ofNat 32 (get s)

theorem countRegisters_showCount : ∀ e ∈ countRegisters,
    ∃ r, regAt e.1.toNat = some r ∧ ShowsCount r e.2.1 e.2.2 := by
  have word : ∀ n < 2 ^ 32, field 32 n = BitVec.ofNat 32 n := fun n h => if_pos h
  simp only [countRegisters, List.forall_mem_cons, List.not_mem_nil, false_imp_iff, implies_true, and_true]
  exact ⟨⟨.paramFifoCap, by decide, fun _ => word _⟩,
    ⟨.txPendLen, by decide, fun _ => field_setWidth (by omega)⟩,
    ⟨.fifoLevel, by decide, fun _ => word _⟩,
    ⟨.lastHdrId, by decide, fun s _ => optionWord_eq (fun _ => rfl) s.last⟩,
    ⟨.lastHdrCnt, by decide, fun s _ => optionWord_eq (fun _ => rfl) s.last⟩,
    ⟨.lastLen, by decide, fun s _ => optionLen_eq Report.len s.last⟩,
    ⟨.rxqCount, by decide, fun _ => field_setWidth (by omega)⟩,
    ⟨.rxqHdrId, by decide, fun s _ => optionWord_eq (fun _ => rfl) s.rxq.head?⟩,
    ⟨.rxqHdrCnt, by decide, fun s _ => optionWord_eq (fun _ => rfl) s.rxq.head?⟩,
    ⟨.rxqLen, by decide, fun s _ => optionLen_eq Record.len s.rxq.head?⟩⟩

/-- Settles O12: a register read answers `readReg`, which is each listed register's element or count. -/
theorem registerReadsReturnTheirState : Obligations.RegisterReadsReturnTheirState := by
  unfold Obligations.RegisterReadsReturnTheirState
  intro s off i hi
  have narrow : exec i s = exec (.memReadCsr off) s := by
    rcases hi with rfl | rfl
    · rfl
    · exact exec_memRead_csr off s
  rw [narrow]
  constructor
  · intro get listed
    obtain ⟨r, hr, value⟩ := plainRegisters_readReg listed
    rw [exec_memReadCsr_reg hr, value]
  · intro get w listed fits
    obtain ⟨r, hr, shows⟩ := countRegisters_showCount _ listed
    rw [exec_memReadCsr_reg hr, shows s fits]

/-! Register writes. -/

/-- Settles O18: neither interrupt register refuses a write. -/
theorem interruptRegisterWrites : Obligations.InterruptRegisterWrites := by
  unfold Obligations.InterruptRegisterWrites
  intro v s i
  refine ⟨fun hi => ?_, fun hi => ?_, bne_iff_ne⟩
  · have write : busWriteOf i = some (.word, 0x01C#14, v) := by rcases hi with rfl | rfl <;> rfl
    exact exec_write_performs write (checkAddr_reg _ (r := .irqStatus) (by decide)) rfl
  · have write : busWriteOf i = some (.word, 0x020#14, v) := by rcases hi with rfl | rfl <;> rfl
    exact exec_write_performs write (checkAddr_reg _ (r := .irqEnable) (by decide)) rfl

/-- The low n bits of a word, as a mask. -/
theorem lowBits_eq_and {n : Nat} (hn : n ≤ 32) (v : Word) :
    ((v.extractLsb' 0 n).setWidth 32 : Word) = v &&& BitVec.ofNat 32 (2 ^ n - 1) := by
  have small : 2 ^ n ≤ 2 ^ 32 := Nat.pow_le_pow_right (by omega) hn
  have mask : 2 ^ n - 1 < 2 ^ 32 := by omega
  apply BitVec.eq_of_toNat_eq
  rw [BitVec.toNat_setWidth_of_le hn, BitVec.extractLsb'_toNat, Nat.shiftRight_zero, BitVec.toNat_and,
    BitVec.toNat_ofNat, Nat.mod_eq_of_lt mask, Nat.and_two_pow_sub_one_eq_mod]

/-- CFG_DUMP's one defined bit, which is there only with the dump port. -/
theorem dumpBit_eq (v : Word) (hasDump : Bool) :
    flagAt (v.getLsbD 0 && hasDump) 0 = if hasDump then v &&& 1#32 else 0#32 := by
  cases hasDump with
  | false => simp
  | true =>
    rw [Bool.and_true, if_pos rfl, BitVec.and_one_eq_setWidth_ofBool_getLsbD]
    exact BitVec.shiftLeft_zero _

theorem writeTarget_cfgReg {r : Reg} (cfg : regAccess r = .rwIdle) (n : Nat) (v : Word) (s : State) :
    writeTarget n v (.reg r) s = { s with cfg := writeCfg s.params.hasDump r v s.cfg } := by
  cases r
  case cfgSampleRate | cfgBitRate | cfgFreqOffset | cfgBt | cfgCoding | cfgId | cfgTimeout | cfgMaxPayload |
    cfgDetThresh | cfgDump => rfl
  all_goals cases cfg

/-- A write of v at an offset of the CFG block stores the registers c in IDLE and is refused outside it. -/
def CfgStores (v : Word) (s : State) (off : BitVec 6) (c : Cfg) : Prop :=
  ∀ i : Instr, i = .memWriteCfg off v ∨ i = .memWrite .word (1#8 ++ off) v →
    (s.core = .idle → exec i s = .next (respond 0#32 false { s with cfg := c })) ∧
    (s.core ≠ .idle → exec i s = .next (failAccess .cfgLocked s))

/-- A CFG register's write is `writeCfg`. -/
theorem cfgStores_writeCfg {off : BitVec 6} {r : Reg} (listed : regAt (1#8 ++ off).toNat = some r)
    (cfg : regAccess r = .rwIdle) (v : Word) (s : State) :
    CfgStores v s off (writeCfg s.params.hasDump r v s.cfg) := by
  intro i hi
  have write : busWriteOf i = some (.word, 1#8 ++ off, v) := by rcases hi with rfl | rfl <;> rfl
  have address := checkAddr_reg s.params listed
  have range : 0x040 ≤ (1#8 ++ off).toNat ∧ (1#8 ++ off).toNat ≤ 0x064 :=
    (regAccess_rwIdle_iff _ (regAt_some listed)).1 cfg
  have locked := checkWrite_cfg (s := s) (.reg r listed (by omega)) range
  refine ⟨fun idle => ?_, fun running => ?_⟩
  · rw [← writeTarget_cfgReg cfg 4]
    exact exec_write_performs write address (locked.trans (if_neg (not_not.2 idle)))
  · exact exec_write_refused write address (locked.trans (if_pos running))

/-- Settles O19: each register's write is `writeCfg`, whose field widths are the statement's masks. -/
theorem cfgWritesStoreTheDefinedFields : Obligations.CfgWritesStoreTheDefinedFields := by
  unfold Obligations.CfgWritesStoreTheDefinedFields
  intro v s
  have low16 : (v.extractLsb' 0 16).setWidth 32 = v &&& 0xFFFF#32 := lowBits_eq_and (by omega) v
  have low12 : (v.extractLsb' 0 12).setWidth 32 = v &&& 0xFFF#32 := lowBits_eq_and (by omega) v
  rw [← low16, ← low12, ← dumpBit_eq]
  exact ⟨cfgStores_writeCfg (r := .cfgSampleRate) (by decide) rfl v s,
    cfgStores_writeCfg (r := .cfgBitRate) (by decide) rfl v s,
    cfgStores_writeCfg (r := .cfgFreqOffset) (by decide) rfl v s,
    cfgStores_writeCfg (r := .cfgBt) (by decide) rfl v s,
    cfgStores_writeCfg (r := .cfgCoding) (by decide) rfl v s,
    cfgStores_writeCfg (r := .cfgId) (by decide) rfl v s,
    cfgStores_writeCfg (r := .cfgTimeout) (by decide) rfl v s,
    cfgStores_writeCfg (r := .cfgMaxPayload) (by decide) rfl v s,
    cfgStores_writeCfg (r := .cfgDetThresh) (by decide) rfl v s,
    cfgStores_writeCfg (r := .cfgDump) (by decide) rfl v s⟩

end Sys2Proof.Machine
end

section
/-! The two windows and the read-only places (40_bus.md R187 to R190): an aligned access inside a window passes the
checks of its address, and its lanes are the bytes at its addresses. -/

namespace Sys2Proof.Machine

section Window

variable {p : Params} {size : AccessSize} {n : Nat} {off : BitVec 12}

/-- A window starts at a multiple of every access width. -/
theorem window_aligned (hs : sizeBytes size = some n) (aligned : off.toNat % n = 0) (k : Nat) :
    (k * 0x1000 + off.toNat) % n = 0 := by
  rcases sizeBytes_cases hs with rfl | rfl | rfl <;> omega

/-- Where an aligned access inside TXBUF's page goes. -/
theorem checkAddr_txbufPage (hs : sizeBytes size = some n) (fits : off.toNat + n ≤ p.maxPayloadHw)
    (aligned : off.toNat % n = 0) :
    checkAddr p size (1#2 ++ off).toNat = .ok (n, .txbuf (0x1000 + off.toNat)) := by
  have address : (1#2 ++ off).toNat = 0x1000 + off.toNat := toNat_append_offset 1#2 off
  have small := off.isLt
  rw [address]
  exact checkAddr_txbuf p hs (by omega) (by omega) (by omega) (window_aligned hs aligned 1)

/-- Where an aligned access inside RXBUF's page goes. -/
theorem checkAddr_rxbufPage (hs : sizeBytes size = some n) (fits : off.toNat + n ≤ p.maxPayloadHw)
    (aligned : off.toNat % n = 0) : checkAddr p size (2#2 ++ off).toNat = .ok (n, .rxbuf off.toNat) := by
  have address : (2#2 ++ off).toNat = 0x2000 + off.toNat := toNat_append_offset 2#2 off
  rw [address, checkAddr_rxbuf p hs (by omega) (by omega) (window_aligned hs aligned 2), Nat.add_sub_cancel_left]

end Window

/-! Window reads. -/

/-- Settles O15: the word answered is that of the n bytes from the address on. -/
theorem txbufReadReturnsItsBytes : Obligations.TxbufReadReturnsItsBytes := by
  unfold Obligations.TxbufReadReturnsItsBytes
  intro s size n off i hs fits aligned hi
  have read : busReadOf i = some (size, 1#2 ++ off) := by rcases hi with rfl | rfl <;> rfl
  have lanes := lane_fromLanes n (fun k => txByte s (0x1000 + off.toNat + k)) (sizeBytes_cases hs)
  exact ⟨_, exec_read_answers read (checkAddr_txbufPage hs fits aligned),
    fun k inside => (lanes k).trans (if_pos inside), fun k outside _ => (lanes k).trans (if_neg outside.not_gt)⟩

theorem rxByte_nil {s : State} (empty : s.rxq = []) (o : Nat) : rxByte s o = 0#8 := by
  simp only [rxByte, empty]

theorem rxByte_cons {s : State} {r : Record} {rest : List Record} (queued : s.rxq = r :: rest) (o : Nat) :
    rxByte s o = if o < r.len.toNat then r.payload.getD o 0#8 else 0#8 := by
  simp only [rxByte, queued]

/-- Bytes of 0 are the word 0. -/
theorem fromLanes_zero {n : Nat} (hn : n = 1 ∨ n = 2 ∨ n = 4) : fromLanes n (fun _ => 0#8) = 0#32 := by
  rcases hn with rfl | rfl | rfl <;> rfl

/-- Settles O16: the word answered is that of the n bytes `rxByte`, which looks at the head record alone. -/
theorem rxbufReadReturnsTheHeadRecord : Obligations.RxbufReadReturnsTheHeadRecord := by
  unfold Obligations.RxbufReadReturnsTheHeadRecord
  intro s size n off i hs fits aligned hi
  have read : busReadOf i = some (size, 2#2 ++ off) := by rcases hi with rfl | rfl <;> rfl
  have width := sizeBytes_cases hs
  have lanes := lane_fromLanes n (fun k => rxByte s (off.toNat + k)) width
  refine ⟨fromLanes n (fun k => rxByte s (off.toNat + k)),
    exec_read_answers read (checkAddr_rxbufPage hs fits aligned), fun k outside _ => ?_, fun empty => ?_,
    fun r rest queued k inside => ?_⟩
  · exact (lanes k).trans (if_neg outside.not_gt)
  · simp only [rxByte_nil empty, fromLanes_zero width]
  · rw [lanes, if_pos inside, rxByte_cons queued]

/-! Window writes and refused writes. -/

/-- Settles O20: TXBUF after the write is `writeTxbuf`'s, read back byte by byte. -/
theorem txbufWriteStoresItsLanes : Obligations.TxbufWriteStoresItsLanes := by
  unfold Obligations.TxbufWriteStoresItsLanes
  intro s size n off v i hs fits aligned hi
  have write : busWriteOf i = some (size, 1#2 ++ off, v) := by rcases hi with rfl | rfl <;> rfl
  have address := checkAddr_txbufPage hs fits aligned
  have stored := txByte_writeTxbuf (0x1000 + off.toNat) n v s
  refine ⟨fun free => ?_, fun pending => exec_write_refused write address (if_pos pending)⟩
  refine ⟨_, exec_write_performs write address (if_neg (not_not.2 free)), fun k inside => ?_, fun a outside => ?_⟩
  · exact (stored _).trans ((if_pos ⟨by omega, by omega⟩).trans (by rw [Nat.add_sub_cancel_left]))
  · exact (stored a).trans (if_neg (by omega))

/-- Settles O21: the registers that the statement does not except are those of the kind RO. -/
theorem readOnlyPlacesRefuseWrites : Obligations.ReadOnlyPlacesRefuseWrites := by
  unfold Obligations.ReadOnlyPlacesRefuseWrites
  intro s v
  constructor
  · intro e listed notControl notCfg
    obtain ⟨-, small⟩ := regTable_offsets e listed
    have atOffset : regAt e.1 = some e.2 := regAt_of_mem e listed
    have offset : (BitVec.ofNat 14 e.1).toNat = e.1 := Nat.mod_eq_of_lt (by omega)
    have readOnly := checkWrite_readOnly (s := s) (.reg e.2 atOffset (by omega))
      (.inr ⟨by omega, notControl, notCfg⟩)
    exact exec_write_refused rfl (checkAddr_reg _ ((congrArg regAt offset).trans atOffset)) readOnly
  · intro size n off hs fits aligned
    exact exec_write_refused rfl (checkAddr_rxbufPage hs fits aligned) rfl

end Sys2Proof.Machine
end

section
/-! The configuration check (41_commands.md R231). `configFailures` lists the conditions with their codes, `checkCfg` is
the chain of tests over them: the chain grows with the list, one test for one condition. -/

namespace Sys2Proof.Machine

/-! A list of conditions, from its front. -/

theorem noneHolds_nil : NoneHolds [] := fun _ inNil => absurd inNil List.not_mem_nil

theorem noneHolds_cons (c : Prop × ErrCode) (cs : List (Prop × ErrCode)) :
    NoneHolds (c :: cs) ↔ ¬ c.1 ∧ NoneHolds cs := List.forall_mem_cons

theorem not_firstHolds_nil (code : ErrCode) : ¬ FirstHolds [] code := by
  rintro ⟨before, c, after, parts, -⟩
  simp at parts

/-- The first condition that holds is the head, or the head fails and it is the tail's. -/
theorem firstHolds_cons (c : Prop × ErrCode) (cs : List (Prop × ErrCode)) (code : ErrCode) :
    FirstHolds (c :: cs) code ↔ (c.1 ∧ c.2 = code) ∨ (¬ c.1 ∧ FirstHolds cs code) := by
  constructor
  · rintro ⟨_ | ⟨b, before⟩, d, after, parts, fails, holds, rfl⟩
    · obtain ⟨rfl, -⟩ := List.cons.inj parts
      exact .inl ⟨holds, rfl⟩
    · obtain ⟨rfl, rfl⟩ := List.cons.inj parts
      obtain ⟨headFails, fails⟩ := (noneHolds_cons _ _).1 fails
      exact .inr ⟨headFails, before, d, after, rfl, fails, holds, rfl⟩
  · rintro (⟨holds, rfl⟩ | ⟨headFails, before, d, after, rfl, fails, holds, rfl⟩)
    · exact ⟨[], c, cs, rfl, noneHolds_nil, holds, rfl⟩
    · exact ⟨c :: before, d, after, rfl, (noneHolds_cons _ _).2 ⟨headFails, fails⟩, holds, rfl⟩

/-! The chain of tests against the list. -/

/-- The answer of a check over a list of conditions: none when none holds, and otherwise the first one's code. -/
def Reports (cs : List (Prop × ErrCode)) (answer : Option ErrCode) : Prop :=
  (answer = none ↔ NoneHolds cs) ∧ ∀ code, answer = some code ↔ FirstHolds cs code

theorem Reports.nil : Reports [] none :=
  ⟨iff_of_true rfl noneHolds_nil, fun code => iff_of_false nofun (not_firstHolds_nil code)⟩

/-- One more test before the others checks one more condition. -/
theorem Reports.test {test cond : Prop} [Decidable test] {code : ErrCode} {cs : List (Prop × ErrCode)}
    {answer : Option ErrCode} (same : test ↔ cond) (rest : Reports cs answer) :
    Reports ((cond, code) :: cs) (if test then some code else answer) := by
  obtain ⟨ok, first⟩ := rest
  unfold Reports
  simp only [noneHolds_cons, firstHolds_cons, ← same, ← ok, ← first]
  split
  next holds => simp [holds]
  next fails => simp [fails]

/-- A 4-bit code is refused exactly when it is above the two listed ones. -/
theorem not_codeListed_iff : ∀ code : BitVec 4, (!codeListed code) = true ↔ 1 < code.toNat := by decide

/-- The offset's bound on natural numbers is the rule's on integers. -/
theorem freqOffset_test_iff (fs : Nat) (offset : Int) : fs ≤ 2 * offset.natAbs ↔ (fs : Int) ≤ 2 * |offset| := by
  rw [Int.abs_eq_natAbs]
  omega

theorem checkCfg_reports (dir : Dir) (s : State) : Reports (configFailures dir s) (checkCfg dir s) :=
  .test .rfl <| .test .rfl <| .test .rfl <| .test (freqOffset_test_iff _ _) <| .test .rfl <|
  .test (not_codeListed_iff _) <| .test (not_codeListed_iff _) <| .test (not_codeListed_iff _) <|
  .test .rfl <| .test .rfl <| .test .rfl .nil

/-- Settles O26: each test of the chain is its condition of the list. -/
theorem configCheckReturnsTheFirstFailure : Obligations.ConfigCheckReturnsTheFirstFailure := by
  unfold Obligations.ConfigCheckReturnsTheFirstFailure
  exact checkCfg_reports

end Sys2Proof.Machine
end

section
/-! The commands (41_commands.md R220 to R230, R232). Every command answers with the response of a CMD write; nine of
them take no argument and run one function of the state, TX_COMMIT takes its length. -/

namespace Sys2Proof.Machine

/-! The argument check (30_encoding.md R147). -/

/-- The commands whose whole argument must be 0, each with what it runs. -/
inductive ArgCommand : (BitVec 24 → Instr) → (State → State) → Prop
  | nop : ArgCommand .cmdNop id
  | startTx : ArgCommand .cmdStartTx startTx
  | startRx : ArgCommand .cmdStartRx startRx
  | stop : ArgCommand .cmdStop stopTransfer
  | txEos : ArgCommand .cmdTxEos txEos
  | rxqPop : ArgCommand .cmdRxqPop rxqPop
  | clearStats : ArgCommand .cmdClearStats clearStats
  | clearErr : ArgCommand .cmdClearErr clearErr
  | softReset : ArgCommand .cmdSoftReset softReset

section ArgumentCheck

variable {row : BitVec 24 → Instr} {run : State → State}

theorem exec_argCommand (command : ArgCommand row run) (arg : BitVec 24) (s : State) :
    exec (row arg) s = .next (respond 0#32 false (withArg0 arg run s)) := by
  cases command <;> rfl

/-- With argument 0 the command runs. -/
theorem exec_argCommand_zero (command : ArgCommand row run) (s : State) :
    exec (row 0#24) s = .next (respond 0#32 false (run s)) :=
  exec_argCommand command 0#24 s

/-- With any other argument it raises CMD_ARG. -/
theorem exec_argCommand_nonzero (command : ArgCommand row run) {arg : BitVec 24} (nonzero : arg ≠ 0#24) (s : State) :
    exec (row arg) s = .next (respond 0#32 false (raiseError .cmdArg s)) := by
  rw [exec_argCommand command, withArg0, if_pos nonzero]

end ArgumentCheck

/-- TX_COMMIT runs on its length when its reserved byte is 0, and raises CMD_ARG otherwise (R224, R230). -/
theorem exec_cmdTxCommit_zero (len : BitVec 16) (s : State) :
    exec (.cmdTxCommit len 0#8) s = .next (respond 0#32 false (txCommit len s)) := rfl

theorem exec_cmdTxCommit_nonzero (len : BitVec 16) {rsvd : BitVec 8} (nonzero : rsvd ≠ 0#8) (s : State) :
    exec (.cmdTxCommit len rsvd) s = .next (respond 0#32 false (raiseError .cmdArg s)) :=
  congrArg (fun t => Host.Outcome.next (respond 0#32 false t)) (if_pos nonzero)

/-- The dispatch answers a reserved opcode before it looks at the argument. -/
theorem runCommand_reserved {opc : BitVec 8} (reserved : 0x0A ≤ opc.toNat) (arg : BitVec 24) (s : State) :
    runCommand opc arg s = raiseError .illegalCmd s := by
  have unlisted : ∀ c : BitVec 8, c.toNat < 0x0A → opc ≠ c := by
    rintro c listed rfl
    omega
  simp [runCommand, unlisted]

/-- Settles O32: by the kind of command, reserved, TX_COMMIT or one without an argument. -/
theorem opcodesAndArgumentsAreChecked : Obligations.OpcodesAndArgumentsAreChecked := by
  unfold Obligations.OpcodesAndArgumentsAreChecked
  intro s arg
  refine ⟨fun opc reserved => ?_, fun len rsvd nonzero => exec_cmdTxCommit_nonzero len nonzero s,
    fun nonzero i listed => ?_⟩
  · exact congrArg (fun t => Host.Outcome.next (respond 0#32 false t)) (runCommand_reserved reserved arg s)
  · have command : ∃ row run, ArgCommand row run ∧ i = row arg := by
      simp only [List.mem_cons, List.not_mem_nil, or_false] at listed
      rcases listed with rfl | rfl | rfl | rfl | rfl | rfl | rfl | rfl | rfl
      exacts [⟨_, _, .nop, rfl⟩, ⟨_, _, .startTx, rfl⟩, ⟨_, _, .startRx, rfl⟩, ⟨_, _, .stop, rfl⟩,
        ⟨_, _, .txEos, rfl⟩, ⟨_, _, .rxqPop, rfl⟩, ⟨_, _, .clearStats, rfl⟩, ⟨_, _, .clearErr, rfl⟩,
        ⟨_, _, .softReset, rfl⟩]
    obtain ⟨row, run, command, rfl⟩ := command
    exact exec_argCommand_nonzero command nonzero s

/-! START (R221, R222). -/

/-- The shape that the two STARTs share: the checks, and then what begins the transfer. -/
def startIn (dir : Dir) (begin : State → State) (s : State) : State :=
  if s.core ≠ .idle then raiseError .state s else (checkCfg dir s).elim (begin s) (raiseError · s)

theorem startTx_eq (s : State) : startTx s = startIn .tx beginTx s := by
  unfold startTx startIn
  cases checkCfg .tx s <;> rfl

theorem startRx_eq (s : State) : startRx s = startIn .rx beginRx s := by
  unfold startRx startIn
  cases checkCfg .rx s <;> rfl

section Start

variable {dir : Dir} {begin : State → State} {s : State}

theorem startIn_running (running : s.core ≠ .idle) : startIn dir begin s = raiseError .state s := if_pos running

theorem startIn_idle (idle : s.core = .idle) :
    startIn dir begin s = (checkCfg dir s).elim (begin s) (raiseError · s) := if_neg (not_not.2 idle)

theorem startIn_refused {code : ErrCode} (idle : s.core = .idle) (first : FirstHolds (configFailures dir s) code) :
    startIn dir begin s = raiseError code s := by
  obtain ⟨-, reported⟩ := checkCfg_reports dir s
  rw [startIn_idle idle, (reported code).2 first, Option.elim_some]

theorem startIn_accepted (idle : s.core = .idle) (passes : NoneHolds (configFailures dir s)) :
    startIn dir begin s = begin s := by
  obtain ⟨ok, -⟩ := checkCfg_reports dir s
  rw [startIn_idle idle, ok.2 passes, Option.elim_none]

end Start

/-- Settles O27: the accepted case is `beginTx`'s state, written out. -/
theorem startTxBeginsATransfer : Obligations.StartTxBeginsATransfer := by
  unfold Obligations.StartTxBeginsATransfer
  intro s
  rw [exec_argCommand_zero .startTx, startTx_eq]
  refine ⟨fun running => ?_, fun idle code first => ?_, fun idle passes => ?_⟩
  · rw [startIn_running running]
  · rw [startIn_refused idle first]
  · rw [startIn_accepted idle passes]
    rfl

/-- Settles O28: the accepted case is `beginRx`'s state, written out. -/
theorem startRxBeginsATransfer : Obligations.StartRxBeginsATransfer := by
  unfold Obligations.StartRxBeginsATransfer
  intro s
  rw [exec_argCommand_zero .startRx, startRx_eq]
  refine ⟨fun running => ?_, fun idle code first => ?_, fun idle passes => ?_⟩
  · rw [startIn_running running]
  · rw [startIn_refused idle first]
  · rw [startIn_accepted idle passes]
    rfl

/-! STOP, TX_EOS and RXQ_POP (R223, R225, R226). -/

/-- A first STOP in a transfer sets the reason; a reason that is pending stays (60_exceptions.md R476). -/
theorem stopTransfer_eq (s : State) : stopTransfer s =
    if s.core = .idle then s else { s with stop := some (s.stop.getD .hostStop) } := by
  unfold stopTransfer requestStop
  split
  · rfl
  · cases pending : s.stop with
    | none => rfl
    | some reason =>
      have kept : s = { s with stop := some reason } := by rw [← pending]
      exact (if_neg (by simp)).trans kept

theorem txEos_eq (s : State) : txEos s = if s.core = .txRun then { s with eos := true } else raiseError .state s :=
  ite_not ..

theorem rxqPop_nil {s : State} (empty : s.rxq = []) : rxqPop s = raiseError .rxqEmpty s := if_pos empty

theorem rxqPop_cons {s : State} {r : Record} {rest : List Record} (queued : s.rxq = r :: rest) :
    rxqPop s = { s with rxq := rest } := by
  simp [rxqPop, queued]

/-- Settles O30: each command runs its one function. -/
theorem simpleCommandsDoOneThing : Obligations.SimpleCommandsDoOneThing := by
  unfold Obligations.SimpleCommandsDoOneThing
  intro s
  refine ⟨exec_argCommand_zero .nop s, exec_argCommand_zero .clearStats s, exec_argCommand_zero .clearErr s, ?_, ?_,
    fun empty => ?_, fun r rest queued => ?_⟩
  · rw [exec_argCommand_zero .stop, stopTransfer_eq]
  · rw [exec_argCommand_zero .txEos, txEos_eq]
  · rw [exec_argCommand_zero .rxqPop, rxqPop_nil empty]
  · rw [exec_argCommand_zero .rxqPop, rxqPop_cons queued]

/-! TX_COMMIT (R224). -/

section Commit

variable {s : State} {len : BitVec 16}

/-- The states in which a chunk may be committed. -/
def MayCommit (s : State) : Prop := s.core = .idle ∨ (s.core = .txRun ∧ s.eos = false)

theorem txCommit_state (closed : s.core = .rxRun ∨ (s.core = .txRun ∧ s.eos = true)) :
    txCommit len s = raiseError .state s := if_pos closed

/-- Where a chunk may be committed, the length and the pending chunk decide. -/
theorem txCommit_mayCommit (may : MayCommit s) : txCommit len s =
    if len.toNat = 0 ∨ commitMax s < len.toNat then raiseError .cmdArg s
    else if s.pendLen ≠ 0 then raiseError .txPending s else { s with pendLen := len.toNat } := by
  refine if_neg ?_
  rcases may with idle | ⟨running, open_⟩
  · simp [idle]
  · simp [running, open_]

theorem txCommit_arg (may : MayCommit s) (bad : len = 0#16 ∨ commitMax s < len.toNat) :
    txCommit len s = raiseError .cmdArg s := by
  have refused : len.toNat = 0 ∨ commitMax s < len.toNat := bad.imp_left (congrArg BitVec.toNat)
  rw [txCommit_mayCommit may, if_pos refused]

/-- A length from 1 to the maximum is accepted when no chunk is pending. -/
theorem txCommit_length (may : MayCommit s) (positive : len ≠ 0#16) (fits : len.toNat ≤ commitMax s) :
    txCommit len s = if s.pendLen ≠ 0 then raiseError .txPending s else { s with pendLen := len.toNat } := by
  have nonzero : len.toNat ≠ 0 := fun zero => positive (BitVec.eq_of_toNat_eq zero)
  rw [txCommit_mayCommit may, if_neg (by omega)]

end Commit

/-- Settles O31: the tests in their order; the statement's maximum is `commitMax`. -/
theorem txCommitSetsThePendingLength : Obligations.TxCommitSetsThePendingLength := by
  unfold Obligations.TxCommitSetsThePendingLength
  intro len s max answers
  have answers_of {t : State} (h : txCommit len s = t) : answers t := h ▸ exec_cmdTxCommit_zero len s
  refine ⟨fun closed => answers_of (txCommit_state closed), fun may => ⟨fun bad => ?_, ?_, ?_⟩⟩
  · exact answers_of (txCommit_arg may bad)
  · intro positive fits pending
    exact answers_of ((txCommit_length may positive fits).trans (if_pos pending))
  · intro positive fits free
    exact answers_of ((txCommit_length may positive fits).trans (if_neg (not_not.2 free)))

/-! SOFT_RESET (R229; 70_reset_and_hazards.md R520). -/

/-- Settles O8: the reset state keeps `hist`, the pin and the model's own fields, and the response writes `out`. -/
theorem softResetKeepsOnlyHistoryAndPin : Obligations.SoftResetKeepsOnlyHistoryAndPin := by
  unfold Obligations.SoftResetKeepsOnlyHistoryAndPin
  intro s
  exact ⟨_, exec_argCommand_zero .softReset s, atReset_respond_softReset _ _ s, rfl, rfl, rfl, rfl, rfl⟩

end Sys2Proof.Machine
end

section
/-! What every step keeps of the storage (10_state.md R58, R66; 42_fifo.md R260): an outcome stores to TXBUF, it begins
a transfer or resets the block, or it leaves TXBUF alone, keeps the FIFO within its capacity, and its transfer goes on
in the same direction or ends. -/

namespace Sys2Proof.Machine

/-- From s to t each of the three storage invariants is kept. -/
structure KeepsStorage (s t : State) : Prop where
  memory : MemoryOk s → MemoryOk t
  fifo : FifoOk s → FifoOk t
  dir : DirOk s → DirOk t

/-- From s to t TXBUF is left alone, a FIFO within its capacity stays so, and the transfer ends or goes on in the same
direction. -/
structure StorageKept (s t : State) : Prop where
  params : t.params = s.params
  txbuf : t.txbuf = s.txbuf
  fifo : FifoOk s → FifoOk t
  transfer : t.core = .idle ∨ (t.core = s.core ∧ t.fifoDir = s.fifoDir)

/-- In IDLE the FIFO belongs to either direction. -/
theorem dirOk_of_idle {s : State} (idle : s.core = .idle) : DirOk s := by
  simp [DirOk, idle]

theorem StorageKept.keepsStorage {s t : State} (h : StorageKept s t) : KeepsStorage s t where
  memory ok := by
    unfold MemoryOk
    rw [h.txbuf, h.params]
    exact ok
  fifo := h.fifo
  dir ok := by
    rcases h.transfer with idle | ⟨core, dir⟩
    · exact dirOk_of_idle idle
    · unfold DirOk
      rw [core, dir]
      exact ok

/-- What changes none of the storage. -/
theorem StorageKept.of_eq {s t : State} (params : t.params = s.params) (txbuf : t.txbuf = s.txbuf)
    (fifo : t.fifo = s.fifo) (core : t.core = s.core) (dir : t.fifoDir = s.fifoDir) : StorageKept s t where
  params := params
  txbuf := txbuf
  fifo ok := by
    unfold FifoOk
    rw [fifo, params]
    exact ok
  transfer := .inr ⟨core, dir⟩

theorem KeepsStorage.of_eq {s t : State} (params : t.params = s.params) (txbuf : t.txbuf = s.txbuf)
    (fifo : t.fifo = s.fifo) (core : t.core = s.core) (dir : t.fifoDir = s.fifoDir) : KeepsStorage s t :=
  (StorageKept.of_eq params txbuf fifo core dir).keepsStorage

theorem KeepsStorage.trans {s t u : State} (h : KeepsStorage s t) (k : KeepsStorage t u) : KeepsStorage s u :=
  ⟨k.memory ∘ h.memory, k.fifo ∘ h.fifo, k.dir ∘ h.dir⟩

/-! The FIFO's level. -/

theorem length_drop_le_fifoCap {s : State} (ok : FifoOk s) (n : Nat) : (s.fifo.drop n).length ≤ s.params.fifoCap :=
  (List.drop_sublist n s.fifo).length_le.trans ok

/-- What fits into the space behind a FIFO within its capacity leaves it there. -/
theorem length_append_le_fifoCap {s : State} {more : List Tagged} (room : more.length ≤ fifoSpace s) (ok : FifoOk s) :
    (s.fifo ++ more).length ≤ s.params.fifoCap := by
  unfold fifoSpace at room
  unfold FifoOk at ok
  rw [List.length_append]
  omega

/-! The port and the engines leave the storage within its bounds. -/

theorem popBlock_storageKept (n : Nat) (s : State) : StorageKept s (popBlock n s) := by
  obtain ⟨fifo, stats, irqStatus, burstEnd, more, out, h, ⟨k, rfl⟩, -⟩ := popBlock_frame n s
  rw [h]
  exact ⟨rfl, rfl, fun ok => length_drop_le_fifoCap ok k, .inr ⟨rfl, rfl⟩⟩

theorem pushBlock_storageKept (ws : List Word) (s : State) : StorageKept s (pushBlock ws s) := by
  obtain ⟨more, stats, idle, stop, irqStatus, out, h, -, room, -, -⟩ := pushBlock_frame ws s
  rw [h]
  exact ⟨rfl, rfl, length_append_le_fifoCap (s := s) room, .inr ⟨rfl, rfl⟩⟩

theorem requestStop_storageKept (reason : StopReq) (s : State) : StorageKept s (requestStop reason s) := by
  obtain ⟨stop, h, -⟩ := requestStop_frame reason s
  rw [h]
  exact .of_eq rfl rfl rfl rfl rfl

/-- The engine's stop ends the transfer. -/
theorem engineStop_storageKept (s : State) : StorageKept s (engineStop s) := ⟨rfl, rfl, id, .inl rfl⟩

/-- A drain hands over what the FIFO has space for; handing over the final flush ends the transfer. -/
theorem drain_storageKept (s : State) : StorageKept s (drain s) := by
  rcases drain_cases s with ⟨h, -⟩ | ⟨room, frameCnt, irqStatus, core, stopReason, h, final, notFinal, -⟩
  · rw [h]
    exact ⟨rfl, rfl, length_append_le_fifoCap (s := s) (List.length_take_le _ _), .inr ⟨rfl, rfl⟩⟩
  · rw [h]
    refine ⟨rfl, rfl, length_append_le_fifoCap (s := s) room, ?_⟩
    cases last : s.tx.outFinal with
    | true => exact .inl (final last).1
    | false => exact .inr ⟨(notFinal last).1, rfl⟩

theorem frameBlock_storageKept (syms : List Bool) (s : State) : StorageKept s (frameBlock syms s) := by
  obtain ⟨more, words, pipe, ys, frameEnd, modem, h⟩ := frameBlock_frame syms s
  rw [h]
  exact .of_eq rfl rfl rfl rfl rfl

theorem silenceBlock_storageKept (s : State) : StorageKept s (silenceBlock s) := by
  obtain ⟨more, words, pipe, ys, h⟩ := silenceBlock_frame s
  rw [h]
  exact .of_eq rfl rfl rfl rfl rfl

theorem finalFlush_storageKept (s : State) : StorageKept s (finalFlush s) := by
  obtain ⟨more, words, pipe, ys, h⟩ := finalFlush_frame s
  rw [h]
  exact .of_eq rfl rfl rfl rfl rfl

theorem receiveSample_storageKept (e : Tagged) (s : State) : StorageKept s (receiveSample e s) := by
  obtain ⟨more, words, pipe, rx, rxq, last, stats, idle, irqStatus, h⟩ := receiveSample_frame e s
  rw [h]
  exact ⟨rfl, rfl, fun ok => length_drop_le_fifoCap ok 1, .inr ⟨rfl, rfl⟩⟩

/-! Stores and commands. -/

/-- A write inside the window keeps TXBUF's memory canonical and inside the window. -/
theorem writeTxbuf_memoryOk {s : State} {a n : Nat} (v : Word) (lo : 0x1000 ≤ a)
    (hi : a + n ≤ 0x1000 + s.params.maxPayloadHw) (ok : MemoryOk s) : MemoryOk (writeTxbuf a n v s) := by
  obtain ⟨canonical, inside⟩ := ok
  refine ⟨memWriteBytes_wf _ a canonical, fun c mem => ?_⟩
  rcases mem_memWriteBytes mem with ⟨low, high⟩ | old
  · rw [lanes_length] at high
    have base : txbufBase = 0x1000 := rfl
    rw [base, writeTxbuf_params]
    omega
  · exact inside c old

theorem StoreEffect.keepsStorage {s t : State} (h : StoreEffect s t) : KeepsStorage s t := by
  cases h with
  | irqStatus v => exact .of_eq rfl rfl rfl rfl rfl
  | irqEnable v => exact .of_eq rfl rfl rfl rfl rfl
  | cfg r v _ => exact .of_eq rfl rfl rfl rfl rfl
  | txbuf a n v free lo page hi => exact ⟨writeTxbuf_memoryOk v lo hi, id, id⟩

/-- An accepted START empties the FIFO and gives it the transfer's direction. -/
theorem beginTx_keepsStorage (s : State) : KeepsStorage s (beginTx s) where
  memory := id
  fifo _ := Nat.zero_le _
  dir _ := ⟨fun _ => rfl, nofun⟩

theorem beginRx_keepsStorage (s : State) : KeepsStorage s (beginRx s) where
  memory := id
  fifo _ := Nat.zero_le _
  dir _ := ⟨nofun, fun _ => rfl⟩

/-- A reset leaves no byte stored, no entry queued and the block IDLE. -/
theorem softReset_keepsStorage (s : State) : KeepsStorage s (softReset s) where
  memory _ := ⟨powerOn_memWf s.params s.stopAll, fun _ mem => absurd mem List.not_mem_nil⟩
  fifo _ := Nat.zero_le _
  dir _ := dirOk_of_idle rfl

theorem CommandEffect.keepsStorage {s t : State} (h : CommandEffect s t) : KeepsStorage s t := by
  cases h with
  | startTx => exact beginTx_keepsStorage s
  | startRx => exact beginRx_keepsStorage s
  | softReset => exact softReset_keepsStorage s
  | nothing | error | stop | commit | eos | rxqPop | clearStats | clearErr =>
    exact .of_eq rfl rfl rfl rfl rfl

/-! The step. -/

/-- A response writes none of the storage. -/
theorem KeepsStorage.respond {s t : State} (h : KeepsStorage s t) (v : Word) (e : Bool) :
    KeepsStorage s (respond v e t) := ⟨h.memory, h.fifo, h.dir⟩

theorem Effect.keepsStorage {s t : State} (h : Effect s t) : KeepsStorage s t := by
  cases h with
  | hold | failed | read | pin => exact .of_eq rfl rfl rfl rfl rfl
  | store t h => exact h.keepsStorage.respond _ _
  | command t h => exact h.keepsStorage.respond _ _
  | pop n => exact (popBlock_storageKept n s).keepsStorage
  | push ws => exact (pushBlock_storageKept ws s).keepsStorage
  | fault =>
    have recorded : KeepsStorage s (raiseError .radioFault s) := .of_eq rfl rfl rfl rfl rfl
    exact recorded.trans (requestStop_storageKept _ _).keepsStorage
  | stopped => exact (engineStop_storageKept s).keepsStorage
  | drain => exact (drain_storageKept s).keepsStorage
  | frame syms => exact (frameBlock_storageKept syms s).keepsStorage
  | chunk =>
    have started : KeepsStorage s (startFrame s) := .of_eq rfl rfl rfl rfl rfl
    exact started.trans (frameBlock_storageKept _ _).keepsStorage
  | silence => exact (silenceBlock_storageKept s).keepsStorage
  | flush => exact (finalFlush_storageKept s).keepsStorage
  | receive e => exact (receiveSample_storageKept e s).keepsStorage

/-- Settles O52: what every outcome keeps, every step keeps. -/
theorem stepKeepsStorageInBounds : Obligations.StepKeepsStorageInBounds := by
  unfold Obligations.StepKeepsStorageInBounds
  intro s t h
  obtain ⟨memory, fifo, dir⟩ : KeepsStorage s t :=
    step_relates (fun _ => ⟨id, id, id⟩) (fun _ _ _ kept => ⟨kept.memory, kept.fifo, kept.dir⟩)
      (fun _ _ effect => effect.keepsStorage) h
  exact ⟨memory, fifo, dir⟩

end Sys2Proof.Machine
end

section
/-! The sample FIFO and the radio port (42_fifo.md R261 to R265, R269; 60_exceptions.md R483). A pop and a push do
several things that may or may not happen: each is one update whose fields are conditional, and the operation's state is
these updates one after the other. -/

namespace Sys2Proof.Machine

/-! The FIFO (R261, R262, R269). -/

theorem popped_append_fifoPop (n : Nat) (s : State) : popped n s ++ (fifoPop n s).fifo = s.fifo :=
  List.take_append_drop n s.fifo

theorem popped_length (n : Nat) (s : State) : (popped n s).length = min n s.fifo.length := List.length_take

/-- Into an emptied FIFO a push of at most FIFO_CAP entries puts them all. -/
theorem fifoPush_fifo_of_empty {xs : List Tagged} {s : State} (empty : s.fifo = [])
    (fits : xs.length ≤ s.params.fifoCap) : (fifoPush xs s).fifo = xs := by
  have all : xs.length ≤ pushCount xs s := by simp [pushCount, fifoSpace, empty, fits]
  rw [fifoPush_fifo, empty, List.nil_append, List.take_of_length_le all]

/-- Settles O36: a pop cuts the FIFO in two, and into an emptied FIFO a push puts exactly its list. -/
theorem fifoReturnsWhatWasPushed : Obligations.FifoReturnsWhatWasPushed := by
  unfold Obligations.FifoReturnsWhatWasPushed
  intro xs s
  refine ⟨rfl, rfl, fun n => ⟨popped_append_fifoPop n s, popped_length n s, rfl⟩, fun empty fits => ?_⟩
  have pushed : (fifoPush xs s).fifo = xs := fifoPush_fifo_of_empty empty fits
  rw [popped, fifoPop_fifo, pushed]
  exact ⟨List.take_length, List.drop_length⟩

/-! What a pop or a push may do besides. -/

/-- A counter with its interrupt bit, field by field. -/
theorem countIf_eq (counted : Bool) (b : IrqBit) (f : Stats → Stats) (s : State) : countIf counted b f s =
    { s with
      stats := if counted then f s.stats else s.stats,
      irqStatus := s.irqStatus ||| (if counted then flagAt true (irqIndex b) else 0#32) } := by
  cases counted with
  | true => rfl
  | false => simp [countIf]

/-- The counters of an underrun of `pad` samples (R264). -/
def underrunStats (pad : Nat) (st : Stats) : Stats :=
  { st with underrunEv := st.underrunEv + 1#32, underrunSmp := st.underrunSmp + BitVec.ofNat 32 pad }

/-- The counters of an overrun of `lost` samples (R265). -/
def overrunStats (lost : Nat) (st : Stats) : Stats :=
  { st with overrunEv := st.overrunEv + 1#32, overrunSmp := st.overrunSmp + BitVec.ofNat 32 lost }

theorem countUnderrun_if (c : Prop) [Decidable c] (pad : Nat) (s : State) :
    (if c then countUnderrun pad s else s) = countIf (decide c) .underrun (underrunStats pad) s := by
  by_cases h : c <;> simp only [h] <;> rfl

theorem countOverrun_if (c : Prop) [Decidable c] (lost : Nat) (s : State) :
    (if c then countOverrun lost s else s) = countIf (decide c) .overrun (overrunStats lost) s := by
  by_cases h : c <;> simp only [h] <;> rfl

theorem markBurstEnd_eq (taken : List Tagged) (s : State) : markBurstEnd taken s =
    { s with
      irqStatus := s.irqStatus ||| (if taken.any (·.last) then 0x2000#32 else 0#32),
      burstEnd := s.burstEnd || taken.any (·.last),
      hist := s.hist ++ (if taken.any (·.last) then [.burstEnd] else []) } := by
  unfold markBurstEnd
  cases taken.any (·.last) with
  | true => simp; rfl
  | false => simp

/-! RADIO_POP (R264). -/

theorem exec_radioPop {n : Nat} (positive : 1 ≤ n) (s : State) : exec (.radioPop n) s = .next (popBlock n s) :=
  if_neg (by omega)

theorem fifoIsReceive_iff (s : State) : fifoIsReceive s = true ↔ s.core = .rxRun ∨ s.fifoDir = .rx := by
  simp [fifoIsReceive]

/-- What a pop answers where the FIFO belongs to the receive path. -/
theorem popBlock_receive (n : Nat) {s : State} (receive : fifoIsReceive s = true) : popBlock n s =
    { s with
      hist := s.hist ++ [.radioOut (List.replicate n padEntry)],
      out := { s.out with popped := List.replicate n 0#33 } } := by
  have silence : taggedWord padEntry = 0#33 := by decide
  simp only [popBlock, popResult, receive, if_true, List.map_replicate, silence]
  rfl

/-- The samples a pop is short of. -/
theorem popShortfall_eq (n : Nat) (s : State) : n - (popped n s).length = n - s.fifo.length := by
  rw [popped_length]
  omega

theorem popTransmit_eq (n : Nat) (s : State) : popTransmit n s =
    markBurstEnd (popped n s)
      (countIf (decide (s.fifo.length < n ∧ s.core = .txRun)) .underrun (underrunStats (n - s.fifo.length))
        (fifoPop n s)) := by
  have short : (0 < n - s.fifo.length ∧ s.core = .txRun) = (s.fifo.length < n ∧ s.core = .txRun) := by
    rw [Nat.sub_pos_iff_lt]
  unfold popTransmit
  simp only [popShortfall_eq, countUnderrun_if, short]

/-- What a pop answers where the FIFO belongs to the transmit path. -/
theorem popBlock_transmit (n : Nat) {s : State} (transmit : fifoIsReceive s = false) : popBlock n s =
    emit (.radioOut (popped n s ++ List.replicate (n - s.fifo.length) padEntry))
      { popTransmit n s with out := { s.out with
          popped := (popped n s ++ List.replicate (n - s.fifo.length) padEntry).map taggedWord } } := by
  have out : (popTransmit n s).out = s.out := by
    rw [popTransmit_eq, markBurstEnd_out, countIf_out, fifoPop_out]
  simp only [popBlock, popResult, transmit, popShortfall_eq, Bool.false_eq_true, if_false, out]

/-- Settles O33, by whose FIFO it is. -/
theorem radioPopReturnsEntriesOrSilence : Obligations.RadioPopReturnsEntriesOrSilence := by
  unfold Obligations.RadioPopReturnsEntriesOrSilence
  intro n s positive silent
  rw [exec_radioPop positive]
  refine ⟨fun receive => ?_, fun notRx dirTx => ?_⟩
  · rw [popBlock_receive n ((fifoIsReceive_iff s).2 receive)]
    rfl
  · have transmit : fifoIsReceive s = false := by simp [fifoIsReceive, notRx, dirTx]
    rw [popBlock_transmit n transmit, popTransmit_eq, markBurstEnd_eq, countIf_eq]
    rfl

/-! RADIO_PUSH (R265). -/

theorem exec_radioPush {ws : List Word} (nonempty : ws ≠ []) (s : State) :
    exec (.radioPush ws) s = .next (pushBlock ws s) :=
  if_neg nonempty

/-- How many of the samples offered a push keeps. -/
theorem pushCount_pushEntries (ws : List Word) (s : State) :
    pushCount (pushEntries ws) s = min ws.length (s.params.fifoCap - s.fifo.length) := by
  rw [pushCount, pushEntries, List.length_map, fifoSpace]

/-- The idle count after `n` samples were offered, which saturates (60_exceptions.md R483). -/
def idleReached (n : Nat) (s : State) : Nat := min (s.idle.toNat + n) (2 ^ 64 - 1)

/-- The idle timeout fires: the count is at the limit and no stop is pending (R483). -/
def idleFires (n : Nat) (s : State) : Bool :=
  decide (s.lcfg.timeout ≠ 0#32 ∧ s.lcfg.timeout.toNat * s.lcfg.fs.toNat ≤ idleReached n s ∧ s.stop = none)

theorem requestStop_first (reason : StopReq) {s : State} (running : s.core ≠ .idle) (free : s.stop = none) :
    requestStop reason s = { s with stop := some reason } := by
  rw [requestStop, if_neg running, if_pos (.inl free)]

theorem stop_of_idleFires {n : Nat} {s : State} (fires : idleFires n s = true) : s.stop = none := by
  obtain ⟨-, -, free⟩ := of_decide_eq_true fires
  exact free

theorem idleAccount_if (n : Nat) (s : State) : idleAccount n s =
    if idleFires n s then irq .timeout (requestStop .timeout { s with idle := BitVec.ofNat 64 (idleReached n s) })
    else { s with idle := BitVec.ofNat 64 (idleReached n s) } := by
  simp only [idleFires, decide_eq_true_eq]
  rfl

theorem idleAccount_eq (n : Nat) {s : State} (running : s.core ≠ .idle) : idleAccount n s =
    { s with
      idle := BitVec.ofNat 64 (idleReached n s),
      stop := if idleFires n s then some .timeout else s.stop,
      irqStatus := s.irqStatus ||| (if idleFires n s then 0x800#32 else 0#32) } := by
  rw [idleAccount_if]
  cases fires : idleFires n s with
  | true =>
    have free : s.stop = none := stop_of_idleFires fires
    rw [if_pos rfl, requestStop_first .timeout]
    exacts [rfl, running, free]
  | false => simp

theorem pushReceive_eq (ws : List Word) (s : State) : pushReceive ws s =
    idleAccount ws.length
      (countIf (decide (pushCount (pushEntries ws) s < ws.length)) .overrun
        (overrunStats (ws.length - pushCount (pushEntries ws) s)) (fifoPush (pushEntries ws) s)) := by
  unfold pushReceive
  simp only [countOverrun_if]

/-- Outside RX_RUN a push accepts nothing. -/
theorem pushBlock_notReceive (ws : List Word) {s : State} (notRx : s.core ≠ .rxRun) :
    pushBlock ws s = { s with out := { s.out with accepted := 0 } } := by
  simp only [pushBlock, acceptedCount, if_pos notRx]

/-- In RX_RUN it accepts the samples it keeps. -/
theorem pushBlock_receive (ws : List Word) {s : State} (receive : s.core = .rxRun) : pushBlock ws s =
    { pushReceive ws s with
      out := { (pushReceive ws s).out with accepted := pushCount (pushEntries ws) s } } := by
  simp only [pushBlock, acceptedCount, if_neg (not_not.2 receive)]

/-- Settles O34, by whether a reception runs. -/
theorem radioPushKeepsThePrefixAndAccountsIdle : Obligations.RadioPushKeepsThePrefixAndAccountsIdle := by
  unfold Obligations.RadioPushKeepsThePrefixAndAccountsIdle
  intro ws s nonempty
  rw [exec_radioPush nonempty]
  refine ⟨fun notRx => ?_, fun receive => ?_⟩
  · rw [pushBlock_notReceive ws notRx]
  · have running : s.core ≠ .idle := by simp [receive]
    rw [pushBlock_receive ws receive, pushReceive_eq, idleAccount_eq _ (by rw [countIf_core]; exact running),
      countIf_eq, fifoPush, pushCount_pushEntries, pushEntries, ← List.map_take]
    rfl

end Sys2Proof.Machine
end

section
/-! The sample pipeline (43_pipeline.md R292 to R300, R305). The mixer and the complex product by themselves, then the two
directions' stages in order, then the normaliser: a sample's magnitude is the integer square root of its power, a block's
peak the largest of its magnitudes, and scaling by limit over peak brings every magnitude within the limit. -/

namespace Sys2Proof.Machine

/-! The increment (R293) and the complex product (R294). -/

theorem ncoInc_zero (fs : Nat) : ncoInc 0 fs = 0#32 := by
  have rounded : ((2 ^ 33 * 0 + fs : Int) / (2 * fs)) = 0 := by
    rcases Nat.eq_zero_or_pos fs with rfl | pos
    · rfl
    · exact Int.ediv_eq_zero_of_lt (by omega) (by omega)
  rw [ncoInc, rounded]
  rfl

theorem ncoInc_toNat (f : Int) (fs : Nat) :
    ((ncoInc f fs).toNat : Int) = ((2 ^ 33 * f + fs) / (2 * fs)) % 2 ^ 32 := by
  rw [ncoInc, BitVec.toNat_ofInt, Int.toNat_of_nonneg (Int.emod_nonneg _ (by decide))]
  rfl

/-- Both directions start with opposite increments (R297). -/
theorem pipeInit_inc_add (p : Params) (l : LCfg) : (pipeInitTx p l).inc + (pipeInitRx p l).inc = 0#32 :=
  BitVec.add_right_neg _

theorem toInt_ofInt_sat16 (x : Int) : (BitVec.ofInt 16 (sat16 x)).toInt = sat16 x := by
  have low : -32768 ≤ sat16 x := le_max_left _ _
  have high : sat16 x ≤ 32767 := max_le (by decide) (min_le_left _ _)
  exact BitVec.toInt_ofInt_eq_self (by decide) (by omega) (by omega)

/-! The mixer (R295, R296). -/

/-- With a zero increment the bypass leaves the phase, and so does adding the increment. -/
theorem mix_pipe (p : Pipe) (x : Sample) : (mix p x).1 = { p with phase := p.phase + p.inc } := by
  by_cases bypass : p.inc = 0#32
  · rw [mix, if_pos bypass]
    conv_rhs => rw [bypass, BitVec.add_zero, ← bypass]
  · rw [mix, if_neg bypass]

theorem mix_sample (p : Pipe) (x : Sample) :
    (mix p x).2 = if p.inc = 0#32 then x else cmul x (Config.cis p.phase) := by
  rw [mix, apply_ite Prod.snd]

theorem mixFilter_eq (p : Pipe) (x : Sample) : mixFilter p x =
    ({ p with phase := p.phase + p.inc, filt := (Config.fltStep p.filt (mix p x).2).1 },
      (Config.fltStep p.filt (mix p x).2).2) := by
  rw [mixFilter, filterStep, mix_pipe]

/-! The stages in order (R298, R300). -/

/-- The mixer's outputs for a list: the n-th sample is multiplied by the phasor n increments on. -/
def mixed (p : Pipe) (xs : List Sample) : List Sample :=
  if p.inc = 0#32 then xs
  else xs.mapIdx (fun n x => cmul x (Config.cis (p.phase + BitVec.ofNat 32 n * p.inc)))

/-- The phase n + 1 increments on is that n increments on from the next phase. -/
theorem phase_succ (phase inc : Word) (n : Nat) :
    phase + BitVec.ofNat 32 (n + 1) * inc = phase + inc + BitVec.ofNat 32 n * inc := by
  rw [BitVec.ofNat_add, BitVec.add_mul, BitVec.one_mul, BitVec.add_comm (_ * inc), BitVec.add_assoc]

theorem mixed_nil (p : Pipe) : mixed p [] = [] := by
  rw [mixed, List.mapIdx_nil, ite_self]

/-- The list mixed is the mixer run over it, each sample by the mixer the one before left. -/
theorem mixed_cons (p : Pipe) (x : Sample) (xs : List Sample) :
    mixed p (x :: xs) = (mix p x).2 :: mixed (mixFilter p x).1 xs := by
  rw [mix_sample, mixFilter_eq]
  by_cases bypass : p.inc = 0#32
  · simp only [mixed, if_pos bypass]
  · simp only [mixed, if_neg bypass, List.mapIdx_cons, phase_succ, BitVec.zero_mul, BitVec.add_zero]

/-- The mixer and the filter over a list: the filter runs over the mixed list, and the resampler stays. -/
theorem mixFilterAll_eq (p : Pipe) (xs : List Sample) : mixFilterAll p xs =
    ({ p with
        phase := p.phase + BitVec.ofNat 32 xs.length * p.inc
        filt := (mixed p xs).foldl (fun f m => (Config.fltStep f m).1) p.filt },
      Config.fltRun p.filt (mixed p xs)) := by
  induction xs generalizing p with
  | nil => simp [mixFilterAll, mixed_nil, Config.fltRun]
  | cons x xs ih =>
    rw [mixFilterAll, ih, mixed_cons, Config.fltRun, List.foldl_cons, List.length_cons, phase_succ]
    simp only [mixFilter_eq]

theorem mixFilterAll_append (p : Pipe) (xs ys : List Sample) : mixFilterAll p (xs ++ ys) =
    ((mixFilterAll (mixFilterAll p xs).1 ys).1,
      (mixFilterAll p xs).2 ++ (mixFilterAll (mixFilterAll p xs).1 ys).2) := by
  induction xs generalizing p with
  | nil => rfl
  | cons x xs ih => rw [List.cons_append, mixFilterAll, ih, mixFilterAll, List.cons_append]

/-- The mixer and the filter neither read nor change the resampler. -/
theorem mixFilterAll_withResampler (p : Pipe) (r : RsS) (xs : List Sample) :
    mixFilterAll { p with rs := r } xs = ({ (mixFilterAll p xs).1 with rs := r }, (mixFilterAll p xs).2) := by
  simp only [mixFilterAll_eq]
  rfl

/-- Input by input or stage by stage, the transmit chain is the same: the whole block may be resampled first. -/
theorem txChain_eq (p : Pipe) (xs : List Sample) : txChain p xs =
    mixFilterAll { p with rs := (Config.rsRun p.rs xs).1 } (Config.rsRun p.rs xs).2 := by
  induction xs generalizing p with
  | nil => rfl
  | cons x xs ih =>
    rw [txChain, ih, txInput, Config.rsRun, mixFilterAll_append,
      mixFilterAll_withResampler p (Config.rsStep p.rs x).1,
      mixFilterAll_withResampler p (Config.rsRun (Config.rsStep p.rs x).1 xs).1]

theorem txBlock_eq (lim : Nat) (p : Pipe) (xs : List Sample) : txBlock lim p xs =
    ({ rs := (Config.rsRun p.rs xs).1
       phase := p.phase + BitVec.ofNat 32 (Config.rsRun p.rs xs).2.length * p.inc
       inc := p.inc
       filt := (mixed p (Config.rsRun p.rs xs).2).foldl (fun f m => (Config.fltStep f m).1) p.filt },
      normalise lim (Config.fltRun p.filt (mixed p (Config.rsRun p.rs xs).2))) := by
  rw [txBlock, txChain_eq, mixFilterAll_eq]
  rfl

theorem rxSample_eq (p : Pipe) (x : Sample) : rxSample p x =
    ({ rs := (Config.rsStep p.rs (Config.fltStep p.filt (mix p x).2).2).1
       phase := p.phase + p.inc
       inc := p.inc
       filt := (Config.fltStep p.filt (mix p x).2).1 },
      (Config.fltStep p.filt (mix p x).2).2,
      (Config.rsStep p.rs (Config.fltStep p.filt (mix p x).2).2).2) := by
  simp only [rxSample, mixFilter_eq]

/-! A sample's magnitude and a block's peak (R299). -/

/-- A sample's power, I·I + Q·Q. -/
def power (y : Sample) : Int := y.i.toInt * y.i.toInt + y.q.toInt * y.q.toInt

theorem power_nonneg (y : Sample) : 0 ≤ power y := add_nonneg (mul_self_nonneg _) (mul_self_nonneg _)

theorem toInt_mul_self_le (c : BitVec 16) : c.toInt * c.toInt ≤ 2 ^ 30 := by
  have low : -2 ^ 15 ≤ c.toInt := BitVec.le_toInt c
  have high : c.toInt < 2 ^ 15 := BitVec.toInt_lt
  nlinarith only [low, high]

theorem power_le (y : Sample) : power y ≤ 2 ^ 31 := by
  have real := toInt_mul_self_le y.i
  have imaginary := toInt_mul_self_le y.q
  unfold power
  omega

/-- What the k low bits of the search find: from a root of n less than 2^k short, the floor root. -/
theorem isqrtBits_spec {n k acc : Nat} (below : acc * acc ≤ n) (above : n < (acc + 2 ^ k) * (acc + 2 ^ k)) :
    isqrtBits n k acc * isqrtBits n k acc ≤ n ∧ n < (isqrtBits n k acc + 1) * (isqrtBits n k acc + 1) := by
  induction k generalizing acc with
  | zero => exact ⟨below, above⟩
  | succ k ih =>
    rw [isqrtBits]
    split
    next fits =>
      refine ih fits ?_
      rwa [Nat.pow_succ, Nat.mul_two, ← Nat.add_assoc] at above
    next exceeds => exact ih below (not_le.1 exceeds)

theorem isqrt_eq_sqrt {n : Nat} (bounded : n < 2 ^ 34) : isqrt n = Nat.sqrt n := by
  obtain ⟨root_le, lt_succ⟩ := isqrtBits_spec (k := 17) (acc := 0) (Nat.zero_le n) bounded
  exact Nat.eq_sqrt.2 ⟨root_le, lt_succ⟩

theorem le_magnitude_iff {r : Nat} {y : Sample} : r ≤ magnitude y ↔ (r * r : Int) ≤ power y := by
  have nonneg := power_nonneg y
  have bounded := power_le y
  have root : magnitude y = Nat.sqrt (power y).toNat := isqrt_eq_sqrt (n := (power y).toNat) (by omega)
  rw [root, Nat.le_sqrt, Int.le_toNat nonneg, Nat.cast_mul]

theorem magnitude_le_iff {n : Nat} {y : Sample} : magnitude y ≤ n ↔ power y < ((n : Int) + 1) * (n + 1) := by
  rw [← Nat.lt_succ_iff, ← not_le, le_magnitude_iff, not_le, Nat.cast_succ]

theorem peak_le_iff {n : Nat} {ys : List Sample} : peak ys ≤ n ↔ ∀ y ∈ ys, magnitude y ≤ n := by
  have folded : ∀ m, ys.foldl (fun m s => max m (magnitude s)) m ≤ n ↔ m ≤ n ∧ ∀ y ∈ ys, magnitude y ≤ n := by
    induction ys with
    | nil => simp
    | cons y ys ih =>
      intro m
      rw [List.foldl_cons, ih, max_le_iff, List.forall_mem_cons, and_assoc]
  rw [peak, folded, and_iff_right (Nat.zero_le n)]

theorem magnitude_le_peak {y : Sample} {ys : List Sample} (mem : y ∈ ys) : magnitude y ≤ peak ys :=
  peak_le_iff.1 le_rfl y mem

/-- The peak is the number no power reaches the next square of, and some power reaches the square of. -/
theorem peak_eq {n : Nat} {ys : List Sample} (bound : ∀ y ∈ ys, power y < ((n : Int) + 1) * (n + 1))
    (reached : ∃ y ∈ ys, (n * n : Int) ≤ power y) : peak ys = n := by
  obtain ⟨y, mem, square_le⟩ := reached
  have le_peak : n ≤ peak ys := (le_magnitude_iff.2 square_le).trans (magnitude_le_peak mem)
  exact le_antisymm (peak_le_iff.2 fun z hz => magnitude_le_iff.2 (bound z hz)) le_peak

/-! Normalisation (R299, R305). -/

/-- A sample's two components scaled. -/
def scaled (lim p : Nat) (y : Sample) : Sample := ⟨scaleComponent lim p y.i, scaleComponent lim p y.q⟩

theorem normalise_of_le {lim : Nat} {ys : List Sample} (within : peak ys ≤ lim) : normalise lim ys = ys :=
  if_pos within

theorem normalise_of_lt {lim : Nat} {ys : List Sample} (above : lim < peak ys) :
    normalise lim ys = ys.map (scaled lim (peak ys)) :=
  if_neg (not_le.2 above)

/-- Truncation goes toward zero: the quotient times the divisor is at most the dividend, in size. -/
theorem natAbs_tdiv_mul_le (a b : Int) : (a.tdiv b).natAbs * b.natAbs ≤ a.natAbs := by
  rw [Int.natAbs_tdiv]
  exact Nat.div_mul_le_self _ _

/-- Scaling down cannot leave the 16-bit range, so the scaled component is the quotient. -/
theorem scaleComponent_toInt {lim p : Nat} (down : lim < p) (c : BitVec 16) :
    (scaleComponent lim p c).toInt = (c.toInt * lim).tdiv p := by
  have low : -2 ^ 15 ≤ c.toInt := BitVec.le_toInt c
  have high : c.toInt < 2 ^ 15 := BitVec.toInt_lt
  have size : ((c.toInt * lim).tdiv p).natAbs < 2 ^ 15 := by
    refine Nat.lt_of_mul_lt_mul_right (a := p) ?_
    calc ((c.toInt * lim).tdiv p).natAbs * p
        ≤ (c.toInt * lim).natAbs := natAbs_tdiv_mul_le _ p
      _ = c.toInt.natAbs * lim := Int.natAbs_mul _ _
      _ ≤ 2 ^ 15 * lim := Nat.mul_le_mul_right lim (by omega)
      _ < 2 ^ 15 * p := Nat.mul_lt_mul_of_pos_left down (by decide)
  exact BitVec.toInt_ofInt_eq_self (by decide) (by omega) (by omega)

theorem scaleComponent_mul_le {lim p : Nat} (down : lim < p) (c : BitVec 16) :
    (scaleComponent lim p c).toInt.natAbs * p ≤ c.toInt.natAbs * lim := by
  rw [scaleComponent_toInt down, ← Int.natAbs_natCast lim, ← Int.natAbs_mul]
  exact natAbs_tdiv_mul_le (c.toInt * lim) p

theorem power_scaled_mul_le {lim p : Nat} (down : lim < p) (y : Sample) :
    power (scaled lim p y) * (p * p) ≤ power y * (lim * lim) := by
  have square : ∀ c : BitVec 16, (scaleComponent lim p c).toInt * (scaleComponent lim p c).toInt * (p * p) ≤
      c.toInt * c.toInt * (lim * lim) := by
    intro c
    have squares := Nat.mul_self_le_mul_self (scaleComponent_mul_le down c)
    zify at squares
    rwa [mul_mul_mul_comm, mul_mul_mul_comm |c.toInt|, abs_mul_abs_self, abs_mul_abs_self] at squares
  unfold power
  rw [add_mul, add_mul]
  exact add_le_add (square y.i) (square y.q)

/-- A root of the scaled power times p is at most lim·(p + 1), which is below (lim + 1)·p. -/
theorem magnitude_scaled_le {lim p : Nat} {y : Sample} (down : lim < p) (bounded : magnitude y ≤ p) :
    magnitude (scaled lim p y) ≤ lim := by
  generalize root : magnitude (scaled lim p y) = r
  have squares : (r * p) * (r * p) ≤ ((p + 1) * lim) * ((p + 1) * lim) := by
    zify
    calc (r * p : Int) * (r * p)
        = r * r * (p * p) := mul_mul_mul_comm _ _ _ _
      _ ≤ power (scaled lim p y) * (p * p) :=
          mul_le_mul_of_nonneg_right (le_magnitude_iff.1 root.ge) (mul_self_nonneg _)
      _ ≤ power y * (lim * lim) := power_scaled_mul_le down y
      _ ≤ (p + 1) * (p + 1) * (lim * lim) :=
          mul_le_mul_of_nonneg_right (magnitude_le_iff.1 bounded).le (mul_self_nonneg _)
      _ = (p + 1) * lim * ((p + 1) * lim) := mul_mul_mul_comm _ _ _ _
  have product_lt : r * p < (lim + 1) * p := by
    have product_le : r * p ≤ (p + 1) * lim := Nat.mul_self_le_mul_self_iff.1 squares
    linarith
  exact Nat.lt_succ_iff.1 (Nat.lt_of_mul_lt_mul_right product_lt)

theorem magnitude_normalise_le {lim : Nat} {ys : List Sample} {y : Sample} (mem : y ∈ normalise lim ys) :
    magnitude y ≤ lim := by
  rcases le_or_gt (peak ys) lim with within | above
  · rw [normalise_of_le within] at mem
    exact (magnitude_le_peak mem).trans within
  · rw [normalise_of_lt above] at mem
    obtain ⟨x, hx, rfl⟩ := List.mem_map.1 mem
    exact magnitude_scaled_le above (magnitude_le_peak hx)

/-- Settles O51, stage by stage; the peak limit by what scaling does to a sample's power. -/
theorem zeroOffsetBypassAndTransmitPeak : Obligations.ZeroOffsetBypassAndTransmitPeak := by
  unfold Obligations.ZeroOffsetBypassAndTransmitPeak
  refine ⟨fun p l pipe x zero => ⟨?txInc, ?rxInc, ?bypass⟩, ?mixer, fun f fs _ => ncoInc_toNat f fs,
    fun p l => ⟨rfl, pipeInit_inc_add p l⟩, fun a b => ⟨toInt_ofInt_sat16 _, toInt_ofInt_sat16 _⟩, txBlock_eq, ?receive,
    fun lim p ys => ⟨?within, ?above⟩, fun lim ys y mem r root => ?limit⟩
  case txInc => rw [pipeInitTx, zero, ncoInc_zero]
  case rxInc => rw [pipeInitRx, zero, ncoInc_zero, BitVec.neg_zero]
  case bypass => exact fun zeroInc => if_pos zeroInc
  case mixer => exact fun pipe x nonzero => if_neg nonzero
  case receive =>
    intro pipe x
    rw [← mix_sample]
    exact rxSample_eq pipe x
  case within => exact fun bound => normalise_of_le (peak_le_iff.2 fun y mem => magnitude_le_iff.2 (bound y mem))
  case above =>
    intro exceeds bound reached
    have peakIs := peak_eq bound reached
    rw [normalise_of_lt (peakIs ▸ exceeds), peakIs]
    rfl
  case limit => exact (le_magnitude_iff.2 root).trans (magnitude_normalise_le mem)

end Sys2Proof.Machine
end

section
/-! The frame codec: what each layer encodes its decoder gives back. The Hamming layer's proof is about received bits that
may differ from the sent ones in one place of each codeword (44_frame_codec.md R336, R338); a block without errors is the
case in which none differs. -/

namespace Sys2Proof.Machine

/-- The codewords at the heads of two bit lists agree in all but at most one place. -/
def AtMostOneFlip (received sent : List Bool) : Prop :=
  ∃ j, j < 7 ∧ ∀ m, m < 7 → m ≠ j → received[m]? = sent[m]?

theorem AtMostOneFlip.refl (b : List Bool) : AtMostOneFlip b b := ⟨0, by decide, fun _ _ _ => rfl⟩

theorem atMostOneFlip_drop_iff {received sent : List Bool} {i : Nat} :
    AtMostOneFlip (received.drop i) (sent.drop i) ↔
      ∃ j, j < 7 ∧ ∀ m, m < 7 → m ≠ j → received[i + m]? = sent[i + m]? := by
  simp only [AtMostOneFlip, List.getElem?_drop]

/-- What is received is what was sent, but for one place j where the flip e, if there is one, stands. -/
theorem AtMostOneFlip.getD_eq {received sent : List Bool} (h : AtMostOneFlip received sent) :
    ∃ j e, j < 7 ∧ ∀ m, m < 7 → received.getD m false = (sent.getD m false ^^ (m == j && e)) := by
  obtain ⟨j, hj, agree⟩ := h
  refine ⟨j, sent.getD j false ^^ received.getD j false, hj, fun m hm => ?_⟩
  by_cases place : m = j
  · subst place
    simp
  · simp [beq_false_of_ne place, List.getD_eq_getElem?_getD, agree m hm place]

theorem flips_at_one_place_le_one : ∀ j, j < 7 → ∀ e : Bool,
    (0 == j && e).toNat + (1 == j && e).toNat + (2 == j && e).toNat + (3 == j && e).toNat + (4 == j && e).toNat +
      (5 == j && e).toNat + (6 == j && e).toNat ≤ 1 := by decide

/-- A received codeword with at most one flip decodes to the nibble that was sent. -/
theorem nibbleAt_of_atMostOneFlip {received rest : List Bool} {d1 d2 d3 d4 : Bool}
    (h : AtMostOneFlip received (codeword d1 d2 d3 d4 ++ rest)) : nibbleAt received = (d1, d2, d3, d4) := by
  obtain ⟨j, e, hj, bit⟩ := h.getD_eq
  unfold nibbleAt
  rw [bit 0 (by decide), bit 1 (by decide), bit 2 (by decide), bit 3 (by decide), bit 4 (by decide), bit 5 (by decide),
    bit 6 (by decide)]
  exact decodeCodeword_flip d1 d2 d3 d4 _ _ _ _ _ _ _ (flips_at_one_place_le_one j hj e)

/-- Received bits with at most one flip in each codeword, whatever follows the codewords, decode to the bytes sent. -/
theorem decodeBytes_of_atMostOneFlip (bs : List Byte) (received rest : List Bool)
    (h : ∀ k, k < 2 * bs.length →
      AtMostOneFlip (received.drop (7 * k)) ((bs.flatMap byteCodewords ++ rest).drop (7 * k))) :
    decodeBytes bs.length received = bs := by
  induction bs generalizing received with
  | nil => rfl
  | cons x bs ih =>
    rw [List.length_cons] at h
    have high := nibbleAt_of_atMostOneFlip (received := received) (h 0 (by omega))
    have low := nibbleAt_of_atMostOneFlip (h 1 (by omega))
    have tail : decodeBytes bs.length (received.drop 14) = bs := by
      refine ih _ fun k hk => ?_
      have shifted := h (k + 2) (by omega)
      rw [show 7 * (k + 2) = 14 + 7 * k by omega, ← List.drop_drop, ← List.drop_drop] at shifted
      exact shifted
    simp only [List.length_cons, decodeBytes, high, low, tail, byteOfBits_byteBits]

/-- The bits of a Hamming-encoded list are its codewords and their padding (44_frame_codec.md R337). -/
theorem bitsOf_h74Enc (bs : List Byte) :
    ∃ padding, bitsOf (h74Enc bs) = bs.flatMap byteCodewords ++ padding := by
  refine ⟨_, bitsOf_pack_of_length (h74Len bs.length) _ ?_⟩
  simp only [List.length_append, List.length_replicate, flatMap_codewords_length, h74Len]
  omega

/-- Bytes received with at most one flip in each codeword decode to the bytes sent. -/
theorem h74Dec_of_atMostOneFlip (bs cs : List Byte)
    (h : ∀ k, k < 2 * bs.length →
      AtMostOneFlip ((bitsOf cs).drop (7 * k)) ((bitsOf (h74Enc bs)).drop (7 * k))) :
    h74Dec cs bs.length = bs := by
  obtain ⟨padding, sent⟩ := bitsOf_h74Enc bs
  exact decodeBytes_of_atMostOneFlip bs _ padding (sent ▸ h)

theorem h74Dec_h74Enc (bs : List Byte) : h74Dec (h74Enc bs) bs.length = bs :=
  h74Dec_of_atMostOneFlip bs _ fun _ _ => .refl _

theorem fecDec_fecEnc (k : FecScheme) (bs : List Byte) : fecDec k (fecEnc k bs) bs.length = bs := by
  cases k with
  | none => rfl
  | hamming74 => exact h74Dec_h74Enc bs

theorem crcCheck_crcAdd (k : CrcScheme) (bs : List Byte) : crcCheck k (crcAdd k bs) = (bs, true) := by
  cases k with
  | none => rfl
  | crc32 => simp [crcAdd, crcCheck]

theorem encodeBlock_length (l : LCfg) (bs : List Byte) : (encodeBlock l bs).length = encodedLen l bs.length := by
  simp only [encodeBlock, encodedLen, fecEnc_length, crcAdd_length]

/-- Where the outer layer gives the inner layer's block back, and that layer the block with its CRC, the block is valid. -/
theorem decodeBlock_of_layers {l : LCfg} {bs cs inner : List Byte}
    (outer : fecDec l.fecOut cs (fecLen l.fecIn (crcAdd l.crc bs).length) = inner)
    (innerDec : fecDec l.fecIn inner (crcAdd l.crc bs).length = crcAdd l.crc bs) :
    decodeBlock l cs bs.length = (bs, true) := by
  rw [decodeBlock, ← crcAdd_length, outer, innerDec, crcCheck_crcAdd]

/-- Settles O49: each layer's decoder undoes its encoder, outermost first. -/
theorem decodeUndoesEncode : Obligations.DecodeUndoesEncode := by
  unfold Obligations.DecodeUndoesEncode
  intro l bs
  refine ⟨encodeBlock_length l bs, decodeBlock_of_layers ?_ (fecDec_fecEnc l.fecIn _)⟩
  rw [← fecEnc_length]
  exact fecDec_fecEnc l.fecOut _

/-- Settles O50: the inner decoder corrects the flip of each codeword and never reads the padding. -/
theorem singleFlipsAreCorrected : Obligations.SingleFlipsAreCorrected := by
  unfold Obligations.SingleFlipsAreCorrected
  intro l bs received inner outer sent len flips
  have sentBits : sent = bitsOf (h74Enc (crcAdd l.crc bs)) := by
    simp only [sent, encodeBlock, inner, outer, fecEnc]
  have receivedBits : bitsOf (pack received) = received :=
    bitsOf_pack_of_length _ _ (len.trans (bitsOf_length _))
  have corrected : h74Dec (pack received) (crcAdd l.crc bs).length = crcAdd l.crc bs := by
    refine h74Dec_of_atMostOneFlip _ _ fun k hk => ?_
    rw [receivedBits, ← sentBits, atMostOneFlip_drop_iff]
    exact flips k (crcAdd_length l.crc bs ▸ hk)
  refine decodeBlock_of_layers (inner := pack received) ?_ ?_
  · rw [outer, fecDec]
  · rw [inner, fecDec, corrected]

end Sys2Proof.Machine
end

section
/-! The engines' holds and the transmit engine's steps (45_generator.md R380 to R390, 46_synchronizer.md R440). A step
that goes on drains or produces; a block is produced in one update of the state (`produceBlock_eq`), and so are a drain
and its completion (`drain_partial`, `drain_whole`). -/

namespace Sys2Proof.Machine

/-! The enabling conditions (R380, R440; 00_scope.md R11). -/

theorem stopSeen_iff (s : State) : stopSeen s = true ↔ s.stop ≠ none ∨ s.stopAll = true := by
  simp [stopSeen, Option.isSome_iff_ne_none]

theorem stopSeen_eq_false_iff (s : State) : stopSeen s = false ↔ s.stop = none ∧ s.stopAll = false := by
  simp [stopSeen]

theorem txEnabled_iff (s : State) : txEnabled s = true ↔ s.core = .txRun ∧
    ¬ (s.tx.phase = .drain ∧ fifoSpace s = 0 ∧ s.stop = none ∧ s.stopAll = false) := by
  simp only [txEnabled, Bool.and_eq_true, Bool.not_eq_true', ← Bool.not_eq_true, beq_iff_eq,
    Option.isNone_iff_eq_none, and_assoc]

theorem rxEnabled_iff (s : State) : rxEnabled s = true ↔ s.core = .rxRun ∧
    (stopSeen s = true ∨ (0 < s.fifo.length ∧ s.rxq.length < s.params.rxqDepth)) := by
  simp [rxEnabled, List.length_pos_iff]

theorem exec_txStep_of_held {s : State} (held : txEnabled s = false) : exec .txStep s = .next s := by
  simp only [exec, execTxStep, held, Bool.not_false, if_true]

theorem exec_rxStep_of_held {s : State} (held : rxEnabled s = false) : exec .rxStep s = .next s := by
  simp only [exec, execRxStep, held, Bool.not_false, if_true]

/-- Settles O39: each condition is read off its definition, and a step tests it first. -/
theorem enginesHoldExactlyAsStated : Obligations.EnginesHoldExactlyAsStated := by
  unfold Obligations.EnginesHoldExactlyAsStated
  intro s
  refine ⟨txEnabled_iff s, ?_, exec_txStep_of_held, exec_rxStep_of_held⟩
  rw [← stopSeen_iff]
  exact rxEnabled_iff s

/-! A TX step that goes on (R381). -/

theorem exec_txStep_drain {s : State} (enabled : txEnabled s = true) (go : stopSeen s = false)
    (phase : s.tx.phase = .drain) : exec .txStep s = .next (drain s) := by
  simp only [exec, execTxStep, enabled, go, phase, Bool.not_true, Bool.false_eq_true, if_false, if_true]

/-- In phase PRODUCE the engine is never held. -/
theorem exec_txStep_produce {s : State} (running : s.core = .txRun) (go : stopSeen s = false)
    (phase : s.tx.phase = .produce) : exec .txStep s = produce s := by
  have enabled : txEnabled s = true := (txEnabled_iff s).2 ⟨running, by simp [phase]⟩
  simp only [exec, execTxStep, enabled, go, phase, Bool.not_true, Bool.false_eq_true, reduceCtorEq, if_false]

/-- What `produce` does in each state of the generator (R383). -/
theorem produce_frame {s : State} {syms : List Bool} (gen : s.tx.gen = .frame syms) :
    produce s = .next (frameBlock syms s) := by
  simp only [produce, gen]

theorem produce_chunk {s : State} (gen : s.tx.gen = .wait) (pending : s.pendLen ≠ 0) :
    produce s = .next (frameBlock (pendingSyms s) (startFrame s)) := by
  simp only [produce, gen, if_pos pending]

theorem produce_idle {s : State} (gen : s.tx.gen = .wait) (free : s.pendLen = 0) :
    produce s = .next (if s.eos then finalFlush s else silenceBlock s) := by
  simp only [produce, gen, if_neg (not_not.2 free)]
  cases s.eos <;> rfl

theorem produce_fault {s : State} {f : Fault} (h : produce s = .fault f) : s.tx.gen = .final := by
  cases gen : s.tx.gen with
  | frame syms => rw [produce_frame gen] at h; cases h
  | wait =>
    by_cases free : s.pendLen = 0
    · rw [produce_idle gen free] at h; cases h
    · rw [produce_chunk gen free] at h; cases h
  | final => rfl

/-! A block produced (R382, R390; 43_pipeline.md R298, R304). -/

/-- The dump of a list of samples in one update (43_pipeline.md R304, 30_encoding.md R146). -/
theorem dumpAll_eq (dir : Dir) (ys : List Sample) (s : State) : dumpAll dir ys s =
    { s with
      hist := s.hist ++ (if dumpOn s then ys.map (Event.dump dir) else []),
      out := { s.out with dumped := if dumpOn s then ys.map (dumpWord dir) else s.out.dumped } } := by
  unfold dumpAll
  cases dumpOn s with
  | true => rfl
  | false => simp

/-- A block handed over in one update. -/
theorem produceBlock_eq (xs : List Sample) (frameEnd final : Bool) (s : State) :
    produceBlock xs frameEnd final s =
      let b := txBlock s.params.normLimit s.pipe xs
      { s with
        pipe := b.1,
        hist := s.hist ++ (if dumpOn s then b.2.map (Event.dump .tx) else []),
        out := { s.out with dumped := if dumpOn s then b.2.map (dumpWord .tx) else s.out.dumped },
        tx := { s.tx with
          phase := .drain, outbuf := blockEntries b.2 final, outFrameEnd := frameEnd, outFinal := final } } := by
  simp only [produceBlock, dumpAll_eq]
  rfl

/-- A frame's next block in one update; it ends the frame exactly where nothing remains (R390). -/
theorem frameBlock_eq (syms : List Bool) (s : State) : frameBlock syms s =
    let blk := modulate s.tx.modem (syms.take s.params.blockSyms)
    let rest := syms.drop s.params.blockSyms
    let b := txBlock s.params.normLimit s.pipe blk.2
    { s with
      pipe := b.1,
      hist := s.hist ++ (if dumpOn s then b.2.map (Event.dump .tx) else []),
      out := { s.out with dumped := if dumpOn s then b.2.map (dumpWord .tx) else s.out.dumped },
      tx := { s.tx with
        phase := .drain, gen := genAfter rest, modem := blk.1, outbuf := blockEntries b.2 false,
        outFrameEnd := decide (rest = []), outFinal := false } } := by
  have ends : ∀ rest : List Bool, rest.isEmpty = decide (rest = []) := fun rest => by cases rest <;> rfl
  simp only [frameBlock, produceBlock_eq, ends]
  rfl

/-- Settles O41: a frame that is there goes on, and a pending chunk's is started first. -/
theorem txStepModulatesTheNextBlock : Obligations.TxStepModulatesTheNextBlock := by
  unfold Obligations.TxStepModulatesTheNextBlock
  intro s running noStop noStopAll phase
  have go : stopSeen s = false := (stopSeen_eq_false_iff s).2 ⟨noStop, noStopAll⟩
  rw [exec_txStep_produce running go phase]
  refine ⟨fun syms gen => ?_, fun gen pending => ?_⟩
  · rw [produce_frame gen, frameBlock_eq]
    rfl
  · rw [produce_chunk gen pending, frameBlock_eq]
    rfl

/-! The LAST tag of the final flush (R387). -/

/-- `tag_last` tags the newest entry and no other. -/
theorem tagLast_concat (xs : List Tagged) (x : Tagged) : tagLast (xs ++ [x]) = xs ++ [{ x with last := true }] := by
  induction xs with
  | nil => rfl
  | cons y ys ih => cases ys with
    | nil => rfl
    | cons z zs => exact congrArg (y :: ·) ih

/-- The entries of the final flush: the untagged entries and behind them one tagged LAST, a lone ZERO where the block is
empty. -/
theorem blockEntries_final (ys : List Sample) : ∃ front newest, blockEntries ys true = front ++ [⟨newest, true⟩] ∧
    (∀ e ∈ front, e.last = false) ∧
    front.map (·.sample) ++ [newest] = if ys = [] then [Sample.zero] else ys := by
  rcases List.eq_nil_or_concat ys with rfl | ⟨zs, z, rfl⟩
  · exact ⟨[], Sample.zero, rfl, by simp, rfl⟩
  · refine ⟨zs.map (⟨·, false⟩), z, ?_, by simp, by simp [Function.comp_def]⟩
    simp only [blockEntries, if_true, List.concat_eq_append, List.map_append, List.map_cons, List.map_nil]
    exact tagLast_concat _ ⟨z, false⟩

/-- Settles O42, by whether the stream is open. -/
theorem txStepSendsSilenceOrTheFinalFlush : Obligations.TxStepSendsSilenceOrTheFinalFlush := by
  unfold Obligations.TxStepSendsSilenceOrTheFinalFlush
  intro s running noStop noStopAll phase gen free
  have go : stopSeen s = false := (stopSeen_eq_false_iff s).2 ⟨noStop, noStopAll⟩
  rw [exec_txStep_produce running go phase, produce_idle gen free]
  cases eos : s.eos with
  | false =>
    refine ⟨_, ?_, fun _ => rfl, nofun⟩
    simp only [Bool.false_eq_true, if_false, silenceBlock, produceBlock_eq, gen, eos]
    rfl
  | true =>
    intro zeros b dump
    obtain ⟨front, newest, entries, untagged, samples⟩ := blockEntries_final b.2
    refine ⟨blockEntries b.2 true, ?_, nofun, fun _ => ?_⟩
    · simp only [if_true, finalFlush, produceBlock_eq, eos]
      rfl
    · rw [entries]
      refine ⟨?_, ?_, ?_⟩
      · rw [List.map_append, ← samples]; rfl
      · rw [List.dropLast_concat]; exact untagged
      · rw [List.getLast?_concat]; rfl

/-! A drain (R386) and the completion of a block (R388). -/

/-- The completion in one update. -/
theorem complete_eq (s : State) : complete s =
    { s with
      tx := { s.tx with
        outFrameEnd := false, outFinal := false, phase := .produce,
        frameCnt := if s.tx.outFrameEnd then s.tx.frameCnt + 1#32 else s.tx.frameCnt },
      irqStatus := s.irqStatus ||| (if s.tx.outFrameEnd then 1#32 else 0#32) |||
        (if s.tx.outFinal then 2#32 else 0#32),
      core := if s.tx.outFinal then .idle else s.core,
      stopReason := if s.tx.outFinal then .complete else s.stopReason } := by
  unfold complete
  cases frameEnd : s.tx.outFrameEnd <;> cases final : s.tx.outFinal <;> simp [final] <;> rfl

/-- A block longer than the space: what fits moves, the rest stays. -/
theorem drain_partial {s : State} (long : fifoSpace s < s.tx.outbuf.length) : drain s = { s with
    fifo := s.fifo ++ s.tx.outbuf.take (fifoSpace s),
    tx := { s.tx with outbuf := s.tx.outbuf.drop (fifoSpace s) } } := by
  rcases drain_cases s with ⟨moved, -⟩ | ⟨fits, -⟩
  · exact moved
  · omega

/-- A block that fits moves whole and is completed. -/
theorem drain_whole {s : State} (fits : s.tx.outbuf.length ≤ fifoSpace s) : drain s =
    complete { s with fifo := s.fifo ++ s.tx.outbuf, tx := { s.tx with outbuf := [] } } := by
  have all : pushCount s.tx.outbuf s = s.tx.outbuf.length := Nat.min_eq_left fits
  simp only [drain, fifoPush, all, List.drop_length, List.take_length, if_true]

/-- Settles O43, by whether the block fits. -/
theorem txStepDrainsAndCompletes : Obligations.TxStepDrainsAndCompletes := by
  unfold Obligations.TxStepDrainsAndCompletes
  intro s enabled noStop noStopAll phase
  have go : stopSeen s = false := (stopSeen_eq_false_iff s).2 ⟨noStop, noStopAll⟩
  obtain ⟨running, -⟩ := (txEnabled_iff s).1 enabled
  rw [exec_txStep_drain enabled go phase, ← running]
  refine ⟨fun long => ?_, fun fits => ?_⟩
  · rw [drain_partial long]
    rfl
  · rw [drain_whole fits, complete_eq]

end Sys2Proof.Machine
end

section
/-! What every step keeps of the engine's state (45_generator.md R383, R388; 60_exceptions.md R476, R477): no stop
request is pending in IDLE and the generator's state fits its phase, from where no operation faults. -/

namespace Sys2Proof.Machine

/-! The one fault. -/

/-- Only a TX step that finds the generator in FINAL while it produces faults. -/
theorem execTxStep_fault {s : State} {f : Fault} (h : execTxStep s = .fault f) :
    s.core = .txRun ∧ s.tx.phase = .produce ∧ s.tx.gen = .final := by
  unfold execTxStep at h
  split at h
  · cases h
  · rename_i enabled
    obtain ⟨running, -⟩ := (txEnabled_iff s).1 (by simpa using enabled)
    split at h
    · cases h
    · split at h
      · cases h
      · rename_i notDrain
        have phase : s.tx.phase = .produce := by
          cases phase : s.tx.phase with
          | produce => rfl
          | drain => exact absurd phase notDrain
        exact ⟨running, phase, produce_fault h⟩

theorem exec_fault {i : Instr} {s : State} {f : Fault} (h : exec i s = .fault f) :
    s.core = .txRun ∧ s.tx.phase = .produce ∧ s.tx.gen = .final := by
  cases i
  case txStep => exact execTxStep_fault h
  case rxStep =>
    obtain ⟨t, next⟩ := rxStep_next s
    cases next.symm.trans h
  case radioPop n =>
    simp only [exec, execRadioPop] at h
    split at h <;> cases h
  case radioPush ws =>
    simp only [exec, execRadioPush] at h
    split at h <;> cases h
  all_goals cases h

theorem GenOk.exec_noFault {s : State} (ok : GenOk s) (i : Instr) : NoFault (exec i s) := by
  intro f h
  obtain ⟨running, phase, final⟩ := exec_fault h
  obtain ⟨notFinal, -, -⟩ := (ok running).1 phase
  exact notFinal final

/-- The operation of a step runs in a state with the same engine, and a step that runs none does not fault. -/
theorem GenOk.step_noFault {s : State} (ok : GenOk s) : NoFault (step s) := by
  unfold step
  split
  · rename_i w t fetched
    have rest : GenOk t := by
      unfold fetch at fetched
      split at fetched
      · cases fetched
      · cases fetched
        exact ok
    split
    · exact rest.exec_noFault _
    · nofun
  · split
    · exact ok.exec_noFault _
    · nofun

/-! The invariant. -/

/-- The engine state is consistent. -/
structure EngineOk (s : State) : Prop where
  stop : StopOk s
  gen : GenOk s

namespace EngineOk

/-- What leaves STATE and the TX engine alone, and in IDLE the stop request too. -/
theorem of_eq {s t : State} (ok : EngineOk s) (core : t.core = s.core) (tx : t.tx = s.tx)
    (stop : s.core = .idle → t.stop = s.stop) : EngineOk t where
  stop := by
    intro idle
    rw [core] at idle
    rw [stop idle]
    exact ok.stop idle
  gen := by
    unfold GenOk
    rw [core, tx]
    exact ok.gen

/-- In IDLE only the stop request counts. -/
theorem of_idle {t : State} (idle : t.core = .idle) (stop : t.stop = none) : EngineOk t :=
  ⟨fun _ => stop, fun running => by simp [idle] at running⟩

/-- A reception asks nothing. -/
theorem of_receiving {t : State} (receiving : t.core = .rxRun) : EngineOk t :=
  ⟨fun idle => by simp [receiving] at idle, fun running => by simp [receiving] at running⟩

/-- A transmission that produces with an empty output block. -/
theorem of_producing {t : State} (running : t.core = .txRun) (phase : t.tx.phase = .produce)
    (gen : t.tx.gen ≠ .final) (notFinal : t.tx.outFinal = false) (handedOver : t.tx.outbuf = []) : EngineOk t :=
  ⟨fun idle => by simp [running] at idle, fun _ => ⟨fun _ => ⟨gen, notFinal, handedOver⟩, fun drain => by
    simp [phase] at drain⟩⟩

/-- A transmission that drains. -/
theorem of_draining {t : State} (running : t.core = .txRun) (phase : t.tx.phase = .drain)
    (final : t.tx.gen = .final ↔ t.tx.outFinal = true) : EngineOk t :=
  ⟨fun idle => by simp [running] at idle, fun _ => ⟨fun produce => by simp [phase] at produce, fun _ => final⟩⟩

end EngineOk

theorem CommandEffect.engineOk {s t : State} (ok : EngineOk s) (h : CommandEffect s t) : EngineOk t := by
  cases h with
  | startTx => exact .of_producing rfl rfl nofun rfl rfl
  | startRx => exact .of_receiving rfl
  | softReset => exact .of_idle rfl rfl
  | stop running first => exact ok.of_eq rfl rfl fun idle => absurd idle running
  | nothing | error | commit | eos | rxqPop | clearStats | clearErr => exact ok.of_eq rfl rfl fun _ => rfl

theorem StoreEffect.engineOk {s t : State} (ok : EngineOk s) (h : StoreEffect s t) : EngineOk t := by
  cases h with
  | irqStatus | irqEnable | cfg | txbuf => exact ok.of_eq rfl rfl fun _ => rfl

theorem frameBlock_engineOk (syms : List Bool) {s : State} (running : s.core = .txRun) :
    EngineOk (frameBlock syms s) := by
  rw [frameBlock_eq]
  exact .of_draining running rfl ⟨fun h => absurd h (genAfter_ne_final _), nofun⟩

/-- A drain of the final flush that hands it over whole ends the transfer; any other leaves a generator that is not in
FINAL. -/
theorem drain_engineOk {s : State} (ok : EngineOk s) (running : s.core = .txRun) (phase : s.tx.phase = .drain)
    (noStop : s.stop = none) : EngineOk (drain s) := by
  have final : s.tx.gen = .final ↔ s.tx.outFinal = true := (ok.gen running).2 phase
  rcases drain_cases s with ⟨h, -⟩ | ⟨-, frameCnt, irqStatus, core, stopReason, h, last, notLast, -⟩
  · rw [h]
    exact .of_draining running phase final
  · rw [h]
    cases flush : s.tx.outFinal with
    | true =>
      obtain ⟨idle, -⟩ := last flush
      exact .of_idle idle noStop
    | false =>
      obtain ⟨same, -⟩ := notLast flush
      exact .of_producing (same.trans running) rfl (fun gen => by simp [final.1 gen] at flush) rfl rfl

theorem Effect.engineOk {s t : State} (ok : EngineOk s) (h : Effect s t) : EngineOk t := by
  cases h with
  | hold | failed | read | pin => exact ok.of_eq rfl rfl fun _ => rfl
  | store t h => exact (h.engineOk ok).of_eq rfl rfl fun _ => rfl
  | command t h => exact (h.engineOk ok).of_eq rfl rfl fun _ => rfl
  | pop n =>
    obtain ⟨fifo, stats, irqStatus, burstEnd, more, out, h, -, -⟩ := popBlock_frame n s
    rw [h]
    exact ok.of_eq rfl rfl fun _ => rfl
  | push ws =>
    obtain ⟨more, stats, idle, stop, irqStatus, out, h, -, -, idleStop, -⟩ := pushBlock_frame ws s
    rw [h]
    exact ok.of_eq rfl rfl idleStop
  | fault running =>
    obtain ⟨stop, h, -⟩ := requestStop_frame .radioFault (raiseError .radioFault s)
    rw [h]
    exact ok.of_eq rfl rfl fun idle => absurd idle running
  | stopped => exact .of_idle rfl rfl
  | drain running go phase => exact drain_engineOk ok running phase ((stopSeen_eq_false_iff s).1 go).1
  | frame syms running => exact frameBlock_engineOk syms running
  | chunk running => exact frameBlock_engineOk _ (s := startFrame s) running
  | silence running go phase gen =>
    rw [silenceBlock, produceBlock_eq]
    exact .of_draining running rfl ⟨fun final => (by cases gen.symm.trans final), nofun⟩
  | flush running =>
    rw [finalFlush, produceBlock_eq]
    exact .of_draining running rfl ⟨fun _ => rfl, fun _ => rfl⟩
  | receive e rest running =>
    obtain ⟨more, words, pipe, rx, rxq, last, stats, idle, irqStatus, h⟩ := receiveSample_frame e s
    rw [h]
    exact .of_receiving running

/-- Settles O54: the one fault needs what GenOk excludes, and what every outcome keeps, every step keeps. -/
theorem engineStateStaysConsistent : Obligations.EngineStateStaysConsistent := by
  unfold Obligations.EngineStateStaysConsistent
  intro s stop gen
  refine ⟨gen.step_noFault, fun t h => ?_⟩
  have ok : EngineOk t :=
    step_keeps (fun _ _ ok => ok.of_eq rfl rfl fun _ => rfl) (fun _ _ ok effect => effect.engineOk ok) ⟨stop, gen⟩ h
  exact ⟨ok.stop, ok.gen⟩

end Sys2Proof.Machine
end

section
/-! Where the LAST tag can stand (45_generator.md R387, 30_encoding.md R144): a transfer enters untagged entries into the
FIFO, but for the drain that hands over the end of the final flush, and that drain ends the transfer. -/

namespace Sys2Proof.Machine

/-! Lists with a tag on the newest entry at most. -/

theorem noneLast_nil : NoneLast [] := nofun

theorem NoneLast.onlyNewestLast {xs : List Tagged} (h : NoneLast xs) : OnlyNewestLast xs :=
  fun e mem => h e (List.mem_of_mem_dropLast mem)

theorem NoneLast.append {xs ys : List Tagged} (hx : NoneLast xs) (hy : NoneLast ys) : NoneLast (xs ++ ys) :=
  fun e mem => (List.mem_append.1 mem).elim (hx e) (hy e)

theorem NoneLast.drop {xs : List Tagged} (h : NoneLast xs) (n : Nat) : NoneLast (xs.drop n) :=
  fun e mem => h e (List.mem_of_mem_drop mem)

/-- Untagged entries go before a list with a tag on its newest. -/
theorem NoneLast.append_onlyNewestLast {xs ys : List Tagged} (hx : NoneLast xs) (hy : OnlyNewestLast ys) :
    OnlyNewestLast (xs ++ ys) := by
  rcases List.eq_nil_or_concat ys with rfl | ⟨zs, z, rfl⟩
  · rw [List.append_nil]
    exact hx.onlyNewestLast
  · have untagged : NoneLast zs := by
      rw [OnlyNewestLast, List.concat_eq_append, List.dropLast_concat] at hy
      exact hy
    rw [OnlyNewestLast, List.concat_eq_append, ← List.append_assoc, List.dropLast_concat]
    exact hx.append untagged

theorem OnlyNewestLast.drop {xs : List Tagged} (h : OnlyNewestLast xs) (n : Nat) : OnlyNewestLast (xs.drop n) := by
  rw [OnlyNewestLast, List.dropLast_drop_eq_drop_dropLast]
  exact NoneLast.drop h n

/-- What leaves the newest entry behind leaves the tag behind. -/
theorem OnlyNewestLast.take {xs : List Tagged} (h : OnlyNewestLast xs) {n : Nat} (short : n < xs.length) :
    NoneLast (xs.take n) := by
  intro e mem
  refine h e ?_
  rw [List.dropLast_eq_take]
  exact (List.take_subset_take_left xs (by omega)) mem

theorem blockEntries_noneLast (ys : List Sample) : NoneLast (blockEntries ys false) := by
  simp [NoneLast, blockEntries]

theorem blockEntries_onlyNewestLast (ys : List Sample) : OnlyNewestLast (blockEntries ys true) := by
  obtain ⟨front, newest, entries, untagged, -⟩ := blockEntries_final ys
  rw [OnlyNewestLast, entries, List.dropLast_concat]
  exact untagged

/-! The invariant. -/

namespace LastOk

/-- What leaves STATE, the FIFO and the output block alone. -/
theorem of_eq {s t : State} (ok : LastOk s) (core : t.core = s.core) (fifo : t.fifo = s.fifo)
    (outbuf : t.tx.outbuf = s.tx.outbuf) (outFinal : t.tx.outFinal = s.tx.outFinal) : LastOk t where
  fifo := fifo ▸ ok.fifo
  running h := fifo ▸ ok.running (core ▸ h)
  outbuf := outbuf ▸ ok.outbuf
  notFinal h := outbuf ▸ ok.notFinal (outFinal ▸ h)

/-- No tag in the FIFO, and none in the output block but the final flush's. -/
theorem of_noneLast {t : State} (fifo : NoneLast t.fifo) (outbuf : OnlyNewestLast t.tx.outbuf)
    (notFinal : t.tx.outFinal = false → NoneLast t.tx.outbuf) : LastOk t :=
  ⟨fifo.onlyNewestLast, fun _ => fifo, outbuf, notFinal⟩

/-- In IDLE with no output block. -/
theorem of_idle {t : State} (idle : t.core = .idle) (fifo : OnlyNewestLast t.fifo) (outbuf : t.tx.outbuf = []) :
    LastOk t :=
  ⟨fifo, fun running => absurd idle running, outbuf ▸ noneLast_nil.onlyNewestLast, fun _ => outbuf ▸ noneLast_nil⟩

end LastOk

theorem popBlock_lastOk (n : Nat) {s : State} (ok : LastOk s) : LastOk (popBlock n s) := by
  obtain ⟨fifo, stats, irqStatus, burstEnd, more, out, h, ⟨k, rfl⟩, -⟩ := popBlock_frame n s
  rw [h]
  exact ⟨ok.fifo.drop k, fun running => (ok.running running).drop k, ok.outbuf, ok.notFinal⟩

theorem pushBlock_lastOk (ws : List Word) {s : State} (ok : LastOk s) : LastOk (pushBlock ws s) := by
  by_cases receive : s.core = .rxRun
  · obtain ⟨more, stats, idle, stop, irqStatus, out, h, untagged, -⟩ := pushBlock_frame ws s
    rw [h]
    exact .of_noneLast ((ok.running (by simp [receive])).append untagged) ok.outbuf ok.notFinal
  · rw [pushBlock_notReceive ws receive]
    exact ok.of_eq rfl rfl rfl rfl

/-- A part of a block leaves its newest entry behind; the rest of the final flush brings its tag into the FIFO and ends
the transfer. -/
theorem drain_lastOk {s : State} (ok : LastOk s) (running : s.core = .txRun) : LastOk (drain s) := by
  have fifo : NoneLast s.fifo := ok.running (by simp [running])
  rcases drain_cases s with ⟨h, long⟩ | ⟨-, frameCnt, irqStatus, core, stopReason, h, last, -⟩
  · rw [h]
    exact .of_noneLast (fifo.append (ok.outbuf.take long)) (ok.outbuf.drop _) fun h => (ok.notFinal h).drop _
  · rw [h]
    cases flush : s.tx.outFinal with
    | true =>
      obtain ⟨idle, -⟩ := last flush
      exact .of_idle idle (fifo.append_onlyNewestLast ok.outbuf) rfl
    | false =>
      exact .of_noneLast (fifo.append (ok.notFinal flush)) noneLast_nil.onlyNewestLast fun _ => noneLast_nil

/-- A block produced replaces the output block alone. -/
theorem produceBlock_lastOk (xs : List Sample) (frameEnd final : Bool) {s : State} (fifo : NoneLast s.fifo) :
    LastOk (produceBlock xs frameEnd final s) := by
  rw [produceBlock_eq]
  cases final with
  | true => exact .of_noneLast fifo (blockEntries_onlyNewestLast _) nofun
  | false => exact .of_noneLast fifo (blockEntries_noneLast _).onlyNewestLast fun _ => blockEntries_noneLast _

theorem CommandEffect.lastOk {s t : State} (ok : LastOk s) (h : CommandEffect s t) : LastOk t := by
  cases h with
  | startTx => exact .of_noneLast noneLast_nil noneLast_nil.onlyNewestLast fun _ => noneLast_nil
  | startRx => exact .of_noneLast noneLast_nil ok.outbuf ok.notFinal
  | softReset => exact .of_idle rfl noneLast_nil.onlyNewestLast rfl
  | nothing | error | stop | commit | eos | rxqPop | clearStats | clearErr => exact ok.of_eq rfl rfl rfl rfl

theorem StoreEffect.lastOk {s t : State} (ok : LastOk s) (h : StoreEffect s t) : LastOk t := by
  cases h with
  | irqStatus | irqEnable | cfg | txbuf => exact ok.of_eq rfl rfl rfl rfl

theorem Effect.lastOk {s t : State} (ok : LastOk s) (h : Effect s t) : LastOk t := by
  have transmitting : s.core = .txRun → NoneLast s.fifo := fun running => ok.running (by simp [running])
  cases h with
  | hold | failed | read | pin => exact ok.of_eq rfl rfl rfl rfl
  | store t h => exact (h.lastOk ok).of_eq rfl rfl rfl rfl
  | command t h => exact (h.lastOk ok).of_eq rfl rfl rfl rfl
  | pop n => exact popBlock_lastOk n ok
  | push ws => exact pushBlock_lastOk ws ok
  | fault =>
    obtain ⟨stop, h, -⟩ := requestStop_frame .radioFault (raiseError .radioFault s)
    rw [h]
    exact ok.of_eq rfl rfl rfl rfl
  | stopped => exact .of_idle rfl ok.fifo rfl
  | drain running => exact drain_lastOk ok running
  | frame syms running => exact produceBlock_lastOk _ _ _ (transmitting running)
  | chunk running => exact produceBlock_lastOk _ _ _ (transmitting running)
  | silence running => exact produceBlock_lastOk _ _ _ (transmitting running)
  | flush running => exact produceBlock_lastOk _ _ _ (transmitting running)
  | receive e rest running =>
    obtain ⟨more, words, pipe, rx, rxq, last, stats, idle, irqStatus, h⟩ := receiveSample_frame e s
    rw [h]
    exact .of_noneLast ((ok.running (by simp [running])).drop 1) ok.outbuf ok.notFinal

/-- Settles O55: what every outcome keeps, every step keeps. -/
theorem stepKeepsLastOnTheNewestEntry : Obligations.StepKeepsLastOnTheNewestEntry := by
  unfold Obligations.StepKeepsLastOnTheNewestEntry
  intro s t _ ok h
  exact step_keeps (fun _ _ ok => ok.of_eq rfl rfl rfl rfl) (fun _ _ ok effect => effect.lastOk ok) ok h

end Sys2Proof.Machine
end

section
/-! A report and a symbol (46_synchronizer.md R441 to R443). Each counter of a report is one update with a conditional
increment, and a symbol is counted or collected and then, where it completes its state, handed on. -/

namespace Sys2Proof.Machine

/-! A report (R443, R444). -/

/-- What a counter counts: 1 for a report of its kind and 0 for any other. -/
def oneIf (counted : Bool) : Word := if counted then 1#32 else 0#32

theorem countIf_rxFrame (s : State) :
    countIf true .rxFrame (fun st => { st with rxFrames := st.rxFrames + 1#32 }) s =
      { s with
        stats := { s.stats with rxFrames := s.stats.rxFrames + 1#32 }, irqStatus := s.irqStatus ||| 0x08#32 } := rfl

theorem countIf_not_hdrBad (good : Bool) (s : State) :
    countIf (!good) .hdrBad (fun st => { st with rxHdrBad := st.rxHdrBad + 1#32 }) s =
      { s with
        stats := { s.stats with rxHdrBad := s.stats.rxHdrBad + oneIf (!good) },
        irqStatus := s.irqStatus ||| (if good then 0#32 else 0x20#32) } := by
  cases good with
  | true => simp [countIf, oneIf]
  | false => rfl

theorem countIf_payBad (counted : Bool) (s : State) :
    countIf counted .payBad (fun st => { st with rxPayBad := st.rxPayBad + 1#32 }) s =
      { s with
        stats := { s.stats with rxPayBad := s.stats.rxPayBad + oneIf counted },
        irqStatus := s.irqStatus ||| (if counted then 0x40#32 else 0#32) } := by
  cases counted with
  | true => rfl
  | false => simp [countIf, oneIf]

theorem countIf_not_idMismatch (good : Bool) (s : State) :
    countIf (!good) .idMismatch (fun st => { st with rxIdMismatch := st.rxIdMismatch + 1#32 }) s =
      { s with
        stats := { s.stats with rxIdMismatch := s.stats.rxIdMismatch + oneIf (!good) },
        irqStatus := s.irqStatus ||| (if good then 0#32 else 0x80#32) } := by
  cases good with
  | true => simp [countIf, oneIf]
  | false => rfl

theorem tally_rxLenErr (counted : Bool) (s : State) :
    tally counted (fun st => { st with rxLenErr := st.rxLenErr + 1#32 }) s =
      { s with stats := { s.stats with rxLenErr := s.stats.rxLenErr + oneIf counted } } := by
  cases counted with
  | true => rfl
  | false => simp [tally, oneIf]

/-- A delivery that may happen, in one update. -/
theorem deliver_if (delivered : Bool) (hdr pl : List Byte) (s : State) :
    (if delivered then deliver hdr pl s else s) =
      { s with
        rxq := if delivered then s.rxq ++ [⟨hdr, s.rx.hv, s.rx.plen, pl⟩] else s.rxq,
        stats := { s.stats with rxDelivered := s.stats.rxDelivered + oneIf delivered },
        idle := if delivered then 0#64 else s.idle,
        irqStatus := s.irqStatus ||| (if delivered then 0x10#32 else 0#32) } := by
  cases delivered with
  | true => rfl
  | false => simp [oneIf]

/-- A report in one update of the state. -/
theorem report_eq (pl : List Byte) (pv lenErr : Bool) (s : State) :
    report pl pv lenErr s =
      let r := reportOf pv lenErr s
      { s with
        stats := { s.stats with
          rxFrames := s.stats.rxFrames + 1#32, rxHdrBad := s.stats.rxHdrBad + oneIf (!r.hv),
          rxPayBad := s.stats.rxPayBad + oneIf (!pv && !lenErr),
          rxIdMismatch := s.stats.rxIdMismatch + oneIf (!r.idm), rxLenErr := s.stats.rxLenErr + oneIf lenErr,
          rxDelivered := s.stats.rxDelivered + oneIf r.delivered },
        irqStatus := s.irqStatus ||| 0x08#32 ||| (if r.hv then 0#32 else 0x20#32) |||
          (if !pv && !lenErr then 0x40#32 else 0#32) ||| (if r.idm then 0#32 else 0x80#32) |||
          (if r.delivered then 0x10#32 else 0#32),
        last := some r,
        rxq := if r.delivered then s.rxq ++ [⟨r.hdr, r.hv, r.len, pl⟩] else s.rxq,
        idle := if r.delivered then 0#64 else s.idle } := by
  simp only [report, countReport, countIf_rxFrame, countIf_not_hdrBad, countIf_payBad, countIf_not_idMismatch,
    tally_rxLenErr, deliver_if]
  rfl

theorem idMatches_eq_decide (s : State) : idMatches s = decide (s.rx.hdr.take 4 = be32 s.lcfg.id) :=
  beq_eq_decide _ _

theorem reportOf_eq (pv lenErr : Bool) (s : State) :
    reportOf pv lenErr s =
      let idm := decide (s.rx.hdr.take 4 = be32 s.lcfg.id)
      ⟨s.rx.hdr.take 8, s.rx.plen, s.rx.hv, pv, idm, pv && idm && !lenErr, lenErr⟩ := by
  simp only [reportOf, idMatches_eq_decide]

/-- Settles O46: the statement is the report's one update with its flags written out. -/
theorem reportCountsAndDelivers : Obligations.ReportCountsAndDelivers := by
  unfold Obligations.ReportCountsAndDelivers
  intro pl pv lenErr s
  rw [report_eq, reportOf_eq]
  rfl

/-! A symbol that completes nothing. -/

/-- A symbol counted, where no bits are collected. -/
def counted (s : State) : State := { s with rx := { s.rx with cnt := s.rx.cnt + 1 } }

/-- Symbols counted and their hard decisions collected. -/
def collected (softs : List Int) (s : State) : State :=
  { s with rx := { s.rx with
      cnt := s.rx.cnt + softs.length, bits := s.rx.bits ++ softs.map (fun x => decide (x > 0)) } }

theorem countSymbol_counted (soft : Int) {s : State} (header : s.rx.sync ≠ .rxHeader)
    (payload : s.rx.sync ≠ .rxPayload) : countSymbol soft s = counted s := by
  simp only [countSymbol, header, payload, or_self, if_false, counted]

theorem countSymbol_collected (soft : Int) {s : State} (collects : s.rx.sync = .rxHeader ∨ s.rx.sync = .rxPayload) :
    countSymbol soft s = collected [soft] s := by
  simp only [countSymbol, if_pos collects]
  rfl

/-! A symbol in each state (R442). -/

theorem symbol_detectFrame (soft : Int) {s : State} (state : s.rx.sync = .detectFrame) :
    symbol soft s = counted s := by
  simp only [symbol, state]
  exact countSymbol_counted soft (by simp [state]) (by simp [state])

theorem symbol_rxPreamble (soft : Int) {s : State} (state : s.rx.sync = .rxPreamble) :
    symbol soft s = if s.rx.cnt + 1 = s.params.preRxSyms then enter .rxHeader (counted s) else counted s := by
  simp only [symbol, state, countSymbol_counted soft (s := s) (by simp [state]) (by simp [state])]
  rfl

theorem symbol_rxHeader (soft : Int) {s : State} (state : s.rx.sync = .rxHeader) :
    symbol soft s = if (collected [soft] s).rx.bits.length = headerBits s.lcfg then headerDone (collected [soft] s)
      else collected [soft] s := by
  simp only [symbol, state, countSymbol_collected soft (.inl state)]

theorem symbol_rxPayload (soft : Int) {s : State} (state : s.rx.sync = .rxPayload) :
    symbol soft s = if (collected [soft] s).rx.bits.length = s.rx.need then payloadDone (collected [soft] s)
      else collected [soft] s := by
  simp only [symbol, state, countSymbol_collected soft (.inr state)]
  rfl

/-! A header block received whole (R442). -/

/-- The decoded header stored. -/
def headerDecoded (s : State) : State :=
  let d := decodeBlock s.lcfg (pack s.rx.bits) 10
  { s with rx := { s.rx with hdr := d.1, hv := d.2, plen := declaredLen d.1 } }

theorem headerDone_lengthError {s : State}
    (bad : (headerDecoded s).rx.plen = 0#16 ∨ s.lcfg.maxp < (headerDecoded s).rx.plen) :
    headerDone s = enter .detectFrame (report [] false true (headerDecoded s)) := if_pos bad

theorem headerDone_payload {s : State} (nonzero : (headerDecoded s).rx.plen ≠ 0#16)
    (fits : (headerDecoded s).rx.plen ≤ s.lcfg.maxp) :
    headerDone s = { headerDecoded s with rx := { (headerDecoded s).rx with
      sync := .rxPayload, cnt := 0, bits := [],
      need := 8 * encodedLen s.lcfg (headerDecoded s).rx.plen.toNat } } :=
  if_neg (not_or.2 ⟨nonzero, BitVec.not_lt.2 fits⟩)

/-- Settles O45, state by state. -/
theorem symbolAdvancesTheSynchronizer : Obligations.SymbolAdvancesTheSynchronizer := by
  unfold Obligations.SymbolAdvancesTheSynchronizer
  intro soft s cnt bits HB next
  refine ⟨fun _ => rfl, fun state => symbol_detectFrame soft state, fun state more => ?_, fun state last => ?_,
    fun state more => ?_, fun state last => ⟨fun bad => ?_, fun nonzero fits => ?_⟩, fun state more => ?_,
    fun state last => ?_⟩
  · rw [symbol_rxPreamble soft state, if_neg more]
    rfl
  · rw [symbol_rxPreamble soft state, if_pos last]
    rfl
  · rw [symbol_rxHeader soft state]
    exact if_neg more
  · rw [symbol_rxHeader soft state]
    exact (if_pos last).trans (headerDone_lengthError bad)
  · rw [symbol_rxHeader soft state]
    exact (if_pos last).trans (headerDone_payload nonzero fits)
  · rw [symbol_rxPayload soft state]
    exact if_neg more
  · rw [symbol_rxPayload soft state]
    exact if_pos last

end Sys2Proof.Machine
end

section
/-! A frame received without error (46_synchronizer.md R449, 44_frame_codec.md R341). The symbols that complete a state
are one update and then the state's transition; the blocks they carry decode to what was encoded. -/

namespace Sys2Proof.Machine

/-- Symbols given to the synchronizer one after the other. -/
def symbols (softs : List Int) (s : State) : State := softs.foldl (fun u x => symbol x u) s

@[simp] theorem symbols_nil (s : State) : symbols [] s = s := rfl

@[simp] theorem symbols_cons (x : Int) (xs : List Int) (s : State) :
    symbols (x :: xs) s = symbols xs (symbol x s) := rfl

theorem symbols_append (xs ys : List Int) (s : State) : symbols (xs ++ ys) s = symbols ys (symbols xs s) :=
  List.foldl_append

/-! The symbols of a state. -/

@[simp] theorem counted_cnt (s : State) : (counted s).rx.cnt = s.rx.cnt + 1 := rfl

/-- A transition clears what was counted (R441). -/
theorem enter_counted (st : SyncState) (s : State) : enter st (counted s) = enter st s := rfl

/-- The preamble's symbols that were still to come end RX_PREAMBLE. -/
theorem symbols_rxPreamble (pre : List Int) {s : State} (state : s.rx.sync = .rxPreamble) (nonempty : pre ≠ [])
    (all : s.rx.cnt + pre.length = s.params.preRxSyms) : symbols pre s = enter .rxHeader s := by
  induction pre generalizing s with
  | nil => exact absurd rfl nonempty
  | cons x xs ih =>
    rw [List.length_cons] at all
    rw [symbols_cons, symbol_rxPreamble x state]
    cases xs with
    | nil => rw [if_pos (by simpa using all), symbols_nil, enter_counted]
    | cons y ys =>
      have rest : (counted s).rx.cnt + (y :: ys).length = s.params.preRxSyms := by rw [counted_cnt]; omega
      rw [List.length_cons] at all
      rw [if_neg (by omega), ih (s := counted s) state (by simp) rest, enter_counted]

@[simp] theorem collected_bits_length (softs : List Int) (s : State) :
    (collected softs s).rx.bits.length = s.rx.bits.length + softs.length := by
  simp [collected]

theorem collected_cons (x : Int) (xs : List Int) (s : State) :
    collected xs (collected [x] s) = collected (x :: xs) s := by
  simp only [collected, List.length_cons, List.length_nil, List.map_cons, List.map_nil, List.append_assoc,
    List.cons_append, List.nil_append, Nat.add_assoc, Nat.add_comm xs.length, Nat.zero_add]

/-- The block that RX_HEADER or RX_PAYLOAD collects has `full` bits, and `finish` is what follows it. -/
def Collecting (full : Nat) (finish : State → State) (s : State) : Prop :=
  ∀ softs x, symbol x (collected softs s) =
    if (collected [x] (collected softs s)).rx.bits.length = full then finish (collected [x] (collected softs s))
    else collected [x] (collected softs s)

theorem collecting_rxHeader {s : State} (state : s.rx.sync = .rxHeader) :
    Collecting (headerBits s.lcfg) headerDone s :=
  fun softs x => symbol_rxHeader x (s := collected softs s) state

theorem collecting_rxPayload {s : State} (state : s.rx.sync = .rxPayload) : Collecting s.rx.need payloadDone s :=
  fun softs x => symbol_rxPayload x (s := collected softs s) state

theorem collected_nil (s : State) : collected [] s = s := by
  simp [collected]

theorem Collecting.next {full : Nat} {finish : State → State} {s : State} {x : Int}
    (h : Collecting full finish s) : Collecting full finish (collected [x] s) := by
  intro softs y
  rw [collected_cons]
  exact h _ y

/-- The symbols that were still to come complete the block. -/
theorem Collecting.symbols {full : Nat} {finish : State → State} {s : State} (h : Collecting full finish s)
    (softs : List Int) (nonempty : softs ≠ []) (all : s.rx.bits.length + softs.length = full) :
    symbols softs s = finish (collected softs s) := by
  induction softs generalizing s with
  | nil => exact absurd rfl nonempty
  | cons x xs ih =>
    have first := h [] x
    rw [collected_nil] at first
    rw [List.length_cons] at all
    rw [symbols_cons, first, collected_bits_length]
    cases xs with
    | nil => rw [if_pos (by simpa using all), symbols_nil]
    | cons y ys =>
      have rest : (collected [x] s).rx.bits.length + (y :: ys).length = full := by
        rw [collected_bits_length, List.length_singleton]
        omega
      rw [List.length_cons] at all
      rw [if_neg (by rw [List.length_singleton]; omega), ih h.next (by simp) rest, collected_cons]

/-! The blocks. -/

theorem decodeBlock_encodeBlock (l : LCfg) (bs : List Byte) : decodeBlock l (encodeBlock l bs) bs.length = (bs, true) :=
  (decodeUndoesEncode l bs).2

/-- A header block declares its length field. -/
theorem declaredLen_hdrBlock (id c : Word) (len : BitVec 16) : declaredLen (hdrBlock id c len) = len := by
  have field : ((hdrBlock id c len).drop 8).take 2 = be16 len := rfl
  rw [declaredLen, field, beNat_be16, BitVec.ofNat_toNat, BitVec.setWidth_eq]

/-- The bits of an encoded block, as many as the cascade states. -/
theorem bitsOf_encodeBlock_length (l : LCfg) (bs : List Byte) :
    (bitsOf (encodeBlock l bs)).length = 8 * encodedLen l bs.length := by
  rw [bitsOf_length, encodeBlock_length]

/-- Symbols whose signs are an encoded block are some symbols. -/
theorem softs_ne_nil {l : LCfg} {bs : List Byte} {softs : List Int} (nonempty : 1 ≤ bs.length)
    (signs : softs.map (fun x => decide (x > 0)) = bitsOf (encodeBlock l bs)) : softs ≠ [] := by
  rintro rfl
  have length := congrArg List.length signs
  have positive := encodedLen_pos l nonempty
  rw [bitsOf_encodeBlock_length, List.map_nil, List.length_nil] at length
  omega

/-- The state in which the payload of a frame with this header begins. -/
def headerTaken (c : Word) (len : BitVec 16) (s : State) : State :=
  { s with rx := { s.rx with
      sync := .rxPayload, cnt := 0, bits := [], hdr := hdrBlock s.lcfg.id c len, hv := true, plen := len,
      need := 8 * encodedLen s.lcfg len.toNat } }

/-- The encoded header block, received without error from the start of RX_HEADER. -/
theorem symbols_header (c : Word) {len : BitVec 16} {softs : List Int} {s : State} (state : s.rx.sync = .rxHeader)
    (start : s.rx.bits = []) (nonzero : len ≠ 0#16) (fits : len ≤ s.lcfg.maxp)
    (signs : softs.map (fun x => decide (x > 0)) = bitsOf (encodeBlock s.lcfg (hdrBlock s.lcfg.id c len))) :
    symbols softs s = headerTaken c len s := by
  have length : softs.length = headerBits s.lcfg := by
    rw [← List.length_map (f := fun x : Int => decide (x > 0)), signs, bitsOf_encodeBlock_length, hdrBlock_length,
      headerBits]
  have decoded : headerDecoded (collected softs s) = { collected softs s with rx := { (collected softs s).rx with
      hdr := hdrBlock s.lcfg.id c len, hv := true, plen := len } } := by
    have block := decodeBlock_encodeBlock s.lcfg (hdrBlock s.lcfg.id c len)
    rw [hdrBlock_length] at block
    simp only [headerDecoded, collected, start, List.nil_append, signs, pack_bitsOf, block, declaredLen_hdrBlock]
  rw [(collecting_rxHeader state).symbols softs (softs_ne_nil (by simp) signs) (by simp [start, length]),
    headerDone_payload] <;> rw [decoded]
  · rfl
  · exact nonzero
  · exact fits

/-- The encoded payload block, received without error from the start of RX_PAYLOAD. -/
theorem symbols_payload {pl : List Byte} {softs : List Int} {s : State} (state : s.rx.sync = .rxPayload)
    (start : s.rx.bits = []) (need : s.rx.need = 8 * encodedLen s.lcfg s.rx.plen.toNat)
    (plen : s.rx.plen.toNat = pl.length)
    (nonempty : 1 ≤ pl.length) (signs : softs.map (fun x => decide (x > 0)) = bitsOf (encodeBlock s.lcfg pl)) :
    symbols softs s = enter .detectFrame (report pl true false (collected softs s)) := by
  have length : softs.length = s.rx.need := by
    rw [← List.length_map (f := fun x : Int => decide (x > 0)), signs, bitsOf_encodeBlock_length, need, plen]
  have bits : (collected softs s).rx.bits = bitsOf (encodeBlock s.lcfg pl) := by
    simp only [collected, start, List.nil_append, signs]
  rw [(collecting_rxPayload state).symbols softs (softs_ne_nil nonempty signs) (by simp [start, length]), payloadDone,
    bits, pack_bitsOf]
  have decoded := decodeBlock_encodeBlock s.lcfg pl
  rw [← plen] at decoded
  change enter .detectFrame (report (decodeBlock s.lcfg (encodeBlock s.lcfg pl) s.rx.plen.toNat).1
    (decodeBlock s.lcfg (encodeBlock s.lcfg pl) s.rx.plen.toNat).2 false _) = _
  rw [decoded]

/-- The report of a frame of the latched id with a good header and payload delivers it. -/
theorem report_delivers (pl : List Byte) (c : Word) {s : State} (hdr : s.rx.hdr = hdrBlock s.lcfg.id c s.rx.plen)
    (hv : s.rx.hv = true) : report pl true false s =
      { s with
        stats := { s.stats with
          rxFrames := s.stats.rxFrames + 1#32, rxDelivered := s.stats.rxDelivered + 1#32 },
        irqStatus := s.irqStatus ||| 0x18#32,
        last := some ⟨be32 s.lcfg.id ++ be32 c, s.rx.plen, true, true, true, true, false⟩,
        rxq := s.rxq ++ [⟨be32 s.lcfg.id ++ be32 c, true, s.rx.plen, pl⟩], idle := 0#64 } := by
  have id : s.rx.hdr.take 4 = be32 s.lcfg.id := by rw [hdr]; rfl
  have idAndCounter : s.rx.hdr.take 8 = be32 s.lcfg.id ++ be32 c := by rw [hdr]; rfl
  have bits : s.irqStatus ||| 0x08#32 ||| 0x10#32 = s.irqStatus ||| 0x18#32 := by
    rw [BitVec.or_assoc]
    rfl
  rw [report_eq, reportOf_eq]
  simp [id, idAndCounter, hv, oneIf, bits]

/-- Settles O48: the preamble, the header block and the payload block, each received from its state's start. -/
theorem aFrameReceivedWithoutErrorIsDelivered : Obligations.AFrameReceivedWithoutErrorIsDelivered := by
  unfold Obligations.AFrameReceivedWithoutErrorIsDelivered
  intro s c pl pre softs state noneCounted noneCollected preSome plSome plFits preLength signs
  obtain ⟨hdrSofts, plSofts, rfl, hdrSigns, plSigns⟩ := List.map_eq_append_iff.1 signs
  have lengthSmall : pl.length < 2 ^ 16 := lt_of_le_of_lt plFits s.lcfg.maxp.isLt
  have len : (BitVec.ofNat 16 pl.length).toNat = pl.length := by
    rw [BitVec.toNat_ofNat, Nat.mod_eq_of_lt lengthSmall]
  have nonzero : BitVec.ofNat 16 pl.length ≠ 0#16 := by
    intro zero
    rw [zero] at len
    simp only [BitVec.toNat_ofNat, Nat.zero_mod] at len
    omega
  have fits : BitVec.ofNat 16 pl.length ≤ s.lcfg.maxp := by
    rw [BitVec.le_def, len]
    exact plFits
  have preamble : symbols pre s = enter .rxHeader s :=
    symbols_rxPreamble pre state (List.length_pos_iff.1 (by omega)) (by omega)
  have header : symbols hdrSofts (enter .rxHeader s) =
      headerTaken c (BitVec.ofNat 16 pl.length) (enter .rxHeader s) :=
    symbols_header c rfl rfl nonzero fits hdrSigns
  have payload := symbols_payload (s := headerTaken c (BitVec.ofNat 16 pl.length) (enter .rxHeader s)) (pl := pl)
    rfl rfl rfl len plSome plSigns
  have delivered := report_delivers pl c
    (s := collected plSofts (headerTaken c (BitVec.ofNat 16 pl.length) (enter .rxHeader s))) rfl rfl
  intro t
  have result : t = enter .detectFrame _ :=
    calc t = symbols (pre ++ (hdrSofts ++ plSofts)) s := rfl
      _ = symbols plSofts (symbols hdrSofts (symbols pre s)) := by rw [symbols_append, symbols_append]
      _ = _ := by rw [preamble, header, payload, delivered]
  rw [result]
  exact ⟨rfl, rfl, rfl, rfl, rfl, rfl⟩

end Sys2Proof.Machine
end

section
/-! Two pushes and the one push of both lists (46_synchronizer.md R447, 60_exceptions.md R483): while nothing is dropped
the idle count after both is that of both lists together, and the timeout fires in one of the two exactly where it fires
in the one. -/

namespace Sys2Proof.Machine

/-- In RX_RUN a push whose list fits enters it whole and accounts its length as idle. -/
theorem pushBlock_fits {ws : List Word} {s : State} (receive : s.core = .rxRun)
    (fits : s.fifo.length + ws.length ≤ s.params.fifoCap) : pushBlock ws s =
      { s with
        fifo := s.fifo ++ pushEntries ws, idle := BitVec.ofNat 64 (idleReached ws.length s),
        stop := if idleFires ws.length s then some .timeout else s.stop,
        irqStatus := s.irqStatus ||| (if idleFires ws.length s then 0x800#32 else 0#32),
        out := { s.out with accepted := ws.length } } := by
  have whole : pushCount (pushEntries ws) s = ws.length := by
    rw [pushCount_pushEntries]
    omega
  have entries : (pushEntries ws).take ws.length = pushEntries ws :=
    List.take_of_length_le (by rw [pushEntries, List.length_map])
  have running : (fifoPush (pushEntries ws) s).core ≠ .idle := by simp [receive]
  rw [pushBlock_receive ws receive, pushReceive_eq, whole, decide_eq_false (Nat.lt_irrefl _), countIf, if_neg nofun,
    idleAccount_eq _ running, fifoPush, whole, entries]
  rfl

/-- The idle count after n and then m samples is that after both. -/
theorem idleReached_after (n m : Nat) {s t : State} (idle : t.idle = BitVec.ofNat 64 (idleReached n s)) :
    idleReached m t = idleReached (n + m) s := by
  have fits : idleReached n s < 2 ^ 64 := by
    unfold idleReached
    omega
  rw [idleReached, idle, BitVec.toNat_ofNat, Nat.mod_eq_of_lt fits]
  unfold idleReached
  omega

theorem idleReached_le_add (n m : Nat) (s : State) : idleReached n s ≤ idleReached (n + m) s := by
  unfold idleReached
  omega

/-- The timeout fires for both lists together exactly where it fires for the first, or after it for the second. -/
theorem idleFires_add (n m : Nat) {s t : State} (lcfg : t.lcfg = s.lcfg)
    (idle : t.idle = BitVec.ofNat 64 (idleReached n s))
    (stop : t.stop = if idleFires n s then some .timeout else s.stop) :
    idleFires (n + m) s = (idleFires n s || idleFires m t) := by
  have reached := idleReached_after n m idle
  have grows := idleReached_le_add n m s
  cases first : idleFires n s with
  | true =>
    obtain ⟨on, limit, free⟩ := of_decide_eq_true first
    exact decide_eq_true ⟨on, limit.trans grows, free⟩
  | false =>
    rw [first] at stop
    rw [Bool.false_or, idleFires, idleFires, lcfg, reached, stop]
    rfl

/-- The stop request and the interrupt bit of a timeout in one of two pushes. -/
theorem ite_ite_timeout (first second : Bool) (stop : Option StopReq) :
    (if second then some .timeout else if first then some .timeout else stop) =
      if first || second then some StopReq.timeout else stop := by
  cases first <;> cases second <;> rfl

theorem or_ite_or_ite (first second : Bool) (w bit : Word) :
    w ||| (if first then bit else 0#32) ||| (if second then bit else 0#32) =
      w ||| (if first || second then bit else 0#32) := by
  cases first <;> cases second <;> simp [BitVec.or_assoc]

theorem pushEntries_append (ws1 ws2 : List Word) : pushEntries (ws1 ++ ws2) = pushEntries ws1 ++ pushEntries ws2 :=
  List.map_append

/-- Outside RX_RUN and inside it, the two pushes and the one differ in the count alone. -/
theorem pushBlock_append {ws1 ws2 : List Word} {s : State}
    (fits : s.fifo.length + ws1.length + ws2.length ≤ s.params.fifoCap) :
    ∃ n, pushBlock (ws1 ++ ws2) s =
      { pushBlock ws2 (pushBlock ws1 s) with
        out := { (pushBlock ws2 (pushBlock ws1 s)).out with accepted := n } } := by
  by_cases receive : s.core = .rxRun
  · have both : s.fifo.length + (ws1 ++ ws2).length ≤ s.params.fifoCap := by
      rw [List.length_append]
      omega
    refine ⟨(ws1 ++ ws2).length, ?_⟩
    have first := pushBlock_fits (ws := ws1) receive (by omega)
    have second := pushBlock_fits (ws := ws2) (s := pushBlock ws1 s) (by rw [first]; exact receive)
      (by rw [first, List.length_append, pushEntries, List.length_map]; exact fits)
    have reached := idleReached_after ws1.length ws2.length (s := s) (t := pushBlock ws1 s) (by rw [first])
    have fires := idleFires_add ws1.length ws2.length (s := s) (t := pushBlock ws1 s) (by rw [first]) (by rw [first])
      (by rw [first])
    rw [second, pushBlock_fits receive both, List.length_append, fires, reached, pushEntries_append, first]
    simp only [ite_ite_timeout, or_ite_or_ite, List.append_assoc]
  · refine ⟨0, ?_⟩
    rw [pushBlock_notReceive ws1 receive, pushBlock_notReceive ws2, pushBlock_notReceive _ receive]
    exact receive

/-- Settles O37: both sides run `pushBlock`. -/
theorem splittingAPushChangesNothing : Obligations.SplittingAPushChangesNothing := by
  unfold Obligations.SplittingAPushChangesNothing
  intro ws1 ws2 s nonempty1 nonempty2 fits
  obtain ⟨n, same⟩ := pushBlock_append fits
  refine ⟨pushBlock ws2 (pushBlock ws1 s), ?_, n, ?_⟩
  · simp only [runOps, exec_radioPush nonempty1, exec_radioPush nonempty2]
  · simp only [runOps, exec_radioPush (List.append_ne_nil_of_left_ne_nil nonempty1 ws2), same]

end Sys2Proof.Machine
end

section
/-! An RX step and what the synchronizer does with a modem sample (46_synchronizer.md R421, R440, R446). -/

namespace Sys2Proof.Machine

/-! The step (R440). -/

theorem exec_rxStep_receive {s : State} {e : Tagged} {rest : List Tagged} (enabled : rxEnabled s = true)
    (go : stopSeen s = false) (fifo : s.fifo = e :: rest) : exec .rxStep s = .next (receiveSample e s) := by
  simp only [exec, execRxStep, enabled, go, fifo, Bool.not_true, Bool.false_eq_true, if_false]

theorem syncSteps_eq_foldl (ys : List Sample) (s : State) : syncSteps ys s = ys.foldl (fun u y => syncStep y u) s := by
  induction ys generalizing s with
  | nil => rfl
  | cons y ys ih => exact ih _

/-- The state in which the synchronizer gets an entry's modem samples. -/
def entryTaken (e : Tagged) (s : State) : State :=
  dumpAll .rx [(rxSample s.pipe e.sample).2.1] { fifoPop 1 s with pipe := (rxSample s.pipe e.sample).1 }

theorem receiveSample_eq (e : Tagged) (s : State) :
    receiveSample e s = syncSteps (rxSample s.pipe e.sample).2.2 (entryTaken e s) := rfl

theorem entryTaken_eq {e : Tagged} {rest : List Tagged} {s : State} (fifo : s.fifo = e :: rest) :
    entryTaken e s =
      let r := rxSample s.pipe e.sample
      { s with
        fifo := rest, pipe := r.1, hist := s.hist ++ (if dumpOn s then [Event.dump .rx r.2.1] else []),
        out := { s.out with dumped := if dumpOn s then [dumpWord .rx r.2.1] else s.out.dumped } } := by
  rw [entryTaken, dumpAll_eq, fifoPop, fifo]
  rfl

/-! A modem sample (R421). -/

theorem track_none {z : Sample} {s : State} (silent : (Config.trkStep s.rx.trk z).2 = none) :
    track z s = { s with rx := { s.rx with trk := (Config.trkStep s.rx.trk z).1 } } := by
  simp only [track, silent]

theorem track_some {z : Sample} {soft : Int} {s : State} (out : (Config.trkStep s.rx.trk z).2 = some soft) :
    track z s = symbol soft { s with rx := { s.rx with trk := (Config.trkStep s.rx.trk z).1 } } := by
  simp only [track, out]

theorem replay_of_detectFrame {s : State} (state : s.rx.sync = .detectFrame) (zs : List Sample) : replay zs s = s := by
  cases zs with
  | nil => rfl
  | cons z zs => exact if_pos state

theorem replay_cons {s : State} (state : s.rx.sync ≠ .detectFrame) (z : Sample) (zs : List Sample) :
    replay (z :: zs) s = replay zs (track z s) := if_neg state

theorem syncStep_tracks {s : State} (state : s.rx.sync ≠ .detectFrame) (y : Sample) : syncStep y s = track y s :=
  if_neg state

/-- The state in which an acquisition's samples are replayed. -/
def acquired (acq : Acq) (s : State) : State :=
  enter .rxPreamble { s with rx := { s.rx with trk := Config.trkAcquire s.rx.trk acq, det := Config.detInit } }

theorem syncStep_search {s : State} (state : s.rx.sync = .detectFrame) {y : Sample}
    (silent : (Config.detStep s.rx.det s.lcfg.thresh.toNat y).2 = none) :
    syncStep y s = { s with rx := { s.rx with det := (Config.detStep s.rx.det s.lcfg.thresh.toNat y).1 } } := by
  simp only [syncStep, state, if_true, silent]

theorem syncStep_acquisition {s : State} (state : s.rx.sync = .detectFrame) {y : Sample} {acq : Acq}
    (found : (Config.detStep s.rx.det s.lcfg.thresh.toNat y).2 = some acq) :
    syncStep y s = replay acq.replay (acquired acq s) := by
  simp only [syncStep, state, if_true, found]
  rfl

/-- Samples tracked one after the other. -/
def tracked (zs : List Sample) (s : State) : State := zs.foldl (fun u z => track z u) s

/-- A replay tracks samples up to the first that finds DETECT_FRAME entered again. -/
theorem replay_eq_tracked (zs : List Sample) (s : State) :
    ∃ n, replay zs s = tracked (zs.take n) s ∧ n ≤ zs.length ∧
      (∀ m, m < n → (tracked (zs.take m) s).rx.sync ≠ .detectFrame) ∧
      (n < zs.length → (tracked (zs.take n) s).rx.sync = .detectFrame) := by
  induction zs generalizing s with
  | nil => exact ⟨0, rfl, Nat.le_refl 0, nofun, nofun⟩
  | cons z zs ih =>
    by_cases state : s.rx.sync = .detectFrame
    · exact ⟨0, replay_of_detectFrame state _, Nat.zero_le _, nofun, fun _ => state⟩
    · obtain ⟨n, replayed, short, before, stop⟩ := ih (track z s)
      refine ⟨n + 1, (replay_cons state z zs).trans replayed, Nat.succ_le_succ short, fun m less => ?_,
        fun less => stop (Nat.lt_of_succ_lt_succ less)⟩
      cases m with
      | zero => exact state
      | succ m => exact before m (Nat.lt_of_succ_lt_succ less)

/-- Settles O44: the step, then the sample by the synchronizer's state. -/
theorem rxStepConsumesOneEntry : Obligations.RxStepConsumesOneEntry := by
  unfold Obligations.RxStepConsumesOneEntry
  refine ⟨fun s e rest enabled noStop noStopAll fifo => ?_, fun y s => ⟨track_none, fun soft => track_some,
    fun state => syncStep_tracks state y, fun state => syncStep_search state, fun state acq found => ?_⟩⟩
  · intro r dump s1
    have go : stopSeen s = false := (stopSeen_eq_false_iff s).2 ⟨noStop, noStopAll⟩
    have taken : receiveSample e s = syncSteps r.2.2 s1 := by
      rw [receiveSample_eq, entryTaken_eq fifo]
      rfl
    refine ⟨syncSteps r.2.2 s1, ?_, syncSteps_eq_foldl _ _, syncSteps_same _ _⟩
    rw [exec_rxStep_receive enabled go fifo, taken]
  · rw [syncStep_acquisition state found]
    exact replay_eq_tracked acq.replay (acquired acq s)

/-! Reports (R446). -/

/-- From s to t no report was made. -/
structure NoReport (s t : State) : Prop where
  stats : t.stats = s.stats
  rxq : t.rxq = s.rxq
  last : t.last = s.last

/-- From s to t one report was made, and the synchronizer searches again. -/
structure OneReport (s t : State) : Prop where
  counted : t.stats.rxFrames = s.stats.rxFrames + 1#32
  sync : t.rx.sync = .detectFrame
  rxq : t.rxq = s.rxq ∨ ∃ r, t.rxq = s.rxq ++ [r]

/-- From s to t at most one report was made. -/
def AtMostOneReport (s t : State) : Prop := NoReport s t ∨ OneReport s t

theorem NoReport.withRx (rx : Synchronizer) (s : State) : NoReport s { s with rx := rx } := ⟨rfl, rfl, rfl⟩

/-- What no report came before. -/
theorem NoReport.then {s t u : State} (h : NoReport s t) (k : AtMostOneReport t u) : AtMostOneReport s u := by
  rcases k with quiet | ⟨counted, sync, rxq⟩
  · exact .inl ⟨quiet.stats.trans h.stats, quiet.rxq.trans h.rxq, quiet.last.trans h.last⟩
  · rw [h.stats] at counted
    rw [h.rxq] at rxq
    exact .inr ⟨counted, sync, rxq⟩

/-- Everything a symbol can do: the synchronizer alone moves on, or a report ends the frame. -/
theorem symbol_cases (soft : Int) (s : State) :
    (∃ rx, symbol soft s = { s with rx := rx }) ∨
    ∃ pl pv lenErr rx, symbol soft s = enter .detectFrame (report pl pv lenErr { s with rx := rx }) := by
  cases state : s.rx.sync with
  | detectFrame => exact .inl ⟨_, symbol_detectFrame soft state⟩
  | rxPreamble =>
    rw [symbol_rxPreamble soft state]
    split
    · exact .inl ⟨_, rfl⟩
    · exact .inl ⟨_, rfl⟩
  | rxHeader =>
    rw [symbol_rxHeader soft state]
    split
    · by_cases bad : (headerDecoded (collected [soft] s)).rx.plen = 0#16 ∨
        s.lcfg.maxp < (headerDecoded (collected [soft] s)).rx.plen
      · exact .inr ⟨_, _, _, _, headerDone_lengthError bad⟩
      · obtain ⟨nonzero, fits⟩ := not_or.1 bad
        exact .inl ⟨_, headerDone_payload nonzero (BitVec.not_lt.1 fits)⟩
    · exact .inl ⟨_, rfl⟩
  | rxPayload =>
    rw [symbol_rxPayload soft state]
    split
    · exact .inr ⟨_, _, _, _, rfl⟩
    · exact .inl ⟨_, rfl⟩

theorem report_oneReport (pl : List Byte) (pv lenErr : Bool) (s : State) :
    OneReport s (enter .detectFrame (report pl pv lenErr s)) := by
  rw [report_eq]
  refine ⟨rfl, rfl, ?_⟩
  cases delivered : (reportOf pv lenErr s).delivered with
  | true => exact .inr ⟨_, if_pos delivered⟩
  | false => exact .inl (if_neg (by simp [delivered]))

theorem symbol_atMostOneReport (soft : Int) (s : State) : AtMostOneReport s (symbol soft s) := by
  rcases symbol_cases soft s with ⟨rx, h⟩ | ⟨pl, pv, lenErr, rx, h⟩
  · exact h ▸ .inl (.withRx rx s)
  · rw [h]
    exact (NoReport.withRx rx s).then (.inr (report_oneReport pl pv lenErr _))

theorem track_atMostOneReport (z : Sample) (s : State) : AtMostOneReport s (track z s) := by
  have stepped : NoReport s { s with rx := { s.rx with trk := (Config.trkStep s.rx.trk z).1 } } := .withRx _ s
  cases out : (Config.trkStep s.rx.trk z).2 with
  | none => exact track_none out ▸ .inl stepped
  | some soft => exact track_some out ▸ stepped.then (symbol_atMostOneReport soft _)

/-- The replay stops at a report. -/
theorem replay_atMostOneReport (zs : List Sample) (s : State) : AtMostOneReport s (replay zs s) := by
  induction zs generalizing s with
  | nil => exact .inl ⟨rfl, rfl, rfl⟩
  | cons z zs ih =>
    by_cases state : s.rx.sync = .detectFrame
    · rw [replay_of_detectFrame state]
      exact .inl ⟨rfl, rfl, rfl⟩
    · rw [replay_cons state]
      rcases track_atMostOneReport z s with quiet | reported
      · exact quiet.then (ih _)
      · rw [replay_of_detectFrame reported.sync]
        exact .inr reported

theorem syncStep_atMostOneReport (y : Sample) (s : State) : AtMostOneReport s (syncStep y s) := by
  by_cases state : s.rx.sync = .detectFrame
  · cases found : (Config.detStep s.rx.det s.lcfg.thresh.toNat y).2 with
    | none => exact syncStep_search state found ▸ .inl (.withRx _ s)
    | some acq =>
      rw [syncStep_acquisition state found]
      exact (NoReport.withRx _ s).then (replay_atMostOneReport acq.replay (acquired acq s))
  · exact syncStep_tracks state y ▸ track_atMostOneReport y s

theorem AtMostOneReport.length_le {s t : State} (h : AtMostOneReport s t) : t.rxq.length ≤ s.rxq.length + 1 := by
  rcases h with ⟨-, rxq, -⟩ | ⟨-, -, rxq | ⟨r, rxq⟩⟩ <;> rw [rxq]
  · exact Nat.le_succ _
  · exact Nat.le_succ _
  · rw [List.length_append, List.length_singleton]

/-- The synchronizer queues at most one record for each modem sample. -/
theorem syncSteps_length_le (ys : List Sample) (s : State) :
    (syncSteps ys s).rxq.length ≤ s.rxq.length + ys.length := by
  induction ys generalizing s with
  | nil => exact Nat.le_refl _
  | cons y ys ih =>
    have first := (syncStep_atMostOneReport y s).length_le
    have others := ih (syncStep y s)
    rw [List.length_cons]
    exact others.trans (by omega)

theorem receiveSample_length_le (e : Tagged) (s : State) :
    (receiveSample e s).rxq.length ≤ s.rxq.length + (rxSample s.pipe e.sample).2.2.length := by
  have queue : (entryTaken e s).rxq = s.rxq := by rw [entryTaken, dumpAll_rxq, fifoPop_rxq]
  have steps := syncSteps_length_le (rxSample s.pipe e.sample).2.2 (entryTaken e s)
  rw [queue] at steps
  exact steps

end Sys2Proof.Machine
end

section
/-! What the operations leave of the receive side: an operation other than RX_STEP runs at most a command, and besides
it leaves the configuration, the synchronizer and the queue alone; an RX step ends the transfer, holds, or receives. -/

namespace Sys2Proof.Machine

/-- From s to t the receive side is left alone: the transfer goes on or ends under its configuration, and a pending
chunk stays or is taken. -/
structure ReceiveKept (s t : State) : Prop where
  params : t.params = s.params
  core : t.core = s.core ∨ t.core = .idle
  lcfg : t.lcfg = s.lcfg
  rx : t.rx = s.rx
  rxq : t.rxq = s.rxq
  pendLen : t.pendLen = s.pendLen ∨ t.pendLen = 0

/-- What changes none of it. -/
theorem ReceiveKept.of_eq {s t : State} (params : t.params = s.params) (core : t.core = s.core)
    (lcfg : t.lcfg = s.lcfg) (rx : t.rx = s.rx) (rxq : t.rxq = s.rxq) (pendLen : t.pendLen = s.pendLen) :
    ReceiveKept s t :=
  ⟨params, .inl core, lcfg, rx, rxq, .inl pendLen⟩

theorem ReceiveKept.refl (s : State) : ReceiveKept s s := .of_eq rfl rfl rfl rfl rfl rfl

/-! The operations but RX_STEP. -/

theorem popBlock_receiveKept (n : Nat) (s : State) : ReceiveKept s (popBlock n s) := by
  obtain ⟨fifo, stats, irqStatus, burstEnd, more, out, h, -⟩ := popBlock_frame n s
  rw [h]
  exact .of_eq rfl rfl rfl rfl rfl rfl

theorem pushBlock_receiveKept (ws : List Word) (s : State) : ReceiveKept s (pushBlock ws s) := by
  obtain ⟨more, stats, idle, stop, irqStatus, out, h, -⟩ := pushBlock_frame ws s
  rw [h]
  exact .of_eq rfl rfl rfl rfl rfl rfl

theorem radioFault_receiveKept (s : State) : ReceiveKept s (radioFault s) := by
  unfold radioFault
  split
  · exact .refl s
  · obtain ⟨stop, h, -⟩ := requestStop_frame .radioFault (raiseError .radioFault s)
    rw [h]
    exact .of_eq rfl rfl rfl rfl rfl rfl

theorem engineStop_receiveKept (s : State) : ReceiveKept s (engineStop s) :=
  ⟨rfl, .inr rfl, rfl, rfl, rfl, .inl rfl⟩

theorem drain_receiveKept (s : State) : ReceiveKept s (drain s) := by
  rcases drain_cases s with ⟨h, -⟩ | ⟨-, frameCnt, irqStatus, core, stopReason, h, last, notLast, -⟩
  · rw [h]
    exact .of_eq rfl rfl rfl rfl rfl rfl
  · rw [h]
    refine ⟨rfl, ?_, rfl, rfl, rfl, .inl rfl⟩
    cases final : s.tx.outFinal with
    | true => exact .inr (last final).1
    | false => exact .inl (notLast final).1

/-- A block of a frame leaves the receive side alone; a chunk may have been taken for it. -/
theorem frameBlock_receiveKept (syms : List Bool) {s t : State} (h : ReceiveKept s t) :
    ReceiveKept s (frameBlock syms t) := by
  rw [frameBlock_eq]
  exact ⟨h.params, h.core, h.lcfg, h.rx, h.rxq, h.pendLen⟩

theorem startFrame_receiveKept (s : State) : ReceiveKept s (startFrame s) :=
  ⟨rfl, .inl rfl, rfl, rfl, rfl, .inr rfl⟩

theorem produce_receiveKept {s t : State} (h : produce s = .next t) : ReceiveKept s t := by
  cases gen : s.tx.gen with
  | frame syms =>
    cases (produce_frame gen).symm.trans h
    exact frameBlock_receiveKept syms (.refl s)
  | wait =>
    by_cases free : s.pendLen = 0
    · cases (produce_idle gen free).symm.trans h
      split
      · rw [finalFlush, produceBlock_eq]
        exact .of_eq rfl rfl rfl rfl rfl rfl
      · rw [silenceBlock, produceBlock_eq]
        exact .of_eq rfl rfl rfl rfl rfl rfl
    · cases (produce_chunk gen free).symm.trans h
      exact frameBlock_receiveKept _ (startFrame_receiveKept s)
  | final => simp only [produce, gen, reduceCtorEq] at h

theorem execTxStep_receiveKept {s t : State} (h : execTxStep s = .next t) : ReceiveKept s t := by
  unfold execTxStep at h
  split at h
  · cases h
    exact .refl s
  · split at h
    · cases h
      exact engineStop_receiveKept s
    · split at h
      · cases h
        exact drain_receiveKept s
      · exact produce_receiveKept h

/-- The port, the pins and TX_STEP leave the receive side alone. -/
theorem exec_notBus_receiveKept {i : Instr} {s t : State} (notRead : busReadOf i = none)
    (notWrite : busWriteOf i = none) (other : i ≠ .rxStep) (h : exec i s = .next t) : ReceiveKept s t := by
  cases i
  case radioPop n =>
    simp only [exec, execRadioPop] at h
    split at h <;> cases h
    exact popBlock_receiveKept n s
  case radioPush ws =>
    simp only [exec, execRadioPush] at h
    split at h <;> cases h
    exact pushBlock_receiveKept ws s
  case radioFault =>
    cases h
    exact radioFault_receiveKept s
  case pinStopAll level =>
    cases h
    exact .of_eq rfl rfl rfl rfl rfl rfl
  case txStep => exact execTxStep_receiveKept h
  case rxStep => exact absurd rfl other
  case memRead | memReadCsr | memReadTxbuf | memReadRxbuf => cases notRead
  all_goals cases notWrite

theorem StoreEffect.receiveKept {s t : State} (h : StoreEffect s t) : ReceiveKept s t := by
  cases h with
  | irqStatus | irqEnable | cfg | txbuf => exact .of_eq rfl rfl rfl rfl rfl rfl

theorem ReceiveKept.respond {s t : State} (h : ReceiveKept s t) (v : Word) (e : Bool) :
    ReceiveKept s (respond v e t) :=
  ⟨h.params, h.core, h.lcfg, h.rx, h.rxq, h.pendLen⟩

/-- An operation other than RX_STEP runs at most a command, and nothing else of it touches the receive side. -/
theorem exec_command_receiveKept {i : Instr} {s t : State} (other : i ≠ .rxStep) (h : exec i s = .next t) :
    ∃ u, CommandEffect s u ∧ ReceiveKept u t := by
  rcases exec_next_cases h with ⟨size, addr, -, rfl⟩ | ⟨size, addr, v, -, rfl⟩ | ⟨notRead, notWrite⟩
  · refine ⟨s, .nothing, ?_⟩
    rcases busRead_cases size addr s with ⟨code, h⟩ | ⟨v, h⟩
    · exact h ▸ .of_eq rfl rfl rfl rfl rfl rfl
    · exact h ▸ (ReceiveKept.refl s).respond _ _
  · rcases busWrite_cases size addr v s with ⟨code, h⟩ | ⟨-, -, h⟩ | ⟨u, stored, h⟩ <;> rw [h]
    · exact ⟨s, .nothing, .of_eq rfl rfl rfl rfl rfl rfl⟩
    · exact ⟨execCmdWord v s, runCommand_cases _ _ s, (ReceiveKept.refl _).respond _ _⟩
    · exact ⟨s, .nothing, stored.receiveKept.respond _ _⟩
  · exact ⟨s, .nothing, exec_notBus_receiveKept notRead notWrite other h⟩

/-! RX_STEP. -/

/-- An RX step receives where the engine runs, an entry waits and the queue has room; any other leaves the receive side
alone. -/
theorem exec_rxStep_cases {s t : State} (h : exec .rxStep s = .next t) :
    ReceiveKept s t ∨ ∃ e rest, s.core = .rxRun ∧ s.fifo = e :: rest ∧ s.rxq.length < s.params.rxqDepth ∧
      t = receiveSample e s := by
  cases enabled : rxEnabled s with
  | false =>
    cases (exec_rxStep_of_held enabled).symm.trans h
    exact .inl (.refl s)
  | true =>
    obtain ⟨running, seen | ⟨waits, room⟩⟩ := (rxEnabled_iff s).1 enabled
    · simp only [exec, execRxStep, enabled, seen, Bool.not_true, Bool.false_eq_true, if_false, if_true] at h
      cases h
      exact .inl (engineStop_receiveKept s)
    · cases seen : stopSeen s with
      | true =>
        simp only [exec, execRxStep, enabled, seen, Bool.not_true, Bool.false_eq_true, if_false, if_true] at h
        cases h
        exact .inl (engineStop_receiveKept s)
      | false =>
        obtain ⟨e, rest, fifo⟩ := List.exists_cons_of_length_pos waits
        cases (exec_rxStep_receive enabled seen fifo).symm.trans h
        exact .inr ⟨e, rest, running, fifo, room, rfl⟩

/-- Taking an entry leaves the receive side alone. -/
theorem entryTaken_receiveKept (e : Tagged) (s : State) : ReceiveKept s (entryTaken e s) := by
  rw [entryTaken, dumpAll_eq]
  exact .of_eq rfl rfl rfl rfl rfl rfl

theorem entryTaken_core (e : Tagged) (s : State) : (entryTaken e s).core = s.core := by
  rw [entryTaken, dumpAll_core]
  rfl

/-- A property of the receive side that every command and every received sample keeps is kept by every step. -/
theorem step_keeps_receiveSide {P : State → Prop} (kept : ∀ {s t}, ReceiveKept s t → P s → P t)
    (command : ∀ {s t}, CommandEffect s t → P s → P t)
    (received : ∀ {s} ys, s.core = .rxRun → P s → P (syncSteps ys s)) {s t : State} (ok : P s)
    (h : step s = .next t) : P t := by
  have operation : ∀ {i s}, P s → exec i s = .next t → P t := by
    intro i s ok h
    by_cases other : i = .rxStep
    · subst other
      rcases exec_rxStep_cases h with left | ⟨e, rest, running, -, -, rfl⟩
      · exact kept left ok
      · exact received _ ((entryTaken_core e s).trans running) (kept (entryTaken_receiveKept e s) ok)
    · obtain ⟨u, ran, left⟩ := exec_command_receiveKept other h
      exact kept left (command ran ok)
  rcases step_cases h with rfl | ⟨i, h | ⟨w, rest, -, -, h⟩⟩
  · exact ok
  · exact operation ok h
  · exact operation (kept (s := s) (t := { s with pending := rest }) (.of_eq rfl rfl rfl rfl rfl rfl) ok) h

/-! The queue's length (10_state.md R71; 46_synchronizer.md R444, R446). -/

/-- No command enters a record. -/
theorem CommandEffect.rxq_suffix {s t : State} (h : CommandEffect s t) : t.rxq <:+ s.rxq := by
  cases h with
  | rxqPop => exact List.drop_suffix 1 s.rxq
  | startRx | softReset => exact List.nil_suffix
  | nothing | error | startTx | stop | commit | eos | clearStats | clearErr => exact List.suffix_rfl

theorem CommandEffect.params {s t : State} (h : CommandEffect s t) : t.params = s.params := by
  cases h <;> rfl

theorem exec_rxq_suffix {i : Instr} {s t : State} (other : i ≠ .rxStep) (h : exec i s = .next t) :
    t.rxq <:+ s.rxq := by
  obtain ⟨u, ran, kept⟩ := exec_command_receiveKept other h
  exact kept.rxq ▸ ran.rxq_suffix

theorem exec_params {i : Instr} {s t : State} (other : i ≠ .rxStep) (h : exec i s = .next t) :
    t.params = s.params := by
  obtain ⟨u, ran, kept⟩ := exec_command_receiveKept other h
  exact kept.params.trans ran.params

theorem receiveSample_params (e : Tagged) (s : State) : (receiveSample e s).params = s.params := by
  obtain ⟨more, words, pipe, rx, rxq, last, stats, idle, irqStatus, h⟩ := receiveSample_frame e s
  rw [h]

theorem rxStep_length_le {s t : State} {e : Tagged} {rest : List Tagged} (h : exec .rxStep s = .next t)
    (fifo : s.fifo = e :: rest) : t.rxq.length ≤ s.rxq.length + (rxSample s.pipe e.sample).2.2.length := by
  rcases exec_rxStep_cases h with kept | ⟨e', rest', -, fifo', -, rfl⟩
  · rw [kept.rxq]
    exact Nat.le_add_right _ _
  · obtain ⟨rfl, -⟩ := List.cons.inj (fifo.symm.trans fifo')
    exact receiveSample_length_le e s

/-- Where an entry makes at most one modem sample, RX_STEP's test for room keeps the queue within its depth. -/
theorem exec_queueBounded {i : Instr} {s t : State} (bounded : QueueBounded s)
    (one : ∀ e rest, s.fifo = e :: rest → (rxSample s.pipe e.sample).2.2.length ≤ 1) (h : exec i s = .next t) :
    QueueBounded t := by
  unfold QueueBounded at bounded ⊢
  by_cases other : i = .rxStep
  · subst other
    rcases exec_rxStep_cases h with kept | ⟨e, rest, -, fifo, room, rfl⟩
    · rw [kept.rxq, kept.params]
      exact bounded
    · have grown := receiveSample_length_le e s
      have atMostOne := one e rest fifo
      rw [receiveSample_params]
      omega
  · rw [exec_params other h]
    exact (exec_rxq_suffix other h).length_le.trans bounded

/-- Settles O47: the sample, the RX step, the other operations, and the step. -/
theorem oneModemSampleReportsAtMostOneFrame : Obligations.OneModemSampleReportsAtMostOneFrame := by
  unfold Obligations.OneModemSampleReportsAtMostOneFrame
  refine ⟨fun y s => ?_, fun s t e rest => rxStep_length_le, fun i s t other h => (exec_rxq_suffix other h).length_le,
    fun s t bounded one h => ?_⟩
  · rcases syncStep_atMostOneReport y s with ⟨stats, rxq, last⟩ | ⟨counted, sync, rxq⟩
    · exact .inl ⟨stats, rxq, last⟩
    · exact .inr ⟨counted, sync, rxq⟩
  · rcases step_cases h with rfl | ⟨i, h | ⟨w, rest, -, -, h⟩⟩
    · exact bounded
    · exact exec_queueBounded bounded one h
    · exact exec_queueBounded (s := { s with pending := rest }) bounded one h

end Sys2Proof.Machine
end

section
/-! What every step keeps of the receive side (41_commands.md R231; 45_generator.md R384; 46_synchronizer.md R442, R445,
R448): the records carry the latched id, and the configuration, the synchronizer's counts and the records are well
formed. -/

namespace Sys2Proof.Machine

/-! The ids of the queued records (R448). -/

/-- The record a report queues carries the latched id. -/
theorem report_queueIdsOk (pl : List Byte) (pv lenErr : Bool) {s : State} (ok : QueueIdsOk s) :
    QueueIdsOk (report pl pv lenErr s) := by
  obtain ⟨stats, irqStatus, rxq, idle, h, queue, -⟩ := report_frame pl pv lenErr s
  rcases queue with ⟨same, -⟩ | ⟨-, -, id, -, queued⟩
  · rw [h, same]
    exact ok
  · rw [h, queued]
    intro running r mem
    rcases List.mem_append.1 mem with old | new
    · exact ok running r old
    · rw [List.mem_singleton.1 new, List.take_take]
      rw [idMatches_eq_decide] at id
      exact of_decide_eq_true id

theorem symbol_queueIdsOk (soft : Int) {s : State} (ok : QueueIdsOk s) : QueueIdsOk (symbol soft s) := by
  rcases symbol_cases soft s with ⟨rx, h⟩ | ⟨pl, pv, lenErr, rx, h⟩
  · rw [h]
    exact ok
  · rw [h]
    exact report_queueIdsOk pl pv lenErr (s := { s with rx := rx }) ok

theorem ReceiveKept.queueIdsOk {s t : State} (h : ReceiveKept s t) (ok : QueueIdsOk s) : QueueIdsOk t := by
  intro running
  rcases h.core with same | idle
  · rw [h.rxq, h.lcfg]
    exact ok (same ▸ running)
  · simp [idle] at running

theorem CommandEffect.queueIdsOk {s t : State} (h : CommandEffect s t) (ok : QueueIdsOk s) : QueueIdsOk t := by
  cases h with
  | startTx | softReset => exact nofun
  | startRx => exact fun _ => nofun
  | rxqPop => exact fun running r mem => ok running r (List.mem_of_mem_drop mem)
  | nothing | error | stop | commit | eos | clearStats | clearErr => exact ok

/-- Settles O57: a command empties the queue where it latches, and the synchronizer queues matching ids only. -/
theorem stepKeepsForeignFramesOut : Obligations.StepKeepsForeignFramesOut := by
  unfold Obligations.StepKeepsForeignFramesOut
  intro s t ok h
  exact step_keeps_receiveSide ReceiveKept.queueIdsOk CommandEffect.queueIdsOk
    (fun ys _ ok => syncSteps_keeps (fun _ _ ok => ok) (fun _ _ ok => ok) (fun _ ok _ => ok)
      (fun _ soft ok _ => symbol_queueIdsOk soft ok) ys _ ok) ok h

/-! The commands and the well-formed receive side. -/

/-- What the configuration check accepts is latched legal, and for a transmission a pending chunk fits it. -/
theorem latch_legal {dir : Dir} {s : State} (accepted : checkCfg dir s = none) :
    lcfgLegal s.params (latch s.cfg) ∧ (dir = .tx → s.pendLen ≤ (latch s.cfg).maxp.toNat) := by
  have none := (checkCfg_reports dir s).1.1 accepted
  simp only [configFailures, noneHolds_cons, not_or, ← freqOffset_test_iff] at none
  obtain ⟨fs, rb, ratio, offset, ⟨btLow, btHigh⟩, -, -, -, ⟨maxpLow, maxpHigh⟩, -, chunk, -⟩ := none
  refine ⟨⟨Nat.pos_of_ne_zero fs, Nat.pos_of_ne_zero rb, Nat.le_of_not_lt ratio, Nat.lt_of_not_le offset,
    Nat.pos_of_ne_zero btLow, Nat.le_of_not_lt btHigh, Nat.pos_of_ne_zero maxpLow, Nat.le_of_not_lt maxpHigh⟩, ?_⟩
  exact fun tx => Nat.le_of_not_lt fun long => chunk ⟨tx, long⟩

/-- A transmission or IDLE asks of the synchronizer the length of the stored header alone. -/
theorem syncOk_of_notReceiving {s : State} (hdr : s.rx.hdr.length = 10) (other : s.core ≠ .rxRun) : SyncOk s :=
  ⟨hdr, fun running => absurd running other⟩

theorem ReceiveKept.receiveOk {s t : State} (h : ReceiveKept s t) (ok : ReceiveOk s) : ReceiveOk t := by
  obtain ⟨legal, ⟨lcfgOk, chunk, hardware⟩, sync, queue⟩ := ok
  have pending : t.pendLen ≤ s.pendLen := by
    rcases h.pendLen with same | taken <;> omega
  refine ⟨h.params ▸ legal, ?_, ?_, ?_⟩
  · unfold TransferOk
    rw [h.params, h.lcfg]
    rcases h.core with same | idle
    · rw [same]
      exact ⟨lcfgOk, fun running => pending.trans (chunk running), pending.trans hardware⟩
    · exact ⟨fun running => absurd idle running, fun running => by simp [idle] at running, pending.trans hardware⟩
  · rcases h.core with same | idle
    · unfold SyncOk
      rw [h.rx, h.params, h.lcfg, same]
      exact sync
    · exact syncOk_of_notReceiving (h.rx ▸ sync.1) (by simp [idle])
  · unfold QueueOk
    rw [h.rxq, h.params]
    exact queue

/-- A committed length is within the configuration that runs, or in IDLE within the hardware's. -/
theorem commitMax_le {s : State} (ok : ReceiveOk s) :
    (s.core = .txRun → commitMax s = s.lcfg.maxp.toNat) ∧ commitMax s ≤ s.params.maxPayloadHw := by
  obtain ⟨lcfgOk, -, -⟩ := ok.transfer
  by_cases running : s.core = .txRun
  · have max : commitMax s = s.lcfg.maxp.toNat := if_pos running
    obtain ⟨-, -, -, -, -, -, -, maxp⟩ := lcfgOk (by simp [running])
    exact ⟨fun _ => max, max ▸ maxp⟩
  · have max : commitMax s = min (cfgMaxp s.cfg).toNat s.params.maxPayloadHw := if_neg running
    exact ⟨fun h => absurd h running, max ▸ Nat.min_le_right _ _⟩

theorem CommandEffect.receiveOk {s t : State} (h : CommandEffect s t) (ok : ReceiveOk s) : ReceiveOk t := by
  obtain ⟨lcfgOk, chunk, hardware⟩ := ok.transfer
  cases h with
  | startTx idle accepted =>
    obtain ⟨latched, fits⟩ := latch_legal accepted
    exact ⟨ok.legal, ⟨fun _ => latched, fun _ => fits rfl, hardware⟩, syncOk_of_notReceiving ok.sync.1 nofun, ok.queue⟩
  | startRx idle accepted =>
    obtain ⟨latched, -⟩ := latch_legal accepted
    exact ⟨ok.legal, ⟨fun _ => latched, nofun, hardware⟩, ⟨rfl, fun _ => ⟨rfl, rfl⟩⟩, nofun⟩
  | commit len _ lo hi =>
    obtain ⟨running, max⟩ := commitMax_le ok
    exact ⟨ok.legal, ⟨lcfgOk, fun tx => hi.trans_eq (running tx), hi.trans max⟩, ok.sync, ok.queue⟩
  | softReset =>
    exact ⟨ok.legal, ⟨fun running => absurd rfl running, nofun, Nat.zero_le _⟩, syncOk_of_notReceiving rfl nofun,
      nofun⟩
  | rxqPop => exact ⟨ok.legal, ok.transfer, ok.sync, fun r mem => ok.queue r (List.mem_of_mem_drop mem)⟩
  | nothing | error | stop | eos | clearStats | clearErr =>
    exact ReceiveKept.receiveOk (s := s) (.of_eq rfl rfl rfl rfl rfl rfl) ok

/-! A reception (R442). -/

/-- A reception with its receive side well formed. -/
structure Receiving (s : State) : Prop where
  ok : ReceiveOk s
  running : s.core = .rxRun

namespace Receiving

theorem preRxSyms_pos {s : State} (h : Receiving s) : 0 < s.params.preRxSyms := by
  have legal := h.ok.legal
  simp only [Params.legal, Bool.and_eq_true, decide_eq_true_eq] at legal
  omega

theorem maxp_le {s : State} (h : Receiving s) : s.lcfg.maxp.toNat ≤ s.params.maxPayloadHw := by
  obtain ⟨-, -, -, -, -, -, -, maxp⟩ := h.ok.transfer.1 (by simp [h.running])
  exact maxp

/-- A change of the synchronizer that keeps its counts in order. -/
theorem withRx {s : State} (h : Receiving s) {rx : Synchronizer} (sync : SyncOk { s with rx := rx }) :
    Receiving { s with rx := rx } :=
  ⟨⟨h.ok.legal, h.ok.transfer, sync, h.ok.queue⟩, h.running⟩

/-! What the invariant says in each state of the synchronizer. -/

theorem rxPreamble {s : State} (h : Receiving s) (state : s.rx.sync = .rxPreamble) :
    s.rx.cnt < s.params.preRxSyms ∧ s.rx.bits = [] := by
  have counts := h.ok.sync.2 h.running
  rw [state] at counts
  exact counts

theorem rxHeader {s : State} (h : Receiving s) (state : s.rx.sync = .rxHeader) :
    s.rx.bits.length = s.rx.cnt ∧ s.rx.cnt < headerBits s.lcfg := by
  have counts := h.ok.sync.2 h.running
  rw [state] at counts
  exact counts

theorem rxPayload {s : State} (h : Receiving s) (state : s.rx.sync = .rxPayload) :
    s.rx.bits.length = s.rx.cnt ∧ s.rx.cnt < s.rx.need ∧ s.rx.need = 8 * encodedLen s.lcfg s.rx.plen.toNat ∧
      1 ≤ s.rx.plen.toNat ∧ s.rx.plen.toNat ≤ s.lcfg.maxp.toNat := by
  have counts := h.ok.sync.2 h.running
  rw [state] at counts
  exact counts

/-- A report over a changed synchronizer, where the record it may queue is well shaped. -/
theorem report {s : State} (h : Receiving s) {rx : Synchronizer} {pl : List Byte} {pv lenErr : Bool}
    (hdr : rx.hdr.length = 10)
    (record : lenErr = false → RecordOk s.params ⟨rx.hdr.take 8, rx.hv, rx.plen, pl⟩) :
    Receiving (enter .detectFrame (report pl pv lenErr { s with rx := rx })) := by
  obtain ⟨stats, irqStatus, rxq, idle, reported, queue, -⟩ := report_frame pl pv lenErr { s with rx := rx }
  rw [reported]
  refine ⟨⟨h.ok.legal, h.ok.transfer, ⟨hdr, fun _ => ⟨rfl, rfl⟩⟩, fun r mem => ?_⟩, h.running⟩
  rcases queue with ⟨rfl, -⟩ | ⟨-, good, -, -, rfl⟩
  · exact h.ok.queue r mem
  · rcases List.mem_append.1 mem with old | new
    · exact h.ok.queue r old
    · rw [List.mem_singleton.1 new]
      exact record good

end Receiving

/-- Whole encoded bytes were collected: the block decodes to as many bytes as it was encoded from. -/
theorem decodeBlock_pack_length {l : LCfg} {bits : List Bool} {n : Nat} (whole : bits.length = 8 * encodedLen l n) :
    (decodeBlock l (pack bits) n).1.length = n :=
  decodeBlock_length l _ n (by rw [pack_length, whole]; omega)

theorem symbol_rxPreamble_receiving (soft : Int) {s : State} (h : Receiving s) (state : s.rx.sync = .rxPreamble) :
    Receiving (symbol soft s) := by
  obtain ⟨below, noBits⟩ := h.rxPreamble state
  have hdr := h.ok.sync.1
  rw [symbol_rxPreamble soft state]
  split
  · have positive := encodedLen_pos s.lcfg (n := 10) (by omega)
    refine h.withRx ⟨hdr, fun _ => ⟨rfl, ?_⟩⟩
    change 0 < 8 * encodedLen s.lcfg 10
    omega
  · refine h.withRx ⟨hdr, fun _ => ?_⟩
    simp only [state]
    exact ⟨by omega, noBits⟩

theorem symbol_rxHeader_receiving (soft : Int) {s : State} (h : Receiving s) (state : s.rx.sync = .rxHeader) :
    Receiving (symbol soft s) := by
  obtain ⟨collectedAll, below⟩ := h.rxHeader state
  rw [symbol_rxHeader soft state]
  split
  · rename_i whole
    have hdr : (headerDecoded (collected [soft] s)).rx.hdr.length = 10 := decodeBlock_pack_length whole
    by_cases bad : (headerDecoded (collected [soft] s)).rx.plen = 0#16 ∨
      s.lcfg.maxp < (headerDecoded (collected [soft] s)).rx.plen
    · rw [headerDone_lengthError bad]
      exact h.report (rx := (headerDecoded (collected [soft] s)).rx) hdr nofun
    · obtain ⟨nonzero, fits⟩ := not_or.1 bad
      have positiveLen : 1 ≤ (headerDecoded (collected [soft] s)).rx.plen.toNat :=
        Nat.pos_of_ne_zero fun zero => nonzero (BitVec.eq_of_toNat_eq zero)
      have positive := encodedLen_pos s.lcfg positiveLen
      rw [headerDone_payload nonzero (BitVec.not_lt.1 fits)]
      refine h.withRx ⟨hdr, fun _ => ⟨rfl, ?_, rfl, positiveLen, BitVec.not_lt.1 fits⟩⟩
      change 0 < 8 * encodedLen s.lcfg _
      omega
  · rename_i more
    rw [collected_bits_length, List.length_singleton] at more
    refine h.withRx ⟨h.ok.sync.1, fun _ => ?_⟩
    simp only [state]
    refine ⟨by simp [collectedAll], ?_⟩
    change s.rx.cnt + 1 < headerBits s.lcfg
    omega

theorem symbol_rxPayload_receiving (soft : Int) {s : State} (h : Receiving s) (state : s.rx.sync = .rxPayload) :
    Receiving (symbol soft s) := by
  obtain ⟨collectedAll, below, need, positiveLen, fits⟩ := h.rxPayload state
  have hdr := h.ok.sync.1
  rw [symbol_rxPayload soft state]
  split
  · rename_i whole
    have payload := decodeBlock_pack_length (whole.trans need)
    refine h.report (rx := (collected [soft] s).rx) hdr fun _ => ⟨?_, payload, positiveLen, fits.trans h.maxp_le⟩
    rw [List.length_take]
    change min 8 s.rx.hdr.length = 8
    omega
  · rename_i more
    rw [collected_bits_length, List.length_singleton] at more
    refine h.withRx ⟨hdr, fun _ => ?_⟩
    simp only [state]
    refine ⟨by simp [collectedAll], ?_, need, positiveLen, fits⟩
    change s.rx.cnt + 1 < s.rx.need
    omega

theorem symbol_receiving (soft : Int) {s : State} (h : Receiving s) (searching : s.rx.sync ≠ .detectFrame) :
    Receiving (symbol soft s) := by
  cases state : s.rx.sync with
  | detectFrame => exact absurd state searching
  | rxPreamble => exact symbol_rxPreamble_receiving soft h state
  | rxHeader => exact symbol_rxHeader_receiving soft h state
  | rxPayload => exact symbol_rxPayload_receiving soft h state

theorem syncSteps_receiving (ys : List Sample) {s : State} (h : Receiving s) : Receiving (syncSteps ys s) :=
  syncSteps_keeps (fun _ _ h => h.withRx h.ok.sync) (fun _ _ h => h.withRx h.ok.sync)
    (fun _ h _ => h.withRx ⟨h.ok.sync.1, fun _ => ⟨h.preRxSyms_pos, rfl⟩⟩)
    (fun _ soft h searching => symbol_receiving soft h searching) ys s h

/-- Settles O56: the commands keep the configuration, and each symbol the counts and the records. -/
theorem stepKeepsTheReceiveSideWellFormed : Obligations.StepKeepsTheReceiveSideWellFormed := by
  unfold Obligations.StepKeepsTheReceiveSideWellFormed
  intro s t ok h
  exact step_keeps_receiveSide ReceiveKept.receiveOk CommandEffect.receiveOk
    (fun ys running ok => (syncSteps_receiving ys ⟨ok, running⟩).ok) ok h

end Sys2Proof.Machine
end

section
/-! Errors, the fault and stop-all inputs, and the engine stop (60_exceptions.md R471, R473, R477 to R479; 30_encoding.md
R145). -/

namespace Sys2Proof.Machine

/-! Recording an error (R471). -/

theorem raiseError_first {s : State} (clear : s.err.getLsbD 31 = false) (code : ErrCode) : raiseError code s = { s with
    err := 0x80000000#32 ||| (errCode code).setWidth 32, irqStatus := s.irqStatus ||| 0x1000#32,
    hist := s.hist ++ [.err code] } := by
  have recorded : recordErr code s.err = 0x80000000#32 ||| (errCode code).setWidth 32 := by
    rw [recordErr, errValid, if_neg (Bool.eq_false_iff.1 clear)]
    rfl
  rw [raiseError, recorded]
  rfl

theorem raiseError_later {s : State} (valid : s.err.getLsbD 31 = true) (code : ErrCode) : raiseError code s = { s with
    err := s.err ||| 0x100#32, irqStatus := s.irqStatus ||| 0x1000#32, hist := s.hist ++ [.err code] } := by
  have recorded : recordErr code s.err = s.err ||| 0x100#32 := by
    rw [recordErr, errValid, if_pos valid]
    rfl
  rw [raiseError, recorded]
  rfl

/-- Settles O10, by VALID. -/
theorem raiseErrorRecordsTheFirstCode : Obligations.RaiseErrorRecordsTheFirstCode := by
  unfold Obligations.RaiseErrorRecordsTheFirstCode
  exact fun code s => ⟨fun clear => raiseError_first clear code, fun valid => raiseError_later valid code⟩

/-! The fault and stop-all inputs (R478, R479). -/

/-- RADIO_FAULT is requested over a pending reason too (R476). -/
theorem requestStop_radioFault {s : State} (running : s.core ≠ .idle) :
    requestStop .radioFault s = { s with stop := some .radioFault } := by
  rw [requestStop, if_neg running, if_pos (.inr rfl)]

theorem radioFault_idle {s : State} (idle : s.core = .idle) : radioFault s = s := if_pos idle

theorem radioFault_running {s : State} (running : s.core ≠ .idle) :
    radioFault s = { raiseError .radioFault s with stop := some .radioFault } := by
  rw [radioFault, if_neg running]
  exact requestStop_radioFault running

/-- Settles O35, by whether a transfer runs. -/
theorem faultAndStopAllInputs : Obligations.FaultAndStopAllInputs := by
  unfold Obligations.FaultAndStopAllInputs
  exact fun s => ⟨fun idle => congrArg _ (radioFault_idle idle), fun running => congrArg _ (radioFault_running running),
    fun level => rfl⟩

/-! The engine stop (R477). -/

theorem exec_txStep_stop {s : State} (running : s.core = .txRun) (seen : stopSeen s = true) :
    exec .txStep s = .next (engineStop s) := by
  simp only [exec, execTxStep, txEnabled_of_stopSeen running seen, seen, Bool.not_true, Bool.false_eq_true, if_false,
    if_true]

theorem exec_rxStep_stop {s : State} (running : s.core = .rxRun) (seen : stopSeen s = true) :
    exec .rxStep s = .next (engineStop s) := by
  simp only [exec, execRxStep, rxEnabled_of_stopSeen running seen, seen, Bool.not_true, Bool.false_eq_true, if_false,
    if_true]

/-- Settles O38: both engines run `engine_stop`, whose reason is that of the request. -/
theorem engineStopEndsTheTransfer : Obligations.EngineStopEndsTheTransfer := by
  unfold Obligations.EngineStopEndsTheTransfer
  intro i s runs request
  have seen : stopSeen s = true := (stopSeen_iff s).2 request
  have stops : exec i s = .next (engineStop s) := by
    rcases runs with ⟨rfl, running⟩ | ⟨rfl, running⟩
    · exact exec_txStep_stop running seen
    · exact exec_rxStep_stop running seen
  rw [stops, engineStop]
  rcases s.stop with _ | reason
  · rfl
  · cases reason <;> rfl

/-! What stops the machine (R473; 30_encoding.md R145). -/

theorem produce_not_refused {s : State} {r : Refusal} : produce s ≠ .refused r := by
  cases gen : s.tx.gen with
  | frame syms => simp [produce_frame gen]
  | wait =>
    by_cases free : s.pendLen = 0
    · simp [produce_idle gen free]
    · simp [produce_chunk gen free]
  | final => simp [produce, gen]

theorem execTxStep_not_refused {s : State} {r : Refusal} : execTxStep s ≠ .refused r := by
  unfold execTxStep
  split
  · nofun
  · split
    · nofun
    · split
      · nofun
      · exact produce_not_refused

/-- The operations that are refused are the two operand forms that spell none. -/
theorem exec_refused {i : Instr} {s : State} {r : Refusal} (h : exec i s = .refused r) :
    i = .radioPop 0 ∨ i = .radioPush [] := by
  cases i
  case radioPop n =>
    simp only [exec, execRadioPop] at h
    split at h
    · rename_i zero
      exact .inl (zero ▸ rfl)
    · cases h
  case radioPush ws =>
    simp only [exec, execRadioPush] at h
    split at h
    · rename_i empty
      exact .inr (empty ▸ rfl)
    · cases h
  case txStep => exact absurd h execTxStep_not_refused
  case rxStep =>
    obtain ⟨t, next⟩ := rxStep_next s
    cases next.symm.trans h
  all_goals cases h

/-- Settles O6: a well-formed operation is none of the refused forms, and a consistent generator does not fault. -/
theorem everyWellFormedOperationCompletes : Obligations.EveryWellFormedOperationCompletes := by
  unfold Obligations.EveryWellFormedOperationCompletes
  refine ⟨fun i s wellFormed ok => ?_, fun s => ⟨rfl, rfl⟩⟩
  cases h : exec i s with
  | next t => exact ⟨t, rfl⟩
  | fault f => exact absurd h (ok.exec_noFault i f)
  | refused r =>
    rcases exec_refused h with rfl | rfl <;> cases wellFormed

end Sys2Proof.Machine
end

section
/-! The power-on state (70_reset_and_hazards.md R520). -/

namespace Sys2Proof.Machine

theorem powerOn_atReset (p : Params) (level : Bool) : AtReset (State.powerOn p level) where
  core := rfl
  stop := ⟨rfl, rfl⟩
  pendLen := rfl
  txbuf _ := rfl
  flags := ⟨rfl, rfl⟩
  fifo := ⟨rfl, rfl⟩
  tx := ⟨rfl, rfl, rfl, rfl, rfl, rfl⟩
  rx := ⟨rfl, rfl, rfl, rfl, rfl, rfl, rfl⟩
  queue := ⟨rfl, rfl⟩
  stats := rfl
  idle := rfl
  control := ⟨rfl, rfl, rfl⟩
  cfg := rfl

/-- Settles O7. -/
theorem powerOnLeavesTheStatedValues : Obligations.PowerOnLeavesTheStatedValues := by
  unfold Obligations.PowerOnLeavesTheStatedValues
  exact ⟨fun p level => ⟨powerOn_atReset p level, rfl, rfl, rfl⟩, powerOn_atReset Params.default false, rfl⟩

theorem powerOn_regsOk {p : Params} (legal : p.legal = true) (level : Bool) : RegsOk (State.powerOn p level) :=
  (regsOk_iff _).2 ⟨.inl rfl, rfl, rfl, .reset legal⟩

/-- In IDLE, with nothing queued or pending, the receive side is well formed. -/
theorem powerOn_receiveOk {p : Params} (legal : p.legal = true) (level : Bool) : ReceiveOk (State.powerOn p level) where
  legal := legal
  transfer := ⟨fun running => absurd rfl running, nofun, Nat.zero_le _⟩
  sync := syncOk_of_notReceiving rfl nofun
  queue := nofun

/-- Settles O9: nothing is stored, queued or running after the reset, and the CFG reset values fit their fields. -/
theorem resetMeetsEveryInvariant : Obligations.ResetMeetsEveryInvariant := by
  unfold Obligations.ResetMeetsEveryInvariant
  refine ⟨fun p level legal => ?_, rfl, rfl⟩
  have engine : EngineOk (State.powerOn p level) := .of_idle rfl rfl
  exact ⟨⟨rfl, nofun⟩, Nat.zero_le _, powerOn_regsOk legal level, dirOk_of_idle rfl, engine.stop, engine.gen,
    .of_idle rfl noneLast_nil.onlyNewestLast rfl, powerOn_receiveOk legal level, nofun, Nat.zero_le _⟩

end Sys2Proof.Machine
end

section
/-! The holds and what lifts them (70_reset_and_hazards.md R542). -/

namespace Sys2Proof.Machine

/-- A hold is no seen stop: TXE waits for space, RXE for an entry or for room in the queue (45_generator.md R380,
46_synchronizer.md R440). -/
theorem txHeld_cause {s : State} (running : s.core = .txRun) (held : txEnabled s = false) :
    s.tx.phase = .drain ∧ fifoSpace s = 0 ∧ stopSeen s = false := by
  have notEnabled := mt (txEnabled_iff s).2 (Bool.eq_false_iff.1 held)
  obtain ⟨phase, full, noStop, noStopAll⟩ := not_not.1 fun waits => notEnabled ⟨running, waits⟩
  exact ⟨phase, full, (stopSeen_eq_false_iff s).2 ⟨noStop, noStopAll⟩⟩

theorem rxHeld_cause {s : State} (running : s.core = .rxRun) (held : rxEnabled s = false) :
    (s.fifo = [] ∨ s.params.rxqDepth ≤ s.rxq.length) ∧ stopSeen s = false := by
  have notEnabled := mt (rxEnabled_iff s).2 (Bool.eq_false_iff.1 held)
  refine ⟨?_, Bool.eq_false_iff.2 fun seen => notEnabled ⟨running, .inl seen⟩⟩
  by_contra open_
  obtain ⟨waits, room⟩ := not_or.1 open_
  exact notEnabled ⟨running, .inr ⟨List.length_pos_iff.2 waits, Nat.not_le.1 room⟩⟩

theorem txEnabled_of_space {s : State} (running : s.core = .txRun) (space : 0 < fifoSpace s) : txEnabled s = true :=
  (txEnabled_iff s).2 ⟨running, fun ⟨_, full, _⟩ => space.ne' full⟩

theorem rxEnabled_of_room {s : State} (running : s.core = .rxRun) (waits : s.fifo ≠ [])
    (room : s.rxq.length < s.params.rxqDepth) : rxEnabled s = true :=
  (rxEnabled_iff s).2 ⟨running, .inr ⟨List.length_pos_iff.2 waits, room⟩⟩

/-! What lifts a hold. -/

/-- STOP and the stop-all input are seen by a running engine. -/
theorem exec_stop_seen {s : State} (running : s.core ≠ .idle) :
    ∀ i ∈ [Instr.cmdStop 0#24, .pinStopAll true], ∃ t, exec i s = .next t ∧ t.core = s.core ∧ stopSeen t = true := by
  intro i hi
  simp only [List.mem_cons, List.not_mem_nil, or_false] at hi
  rcases hi with rfl | rfl
  · refine ⟨_, exec_argCommand_zero .stop s, ?_, ?_⟩
    · rw [respond_core, stopTransfer, requestStop_core]
    · rw [stopTransfer_eq, if_neg running]
      rfl
  · exact ⟨_, rfl, rfl, by simp [stopSeen]⟩

/-- A pop of at least one entry makes space in a transmit FIFO that holds one. -/
theorem popBlock_fifoSpace {n : Nat} (positive : 1 ≤ n) {s : State} (transmit : fifoIsReceive s = false) (ok : FifoOk s)
    (capacity : 1 ≤ s.params.fifoCap) : 0 < fifoSpace (popBlock n s) := by
  have params : (popBlock n s).params = s.params := by rw [popBlock_transmit n transmit, popTransmit_eq]; simp
  have fifo : (popBlock n s).fifo = s.fifo.drop n := by rw [popBlock_transmit n transmit, popTransmit_eq]; simp
  unfold FifoOk at ok
  rw [fifoSpace, params, fifo, List.length_drop]
  omega

theorem popBlock_core (n : Nat) (s : State) : (popBlock n s).core = s.core := by
  obtain ⟨fifo, stats, irqStatus, burstEnd, more, out, h, -⟩ := popBlock_frame n s
  rw [h]

/-- In a transmit transfer the FIFO is the transmit path's. -/
theorem fifoIsReceive_of_txRun {s : State} (ok : DirOk s) (running : s.core = .txRun) : fifoIsReceive s = false := by
  simp [fifoIsReceive, running, ok.1 running]

/-- A push of at least one sample puts an entry into an empty receive FIFO. -/
theorem pushBlock_fifo_ne_nil {ws : List Word} (nonempty : ws ≠ []) {s : State} (running : s.core = .rxRun)
    (empty : s.fifo = []) (capacity : 1 ≤ s.params.fifoCap) : (pushBlock ws s).fifo ≠ [] := by
  have fifo : (pushBlock ws s).fifo = (pushEntries ws).take (pushCount (pushEntries ws) s) := by
    rw [pushBlock_receive ws running, pushReceive_eq, idleAccount_eq _ (by simp [running])]
    simp [empty]
  have offered : 0 < ws.length := List.length_pos_iff.2 nonempty
  rw [fifo, ← List.length_pos_iff, List.length_take, pushCount_pushEntries, pushEntries, List.length_map, empty,
    List.length_nil]
  omega

theorem pushBlock_kept (ws : List Word) (s : State) :
    (pushBlock ws s).core = s.core ∧ (pushBlock ws s).rxq = s.rxq ∧ (pushBlock ws s).params = s.params := by
  obtain ⟨more, stats, idle, stop, irqStatus, out, h, -⟩ := pushBlock_frame ws s
  rw [h]
  exact ⟨rfl, rfl, rfl⟩

/-- Settles O40: the causes of a hold, and each cause with what removes it. -/
theorem everyHoldIsLifted : Obligations.EveryHoldIsLifted := by
  unfold Obligations.EveryHoldIsLifted
  intro s fifoOk bounded dirOk capacity depth
  refine ⟨fun running held => ?_, fun running held => ?_⟩
  · obtain ⟨-, full, -⟩ := txHeld_cause running held
    refine ⟨?_, fun i hi => ?_, fun n positive => ?_⟩
    · unfold FifoOk at fifoOk
      unfold fifoSpace at full
      omega
    · obtain ⟨t, h, core, seen⟩ := exec_stop_seen (s := s) (by simp [running]) i hi
      rw [running] at core
      exact ⟨t, engineStop t, h, txEnabled_of_stopSeen core seen, exec_txStep_stop core seen, rfl⟩
    · exact ⟨popBlock n s, exec_radioPop positive s, txEnabled_of_space ((popBlock_core n s).trans running)
        (popBlock_fifoSpace positive (fifoIsReceive_of_txRun dirOk running) fifoOk capacity)⟩
  · obtain ⟨cause, -⟩ := rxHeld_cause running held
    have queueFull : s.params.rxqDepth ≤ s.rxq.length → s.rxq.length = s.params.rxqDepth := le_antisymm bounded
    refine ⟨cause.imp_right queueFull, fun i hi => ?_, fun empty room ws nonempty => ?_, fun waits => ?_⟩
    · obtain ⟨t, h, core, seen⟩ := exec_stop_seen (s := s) (by simp [running]) i hi
      rw [running] at core
      exact ⟨t, engineStop t, h, rxEnabled_of_stopSeen core seen, exec_rxStep_stop core seen, rfl⟩
    · obtain ⟨core, rxq, params⟩ := pushBlock_kept ws s
      exact ⟨pushBlock ws s, exec_radioPush nonempty s, rxEnabled_of_room (core.trans running)
        (pushBlock_fifo_ne_nil nonempty running empty capacity) (by rw [rxq, params]; exact room)⟩
    · have full : s.rxq.length = s.params.rxqDepth := queueFull (cause.resolve_left waits)
      obtain ⟨r, rest, queued⟩ := List.exists_cons_of_length_pos (l := s.rxq) (by omega)
      have room : rest.length < s.params.rxqDepth := by
        rw [← full, queued]
        exact Nat.lt_succ_self _
      refine ⟨full, _, exec_argCommand_zero .rxqPop s, ?_⟩
      rw [rxqPop_cons queued]
      exact rxEnabled_of_room running waits room

end Sys2Proof.Machine
end

section
/-! What reset leaves unspecified (70_reset_and_hazards.md R520; 10_state.md R62): in IDLE no operation reads it, so an
operation commutes with putting other values there; a START sets what its engine reads. -/

namespace Sys2Proof.Machine

/-- The elements without a reset value. -/
structure Unspecified where
  lcfg : LCfg
  modem : ModS
  pipe : Pipe
  det : DetS
  trk : TrkS

/-- s with other values in the unspecified elements. -/
def State.redrawn (s : State) (u : Unspecified) : State :=
  { s with
    lcfg := u.lcfg, tx := { s.tx with modem := u.modem }, pipe := u.pipe, rx := { s.rx with det := u.det, trk := u.trk } }

theorem agreeButUnspecified_iff (s t : State) : AgreeButUnspecified s t ↔ ∃ u, t = s.redrawn u := by
  constructor
  · exact fun agree => ⟨⟨t.lcfg, t.tx.modem, t.pipe, t.rx.det, t.rx.trk⟩, agree⟩
  · rintro ⟨u, rfl⟩
    rfl

/-- Two states that agree but for the unspecified elements, and in a running transfer on what its engine reads too. -/
structure Alike (s t : State) : Prop where
  agree : AgreeButUnspecified s t
  latched : s.core ≠ .idle → t.lcfg = s.lcfg ∧ t.pipe = s.pipe
  transmit : s.core = .txRun → t.tx = s.tx
  receive : s.core = .rxRun → t.rx = s.rx

theorem Alike.refl (s : State) : Alike s s := ⟨rfl, fun _ => ⟨rfl, rfl⟩, fun _ => rfl, fun _ => rfl⟩

/-- In IDLE there is no engine that reads them. -/
theorem Alike.of_idle {s : State} (idle : s.core = .idle) (u : Unspecified) : Alike s (s.redrawn u) where
  agree := rfl
  latched running := absurd idle running
  transmit running := by simp [idle] at running
  receive running := by simp [idle] at running

theorem Alike.respond {s t : State} (h : Alike s t) (v : Word) (e : Bool) : Alike (respond v e s) (respond v e t) where
  agree := by
    obtain ⟨u, rfl⟩ := (agreeButUnspecified_iff s t).1 h.agree
    rfl
  latched := h.latched
  transmit := h.transmit
  receive := h.receive

theorem Alike.ite {c : Prop} [Decidable c] {s s' t t' : State} (h : Alike s s') (k : Alike t t') :
    Alike (if c then s else t) (if c then s' else t') := by
  split_ifs
  · exact h
  · exact k

/-! Reads of the state. -/

theorem readTarget_redrawn (s : State) (u : Unspecified) (n : Nat) (target : Target) :
    readTarget (s.redrawn u) n target = readTarget s n target := by
  cases target with
  | reg r => cases r <;> rfl
  | txbuf a => rfl
  | rxbuf o => rfl

theorem checkWrite_redrawn (s : State) (u : Unspecified) (target : Target) :
    checkWrite (s.redrawn u) target = checkWrite s target := by
  cases target <;> rfl

theorem checkCfg_redrawn (dir : Dir) (s : State) (u : Unspecified) : checkCfg dir (s.redrawn u) = checkCfg dir s := rfl

theorem commitMax_redrawn {s : State} (idle : s.core = .idle) (u : Unspecified) :
    commitMax (s.redrawn u) = commitMax s := by
  have notTx : s.core ≠ .txRun := by simp [idle]
  exact (if_neg notTx).trans (if_neg notTx).symm

/-! The commands. -/

section Commands

variable {s : State} (idle : s.core = .idle) (u : Unspecified)

include idle

theorem raiseError_alike (code : ErrCode) : Alike (raiseError code s) (raiseError code (s.redrawn u)) :=
  .of_idle (s := raiseError code s) idle u

/-- A START is refused alike, and accepted it sets every element its engine reads. -/
theorem startTx_alike : Alike (startTx s) (startTx (s.redrawn u)) := by
  rw [startTx_eq, startTx_eq, startIn_idle idle, startIn_idle (s := s.redrawn u) idle, checkCfg_redrawn]
  cases checkCfg .tx s with
  | some code => exact raiseError_alike idle u code
  | none => exact ⟨rfl, fun _ => ⟨rfl, rfl⟩, fun _ => rfl, nofun⟩

theorem startRx_alike : Alike (startRx s) (startRx (s.redrawn u)) := by
  rw [startRx_eq, startRx_eq, startIn_idle idle, startIn_idle (s := s.redrawn u) idle, checkCfg_redrawn]
  cases checkCfg .rx s with
  | some code => exact raiseError_alike idle u code
  | none => exact ⟨rfl, fun _ => ⟨rfl, rfl⟩, nofun, fun _ => rfl⟩

theorem stopTransfer_alike : Alike (stopTransfer s) (stopTransfer (s.redrawn u)) := by
  rw [stopTransfer_eq, stopTransfer_eq, if_pos idle, if_pos (show (s.redrawn u).core = .idle from idle)]
  exact .of_idle idle u

theorem txCommit_alike (len : BitVec 16) : Alike (txCommit len s) (txCommit len (s.redrawn u)) := by
  have may : MayCommit s := .inl idle
  rw [txCommit_mayCommit may, txCommit_mayCommit (s := s.redrawn u) may, commitMax_redrawn idle,
    show (s.redrawn u).pendLen = s.pendLen from rfl]
  exact .ite (raiseError_alike idle u _) <| .ite (raiseError_alike idle u _) <|
    .of_idle (s := { s with pendLen := len.toNat }) idle u

theorem txEos_alike : Alike (txEos s) (txEos (s.redrawn u)) := by
  have notTx : s.core ≠ .txRun := by simp [idle]
  rw [txEos_eq, txEos_eq, if_neg notTx, if_neg (show (s.redrawn u).core ≠ .txRun from notTx)]
  exact raiseError_alike idle u _

theorem rxqPop_alike : Alike (rxqPop s) (rxqPop (s.redrawn u)) := by
  cases queued : s.rxq with
  | nil =>
    rw [rxqPop_nil queued, rxqPop_nil (s := s.redrawn u) queued]
    exact raiseError_alike idle u _
  | cons r rest =>
    rw [rxqPop_cons queued, rxqPop_cons (s := s.redrawn u) queued]
    exact .of_idle (s := { s with rxq := rest }) idle u

theorem withArg0_alike {run : State → State} (h : Alike (run s) (run (s.redrawn u))) (arg : BitVec 24) :
    Alike (withArg0 arg run s) (withArg0 arg run (s.redrawn u)) :=
  .ite (raiseError_alike idle u _) h

theorem withRsvd0_alike {run : State → State} (h : Alike (run s) (run (s.redrawn u))) (rsvd : BitVec 8) :
    Alike (withRsvd0 rsvd run s) (withRsvd0 rsvd run (s.redrawn u)) :=
  .ite (raiseError_alike idle u _) h

/-- SOFT_RESET puts the reset's own values into the unspecified elements. -/
theorem runCommand_alike (opc : BitVec 8) (arg : BitVec 24) :
    Alike (runCommand opc arg s) (runCommand opc arg (s.redrawn u)) :=
  .ite (withArg0_alike idle u (run := id) (.of_idle idle u) arg) <|
  .ite (withArg0_alike idle u (startTx_alike idle u) arg) <|
  .ite (withArg0_alike idle u (startRx_alike idle u) arg) <|
  .ite (withArg0_alike idle u (stopTransfer_alike idle u) arg) <|
  .ite (withRsvd0_alike idle u (txCommit_alike idle u _) _) <|
  .ite (withArg0_alike idle u (txEos_alike idle u) arg) <|
  .ite (withArg0_alike idle u (rxqPop_alike idle u) arg) <|
  .ite (withArg0_alike idle u (run := clearStats) (.of_idle (s := clearStats s) idle u) arg) <|
  .ite (withArg0_alike idle u (run := clearErr) (.of_idle (s := clearErr s) idle u) arg) <|
  .ite (withArg0_alike idle u (run := softReset) (.refl (softReset s)) arg) <|
  raiseError_alike idle u _

/-! The bus and the port. -/

theorem failAccess_alike (code : ErrCode) : Alike (failAccess code s) (failAccess code (s.redrawn u)) :=
  (raiseError_alike idle u code).respond _ _

theorem busRead_alike (size : AccessSize) (addr : BitVec 14) :
    Alike (busRead size addr s) (busRead size addr (s.redrawn u)) := by
  unfold busRead
  rw [show (s.redrawn u).params = s.params from rfl]
  cases checkAddr s.params size addr.toNat with
  | error code => exact failAccess_alike idle u code
  | ok answer =>
    dsimp only
    rw [readTarget_redrawn]
    exact (Alike.of_idle idle u).respond _ _

theorem writeTarget_alike (n : Nat) (v : Word) (target : Target) :
    Alike (writeTarget n v target s) (writeTarget n v target (s.redrawn u)) := by
  have stored : writeTarget n v target (s.redrawn u) = (writeTarget n v target s).redrawn u →
      (writeTarget n v target s).core = .idle → Alike (writeTarget n v target s) (writeTarget n v target (s.redrawn u)) :=
    fun same idle => same ▸ .of_idle idle u
  cases target with
  | reg r =>
    cases r
    case cmd => exact runCommand_alike idle u _ _
    all_goals exact stored rfl idle
  | txbuf a => exact stored rfl idle
  | rxbuf o => exact stored rfl idle

theorem busWrite_alike (size : AccessSize) (addr : BitVec 14) (v : Word) :
    Alike (busWrite size addr v s) (busWrite size addr v (s.redrawn u)) := by
  unfold busWrite
  rw [show (s.redrawn u).params = s.params from rfl]
  cases checkAddr s.params size addr.toNat with
  | error code => exact failAccess_alike idle u code
  | ok answer =>
    dsimp only
    rw [checkWrite_redrawn]
    cases checkWrite s answer.2 with
    | some code => exact failAccess_alike idle u code
    | none => exact (writeTarget_alike idle u _ v _).respond _ _

omit idle in
theorem popBlock_redrawn (n : Nat) : popBlock n (s.redrawn u) = (popBlock n s).redrawn u := by
  cases path : fifoIsReceive s with
  | true => rw [popBlock_receive n path, popBlock_receive (s := s.redrawn u) n path]; rfl
  | false =>
    rw [popBlock_transmit n path, popBlock_transmit (s := s.redrawn u) n path]
    simp only [popTransmit_eq, markBurstEnd_eq, countIf_eq]
    rfl

/-- The port, the pins and the engine steps of a block in IDLE. -/
theorem exec_notBus_redrawn {i : Instr} {s' : State} (notRead : busReadOf i = none) (notWrite : busWriteOf i = none)
    (h : exec i s = .next s') : s'.core = .idle ∧ exec i (s.redrawn u) = .next (s'.redrawn u) := by
  have notTx : txEnabled s = false := by simp [txEnabled, idle]
  have notRx : rxEnabled s = false := by simp [rxEnabled, idle]
  cases i
  case radioPop n =>
    simp only [exec, execRadioPop] at h ⊢
    split_ifs at h ⊢
    cases h
    exact ⟨(popBlock_core n s).trans idle, congrArg _ (popBlock_redrawn u n)⟩
  case radioPush ws =>
    have notReceive : s.core ≠ .rxRun := by simp [idle]
    simp only [exec, execRadioPush] at h ⊢
    split_ifs at h ⊢
    cases h
    rw [pushBlock_notReceive ws notReceive, pushBlock_notReceive (s := s.redrawn u) ws notReceive]
    exact ⟨idle, rfl⟩
  case radioFault =>
    simp only [exec, execRadioFault, radioFault_idle idle, radioFault_idle (s := s.redrawn u) idle] at h ⊢
    cases h
    exact ⟨idle, rfl⟩
  case pinStopAll level =>
    cases h
    exact ⟨idle, rfl⟩
  case txStep =>
    cases (exec_txStep_of_held notTx).symm.trans h
    exact ⟨idle, exec_txStep_of_held (s := s.redrawn u) notTx⟩
  case rxStep =>
    cases (exec_rxStep_of_held notRx).symm.trans h
    exact ⟨idle, exec_rxStep_of_held (s := s.redrawn u) notRx⟩
  case memRead | memReadCsr | memReadTxbuf | memReadRxbuf => cases notRead
  all_goals cases notWrite

theorem exec_alike {i : Instr} {s' : State} (h : exec i s = .next s') :
    ∃ t', exec i (s.redrawn u) = .next t' ∧ Alike s' t' := by
  rcases exec_next_cases h with ⟨size, addr, read, rfl⟩ | ⟨size, addr, v, write, rfl⟩ | ⟨notRead, notWrite⟩
  · exact ⟨_, exec_of_busReadOf read _, busRead_alike idle u size addr⟩
  · exact ⟨_, exec_of_busWriteOf write _, busWrite_alike idle u size addr v⟩
  · obtain ⟨still, same⟩ := exec_notBus_redrawn idle u notRead notWrite h
    exact ⟨_, same, .of_idle still u⟩

end Commands

/-- Settles O60: every operation of a block in IDLE answers alike. -/
theorem unspecifiedResetValuesAreNeverRead : Obligations.UnspecifiedResetValuesAreNeverRead := by
  unfold Obligations.UnspecifiedResetValuesAreNeverRead
  intro i s t s' idle agree h
  obtain ⟨u, rfl⟩ := (agreeButUnspecified_iff s t).1 agree
  obtain ⟨t', next, alike⟩ := exec_alike idle u h
  exact ⟨t', next, alike.agree, alike.latched, alike.transmit, alike.receive⟩

end Sys2Proof.Machine
end

section
/-! ERR while an error is recorded (60_exceptions.md R471, R474): an operation other than CLEAR_ERR and SOFT_RESET
records one error or none. -/

namespace Sys2Proof.Machine

/-- From s to t no error is recorded: ERR stays and the history goes on without one. -/
def NoError (s t : State) : Prop := t.err = s.err ∧ ∃ more, t.hist = s.hist ++ more ∧ ∀ code, .err code ∉ more

/-- In t one error is recorded over s. -/
structure OneError (code : ErrCode) (s t : State) : Prop where
  err : t.err = (raiseError code s).err
  irqStatus : t.irqStatus = (raiseError code s).irqStatus
  hist : t.hist = (raiseError code s).hist

def AtMostOneError (s t : State) : Prop := NoError s t ∨ ∃ code, OneError code s t

namespace NoError

theorem of_eq {s t : State} (err : t.err = s.err) (hist : t.hist = s.hist) : NoError s t :=
  ⟨err, [], by rw [hist, List.append_nil], fun _ => List.not_mem_nil⟩

theorem refl (s : State) : NoError s s := .of_eq rfl rfl

theorem trans {s t u : State} (h : NoError s t) (k : NoError t u) : NoError s u := by
  obtain ⟨err, more, hist, clean⟩ := h
  obtain ⟨err', more', hist', clean'⟩ := k
  refine ⟨err'.trans err, more ++ more', by rw [hist', hist, List.append_assoc], fun code mem => ?_⟩
  exact (List.mem_append.1 mem).elim (clean code) (clean' code)

/-! The port and the engines. -/

theorem dumpAll (dir : Dir) (ys : List Sample) (s : State) : NoError s (dumpAll dir ys s) := by
  rw [dumpAll_eq]
  refine ⟨rfl, _, rfl, fun code mem => ?_⟩
  split at mem
  · obtain ⟨y, -, same⟩ := List.mem_map.1 mem
    cases same
  · exact List.not_mem_nil mem

theorem popTransmit (n : Nat) (s : State) : NoError s (popTransmit n s) := by
  rw [popTransmit_eq, markBurstEnd_eq, countIf_eq]
  refine ⟨rfl, _, rfl, fun code mem => ?_⟩
  split at mem
  · cases List.mem_singleton.1 mem
  · exact List.not_mem_nil mem

theorem popBlock (n : Nat) (s : State) : NoError s (popBlock n s) := by
  have returned : ∀ entries code, Event.err code ∉ [Event.radioOut entries] := fun entries code mem => by
    cases List.mem_singleton.1 mem
  cases path : fifoIsReceive s with
  | true =>
    rw [popBlock_receive n path]
    exact ⟨rfl, _, rfl, returned _⟩
  | false =>
    rw [popBlock_transmit n path]
    exact (popTransmit n s).trans ⟨rfl, _, rfl, returned _⟩

theorem pushBlock (ws : List Word) (s : State) : NoError s (pushBlock ws s) := by
  obtain ⟨more, stats, idle, stop, irqStatus, out, h, -⟩ := pushBlock_frame ws s
  rw [h]
  exact .of_eq rfl rfl

theorem engineStop (s : State) : NoError s (engineStop s) := .of_eq rfl rfl

theorem drain (s : State) : NoError s (drain s) := by
  rcases drain_cases s with ⟨h, -⟩ | ⟨-, frameCnt, irqStatus, core, stopReason, h, -⟩ <;> rw [h] <;> exact .of_eq rfl rfl

theorem produceBlock (xs : List Sample) (frameEnd final : Bool) (s : State) :
    NoError s (produceBlock xs frameEnd final s) := by
  have before : NoError s { s with pipe := (txBlock s.params.normLimit s.pipe xs).1 } := .of_eq rfl rfl
  exact (before.trans (dumpAll .tx _ _)).trans (.of_eq rfl rfl)

theorem frameBlock (syms : List Bool) (s : State) : NoError s (frameBlock syms s) :=
  (NoError.of_eq rfl rfl).trans (produceBlock _ _ _ _)

theorem produce {s t : State} (h : produce s = .next t) : NoError s t := by
  cases gen : s.tx.gen with
  | frame syms =>
    cases (produce_frame gen).symm.trans h
    exact frameBlock syms s
  | wait =>
    by_cases free : s.pendLen = 0
    · cases (produce_idle gen free).symm.trans h
      split
      · exact (NoError.of_eq rfl rfl).trans (produceBlock _ _ _ _)
      · exact produceBlock _ _ _ _
    · cases (produce_chunk gen free).symm.trans h
      exact (NoError.of_eq rfl rfl).trans (frameBlock _ (startFrame s))
  | final => simp only [Machine.produce, gen, reduceCtorEq] at h

theorem execTxStep {s t : State} (h : execTxStep s = .next t) : NoError s t := by
  unfold Machine.execTxStep at h
  split at h
  · cases h
    exact .refl s
  · split at h
    · cases h
      exact engineStop s
    · split at h
      · cases h
        exact drain s
      · exact produce h

theorem syncSteps (ys : List Sample) (s : State) : NoError s (syncSteps ys s) := by
  have same : SameButReceive s (Machine.syncSteps ys s) := syncSteps_same ys s
  rw [same]
  exact .of_eq rfl rfl

theorem receiveSample (e : Tagged) (s : State) : NoError s (receiveSample e s) := by
  have taken : NoError s { fifoPop 1 s with pipe := (rxSample s.pipe e.sample).1 } := .of_eq rfl rfl
  exact (taken.trans (dumpAll .rx _ _)).trans (syncSteps _ _)

theorem execRxStep {s t : State} (h : execRxStep s = .next t) : NoError s t := by
  unfold Machine.execRxStep at h
  split at h
  · cases h
    exact .refl s
  · split at h
    · cases h
      exact engineStop s
    · split at h <;> cases h
      · exact .refl s
      · exact receiveSample _ s

end NoError

namespace AtMostOneError

theorem refl (s : State) : AtMostOneError s s := .inl (.refl s)

theorem of_eq {s t : State} (err : t.err = s.err) (hist : t.hist = s.hist) : AtMostOneError s t :=
  .inl (.of_eq err hist)

theorem raiseError (code : ErrCode) (s : State) : AtMostOneError s (raiseError code s) := .inr ⟨code, rfl, rfl, rfl⟩

theorem respond {s t : State} (h : AtMostOneError s t) (v : Word) (e : Bool) : AtMostOneError s (respond v e t) :=
  h.imp id fun ⟨code, one⟩ => ⟨code, one.err, one.irqStatus, one.hist⟩

theorem failAccess (code : ErrCode) (s : State) : AtMostOneError s (failAccess code s) := (raiseError code s).respond _ _

theorem radioFault (s : State) : AtMostOneError s (radioFault s) := by
  by_cases idle : s.core = .idle
  · rw [radioFault_idle idle]
    exact .refl s
  · rw [radioFault_running idle]
    exact .inr ⟨.radioFault, rfl, rfl, rfl⟩

theorem ite {c : Prop} [Decidable c] {s t u : State} (h : c → AtMostOneError s t) (k : AtMostOneError s u) :
    AtMostOneError s (if c then t else u) := by
  split_ifs with holds
  · exact h holds
  · exact k

/-! The commands. -/

theorem startIn {dir : Dir} {begin : State → State} {s : State} (h : AtMostOneError s (begin s)) :
    AtMostOneError s (startIn dir begin s) :=
  .ite (fun _ => raiseError _ s) <| by
    cases checkCfg dir s with
    | none => exact h
    | some code => exact raiseError code s

theorem stopTransfer (s : State) : AtMostOneError s (stopTransfer s) := by
  rw [stopTransfer_eq]
  exact .ite (fun _ => .refl s) (.of_eq rfl rfl)

theorem txCommit (len : BitVec 16) (s : State) : AtMostOneError s (txCommit len s) :=
  .ite (fun _ => raiseError _ s) <| .ite (fun _ => raiseError _ s) <| .ite (fun _ => raiseError _ s) <| .of_eq rfl rfl

theorem txEos (s : State) : AtMostOneError s (txEos s) := .ite (fun _ => raiseError _ s) (.of_eq rfl rfl)

theorem rxqPop (s : State) : AtMostOneError s (rxqPop s) := .ite (fun _ => raiseError _ s) (.of_eq rfl rfl)

theorem withArg0 {run : State → State} {arg : BitVec 24} {s : State} (h : arg = 0#24 → AtMostOneError s (run s)) :
    AtMostOneError s (withArg0 arg run s) := by
  unfold Machine.withArg0
  split_ifs with bad
  · exact raiseError _ s
  · exact h (not_not.1 bad)

/-- CLEAR_ERR and SOFT_RESET with a nonzero argument are refused; every other command leaves ERR to its own error. -/
theorem runCommand {opc : BitVec 8} {arg : BitVec 24} (notClear : ¬ (opc = 0x08#8 ∧ arg = 0#24))
    (notReset : ¬ (opc = 0x09#8 ∧ arg = 0#24)) (s : State) : AtMostOneError s (runCommand opc arg s) :=
  .ite (fun _ => withArg0 fun _ => .refl s) <|
  .ite (fun _ => withArg0 fun _ => startTx_eq s ▸ startIn (.of_eq rfl rfl)) <|
  .ite (fun _ => withArg0 fun _ => startRx_eq s ▸ startIn (.of_eq rfl rfl)) <|
  .ite (fun _ => withArg0 fun _ => stopTransfer s) <|
  .ite (fun _ => .ite (fun _ => raiseError _ s) (txCommit _ s)) <|
  .ite (fun _ => withArg0 fun _ => txEos s) <|
  .ite (fun _ => withArg0 fun _ => rxqPop s) <|
  .ite (fun _ => withArg0 fun _ => .of_eq rfl rfl) <|
  .ite (fun clear => withArg0 fun zero => absurd ⟨clear, zero⟩ notClear) <|
  .ite (fun reset => withArg0 fun zero => absurd ⟨reset, zero⟩ notReset) <|
  raiseError _ s

/-! The operations. -/

theorem busRead (size : AccessSize) (addr : BitVec 14) (s : State) : AtMostOneError s (busRead size addr s) := by
  rcases busRead_cases size addr s with ⟨code, h⟩ | ⟨v, h⟩ <;> rw [h]
  · exact failAccess code s
  · exact (refl s).respond _ _

theorem busWrite {size : AccessSize} {addr : BitVec 14} {v : Word} (other : addr = 0x010#14 → v ≠ 0x08#32 ∧ v ≠ 0x09#32)
    (s : State) : AtMostOneError s (busWrite size addr v s) := by
  rcases busWrite_cases size addr v s with ⟨code, h⟩ | ⟨-, cmd, h⟩ | ⟨t, stored, h⟩ <;> rw [h]
  · exact failAccess code s
  · obtain ⟨notClear, notReset⟩ := other cmd
    exact (runCommand (fun ⟨opc, arg⟩ => notClear (commandWord_eq opc arg))
      (fun ⟨opc, arg⟩ => notReset (commandWord_eq opc arg)) s).respond _ _
  · refine AtMostOneError.respond ?_ _ _
    cases stored with
    | irqStatus | irqEnable | cfg | txbuf => exact .of_eq rfl rfl

theorem exec_notBus {i : Instr} {s t : State} (notRead : busReadOf i = none) (notWrite : busWriteOf i = none)
    (h : exec i s = .next t) : AtMostOneError s t := by
  cases i
  case radioPop n =>
    simp only [exec, execRadioPop] at h
    split at h <;> cases h
    exact .inl (.popBlock n s)
  case radioPush ws =>
    simp only [exec, execRadioPush] at h
    split at h <;> cases h
    exact .inl (.pushBlock ws s)
  case radioFault =>
    cases h
    exact radioFault s
  case pinStopAll level =>
    cases h
    exact .of_eq rfl rfl
  case txStep => exact .inl (.execTxStep h)
  case rxStep => exact .inl (.execRxStep h)
  case memRead | memReadCsr | memReadTxbuf | memReadRxbuf => cases notRead
  all_goals cases notWrite

end AtMostOneError

theorem exec_atMostOneError {i : Instr} {s t : State} (h : exec i s = .next t)
    (other : ∀ size w, busWriteOf i = some (size, 0x010#14, w) → w ≠ 0x08#32 ∧ w ≠ 0x09#32) : AtMostOneError s t := by
  rcases exec_next_cases h with ⟨size, addr, -, rfl⟩ | ⟨size, addr, v, write, rfl⟩ | ⟨notRead, notWrite⟩
  · exact .busRead size addr s
  · refine .busWrite (fun cmd => ?_) s
    subst cmd
    exact other size v write
  · exact .exec_notBus notRead notWrite h

/-- Settles O11: of the two cases the history tells which it is. -/
theorem errKeepsTheFirstCode : Obligations.ErrKeepsTheFirstCode := by
  unfold Obligations.ErrKeepsTheFirstCode
  intro i s t h valid other
  rcases exec_atMostOneError h other with ⟨err, more, hist, clean⟩ | ⟨code, err, irqStatus, hist⟩
  · refine ⟨fun code one => ?_, fun _ => err⟩
    have more_eq : more = [.err code] := List.append_cancel_left (hist.symm.trans one)
    exact absurd (more_eq ▸ List.mem_singleton_self _) (clean code)
  · rw [raiseError_later valid] at err irqStatus hist
    refine ⟨fun _ _ => ⟨err, ?_⟩, fun none => absurd hist (none code)⟩
    rw [irqStatus, BitVec.getLsbD_or]
    simp

end Sys2Proof.Machine
end

section
/-! Fair runs (70_reset_and_hazards.md R540): the choice of an empty schedule, what a step of a run keeps, and the stop's
latency. -/

namespace Sys2Proof.Machine

/-! The empty schedule. -/

theorem step_of_nothing_pending {s : State} (nothing : s.pending = []) :
    step s = (engineTurn s).elim (.next s) (exec · s) := by
  unfold step fetch
  rw [nothing]
  cases engineTurn s <;> rfl

/-- The engines are never enabled together. -/
theorem txEnabled_eq_false_of_rxEnabled {s : State} (enabled : rxEnabled s = true) : txEnabled s = false := by
  obtain ⟨running, -⟩ := (rxEnabled_iff s).1 enabled
  simp [txEnabled, running]

theorem emptySchedule_runs {s : State} (nothing : s.pending = []) :
    (txEnabled s = true → step s = exec .txStep s) ∧ (rxEnabled s = true → step s = exec .rxStep s) ∧
    (txEnabled s = false → rxEnabled s = false → step s = .next s) := by
  rw [step_of_nothing_pending nothing]
  refine ⟨fun tx => ?_, fun rx => ?_, fun noTx noRx => ?_⟩
  · simp only [engineTurn, tx, if_true, Option.elim_some]
  · simp only [engineTurn, rx, txEnabled_eq_false_of_rxEnabled rx, Bool.false_eq_true, if_false, if_true,
      Option.elim_some]
  · simp only [engineTurn, noTx, noRx, Bool.false_eq_true, if_false, Option.elim_none]

/-! A step of a run. -/

/-- The state in which a run's operation runs: the schedule holds nothing else. -/
def State.unscheduled (s : State) : State := { s with pending := [] }

theorem next_unique {o : Host.Outcome State Fault Refusal} {t u : State} (h : o = .next t) (k : o = .next u) : u = t :=
  Host.Outcome.next.inj (k.symm.trans h)

theorem IsRun.params {sched : Schedule} {run : Nat → State} (h : IsRun sched run) (n m : Nat) :
    (run (n + m)).params = (run n).params := by
  induction m with
  | zero => rfl
  | succ m ih => exact (h.effect (n + m)).historyGoesOn.2.trans ih

/-- Outside IDLE the transfer goes on or ends; it does not change its direction. -/
theorem IsRun.core {sched : Schedule} {run : Nat → State} (h : IsRun sched run) {n : Nat}
    (running : (run n).core ≠ .idle) : (run (n + 1)).core = (run n).core ∨ (run (n + 1)).core = .idle := by
  obtain ⟨i, -, hx⟩ := h.exec n
  rcases exec_transferKept_or_atReset (s := (run n).unscheduled) running hx with kept | reset
  · exact kept.core
  · exact .inr reset.core

/-! The stop's latency (60_exceptions.md R476, R477). -/

theorem CommandEffect.stop_pending {s t : State} (running : s.core ≠ .idle) (pending : s.stop ≠ none)
    (h : CommandEffect s t) : t.core = .idle ∨ t.stop ≠ none := by
  cases h with
  | startTx idle | startRx idle => exact absurd idle running
  | stop _ first => exact absurd first pending
  | softReset => exact .inl rfl
  | nothing | error | commit | eos | rxqPop | clearStats | clearErr => exact .inr pending

theorem requestStop_stop_pending (reason : StopReq) {s : State} (pending : s.stop ≠ none) :
    (requestStop reason s).stop ≠ none := by
  unfold requestStop
  split_ifs
  · exact pending
  · exact nofun
  · exact pending

theorem pushBlock_stop_pending (ws : List Word) {s : State} (pending : s.stop ≠ none) :
    (pushBlock ws s).stop ≠ none := by
  by_cases receive : s.core = .rxRun
  · rw [pushBlock_receive ws receive, pushReceive_eq, idleAccount_eq _ (by simp [receive])]
    dsimp only
    split_ifs
    · exact nofun
    · simpa using pending
  · rw [pushBlock_notReceive ws receive]
    exact pending

/-- A pending stop stays pending until the block is IDLE. -/
theorem Effect.stop_pending {s t : State} (running : s.core ≠ .idle) (pending : s.stop ≠ none) (h : Effect s t) :
    t.core = .idle ∨ t.stop ≠ none := by
  have seen : stopSeen s = true := (stopSeen_iff s).2 (.inl pending)
  cases h with
  | hold | failed | read | pin => exact .inr pending
  | store t stored => cases stored <;> exact .inr pending
  | command u ran => exact (ran.stop_pending running pending :)
  | pop n =>
    obtain ⟨fifo, stats, irqStatus, burstEnd, more, out, h, -⟩ := popBlock_frame n s
    rw [h]
    exact .inr pending
  | push ws => exact .inr (pushBlock_stop_pending ws pending)
  | fault => exact .inr (requestStop_stop_pending _ (s := raiseError .radioFault s) pending)
  | stopped => exact .inl rfl
  | drain _ go | frame _ _ go | chunk _ go | silence _ go | flush _ go | receive _ _ _ go => simp [seen] at go

section Stop

variable {sched : Schedule} {run : Nat → State}

/-- An own step of an engine that sees a stop ends the transfer. -/
theorem IsRun.ownStep_stops (steps : IsRun sched run) {n : Nat} (seen : stopSeen (run n) = true)
    (own : OwnStep sched run n) : (run (n + 1)).core = .idle := by
  rcases own with ⟨running, takes⟩ | ⟨running, takes⟩
  · exact next_unique (exec_txStep_stop (s := (run n).unscheduled) running seen) (steps.takes_txe takes) ▸ rfl
  · exact next_unique (exec_rxStep_stop (s := (run n).unscheduled) running seen) (steps.takes_rxe takes) ▸ rfl

/-- While the transfer goes on, its stop is seen: the request is pending still, or the input is still high. -/
theorem IsRun.stopSeen_stays (steps : IsRun sched run) {n : Nat}
    (request : (run n).stop ≠ none ∨ ∀ m, n ≤ m → (run m).stopAll = true) {k : Nat}
    (running : ∀ j, j ≤ k → (run (n + j)).core ≠ .idle) : stopSeen (run (n + k)) = true := by
  rw [stopSeen_iff]
  rcases request with pending | high
  · left
    induction k with
    | zero => exact pending
    | succ k ih =>
      have before := ih fun j hj => running j (by omega)
      exact (Effect.stop_pending (s := (run (n + k)).unscheduled) (running k (by omega)) before
        (steps.effect (n + k))).resolve_left (running (k + 1) le_rfl)
  · exact .inr (high _ (by omega))

theorem IsRun.core_stays (steps : IsRun sched run) {n k : Nat} (running : ∀ j, j ≤ k → (run (n + j)).core ≠ .idle) :
    (run (n + k)).core = (run n).core := by
  induction k with
  | zero => rfl
  | succ k ih =>
    have before := ih fun j hj => running j (by omega)
    exact ((steps.core (running k (by omega))).resolve_right (running (k + 1) le_rfl)).trans before

/-- A transfer whose stop is always seen ends: its engine is enabled, and fairness takes it. -/
theorem FairRun.stop_ends (fair : FairRun sched run) {n : Nat}
    (request : (run n).stop ≠ none ∨ ∀ m, n ≤ m → (run m).stopAll = true) :
    ∃ k, (run (n + k)).core = .idle := by
  by_contra never
  have running : ∀ j, (run (n + j)).core ≠ .idle := fun j idle => never ⟨j, idle⟩
  have seen : ∀ m, n ≤ m → stopSeen (run m) = true := fun m hm => by
    obtain ⟨k, rfl⟩ := Nat.exists_eq_add_of_le hm
    exact fair.steps.stopSeen_stays request fun j _ => running j
  have direction : ∀ m, n ≤ m → (run m).core = (run n).core := fun m hm => by
    obtain ⟨k, rfl⟩ := Nat.exists_eq_add_of_le hm
    exact fair.steps.core_stays fun j _ => running j
  have own : ∃ m, n ≤ m ∧ OwnStep sched run m := by
    cases core : (run n).core with
    | idle => exact absurd core (running 0)
    | txRun =>
      obtain ⟨m, hm, takes⟩ :=
        fair.tx n fun m hm => txEnabled_of_stopSeen ((direction m hm).trans core) (seen m hm)
      exact ⟨m, hm, .inl ⟨(direction m hm).trans core, takes⟩⟩
    | rxRun =>
      obtain ⟨m, hm, takes⟩ :=
        fair.rx n fun m hm => rxEnabled_of_stopSeen ((direction m hm).trans core) (seen m hm)
      exact ⟨m, hm, .inr ⟨(direction m hm).trans core, takes⟩⟩
  obtain ⟨m, hm, step⟩ := own
  obtain ⟨k, rfl⟩ := Nat.exists_eq_add_of_le hm
  exact running (k + 1) (fair.steps.ownStep_stops (seen _ hm) step)

end Stop

/-- The first time the block is IDLE is the one asked for: an own step before it would have brought an earlier one. -/
theorem stopLatency : StopLatency := by
  unfold StopLatency
  intro sched run n fair running request
  have ends := fair.stop_ends request
  obtain ⟨k, idle, before⟩ : ∃ k, (run (n + k)).core = .idle ∧ ∀ j, j < k → (run (n + j)).core ≠ .idle :=
    ⟨Nat.find ends, Nat.find_spec ends, fun j => Nat.find_min ends⟩
  obtain _ | k := k
  · exact absurd idle running
  · refine ⟨n + k, by omega, idle, fun l hn hk => ?_, fun l hn hk own => ?_⟩
    all_goals obtain ⟨j, rfl⟩ := Nat.exists_eq_add_of_le hn
    · exact fair.steps.core_stays fun i hi => before i (by omega)
    · exact before (j + 1) (by omega)
        (fair.steps.ownStep_stops (fair.steps.stopSeen_stays request fun i hi => before i (by omega)) own)

end Sys2Proof.Machine
end

section
/-! Progress of a reception (70_reset_and_hazards.md R540): in a transfer that goes on, only RXE takes entries from the
FIFO and only RXE puts records into the queue, and it waits for nothing that does not come. -/

namespace Sys2Proof.Machine

/-! What the other agents do to a receive FIFO. -/

theorem CommandEffect.fifo_of_running {s t : State} (running : s.core ≠ .idle) (still : t.core ≠ .idle)
    (h : CommandEffect s t) : t.fifo = s.fifo := by
  cases h with
  | startTx idle | startRx idle => exact absurd idle running
  | softReset => exact absurd rfl still
  | nothing | error | stop | commit | eos | rxqPop | clearStats | clearErr => rfl

theorem busWrite_fifo_of_running {size : AccessSize} {addr : BitVec 14} {v : Word} {s : State} (running : s.core ≠ .idle)
    (still : (busWrite size addr v s).core ≠ .idle) : (busWrite size addr v s).fifo = s.fifo := by
  rcases busWrite_cases size addr v s with ⟨code, h⟩ | ⟨-, -, h⟩ | ⟨t, stored, h⟩ <;> rw [h] at still ⊢
  · rfl
  · have ran : CommandEffect s (execCmdWord v s) := runCommand_cases _ _ s
    exact ran.fifo_of_running (t := execCmdWord v s) running still
  · cases stored <;> rfl

/-- An operation other than RX_STEP leaves the entries of a reception that goes on where they are. -/
theorem exec_fifo_prefix {i : Instr} {s t : State} (other : i ≠ .rxStep) (running : s.core = .rxRun)
    (still : t.core = .rxRun) (h : exec i s = .next t) : s.fifo <+: t.fifo := by
  rcases exec_next_cases h with ⟨size, addr, -, rfl⟩ | ⟨size, addr, v, -, rfl⟩ | ⟨notRead, notWrite⟩
  · rcases busRead_cases size addr s with ⟨code, h⟩ | ⟨v, h⟩ <;> rw [h] <;> exact List.prefix_rfl
  · rw [busWrite_fifo_of_running (by simp [running]) (by simp [still])]
  · cases i
    case radioPop n =>
      simp only [exec, execRadioPop] at h
      split at h <;> cases h
      rw [popBlock_receive n ((fifoIsReceive_iff s).2 (.inl running))]
    case radioPush ws =>
      simp only [exec, execRadioPush] at h
      split at h <;> cases h
      obtain ⟨more, stats, idle, stop, irqStatus, out, h, -⟩ := pushBlock_frame ws s
      rw [h]
      exact List.prefix_append _ _
    case radioFault =>
      cases h
      rw [radioFault_running (by simp [running])]
      exact List.prefix_rfl
    case pinStopAll level =>
      cases h
      exact List.prefix_rfl
    case txStep =>
      have held : txEnabled s = false := by simp [txEnabled, running]
      cases (exec_txStep_of_held held).symm.trans h
      exact List.prefix_rfl
    case rxStep => exact absurd rfl other
    case memRead | memReadCsr | memReadTxbuf | memReadRxbuf => cases notRead
    all_goals cases notWrite

/-! A reception that goes on. -/

/-- From time n on the transfer is a reception that sees no stop. -/
def Receives (run : Nat → State) (n : Nat) : Prop := ∀ m, n ≤ m → (run m).core = .rxRun ∧ stopSeen (run m) = false

/-- RXE's step is taken and enabled at time m. -/
def Consumes (sched : Schedule) (run : Nat → State) (m : Nat) : Prop :=
  Takes .rxe sched m ∧ rxEnabled (run m) = true

section Reception

variable {sched : Schedule} {run : Nat → State} {n : Nat} (steps : IsRun sched run) (going : Receives run n)

theorem consumedBy_of_waiting {m : Nat} (waiting : ¬ Consumes sched run m) : consumedBy (sched m) (run m) = [] := by
  unfold consumedBy
  split
  · rename_i i decoded
    refine if_neg fun ⟨agent, enabled, _⟩ => waiting ⟨⟨i, decoded, agent⟩, enabled⟩
  · rfl

include steps in
theorem rxqPop_shortens {m : Nat} (pop : decode (sched m) = .ok (.cmdRxqPop 0#24))
    (nonempty : (run m).rxq ≠ []) : (run (m + 1)).rxq.length < (run m).rxq.length := by
  obtain ⟨i, decoded, hx⟩ := steps.exec m
  obtain ⟨r, rest, queued⟩ := List.exists_cons_of_ne_nil nonempty
  cases pop.symm.trans decoded
  have popped := next_unique (exec_argCommand_zero .rxqPop (run m).unscheduled) hx
  rw [popped, rxqPop_cons (s := (run m).unscheduled) queued, queued]
  exact Nat.lt_succ_self _

include steps going

/-- A step that consumes takes the oldest entry. -/
theorem consumes_step {m : Nat} (hm : n ≤ m) (consumes : Consumes sched run m) :
    ∃ e rest, (run m).fifo = e :: rest ∧ consumedBy (sched m) (run m) = [e] ∧ (run (m + 1)).fifo = rest := by
  obtain ⟨takes, enabled⟩ := consumes
  obtain ⟨running, go⟩ := going m hm
  obtain ⟨-, seen | ⟨waits, -⟩⟩ := (rxEnabled_iff _).1 enabled
  · simp [go] at seen
  obtain ⟨e, rest, fifo⟩ := List.exists_cons_of_length_pos waits
  refine ⟨e, rest, fifo, ?_, ?_⟩
  · obtain ⟨i, decoded, agent⟩ := takes
    simp only [consumedBy, decoded, agent, enabled, go, fifo, and_self, if_true, List.take_succ_cons, List.take_zero]
  · have received : run (m + 1) = receiveSample e (run m).unscheduled :=
      next_unique (exec_rxStep_receive (s := (run m).unscheduled) enabled go fifo) (steps.takes_rxe takes)
    obtain ⟨more, words, pipe, rx, rxq, last, stats, idle, irqStatus, h⟩ := receiveSample_frame e (run m).unscheduled
    rw [received, h]
    exact congrArg (List.drop 1) fifo

/-- Any other step keeps the entries and enters no record. -/
theorem waits_step {m : Nat} (hm : n ≤ m) (waiting : ¬ Consumes sched run m) :
    (run m).fifo <+: (run (m + 1)).fifo ∧ (run (m + 1)).rxq <:+ (run m).rxq := by
  obtain ⟨i, decoded, hx⟩ := steps.exec m
  obtain ⟨running, -⟩ := going m hm
  obtain ⟨still, -⟩ := going (m + 1) (by omega)
  by_cases step : i = .rxStep
  · subst step
    have held : rxEnabled (run m).unscheduled = false :=
      Bool.eq_false_iff.2 fun enabled => waiting ⟨⟨_, decoded, rfl⟩, enabled⟩
    have same : run (m + 1) = (run m).unscheduled := next_unique (exec_rxStep_of_held held) hx
    rw [same]
    exact ⟨List.prefix_rfl, List.suffix_rfl⟩
  · exact ⟨exec_fifo_prefix (s := (run m).unscheduled) step running still hx,
      exec_rxq_suffix (s := (run m).unscheduled) step hx⟩

/-- Until RXE consumes, the entries stay and the queue does not grow. -/
theorem waits_steps {m k : Nat} (hm : n ≤ m) (never : ∀ j, j < k → ¬ Consumes sched run (m + j)) :
    (run m).fifo <+: (run (m + k)).fifo ∧ (run (m + k)).rxq.length ≤ (run m).rxq.length := by
  induction k with
  | zero => exact ⟨List.prefix_rfl, le_rfl⟩
  | succ k ih =>
    obtain ⟨fifo, rxq⟩ := ih fun j hj => never j (by omega)
    obtain ⟨fifo', rxq'⟩ := waits_step steps going (by omega) (never k (by omega))
    exact ⟨fifo.trans fifo', rxq'.length_le.trans rxq⟩

/-- A queue that is popped whenever it is not empty has room some time, if RXE waits for it. -/
theorem room_comes (pops : ∀ m, n ≤ m → (run m).rxq ≠ [] → ∃ l, m ≤ l ∧ decode (sched l) = .ok (.cmdRxqPop 0#24))
    {depth : Nat} (positive : 1 ≤ depth) {m : Nat} (hm : n ≤ m) (never : ∀ l, m ≤ l → ¬ Consumes sched run l) :
    ∃ l, m ≤ l ∧ (run l).rxq.length < depth := by
  induction len : (run m).rxq.length using Nat.strong_induction_on generalizing m with
  | _ len' ih =>
    subst len
    by_cases room : (run m).rxq.length < depth
    · exact ⟨m, le_rfl, room⟩
    have nonempty : (run m).rxq ≠ [] := by
      rw [← List.length_pos_iff]
      omega
    obtain ⟨l, hl, pop⟩ := pops m hm nonempty
    obtain ⟨k, rfl⟩ := Nat.exists_eq_add_of_le hl
    obtain ⟨-, notLonger⟩ := waits_steps steps going (k := k) hm fun j _ => never _ (by omega)
    by_cases empty : (run (m + k)).rxq = []
    · exact ⟨m + k, by omega, by rw [empty]; exact positive⟩
    · have shorter := rxqPop_shortens steps pop empty
      obtain ⟨l, hl, room⟩ := ih _ (lt_of_lt_of_le shorter notLonger) (by omega) (fun l hl => never l (by omega)) rfl
      exact ⟨l, by omega, room⟩

end Reception

/-- An entry that waits is consumed some time. -/
theorem consumes_eventually {sched : Schedule} {run : Nat → State} {n : Nat} (fair : FairRun sched run)
    (depth : 1 ≤ (run n).params.rxqDepth) (going : Receives run n)
    (pops : ∀ m, n ≤ m → (run m).rxq ≠ [] → ∃ l, m ≤ l ∧ decode (sched l) = .ok (.cmdRxqPop 0#24)) {m : Nat}
    (hm : n ≤ m) (waits : (run m).fifo ≠ []) : ∃ k, Consumes sched run (m + k) := by
  by_contra none
  have never : ∀ l, m ≤ l → ¬ Consumes sched run l := fun l hl consumes => by
    obtain ⟨k, rfl⟩ := Nat.exists_eq_add_of_le hl
    exact none ⟨k, consumes⟩
  obtain ⟨l, hl, room⟩ := room_comes fair.steps going pops depth hm never
  have enabled : ∀ j, l ≤ j → rxEnabled (run j) = true := fun j hj => by
    obtain ⟨a, rfl⟩ := Nat.exists_eq_add_of_le hj
    obtain ⟨b, rfl⟩ := Nat.exists_eq_add_of_le hl
    obtain ⟨c, rfl⟩ := Nat.exists_eq_add_of_le hm
    obtain ⟨running, -⟩ := going (n + c + b + a) (by omega)
    obtain ⟨-, notLonger⟩ := waits_steps fair.steps going (m := n + c + b) (k := a) (by omega) fun j _ => never _ (by omega)
    obtain ⟨kept, -⟩ := waits_steps fair.steps going (m := n + c) (k := b + a) (by omega) fun j _ => never _ (by omega)
    rw [← Nat.add_assoc] at kept
    have params : (run (n + c + b + a)).params = (run n).params := by
      rw [Nat.add_assoc, Nat.add_assoc]
      exact fair.steps.params n _
    refine rxEnabled_of_room running (fun empty => waits (List.prefix_nil.1 (empty ▸ kept))) ?_
    rw [params]
    omega
  obtain ⟨j, hj, takes⟩ := fair.rx l enabled
  exact never j (by omega) ⟨takes, enabled j hj⟩

/-- Up to and with the first step that consumes, what is consumed is the oldest entry, and the others stay. -/
theorem consumed_first {sched : Schedule} {run : Nat → State} {n : Nat} (steps : IsRun sched run)
    (going : Receives run n) {k : Nat} : ∀ {m : Nat} {e : Tagged} {rest : List Tagged}, n ≤ m →
    (run m).fifo = e :: rest → Consumes sched run (m + k) →
    ∃ len, consumed sched run m len = [e] ∧ rest <+: (run (m + len)).fifo := by
  induction k with
  | zero =>
    intro m e rest hm fifo consumes
    obtain ⟨e', rest', fifo', taken, left⟩ := consumes_step steps going hm consumes
    obtain ⟨rfl, rfl⟩ := List.cons.inj (fifo.symm.trans fifo')
    exact ⟨1, by rw [consumed_succ, taken, consumed_zero, List.append_nil], by rw [left]⟩
  | succ k ih =>
    intro m e rest hm fifo consumes
    by_cases now : Consumes sched run m
    · obtain ⟨e', rest', fifo', taken, left⟩ := consumes_step steps going hm now
      obtain ⟨rfl, rfl⟩ := List.cons.inj (fifo.symm.trans fifo')
      exact ⟨1, by rw [consumed_succ, taken, consumed_zero, List.append_nil], by rw [left]⟩
    · obtain ⟨kept, -⟩ := waits_step steps going hm now
      rw [fifo] at kept
      obtain ⟨more, grown⟩ := kept
      rw [show m + (k + 1) = m + 1 + k by omega] at consumes
      obtain ⟨len, taken, left⟩ := ih (m := m + 1) (by omega) grown.symm consumes
      refine ⟨len + 1, ?_, ?_⟩
      · rw [consumed_succ, consumedBy_of_waiting now, taken, List.nil_append]
      · rw [show m + (len + 1) = m + 1 + len by omega]
        exact (List.prefix_append rest more).trans left

theorem consumed_add (sched : Schedule) (run : Nat → State) (n a b : Nat) :
    consumed sched run n (a + b) = consumed sched run n a ++ consumed sched run (n + a) b := by
  induction a generalizing n with
  | zero => rw [Nat.zero_add, consumed_zero, List.nil_append, Nat.add_zero]
  | succ a ih =>
    rw [show a + 1 + b = a + b + 1 by omega, consumed_succ, consumed_succ, ih, List.append_assoc,
      show n + (a + 1) = n + 1 + a by omega]

/-- By induction on the entries: the oldest is consumed, and from then on the others. -/
theorem rxProgress : RxProgress := by
  unfold RxProgress
  intro sched run n fair legal going pops
  have depth : 1 ≤ (run n).params.rxqDepth := by
    simp only [Params.legal, Bool.and_eq_true, decide_eq_true_eq] at legal
    omega
  have entries : ∀ (xs : List Tagged) (m : Nat), n ≤ m → xs <+: (run m).fifo →
      ∃ len, xs <+: consumed sched run m len := by
    intro xs
    induction xs with
    | nil => exact fun m _ _ => ⟨0, List.nil_prefix⟩
    | cons e xs ih =>
      rintro m hm ⟨more, fifo⟩
      obtain ⟨k, consumes⟩ := consumes_eventually fair depth going pops hm (m := m) (by simp [← fifo])
      obtain ⟨first, taken, left⟩ := consumed_first fair.steps going hm fifo.symm consumes
      obtain ⟨len, others⟩ := ih (m + first) (by omega) ((List.prefix_append xs more).trans left)
      refine ⟨first + len, ?_⟩
      rw [consumed_add, taken]
      exact List.prefix_cons_inj e |>.2 others
  exact entries _ n le_rfl List.prefix_rfl

end Sys2Proof.Machine
end

section
/-! Progress of a transmit transfer (70_reset_and_hazards.md R540): what the other agents leave of the engine, what TXE's
step does to the frames owed and to the work left, and the end of the transfer. -/

namespace Sys2Proof.Machine

/-! What the other agents leave (41_commands.md R224, R225; 42_fifo.md R264). -/

/-- From s to t the transmit engine waits: its state is left alone, entries may leave the FIFO, the stream may be closed,
and while it is open a chunk may be committed. -/
structure EngineWaits (s t : State) : Prop where
  params : t.params = s.params
  core : t.core = s.core
  tx : t.tx = s.tx
  fifo : t.fifo.length ≤ s.fifo.length
  eos : s.eos = true → t.eos = true
  pendLen : t.pendLen = s.pendLen ∨ (s.pendLen = 0 ∧ t.pendLen ≠ 0 ∧ s.eos = false)

namespace EngineWaits

theorem of_eq {s t : State} (params : t.params = s.params) (core : t.core = s.core) (tx : t.tx = s.tx)
    (fifo : t.fifo = s.fifo) (eos : t.eos = s.eos) (pendLen : t.pendLen = s.pendLen) : EngineWaits s t :=
  ⟨params, core, tx, by rw [fifo], fun h => eos.trans h, .inl pendLen⟩

theorem refl (s : State) : EngineWaits s s := .of_eq rfl rfl rfl rfl rfl rfl

theorem respond {s t : State} (h : EngineWaits s t) (v : Word) (e : Bool) : EngineWaits s (respond v e t) :=
  ⟨h.params, h.core, h.tx, h.fifo, h.eos, h.pendLen⟩

theorem raiseError (code : ErrCode) (s : State) : EngineWaits s (raiseError code s) := .of_eq rfl rfl rfl rfl rfl rfl

theorem ite {c : Prop} [Decidable c] {s t u : State} (h : c → EngineWaits s t) (k : ¬ c → EngineWaits s u) :
    EngineWaits s (if c then t else u) := by
  split_ifs with holds
  · exact h holds
  · exact k holds

/-! The commands. -/

section Commands

variable {s : State} (running : s.core = .txRun)

include running

theorem startIn (dir : Dir) (begin : State → State) : EngineWaits s (startIn dir begin s) := by
  rw [startIn_running (by simp [running])]
  exact raiseError _ s

omit running in
theorem stopTransfer : EngineWaits s (stopTransfer s) := by
  rw [stopTransfer_eq]
  exact .ite (fun _ => .refl s) fun _ => .of_eq rfl rfl rfl rfl rfl rfl

/-- A commit into a closed stream is refused. -/
theorem txCommit (len : BitVec 16) : EngineWaits s (txCommit len s) :=
  .ite (fun _ => raiseError _ s) fun direction =>
  .ite (fun _ => raiseError _ s) fun length =>
  .ite (fun _ => raiseError _ s) fun free =>
    have open_ : s.eos = false := by simpa [running] using direction
    have positive : len.toNat ≠ 0 := fun zero => length (.inl zero)
    ⟨rfl, rfl, rfl, le_rfl, id, .inr ⟨not_not.1 free, positive, open_⟩⟩

theorem txEos : EngineWaits s (txEos s) := by
  rw [txEos_eq, if_pos running]
  exact ⟨rfl, rfl, rfl, le_rfl, fun _ => rfl, .inl rfl⟩

omit running in
theorem rxqPop : EngineWaits s (rxqPop s) := .ite (fun _ => raiseError _ s) fun _ => .of_eq rfl rfl rfl rfl rfl rfl

omit running in
theorem withArg0 {run : State → State} {arg : BitVec 24} (h : arg = 0#24 → EngineWaits s (run s)) :
    EngineWaits s (withArg0 arg run s) :=
  .ite (fun _ => raiseError _ s) fun zero => h (not_not.1 zero)

/-- Every command but SOFT_RESET leaves the engine alone. -/
theorem runCommand {opc : BitVec 8} {arg : BitVec 24} (notReset : ¬ (opc = 0x09#8 ∧ arg = 0#24)) :
    EngineWaits s (runCommand opc arg s) :=
  .ite (fun _ => withArg0 fun _ => .refl s) fun _ =>
  .ite (fun _ => withArg0 fun _ => startTx_eq s ▸ startIn running _ _) fun _ =>
  .ite (fun _ => withArg0 fun _ => startRx_eq s ▸ startIn running _ _) fun _ =>
  .ite (fun _ => withArg0 fun _ => stopTransfer) fun _ =>
  .ite (fun _ => .ite (fun _ => raiseError _ s) fun _ => txCommit running _) fun _ =>
  .ite (fun _ => withArg0 fun _ => txEos running) fun _ =>
  .ite (fun _ => withArg0 fun _ => rxqPop) fun _ =>
  .ite (fun _ => withArg0 fun _ => .of_eq rfl rfl rfl rfl rfl rfl) fun _ =>
  .ite (fun _ => withArg0 fun _ => .of_eq rfl rfl rfl rfl rfl rfl) fun _ =>
  .ite (fun reset => withArg0 fun zero => absurd ⟨reset, zero⟩ notReset) fun _ =>
  raiseError _ s

/-! The operations. -/

theorem busWrite {size : AccessSize} {addr : BitVec 14} {v : Word}
    (notReset : size = .word → addr = 0x010#14 → v ≠ 0x09#32) : EngineWaits s (busWrite size addr v s) := by
  rcases busWrite_cases size addr v s with ⟨code, h⟩ | ⟨word, cmd, h⟩ | ⟨t, stored, h⟩ <;> rw [h]
  · exact (raiseError code s).respond _ _
  · exact (runCommand running fun ⟨opc, arg⟩ => notReset word cmd (commandWord_eq opc arg)).respond _ _
  · refine EngineWaits.respond ?_ _ _
    cases stored with
    | irqStatus | irqEnable | cfg | txbuf => exact .of_eq rfl rfl rfl rfl rfl rfl

theorem exec_notBus {i : Instr} {t : State} (notRead : busReadOf i = none) (notWrite : busWriteOf i = none)
    (other : i ≠ .txStep) (h : exec i s = .next t) : EngineWaits s t := by
  cases i
  case radioPop n =>
    simp only [exec, execRadioPop] at h
    split at h <;> cases h
    obtain ⟨fifo, stats, irqStatus, burstEnd, more, out, h, ⟨k, rfl⟩, -⟩ := popBlock_frame n s
    rw [h]
    exact ⟨rfl, rfl, rfl, by simp, id, .inl rfl⟩
  case radioPush ws =>
    simp only [exec, execRadioPush] at h
    split at h <;> cases h
    rw [pushBlock_notReceive ws (by simp [running])]
    exact .of_eq rfl rfl rfl rfl rfl rfl
  case radioFault =>
    cases h
    rw [radioFault_running (by simp [running])]
    exact .of_eq rfl rfl rfl rfl rfl rfl
  case pinStopAll level =>
    cases h
    exact .of_eq rfl rfl rfl rfl rfl rfl
  case txStep => exact absurd rfl other
  case rxStep =>
    have held : rxEnabled s = false := by simp [rxEnabled, running]
    cases (exec_rxStep_of_held held).symm.trans h
    exact .refl s
  case memRead | memReadCsr | memReadTxbuf | memReadRxbuf => cases notRead
  all_goals cases notWrite

/-- Every operation but TX_STEP and SOFT_RESET. -/
theorem exec {i : Instr} {t : State} (other : i ≠ .txStep)
    (notReset : busWriteOf i ≠ some (.word, 0x010#14, 0x09#32)) (h : exec i s = .next t) : EngineWaits s t := by
  rcases exec_next_cases h with ⟨size, addr, -, rfl⟩ | ⟨size, addr, v, write, rfl⟩ | ⟨notRead, notWrite⟩
  · rcases busRead_cases size addr s with ⟨code, h⟩ | ⟨v, h⟩ <;> rw [h]
    · exact (raiseError code s).respond _ _
    · exact (refl s).respond _ _
  · refine busWrite running ?_
    rintro rfl rfl rfl
    exact notReset write
  · exact exec_notBus running notRead notWrite other h

end Commands

/-- An engine that is enabled stays enabled while it waits, if no stop is seen. -/
theorem txEnabled {s t : State} (h : EngineWaits s t) (go : stopSeen s = false) (enabled : txEnabled s = true) :
    txEnabled t = true := by
  obtain ⟨running, space⟩ := (txEnabled_iff s).1 enabled
  obtain ⟨noStop, noStopAll⟩ := (stopSeen_eq_false_iff s).1 go
  refine (txEnabled_iff t).2 ⟨h.core.trans running, fun ⟨phase, full, _⟩ => space ⟨h.tx ▸ phase, ?_, noStop, noStopAll⟩⟩
  have level := h.fifo
  unfold fifoSpace at full ⊢
  rw [h.params] at full
  omega

end EngineWaits

/-! What a TX step does (45_generator.md R381, R383, R388). -/

/-- In FINAL the stream is closed and no chunk is pending. -/
def FinalOk (s : State) : Prop := s.tx.gen = .final → s.eos = true ∧ s.pendLen = 0

/-- The invariants of a transmit transfer. -/
structure TransmitOk (s : State) : Prop where
  fifo : FifoOk s
  dir : DirOk s
  engine : EngineOk s
  final : FinalOk s

/-- A step of TXE that is taken and goes on. -/
inductive Works (s : State) : State → Prop
  | part (phase : s.tx.phase = .drain) (long : fifoSpace s < s.tx.outbuf.length) : Works s (drain s)
  | whole (phase : s.tx.phase = .drain) (fits : s.tx.outbuf.length ≤ fifoSpace s) : Works s (drain s)
  | frame (syms : List Bool) (phase : s.tx.phase = .produce) (gen : s.tx.gen = .frame syms) :
      Works s (frameBlock syms s)
  | chunk (phase : s.tx.phase = .produce) (gen : s.tx.gen = .wait) (pending : s.pendLen ≠ 0) :
      Works s (frameBlock (pendingSyms s) (startFrame s))
  | silence (phase : s.tx.phase = .produce) (gen : s.tx.gen = .wait) (free : s.pendLen = 0) (open_ : s.eos = false) :
      Works s (silenceBlock s)
  | flush (phase : s.tx.phase = .produce) (gen : s.tx.gen = .wait) (free : s.pendLen = 0) (closed : s.eos = true) :
      Works s (finalFlush s)

theorem produce_works {s t : State} (phase : s.tx.phase = .produce) (h : produce s = .next t) : Works s t := by
  cases gen : s.tx.gen with
  | frame syms => exact next_unique (produce_frame gen) h ▸ .frame syms phase gen
  | wait =>
    by_cases free : s.pendLen = 0
    · have block := next_unique (produce_idle gen free) h
      split at block
      · exact block ▸ .flush phase gen free (by assumption)
      · exact block ▸ .silence phase gen free (Bool.eq_false_iff.2 (by assumption))
    · exact next_unique (produce_chunk gen free) h ▸ .chunk phase gen free
  | final => simp only [produce, gen, reduceCtorEq] at h

theorem exec_txStep_works {s t : State} (enabled : txEnabled s = true) (go : stopSeen s = false)
    (h : exec .txStep s = .next t) : Works s t := by
  obtain ⟨running, -⟩ := (txEnabled_iff s).1 enabled
  cases phase : s.tx.phase with
  | drain =>
    have drained := next_unique (exec_txStep_drain enabled go phase) h
    rcases Nat.lt_or_ge (fifoSpace s) s.tx.outbuf.length with long | fits
    · exact drained ▸ .part phase long
    · exact drained ▸ .whole phase fits
  | produce => exact produce_works phase (exec_txStep_produce running go phase ▸ h)

/-! The frames owed. -/

/-- The frame of a pending length, of a state of the generator, and of an engine (45_generator.md R383, R388). -/
def chunkOwed (pendLen : Nat) : Nat := if pendLen ≠ 0 then 1 else 0

def genOwed : Gen → Nat
  | .frame _ => 1
  | .wait | .final => 0

def engineOwed (e : TxEngine) : Nat :=
  genOwed e.gen + if e.phase = .drain ∧ e.outFrameEnd = true then 1 else 0

theorem framesOwed_eq (s : State) : framesOwed s = chunkOwed s.pendLen + engineOwed s.tx := by
  have parts : framesOwed s = chunkOwed s.pendLen + genOwed s.tx.gen +
      if s.tx.phase = .drain ∧ s.tx.outFrameEnd = true then 1 else 0 := by
    unfold framesOwed
    cases s.tx.gen <;> rfl
  rw [parts, engineOwed, Nat.add_assoc]

theorem genOwed_genAfter (rest : List Bool) : genOwed (genAfter rest) = if rest = [] then 0 else 1 := by
  unfold genAfter
  split <;> rfl

theorem engineOwed_producing {e : TxEngine} (phase : e.phase = .produce) : engineOwed e = genOwed e.gen := by
  simp [engineOwed, phase]

/-- A chunk is committed between s and t. -/
def committed (s t : State) : Nat := if s.pendLen = 0 ∧ t.pendLen ≠ 0 then 1 else 0

theorem committed_of_free {s t : State} (free : t.pendLen = 0) : committed s t = 0 := if_neg fun h => h.2 free

theorem committed_of_eq {s t : State} (same : t.pendLen = s.pendLen) : committed s t = 0 :=
  if_neg fun h => h.2 (same.trans h.1)

/-- From s to t each frame is owed still or counted. -/
def FramesKept (s t : State) : Prop :=
  t.tx.frameCnt + BitVec.ofNat 32 (framesOwed t) = s.tx.frameCnt + BitVec.ofNat 32 (framesOwed s + committed s t)

theorem FramesKept.of_owed {s t : State} (frameCnt : t.tx.frameCnt = s.tx.frameCnt)
    (owed : framesOwed t = framesOwed s + committed s t) : FramesKept s t := by
  rw [FramesKept, frameCnt, owed]

theorem FramesKept.of_engineOwed {s t : State} (frameCnt : t.tx.frameCnt = s.tx.frameCnt)
    (pendLen : t.pendLen = s.pendLen) (owed : engineOwed t.tx = engineOwed s.tx) : FramesKept s t :=
  .of_owed frameCnt (by rw [committed_of_eq pendLen, framesOwed_eq, framesOwed_eq, pendLen, owed]; rfl)

theorem EngineWaits.framesKept {s t : State} (h : EngineWaits s t) : FramesKept s t := by
  refine .of_owed (by rw [h.tx]) ?_
  rw [framesOwed_eq, framesOwed_eq, h.tx]
  rcases h.pendLen with same | ⟨free, pending, -⟩
  · rw [committed_of_eq same, same]
    rfl
  · simp only [committed, chunkOwed, free, pending, ne_eq, not_true_eq_false, not_false_eq_true, and_self, if_true,
      if_false]
    omega

/-- A block of a frame's symbols owes what the symbols owed: the end of the frame is owed while its last block drains. -/
theorem engineOwed_frameBlock (syms : List Bool) (s : State) : engineOwed (frameBlock syms s).tx = 1 := by
  rw [frameBlock_eq]
  simp only [engineOwed, genOwed_genAfter]
  by_cases ends : syms.drop s.params.blockSyms = [] <;> simp [ends]

theorem frameBlock_kept (syms : List Bool) (s : State) : (frameBlock syms s).tx.frameCnt = s.tx.frameCnt ∧
    (frameBlock syms s).pendLen = s.pendLen ∧ (frameBlock syms s).core = s.core ∧
    (frameBlock syms s).eos = s.eos := by
  rw [frameBlock_eq]
  exact ⟨rfl, rfl, rfl, rfl⟩

/-- A completion counts the frame whose last block was draining. -/
theorem complete_framesKept {s : State} (phase : s.tx.phase = .drain) : FramesKept s (complete s) := by
  have same : committed s (complete s) = 0 := committed_of_eq (by rw [complete_eq])
  have before : framesOwed s = chunkOwed s.pendLen + genOwed s.tx.gen + if s.tx.outFrameEnd then 1 else 0 := by
    rw [framesOwed_eq, engineOwed, Nat.add_assoc]
    simp only [phase, true_and]
  have after : framesOwed (complete s) = chunkOwed s.pendLen + genOwed s.tx.gen := by
    rw [framesOwed_eq, complete_eq, engineOwed_producing rfl]
  have counts : (complete s).tx.frameCnt = if s.tx.outFrameEnd then s.tx.frameCnt + 1#32 else s.tx.frameCnt := by
    rw [complete_eq]
  rw [FramesKept, same, before, after, counts, Nat.add_zero]
  cases s.tx.outFrameEnd with
  | false => rfl
  | true =>
    simp only [if_true, BitVec.ofNat_add, BitVec.add_assoc]
    rw [BitVec.add_comm 1#32]
    rw [BitVec.add_assoc]

theorem Works.framesKept {s t : State} (h : Works s t) : FramesKept s t := by
  cases h with
  | part phase long =>
    rw [drain_partial long]
    exact .of_engineOwed rfl rfl rfl
  | whole phase fits =>
    rw [drain_whole fits]
    exact complete_framesKept (s := { s with fifo := s.fifo ++ s.tx.outbuf, tx := { s.tx with outbuf := [] } }) phase
  | frame syms phase gen =>
    obtain ⟨frameCnt, pendLen, -⟩ := frameBlock_kept syms s
    refine .of_engineOwed frameCnt pendLen ?_
    rw [engineOwed_frameBlock, engineOwed_producing phase, gen]
    rfl
  | chunk phase gen pending =>
    obtain ⟨frameCnt, pendLen, -⟩ := frameBlock_kept (pendingSyms s) (startFrame s)
    have taken : chunkOwed s.pendLen = 1 := if_pos pending
    refine .of_owed frameCnt ?_
    rw [committed_of_free pendLen, framesOwed_eq, framesOwed_eq, engineOwed_frameBlock, pendLen,
      engineOwed_producing phase, gen, taken]
    rfl
  | silence phase gen =>
    rw [silenceBlock, produceBlock_eq]
    exact .of_engineOwed rfl rfl (engineOwed_producing phase).symm
  | flush phase gen =>
    have nothing : engineOwed s.tx = 0 := by
      rw [engineOwed_producing phase, gen]
      rfl
    rw [finalFlush, produceBlock_eq]
    exact .of_engineOwed rfl rfl nothing.symm

/-! FINAL and the end of the transfer. -/

theorem EngineWaits.finalOk {s t : State} (h : EngineWaits s t) (ok : FinalOk s) : FinalOk t := by
  intro gen
  obtain ⟨closed, free⟩ := ok (h.tx ▸ gen)
  rcases h.pendLen with same | ⟨-, -, open_⟩
  · exact ⟨h.eos closed, same.trans free⟩
  · simp [closed] at open_

theorem drain_kept (s : State) :
    (drain s).tx.gen = s.tx.gen ∧ (drain s).eos = s.eos ∧ (drain s).pendLen = s.pendLen := by
  rcases drain_cases s with ⟨h, -⟩ | ⟨-, frameCnt, irqStatus, core, stopReason, h, -⟩ <;> rw [h] <;>
    exact ⟨rfl, rfl, rfl⟩

theorem drain_finalOk {s : State} (ok : FinalOk s) : FinalOk (drain s) := by
  obtain ⟨gen, eos, pendLen⟩ := drain_kept s
  unfold FinalOk
  rw [gen, eos, pendLen]
  exact ok

theorem frameBlock_finalOk (syms : List Bool) (s : State) : FinalOk (frameBlock syms s) := by
  rw [frameBlock_eq]
  exact fun final => absurd final (genAfter_ne_final _)

theorem Works.finalOk {s t : State} (h : Works s t) (ok : FinalOk s) : FinalOk t := by
  cases h with
  | part | whole => exact drain_finalOk ok
  | frame | chunk => exact frameBlock_finalOk _ _
  | silence phase gen =>
    rw [silenceBlock, produceBlock_eq]
    exact fun final => (by cases gen.symm.trans final)
  | flush phase gen free closed =>
    rw [finalFlush, produceBlock_eq]
    exact fun _ => ⟨closed, free⟩

theorem Works.eos_kept {s t : State} (h : Works s t) : t.eos = s.eos := by
  cases h with
  | part | whole =>
    obtain ⟨-, eos, -⟩ := drain_kept s
    exact eos
  | frame syms =>
    obtain ⟨-, -, -, eos⟩ := frameBlock_kept syms s
    exact eos
  | chunk =>
    obtain ⟨-, -, -, eos⟩ := frameBlock_kept (pendingSyms s) (startFrame s)
    exact eos
  | silence => rw [silenceBlock, produceBlock_eq]
  | flush => rw [finalFlush, produceBlock_eq]

/-- The transfer is COMPLETE and owes nothing. -/
structure Completed (t : State) : Prop where
  core : t.core = .idle
  reason : t.stopReason = .complete
  owed : framesOwed t = 0

/-- The drain that hands over the final flush completes the transfer; any other block lets it go on. -/
theorem drain_whole_goesOn_or_completed {s : State} (ok : TransmitOk s) (running : s.core = .txRun)
    (phase : s.tx.phase = .drain) (fits : s.tx.outbuf.length ≤ fifoSpace s) :
    (drain s).core = .txRun ∨ Completed (drain s) := by
  rw [drain_whole fits, complete_eq]
  cases final : s.tx.outFinal with
  | false => exact .inl running
  | true =>
    have gen : s.tx.gen = .final := ((ok.engine.gen running).2 phase).2 final
    obtain ⟨-, free⟩ := ok.final gen
    refine .inr ⟨rfl, rfl, ?_⟩
    rw [framesOwed_eq, engineOwed_producing rfl]
    simp only [gen, free]
    rfl

theorem Works.goesOn_or_completed {s t : State} (h : Works s t) (ok : TransmitOk s) (running : s.core = .txRun) :
    t.core = .txRun ∨ Completed t := by
  cases h with
  | part phase long =>
    rw [drain_partial long]
    exact .inl running
  | whole phase fits => exact drain_whole_goesOn_or_completed ok running phase fits
  | frame syms =>
    obtain ⟨-, -, core, -⟩ := frameBlock_kept syms s
    exact .inl (core.trans running)
  | chunk =>
    obtain ⟨-, -, core, -⟩ := frameBlock_kept (pendingSyms s) (startFrame s)
    exact .inl (core.trans running)
  | silence =>
    rw [silenceBlock, produceBlock_eq]
    exact .inl running
  | flush =>
    rw [finalFlush, produceBlock_eq]
    exact .inl running

/-! The work left once the stream is closed. -/

/-- The symbols the generator holds, and the block that drains. -/
def symbolsLeft : Gen → Nat
  | .frame syms => syms.length + 1
  | .wait | .final => 0

def drainLeft (e : TxEngine) : Nat := if e.phase = .drain then e.outbuf.length + 1 else 0

/-- What a closed stream still has to do, the later parts before the earlier: the pending chunk, the final flush, the
frame in the generator, the block that drains. -/
def workLeft (s : State) : ℕ ×ₗ ℕ ×ₗ ℕ ×ₗ ℕ :=
  toLex (chunkOwed s.pendLen, toLex (if s.tx.gen = .final then 0 else 1, toLex (symbolsLeft s.tx.gen, drainLeft s.tx)))

theorem EngineWaits.workLeft {s t : State} (h : EngineWaits s t) (closed : s.eos = true) : workLeft t = workLeft s := by
  rcases h.pendLen with same | ⟨-, -, open_⟩
  · rw [Machine.workLeft, h.tx, same]
    rfl
  · simp [closed] at open_

theorem symbolsLeft_genAfter {syms : List Bool} {n : Nat} (positive : 1 ≤ n) :
    symbolsLeft (genAfter (syms.drop n)) < symbolsLeft (.frame syms) := by
  unfold genAfter
  split
  · exact Nat.succ_pos _
  · rename_i more
    have longer : n < syms.length := by simpa using more
    simp only [symbolsLeft, List.length_drop]
    omega

/-- A step of TXE that is taken and goes on leaves less to do. -/
theorem Works.workLeft_lt {s t : State} (h : Works s t) (enabled : txEnabled s = true) (go : stopSeen s = false)
    (closed : s.eos = true) (block : 1 ≤ s.params.blockSyms) : workLeft t < workLeft s := by
  cases h with
  | part phase long =>
    have space : 0 < fifoSpace s := by
      obtain ⟨-, free⟩ := (txEnabled_iff s).1 enabled
      obtain ⟨noStop, noStopAll⟩ := (stopSeen_eq_false_iff s).1 go
      exact Nat.pos_of_ne_zero fun full => free ⟨phase, full, noStop, noStopAll⟩
    have less : drainLeft (drain s).tx < drainLeft s.tx := by
      rw [drain_partial long]
      simp only [drainLeft, phase, if_true, List.length_drop]
      omega
    obtain ⟨gen, -, pendLen⟩ := drain_kept s
    simp only [workLeft, gen, pendLen, Prod.Lex.toLex_lt_toLex, less, true_and, or_true]
  | whole phase fits =>
    have less : drainLeft (drain s).tx < drainLeft s.tx := by
      rw [drain_whole fits, complete_eq]
      simp [drainLeft, phase]
    obtain ⟨gen, -, pendLen⟩ := drain_kept s
    simp only [workLeft, gen, pendLen, Prod.Lex.toLex_lt_toLex, less, true_and, or_true]
  | frame syms phase gen =>
    have notFinal : genAfter (syms.drop s.params.blockSyms) ≠ .final := genAfter_ne_final _
    have less := symbolsLeft_genAfter (syms := syms) block
    rw [frameBlock_eq]
    simp only [workLeft, gen, notFinal, if_false, reduceCtorEq, Prod.Lex.toLex_lt_toLex, less, true_and, true_or, or_true]
  | chunk phase gen pending =>
    have taken : chunkOwed 0 < chunkOwed s.pendLen := by simp [chunkOwed, pending]
    rw [frameBlock_eq]
    simp only [workLeft, startFrame_pendLen, Prod.Lex.toLex_lt_toLex, taken, true_or]
  | silence phase gen free open_ => simp [closed] at open_
  | flush phase gen =>
    rw [finalFlush, produceBlock_eq]
    simp only [workLeft, gen, if_true, reduceCtorEq, if_false, Prod.Lex.toLex_lt_toLex, Nat.zero_lt_one, true_and, true_or,
      or_true]

end Sys2Proof.Machine
end

section
/-! The transmit transfer of a fair run (70_reset_and_hazards.md R540). TXE's step is taken while it is enabled again and
again: a held step is freed by a pop. Each such step leaves less to do once the stream is closed, so the transfer ends. -/

namespace Sys2Proof.Machine

/-! A step of the transfer. -/

/-- The premises of TX progress that speak of the run: it is fair, nothing resets the block, no stop is seen in the
transfer, and RADIO pops again and again. -/
structure TransmitRun (sched : Schedule) (run : Nat → State) : Prop where
  fair : FairRun sched run
  notReset : NeverReset sched
  go : ∀ n, (run n).core = .txRun → stopSeen (run n) = false
  pops : ∀ n, ∃ m, n ≤ m ∧ ∃ k, decode (sched m) = .ok (.radioPop k)

/-- TXE's step is taken and enabled at time n. -/
def TxeWorks (sched : Schedule) (run : Nat → State) (n : Nat) : Prop := Takes .txe sched n ∧ txEnabled (run n) = true

section Transfer

variable {sched : Schedule} {run : Nat → State} (h : TransmitRun sched run) {n : Nat}
  (running : (run n).core = .txRun)

include h running

theorem TransmitRun.works (works : TxeWorks sched run n) : Works (run n).unscheduled (run (n + 1)) :=
  exec_txStep_works (s := (run n).unscheduled) works.2 (h.go n running) (h.fair.steps.takes_txe works.1)

theorem TransmitRun.waits (waits : ¬ TxeWorks sched run n) : EngineWaits (run n).unscheduled (run (n + 1)) := by
  obtain ⟨i, decoded, hx⟩ := h.fair.steps.exec n
  by_cases step : i = .txStep
  · subst step
    have held : txEnabled (run n).unscheduled = false :=
      Bool.eq_false_iff.2 fun enabled => waits ⟨⟨_, decoded, rfl⟩, enabled⟩
    rw [next_unique (exec_txStep_of_held held) hx]
    exact .refl _
  · exact EngineWaits.exec (s := (run n).unscheduled) running step (h.notReset n i decoded) hx

theorem TransmitRun.framesKept : FramesKept (run n).unscheduled (run (n + 1)) := by
  by_cases works : TxeWorks sched run n
  · exact (h.works running works).framesKept
  · exact (h.waits running works).framesKept

theorem TransmitRun.transmitOk (ok : TransmitOk (run n)) : TransmitOk (run (n + 1)) := by
  have effect := h.fair.steps.effect n
  have storage := effect.keepsStorage
  have final : FinalOk (run (n + 1)) := by
    by_cases works : TxeWorks sched run n
    · exact (h.works running works).finalOk ok.final
    · exact (h.waits running works).finalOk ok.final
  have engine : EngineOk (run n).unscheduled := ⟨ok.engine.stop, ok.engine.gen⟩
  exact ⟨storage.fifo ok.fifo, storage.dir ok.dir, effect.engineOk engine, final⟩

theorem TransmitRun.goesOn_or_completed (ok : TransmitOk (run n)) :
    (run (n + 1)).core = .txRun ∨ Completed (run (n + 1)) := by
  by_cases works : TxeWorks sched run n
  · exact (h.works running works).goesOn_or_completed ⟨ok.fifo, ok.dir, ⟨ok.engine.stop, ok.engine.gen⟩, ok.final⟩ running
  · exact .inl ((h.waits running works).core.trans running)

/-- A pop frees a held engine. -/
theorem TransmitRun.pop_enables (ok : TransmitOk (run n)) (capacity : 1 ≤ (run n).params.fifoCap) {k : Nat}
    (pop : decode (sched n) = .ok (.radioPop k)) : txEnabled (run (n + 1)) = true := by
  obtain ⟨i, decoded, hx⟩ := h.fair.steps.exec n
  cases pop.symm.trans decoded
  have positive : 1 ≤ k := by
    by_contra zero
    obtain rfl : k = 0 := by omega
    cases hx
  rw [next_unique (exec_radioPop positive _) hx]
  exact txEnabled_of_space ((popBlock_core k _).trans running)
    (popBlock_fifoSpace (s := (run n).unscheduled) positive (fifoIsReceive_of_txRun ok.dir running) ok.fifo capacity)

end Transfer

/-! The whole transfer. -/

section Whole

variable {sched : Schedule} {run : Nat → State} (h : TransmitRun sched run) (ok : TransmitOk (run 0))

include h ok

theorem TransmitRun.transmitOk_all {n : Nat} (running : ∀ l, l < n → (run l).core = .txRun) : TransmitOk (run n) := by
  induction n with
  | zero => exact ok
  | succ n ih => exact h.transmitOk (running n (Nat.lt_succ_self n)) (ih fun l hl => running l (by omega))

omit ok in
/-- Each frame owed at the start or committed since is owed still or counted. -/
theorem TransmitRun.frames_all {n : Nat} (running : ∀ l, l < n → (run l).core = .txRun) :
    (run n).tx.frameCnt + BitVec.ofNat 32 (framesOwed (run n)) =
      (run 0).tx.frameCnt + BitVec.ofNat 32 (framesOwed (run 0) + commits run n) := by
  induction n with
  | zero => rfl
  | succ n ih =>
    have kept : FramesKept (run n) (run (n + 1)) := h.framesKept (running n (Nat.lt_succ_self n))
    have before := ih fun l hl => running l (by omega)
    calc (run (n + 1)).tx.frameCnt + BitVec.ofNat 32 (framesOwed (run (n + 1)))
      _ = (run n).tx.frameCnt + BitVec.ofNat 32 (framesOwed (run n) + committed (run n) (run (n + 1))) := kept
      _ = (run 0).tx.frameCnt + BitVec.ofNat 32 (framesOwed (run 0) + commits run n) +
          BitVec.ofNat 32 (committed (run n) (run (n + 1))) := by rw [BitVec.ofNat_add, ← BitVec.add_assoc, before]
      _ = (run 0).tx.frameCnt + BitVec.ofNat 32 (framesOwed (run 0) + commits run (n + 1)) := by
        rw [BitVec.add_assoc, ← BitVec.ofNat_add, commits_succ, Nat.add_assoc]
        rfl

/-- While the transfer goes on, TXE works again and again: a held step is freed by the next pop, and an enabled one
stays enabled until fairness takes it. -/
theorem TransmitRun.works_again (capacity : 1 ≤ (run 0).params.fifoCap) (running : ∀ n, (run n).core = .txRun)
    (n : Nat) : ∃ m, n ≤ m ∧ TxeWorks sched run m := by
  by_contra none
  have never : ∀ m, n ≤ m → ¬ TxeWorks sched run m := fun m hm works => none ⟨m, hm, works⟩
  have freed : ∃ m, n ≤ m ∧ txEnabled (run m) = true := by
    obtain ⟨m, hm, k, pop⟩ := h.pops n
    have params : (run m).params = (run 0).params := by
      have kept := h.fair.steps.params 0 m
      rwa [Nat.zero_add] at kept
    have okNow := h.transmitOk_all ok (n := m) fun l _ => running l
    exact ⟨m + 1, by omega, h.pop_enables (running m) okNow (params ▸ capacity) pop⟩
  obtain ⟨m, hm, enabled⟩ := freed
  have stays : ∀ l, m ≤ l → txEnabled (run l) = true := fun l hl => by
    induction l, hl using Nat.le_induction with
    | base => exact enabled
    | succ l hl ih => exact (h.waits (running l) (never l (by omega))).txEnabled (h.go l (running l)) ih
  obtain ⟨l, hl, takes⟩ := h.fair.tx m stays
  exact never l (by omega) ⟨takes, stays l hl⟩

omit ok in
theorem TransmitRun.closed_stays (running : ∀ n, (run n).core = .txRun) {n : Nat} (closed : (run n).eos = true)
    {m : Nat} (hm : n ≤ m) : (run m).eos = true := by
  induction m, hm using Nat.le_induction with
  | base => exact closed
  | succ m _ ih =>
    by_cases works : TxeWorks sched run m
    · exact (h.works (running m) works).eos_kept.trans ih
    · exact (h.waits (running m) works).eos ih

omit ok in
/-- In a closed stream no step adds work, and one that TXE takes leaves less. -/
theorem TransmitRun.workLeft_le (running : ∀ n, (run n).core = .txRun) (block : ∀ n, 1 ≤ (run n).params.blockSyms)
    {n : Nat} (closed : (run n).eos = true) {m : Nat} (hm : n ≤ m) : workLeft (run m) ≤ workLeft (run n) := by
  induction m, hm using Nat.le_induction with
  | base => exact le_rfl
  | succ m hm ih =>
    have closedNow := h.closed_stays running closed hm
    by_cases works : TxeWorks sched run m
    · exact ((h.works (running m) works).workLeft_lt works.2 (h.go m (running m)) closedNow (block m)).le.trans ih
    · exact ((h.waits (running m) works).workLeft closedNow).le.trans ih

/-- A transfer whose stream is closed ends: at a time with the least work left TXE works once more. -/
theorem TransmitRun.ends (legal : (run 0).params.legal = true) (closes : ∃ n, (run n).eos = true) :
    ∃ n, (run n).core ≠ .txRun := by
  by_contra never
  have running : ∀ n, (run n).core = .txRun := fun n => not_not.1 fun other => never ⟨n, other⟩
  simp only [Params.legal, Bool.and_eq_true, decide_eq_true_eq] at legal
  have capacity : 1 ≤ (run 0).params.fifoCap := by omega
  have block : ∀ n, 1 ≤ (run n).params.blockSyms := fun n => by
    have params := h.fair.steps.params 0 n
    rw [Nat.zero_add] at params
    rw [params]
    omega
  obtain ⟨n, closed⟩ := closes
  obtain ⟨_, ⟨k, rfl⟩, least⟩ :=
    wellFounded_lt.has_min (Set.range fun k => workLeft (run (n + k))) (Set.range_nonempty _)
  obtain ⟨l, hl, works⟩ := h.works_again ok capacity running (n + k)
  have closedAt : ∀ m, n ≤ m → (run m).eos = true := fun m hm => h.closed_stays running closed hm
  have less := (h.works (running l) works).workLeft_lt works.2 (h.go l (running l)) (closedAt l (by omega)) (block l)
  refine least _ ⟨l + 1 - n, rfl⟩ ?_
  dsimp only
  rw [Nat.add_sub_of_le (by omega)]
  exact less.trans_le (h.workLeft_le running block (closedAt (n + k) (by omega)) hl)

end Whole

/-- The first time the transfer does not run is the one asked for. -/
theorem txProgress : TxProgress := by
  unfold TxProgress
  intro sched run fair legal running fifo dir gen final notReset go pops closes
  have h : TransmitRun sched run := ⟨fair, notReset, go, pops⟩
  have ok : TransmitOk (run 0) := ⟨fifo, dir, ⟨fun idle => by simp [running] at idle, gen⟩, final⟩
  have ends := h.ends ok legal closes
  obtain ⟨m, ended, before⟩ : ∃ m, (run m).core ≠ .txRun ∧ ∀ l, l < m → (run l).core = .txRun :=
    ⟨Nat.find ends, Nat.find_spec ends, fun l hl => not_not.1 (Nat.find_min ends hl)⟩
  obtain _ | n := m
  · exact absurd running ended
  have okNow := h.transmitOk_all ok (n := n) fun l hl => before l (by omega)
  have completed := (h.goesOn_or_completed (before n (Nat.lt_succ_self n)) okNow).resolve_left ended
  have frames := h.frames_all before
  rw [completed.owed, BitVec.add_zero] at frames
  exact ⟨n + 1, before, completed.core, completed.reason, frames⟩

/-- Settles O5: the empty schedule, and the three liveness claims. -/
theorem emptyScheduleRunsTheEnabledEngine : Obligations.EmptyScheduleRunsTheEnabledEngine := by
  unfold Obligations.EmptyScheduleRunsTheEnabledEngine
  exact ⟨fun s nothing => emptySchedule_runs nothing, stopLatency, txProgress, rxProgress⟩

end Sys2Proof.Machine
end
